-- ==== Sys2Proof/Word.lean ====
section
/-! DEFINITION. The bit-vector widths of the Chroad (R7, R8, R13, R14): a word, a byte, an address, a lane mask. -/
namespace Sys2Proof

/-- A 32-bit register word (R7). -/
abbrev Word := BitVec 32

/-- A 64-bit address or register pair (R13, R17). -/
abbrev Addr := BitVec 64

/-- One byte of memory (R8). -/
abbrev Byte := BitVec 8

/-- A set of lanes: lane `l` is bit `l`. A team has at most 1,024 lanes (R80, R81). -/
abbrev Mask := BitVec 1024

/-- A sparse table of plain data keyed by numbers, in the canonical form that `Machine/Map.lean` defines: keys strictly
rising, no entry equal to the table's default. -/
abbrev SMap (α : Type) := List (Nat × α)

end Sys2Proof
end

