-- ==== Sys2Proof/Config.lean ====
section
/-! DEFINITION. What the manual leaves open, as constants with no body: nothing in Lean can evaluate them or prove a value of
them. Log entries 6, 7, 9, 11, 25, 60 and 61. -/
namespace Sys2Proof

/-- A free bit: consulted where the manual allows two outcomes (R49, R299). Applied to the counter that State holds. -/
opaque Config.freeBit : Nat → Bool

/-- A free number: consulted where the manual allows any of several values (R208). Applied to the counter that State holds. -/
opaque Config.freeNat : Nat → Nat

/-- The lanes of a load that hit in the L1 (R169). Applied to the counter that State holds. -/
opaque Config.hitLanes : Nat → BitVec 1024

/-- Which of the translations that the tree, the TLBs and the walk caches give for a 64 KB page the accesses of a cycle use (R297,
R299). -/
opaque Config.freeStale : Nat → Nat → Nat

/-- The hash that selects the L2 slice of a line: fixed for the part, and open (R162). -/
opaque Config.sliceOf : Nat → Nat

/-- The bits that the approximate functions of R64 return for an input and a scale field: fixed for every core, and open within the
bound. -/
opaque Config.rsqrtBits : Word → BitVec 4 → Word
opaque Config.exp2Bits : Word → BitVec 4 → Word
opaque Config.log2Bits : Word → BitVec 4 → Word
opaque Config.sinBits : Word → BitVec 4 → Word
opaque Config.cosBits : Word → BitVec 4 → Word

/-- The bytes of a section of a save record that hold its contents, where the manual lists the contents and not their places (R308, R309):
a function of the section and of the contents. -/
opaque Config.recordBytes : Nat → List Nat → List Byte

/-- How often a counter's selected event occurs in an instruction or an element's move: the manual lists no events (R325). Applied to the
selected event and to the counter that State holds. -/
opaque Config.eventCount : Nat → Nat → Nat

/-! What a part and its images fix, and the manual does not give (R331, R332, R337, R346, R349, R350). -/

/-- The physical address of the enumeration copy. -/
opaque Config.enumAddr : Nat

/-- What training finds at a peer link: 0 where it is down, else 1 + the peer's device number. -/
opaque Config.peerAt : Nat → Nat

/-- Whether the windows of a peer device admit the range that a Frost target names there. -/
opaque Config.peerAdmits : Nat → Nat → Bool

/-- The bytes of an image of which the manual lists the parts and not their places: a function of the parts. -/
opaque Config.imageBytes : List (List Byte) → List Byte

/-- The bytes that stand for a section of a Frost image whose encoding the manual does not give: a function of what it holds. -/
opaque Config.sectionBytes {α : Type} (x : α) : List Byte

/-- SHAKE256 with 32 bytes of output; the ML-DSA-65 signature of a hash under the key pair of a seed; whether a signature of a hash
verifies under a public key. -/
opaque Config.shake256 : List Byte → BitVec 256
opaque Config.sign : BitVec 256 → BitVec 256 → Nat → Byte
opaque Config.verifies : List Byte → BitVec 256 → List Byte → Bool

/-- The hash of the configuration key that the boot ROM holds, and the key that signs firmware. -/
opaque Config.bootKey : BitVec 256
opaque Config.firmwareKey : List Byte

/-- The seed that the physically unclonable function regenerates with helper data, and the public key that is derived from a seed. -/
opaque Config.seedOf : List Byte → BitVec 256
opaque Config.publicKey : BitVec 256 → List Byte

/-- A live key identifier's keys as a Frost image holds them: wrapped under the identity's seed, a function of the identifier and of the
number of its creation. -/
opaque Config.wrappedKey : BitVec 256 → Nat → Nat → List Byte

/-- A byte of an encrypted 16-byte block as it is stored, and as another key than the one that encrypted it decrypts it (R337): functions of
the byte's address, of the keys (identifiers and numbers of their creation), and of the block. -/
opaque Config.stored : List Nat → List Byte → Byte
opaque Config.decrypted : List Nat → List Byte → Byte

end Sys2Proof
end

