-- ==== Sys2Proof/Syntax.lean ====
section
/-! DEFINITION. The instructions and events of the Chroad: one constructor of `Instr` for each row of the opcode table.
An encoded instruction carries its fields under their names (R26, R31, R34, R35); an event carries what it names. -/
namespace Sys2Proof

/-- The class field, bits 3:2 of the core word (R26). -/
inductive Cls where
  | uni | aff | var | sys
  deriving DecidableEq, Repr

/-- The three instruction lengths (R24). -/
inductive Len where
  | l64 | l96 | l128
  deriving DecidableEq, Repr

/-- The type codes of R34; `dflt` is code 0, the opcode's default type. -/
inductive Ty where
  | dflt | i32 | z32 | f32 | i64 | z64 | bf16 | f16 | f8e4 | f8e5 | i8 | z8 | i16 | z16 | i4 | b4
  deriving DecidableEq, Repr

/-- The rounding modes, bits 87:86 (R34); other instructions give these bits a meaning of their own. -/
inductive Rnd where
  | rne | rz | rpi | rmi
  deriving DecidableEq, Repr

/-- The clamps, bits 81:80 (R31, R33). -/
inductive Clamp where
  | none | unit | pm1 | sat
  deriving DecidableEq, Repr

/-- The memory spaces, qualifier values 0 to 4 (R159). -/
inductive Space where
  | g | sp | vn | va | pv
  deriving DecidableEq, Repr

/-- The format tags of varying registers (R87). -/
inductive Tag where
  | raw | i32 | f32 | bf16x2 | f16x2 | f8e4x4 | f8e5x4 | i8x4 | i4x8 | b4x8 | sc8x4
  deriving DecidableEq, Repr

/-- The X-word of the 96-bit and 128-bit forms (R31); all fields are 0 in the 64-bit form. -/
structure XWord where
  c     : BitVec 8 := 0
  negA  : Bool := false
  absA  : Bool := false
  negB  : Bool := false
  absB  : Bool := false
  negC  : Bool := false
  absC  : Bool := false
  kc    : BitVec 2 := 0
  clamp : Clamp := .none
  scale : BitVec 4 := 0
  rnd   : Rnd := .rne
  ty    : Ty := .dflt
  qual  : BitVec 4 := 0
  deriving DecidableEq, Repr

/-- The fields of an encoded instruction other than its opcode: core word (R26), X-word (R31), immediate word (R35). -/
structure Fmt where
  cls   : Cls
  len   : Len
  d     : BitVec 8 := 0
  a     : BitVec 8 := 0
  b     : BitVec 8 := 0
  stall : BitVec 4 := 0
  wait  : BitVec 12 := 0
  sig   : BitVec 4 := 15
  guard : BitVec 4 := 7
  kb    : Bool := false
  ka    : Bool := false
  x     : XWord := {}
  imm   : Word := 0
  deriving DecidableEq, Repr

/-- The fault codes of R300. -/
inductive Code where
  | ILLEN | FETCHX | ILLOP | ILLCLASS | ILLENC | POOLX | STALLCHK | TAGMIS | UDIV | AFFOVF | RUNLEN | TMPDEAD | DEFER
  | XLATE | PERM | ALIGN | MIGRATE | VIOL | FEWAIT | CORDER | CHELD | CNOTHELD | CENGINE | HFAULT | HCOLOUR
  | MTOKEN | MGANG | MSCALE | MMETA | MROWS | JTAB | STACK | BRK | WATCHPT | TRAP | QOVR
  deriving DecidableEq, Repr

/-- What a fetched encoding that is no instruction meets (R38, R39): the fault, and the address that `fraddr` takes. -/
structure Fate where
  code : Code
  addr : Addr := 0
  deriving DecidableEq, Repr

/-- Who writes a host-interface register: the hypervisor through the physical function, or the driver of a partition
through its virtual function (R339). -/
inductive Owner where
  | hypervisor
  | driver (part : Nat)
  deriving DecidableEq, Repr

/-- What a function of the host interface writes or names, with whose function it is (R339). -/
structure By (α : Type) where
  owner : Owner
  value : α
  deriving DecidableEq, Repr

/-- The units that are claimed under R325. -/
inductive ClaimUnit where
  | counterBank (core : Nat)
  | traceUnit (die unit : Nat)
  | sampling (core sched : Nat)
  deriving DecidableEq, Repr

/-- A peer window of a partition entry (R336). -/
structure PeerWindow where
  device : BitVec 8
  part   : BitVec 8
  writes : Bool
  key    : BitVec 8
  units  : BitVec 32
  base   : Addr
  deriving DecidableEq, Repr

/-- The partition entry that the hypervisor writes (R336). -/
structure PartEntry where
  cores   : BitVec 256 := 0
  keys    : BitVec 64 := 0
  l2ways  : BitVec 16 := 0
  edf     : Bool := true
  valid   : Bool := false
  ranges  : List (Addr × Addr) := []
  windows : List PeerWindow := []
  deriving DecidableEq, Repr

/-- A context descriptor (R341). -/
structure CtxDesc where
  ptroot   : Addr := 0
  fqbase   : Addr := 0
  fqlsize  : BitVec 8 := 0
  valid    : Bool := false
  part     : BitVec 8 := 0
  vwin     : Word := 0
  savebase : Addr := 0
  savesize : Addr := 0
  trapvec  : Addr := 0
  enumbase : Addr := 0
  pvarena  : Addr := 0
  deriving DecidableEq, Repr

/-- An entry of a context's edge table (R250). -/
structure EdgeEntry where
  base  : Addr := 0
  cap   : Word := 0
  valid : Bool := false
  deriving DecidableEq, Repr

/-- A host access to device memory through CXL.mem (R340), with the stamp its message carries (R327); a read gives its length
by `bytes`. -/
structure HostAccess where
  write : Bool
  addr  : Addr
  bytes : List Byte
  stamp : Addr
  deriving DecidableEq, Repr

/-- An element that arrives from a peer device (R344), with the stamp its message carries (R327). -/
structure PeerElement where
  device : BitVec 8
  part   : BitVec 8
  write  : Bool
  addr   : Addr
  bytes  : List Byte
  stamp  : Addr
  deriving DecidableEq, Repr

/-- An access that has arrived from outside and waits for a die link that is being retrained (R329). -/
inductive OutsideAccess where
  | host (a : HostAccess)
  | peer (e : PeerElement)
  deriving DecidableEq, Repr

/-- The configuration image that the board controller supplies (R330, R349): the grade, the part's serial number, the live physical core
slots of each die, the states of the die links and peer links, which the enumeration table shows (R331, R332); training settings, the helper
data and the certificate of the identity; the minimum firmware security version; the key that signs it, and the signature. -/
structure ConfigImage where
  grade       : BitVec 2 := 0
  serial      : Addr := 0
  slots       : List (BitVec 64) := []
  links       : BitVec 4 := 0
  peers       : List (Option (BitVec 8) × BitVec 8) := []      -- by peer link: the peer's device number if it is up, the peer's link number
  training    : List Byte := []
  helper      : List Byte := []
  certificate : List Byte := []
  minVersion  : BitVec 32 := 0
  key         : List Byte := []
  signature   : List Byte := []
  deriving DecidableEq, Repr

/-- A firmware image (R349). -/
structure Firmware where
  bytes     : List Byte := []
  version   : BitVec 32 := 0
  signature : List Byte := []
  deriving DecidableEq, Repr

/-- Where Frost writes its image (R345). -/
inductive FrostTarget where
  | cxlTier (addr : Addr)
  | peer (device : BitVec 8) (addr : Addr)
  deriving DecidableEq, Repr

/-- A field of the record of a stopped team, with what a debugger writes into it (R308, R316). -/
inductive TeamField where
  | s (n : Nat) (value : Word)
  | a (n : Nat) (base stride : Word)
  | q (n : Nat) (value : Bool)
  | v (reg lane : Nat) (value : Word)
  | tag (reg code : Nat)
  | p (n : Nat) (value : BitVec 1024)
  | temp (split t lane : Nat) (value : Word)
  | tempTag (split t code : Nat)
  | written (split : Nat) (value : BitVec 8)                           -- of t0 to t7
  | splitPc (split : Nat) (value : Addr)
  | splitLink (split : Nat) (value : Option Nat)
  | splitRun (split : Nat) (inRun : Bool) (count : Nat)
  | splitRequest (split : Nat) (order : Option Nat)
  | join (index : Nat) (value : Option (Addr × BitVec 1024 × BitVec 1024 × Option Nat))     -- address, E, A, enclosing link
  | size (n : Nat)
  | rgcnt (n : Nat)
  | dflen (n : Nat)
  | splitMask (split : Nat) (value : BitVec 1024)
  | live (value : BitVec 1024)
  | flag (c n : Nat)
  | held (colours : List (Nat × Nat))                                  -- each with its depth
  | fdepth (n : Nat)
  | frpc (value : Addr)
  | fraddr (value : Addr)
  | trapvec (value : Addr)
  | frcode (value : BitVec 8)
  | frlane (value : Word)
  | tctl (value : Word)
  | tile (value : BitVec 3)
  | gang (value : Word)
  | progv (value : BitVec 16) (set : Bool)
  | engst (value : Word)
  | engaddr (value : Addr)
  | hfrec (value : Word)
  | hfiter (value : Word)
  | xfown (value : Word)
  | xfoff (value : Word)
  | wait (split kind : Nat) (contents : List Nat)                      -- a wait kind of R310 and what it waits for
  | sought (split : Nat) (colours : List Nat)                          -- the colours of a pending acquisition
  | harvest (state l0 total next : Nat) (returned : List Nat)          -- R148
  | target (index reg op rnd : Nat) (parts : List (Nat × Word))        -- of a reduction: each iteration and what it contributed
  | expansion (w : Nat) (workers : BitVec 1024) (total next : Nat) (returned : List Nat) (current : Option Nat) (opened : Addr)
  | owner (index lane : Nat) (start : Word) (base len : Nat)           -- of the expansion
  | segment (index wave reg op rnd owner : Nat) (value : Word)         -- a buffered segment result
  deriving DecidableEq, Repr

/-- The registers of the host interface whose write has no row of its own (R339): the writer's row is REGISTER_WRITE. -/
inductive HostReg where
  | region (part index : Nat) (value : BitVec 128)                     -- R174
  | rqBase (part ring : Nat) (value : Addr)                            -- R246
  | rqCtl (part ring : Nat) (en : Bool) (lsize : BitVec 5) (ctx : BitVec 10)
  | rqFree (part ring : Nat) (value : Addr)
  | rqErr (part ring : Nat) (value : Addr)
  | l2ways (part : Nat) (value : BitVec 16)                            -- R162
  | arbmode (part : Nat) (edf : Bool)                                  -- R255
  | refill (ctx core : Nat) (value : Word)                             -- R256
  | dbgctl (part : Nat) (value : Word)                                 -- R314
  | wpBase (part index : Nat) (value : Addr)                           -- R317
  | wpCtl (part index : Nat) (value : Word)
  | watchQueue (part : Nat) (value : Addr)                             -- R320
  | violationLog (part : Nat) (value : Addr)                           -- R302
  | tofs (ctx : Nat) (value : Addr)                                    -- R326
  | tscale (ctx : Nat) (value : Word)
  | faultTail (ctx : Nat) (value : Addr)                               -- R342
  | sampleInterval (core sched : Nat) (value : Word) (buffer : Addr) (slots : Nat)     -- R321
  | counterEvent (core counter : Nat) (event : Word)                   -- R325
  | replayRegion (part : Nat) (base size : Addr)                       -- R323
  | teamState (team : Nat) (field : TeamField)                         -- R316
  | deviceNumber (value : BitVec 5)                                    -- R343
  | other (offset : Addr) (value : Addr)                               -- any other offset of R339
  deriving DecidableEq, Repr

/-- The instructions and events of spec/opcode_table.json, in the table's order. -/
inductive Instr where
  /-- R52: Integer add, with a uniform, affine or varying destination. -/
  | add (f : Fmt)
  /-- R52: Integer subtract, with a uniform, affine or varying destination. -/
  | sub (f : Fmt)
  /-- R52: Integer multiply, giving the low word, wrapped or saturated. -/
  | mul (f : Fmt)
  /-- R52: High 32 bits of a signed or unsigned integer product. -/
  | mulhi (f : Fmt)
  /-- R52: Integer multiply-add a×b+c, wrapped or saturated. -/
  | mad (f : Fmt)
  /-- R53: Bitwise AND. -/
  | and (f : Fmt)
  /-- R53: Bitwise OR. -/
  | or (f : Fmt)
  /-- R53: Bitwise XOR. -/
  | xor (f : Fmt)
  /-- R53: Bitwise complement. -/
  | not (f : Fmt)
  /-- R53: Logical shift left, including the affine pair form. -/
  | shl (f : Fmt)
  /-- R53: Logical shift right. -/
  | shr (f : Fmt)
  /-- R53: Arithmetic shift right. -/
  | sar (f : Fmt)
  /-- R54: Population count. -/
  | popc (f : Fmt)
  /-- R54: Count of leading zeros. -/
  | clz (f : Fmt)
  /-- R54: Bit reversal. -/
  | brev (f : Fmt)
  /-- R54: Bit-field extract, sign- or zero-extended. -/
  | bfe (f : Fmt)
  /-- R54: Bit-field insert into source C. -/
  | bfi (f : Fmt)
  /-- R55: Selects A or B by a predicate. -/
  | sel (f : Fmt)
  /-- R55: Integer minimum. -/
  | min (f : Fmt)
  /-- R55: Integer maximum. -/
  | max (f : Fmt)
  /-- R56: Integer compare for equality into a predicate. -/
  | cmpEq (f : Fmt)
  /-- R56: Integer compare for inequality into a predicate. -/
  | cmpNe (f : Fmt)
  /-- R56: Integer less-than compare into a predicate. -/
  | cmpLt (f : Fmt)
  /-- R56: Integer less-or-equal compare into a predicate. -/
  | cmpLe (f : Fmt)
  /-- R56: Integer greater-than compare into a predicate. -/
  | cmpGt (f : Fmt)
  /-- R56: Integer greater-or-equal compare into a predicate. -/
  | cmpGe (f : Fmt)
  /-- R57: Copies a register or a uniform special. -/
  | mov (f : Fmt)
  /-- R57: Writes the immediate. -/
  | movi (f : Fmt)
  /-- R58: Reads a literal from a pool range, with variable latency. -/
  | lit (f : Fmt)
  /-- R59: Integer quotient; does not fault on division by zero. -/
  | idiv (f : Fmt)
  /-- R59: Integer remainder; does not fault on division by zero. -/
  | irem (f : Fmt)
  /-- R61: Binary32 add with scale and clamp. -/
  | fadd (f : Fmt)
  /-- R61: Binary32 subtract. -/
  | fsub (f : Fmt)
  /-- R61: Binary32 multiply. -/
  | fmul (f : Fmt)
  /-- R61: Fused multiply-add with a single rounding. -/
  | ffma (f : Fmt)
  /-- R62: IEEE minimumNumber. -/
  | fmin (f : Fmt)
  /-- R62: IEEE maximumNumber. -/
  | fmax (f : Fmt)
  /-- R63: Float equality compare into a predicate. -/
  | fcmpEq (f : Fmt)
  /-- R63: Float inequality compare, true on NaN. -/
  | fcmpNe (f : Fmt)
  /-- R63: Float less-than compare. -/
  | fcmpLt (f : Fmt)
  /-- R63: Float less-or-equal compare. -/
  | fcmpLe (f : Fmt)
  /-- R63: Float greater-than compare. -/
  | fcmpGt (f : Fmt)
  /-- R63: Float greater-or-equal compare. -/
  | fcmpGe (f : Fmt)
  /-- R63: True exactly when either operand is NaN. -/
  | fcmpUn (f : Fmt)
  /-- R64: Correctly rounded reciprocal. -/
  | rcp (f : Fmt)
  /-- R64: Reciprocal square root within 1 ulp. -/
  | rsqrt (f : Fmt)
  /-- R64: Correctly rounded square root. -/
  | sqrt (f : Fmt)
  /-- R64: Base-2 exponential within 1 ulp. -/
  | exp2 (f : Fmt)
  /-- R64: Base-2 logarithm within 1 ulp. -/
  | log2 (f : Fmt)
  /-- R64: Sine in radians within an absolute error of 2^-21. -/
  | sin (f : Fmt)
  /-- R64: Cosine in radians within an absolute error of 2^-21. -/
  | cos (f : Fmt)
  /-- R65: Converts between integer and f32 types, and in the varying class to and from packed elements (R267). -/
  | cvt (f : Fmt)
  /-- R268: Quantizes an f32 value into one 4-bit block code position. -/
  | pack4 (f : Fmt)
  /-- R269: Decodes one block code to binary32 under a scale byte. -/
  | unpk4 (f : Fmt)
  /-- R270: Writes the smallest scale byte under which the lane's value fits. -/
  | mksc (f : Fmt)
  /-- R271: Reads a register's format tag code. -/
  | tagrd (f : Fmt)
  /-- R271: Copies bits and sets the destination's format tag. -/
  | tagset (f : Fmt)
  /-- R67: PC-relative branch that ends the run. -/
  | bra (f : Fmt)
  /-- R67: Decrements a counter and branches if the result is nonzero. -/
  | brc (f : Fmt)
  /-- R68: Pushes a frame record and branches. -/
  | call (f : Fmt)
  /-- R68: Indirect call through a register pair. -/
  | calli (f : Fmt)
  /-- R186: Releases the colours held at the current depth, after its engine wait, and returns through the frame record. -/
  | ret (f : Fmt)
  /-- R70: Ends the whole team after its stores and commands complete. -/
  | exit (f : Fmt)
  /-- R71: Raises TRAP precisely with a code in fraddr. -/
  | trap (f : Fmt)
  /-- R72: Has no effect beyond its control fields. -/
  | nop (f : Fmt)
  /-- R72: Trailer that ends the run with a wait mask. -/
  | runend (f : Fmt)
  /-- R73: Returns from a handler to frpc, restoring the kept run state and releasing held splits and held engine commands. -/
  | rfe (f : Fmt)
  /-- R116: Divergent branch that creates a split and a join record. -/
  | brv (f : Fmt)
  /-- R117: Gathers deferred sides and arrives at a join record. -/
  | join (f : Fmt)
  /-- R119: Serves the lowest jump-table index group of the split. -/
  | jtab (f : Fmt)
  /-- R120: Ends the active lanes. -/
  | exitl (f : Fmt)
  /-- R220: Load in any space, with optional acquire ordering. -/
  | ld (f : Fmt)
  /-- R220: Store in any space, with optional release ordering. -/
  | st (f : Fmt)
  /-- R168: Full-empty load that waits for a full granule. -/
  | ldfe (f : Fmt)
  /-- R168: Store that marks its granules full. -/
  | stfe (f : Fmt)
  /-- R223: Issues a gather command loading one 128-byte line per rank. -/
  | ldline (f : Fmt)
  /-- R225: Prefetches lines toward the core without any entry. -/
  | pref (f : Fmt)
  /-- R226: Writes a line back behind the home. -/
  | cwb (f : Fmt)
  /-- R226: Removes the core's copy of a line. -/
  | cinv (f : Fmt)
  /-- R227: Gives a device-owned host page back to the host. -/
  | pgrel (f : Fmt)
  /-- R228: Acquires a host page without accessing it. -/
  | pgown (f : Fmt)
  /-- R230: Atomic read-modify-write returning the old value. -/
  | atom (f : Fmt)
  /-- R230: No-return atomic reduction. -/
  | red (f : Fmt)
  /-- R231: Enters a fence entry into the lane queue. -/
  | fence (f : Fmt)
  /-- R131: Arrival at a block barrier. -/
  | bar (f : Fmt)
  /-- R211: Barrier arrival whose release waits until arrived teams' entries are performed. -/
  | barx (f : Fmt)
  /-- R109: Broadcasts a uniform value to the active lanes. -/
  | bcast (f : Fmt)
  /-- R109: Materialises an affine value into the lanes. -/
  | mata (f : Fmt)
  /-- R110: Promotes the lowest selected lane's value to the uniform file. -/
  | vfirst (f : Fmt)
  /-- R111: Promotes an agreed lane value, raising UDIV on disagreement. -/
  | vuni (f : Fmt)
  /-- R111: Promotes an agreed lane value, or clears a predicate instead of faulting. -/
  | vuniTry (f : Fmt)
  /-- R112: Promotes an arithmetic progression to an affine register. -/
  | vaff (f : Fmt)
  /-- R113: Builds an affine pair from a base and a stride. -/
  | mkaff (f : Fmt)
  /-- R122: Shuffle within tiles in idx, up, down or xor mode. -/
  | shfl (f : Fmt)
  /-- R123: Vote all, any, uni or ballot over tiles or the split. -/
  | vote (f : Fmt)
  /-- R124: Cross-lane reduction within tiles. -/
  | vred (f : Fmt)
  /-- R125: Inclusive or exclusive scan within tiles. -/
  | scan (f : Fmt)
  /-- R126: Team-wide gather by lane index. -/
  | ishuf (f : Fmt)
  /-- R114: Predicate AND. -/
  | pand (f : Fmt)
  /-- R114: Predicate OR. -/
  | por (f : Fmt)
  /-- R114: Predicate XOR. -/
  | pxor (f : Fmt)
  /-- R114: Predicate NOT. -/
  | pnot (f : Fmt)
  /-- R114: Predicate move. -/
  | pmov (f : Fmt)
  /-- R127: Sets the tile size in part. -/
  | setpart (f : Fmt)
  /-- R128: Acquires register blocks, parking until they are granted. -/
  | rgacq (f : Fmt)
  /-- R128: Acquires register blocks or clears a predicate. -/
  | rgacqTry (f : Fmt)
  /-- R128: Releases the highest register blocks. -/
  | rgrel (f : Fmt)
  /-- R130: Sends a register to a rendezvous slot, parking until paired. -/
  | rvsend (f : Fmt)
  /-- R130: Receives a register from a rendezvous slot, parking until paired. -/
  | rvrecv (f : Fmt)
  /-- R136: Requests idle lanes as helpers for an iteration range. -/
  | recruit (f : Fmt)
  /-- R140: Deals the next iteration to each active lane. -/
  | hnext (f : Fmt)
  /-- R141: Contributes a value to an iteration's reduction target. -/
  | hred (f : Fmt)
  /-- R143: Waits for the recruitment to empty, then lands its results. -/
  | hwait (f : Fmt)
  /-- R144: Cancels the recruitment. -/
  | hrel (f : Fmt)
  /-- R139: Removes the active helpers from the group. -/
  | hexit (f : Fmt)
  /-- R150: Opens an expansion over the active lanes. -/
  | xpand (f : Fmt)
  /-- R151: Opens an expansion and drafts a helper group. -/
  | xpandN (f : Fmt)
  /-- R152: Closes the current wave and deals the next one. -/
  | xnext (f : Fmt)
  /-- R153: Buffers segmented reductions for each owner. -/
  | segred (f : Fmt)
  /-- R155: Stops dealing, waits for waves to be applied and frees the expansion. -/
  | xend (f : Fmt)
  /-- R193: Enters a coloured range. -/
  | tint (f : Fmt)
  /-- R194: Removes the coloured ranges lying within a span. -/
  | untint (f : Fmt)
  /-- R196: Reads the colour state of an address. -/
  | tintq (f : Fmt)
  /-- R196: Clears a held colour's abandoned bit, then reads its state. -/
  | tintqClr (f : Fmt)
  /-- R195: Acquires a colour without waiting. -/
  | mtry (f : Fmt)
  /-- R197: Releases a colour, waits for notification and re-acquires it. -/
  | mwait (f : Fmt)
  /-- R197: Moves the oldest waiter to the entry queue. -/
  | mnote (f : Fmt)
  /-- R197: Moves every waiter to the entry queue. -/
  | mnall (f : Fmt)
  /-- R197: Parks until a word differs from a given value. -/
  | watch (f : Fmt)
  /-- R242: Reads a shape record into a slot. -/
  | tshape (f : Fmt)
  /-- R242: Issues a tensor copy command. -/
  | tcopy (f : Fmt)
  /-- R238: Holds the split until an engine counter is at most a threshold. -/
  | waitcnt (f : Fmt)
  /-- R238: Reads an engine counter and its pending bit. -/
  | cntrd (f : Fmt)
  /-- R249: Posts a job card to a dispatch queue, parking while it is full. -/
  | card (f : Fmt)
  /-- R249: Posts a job card or clears a predicate when the queue is full. -/
  | cardTry (f : Fmt)
  /-- R253: Emits one child work item per active lane to the packing unit. -/
  | spawn (f : Fmt)
  /-- R251: Puts 16 bytes into a graph edge, waiting for a free slot. -/
  | eput (f : Fmt)
  /-- R251: Puts into an edge or clears a predicate when it is full. -/
  | eputTry (f : Fmt)
  /-- R251: Takes 16 bytes from a graph edge, waiting for a filled slot. -/
  | eget (f : Fmt)
  /-- R252: Reads an edge's filled and free slot counts. -/
  | qstat (f : Fmt)
  /-- R278: Writes the gang register. -/
  | gang (f : Fmt)
  /-- R279: Takes a tile token for the gang, parking if it is unavailable. -/
  | macq (f : Fmt)
  /-- R279: Takes a tile token or clears a predicate. -/
  | macqTry (f : Fmt)
  /-- R279: Queues the return of a tile token. -/
  | mrel (f : Fmt)
  /-- R280: Loads a macro's shadow copy. -/
  | mldb (f : Fmt)
  /-- R281: Queues an exchange of active and shadow macro copies. -/
  | mswap (f : Fmt)
  /-- R282: Queues the zeroing of a tile. -/
  | mzero (f : Fmt)
  /-- R284: Gang member arrival at the tile's latch for a dense matrix operation. -/
  | mma (f : Fmt)
  /-- R287: Latch arrival for a sparse operation with run-length metadata. -/
  | mmas (f : Fmt)
  /-- R289: Drains tile rows to memory. -/
  | mdrain (f : Fmt)
  /-- R290: Reads a snapshot of matrix unit state. -/
  | mstat (f : Fmt)
  /-- R75: Reads a system register. -/
  | rdsr (f : Fmt)
  /-- R75: Writes a system register. -/
  | wrsr (f : Fmt)
  /-- R76: Reads the context's guest time. -/
  | rdtime (f : Fmt)
  /-- R77: Places the split's next run behind its peers. -/
  | yield (f : Fmt)
  /-- R311: Records the team's done fraction. -/
  | prog (f : Fmt)
  /-- R315: Software breakpoint raising BRK. -/
  | brk (f : Fmt)
  /-- R328: Performs a local event and reads the hybrid logical clock. -/
  | rdhlc (f : Fmt)
  /-- R48: Scheduler begins a split's run once its trailer mask is satisfied and it holds a buffer entry. -/
  | runStart (team split : Nat)
  /-- R46: A variable-latency result lands and its sig flag falls. -/
  | resultWriteback (team result : Nat)
  /-- R170: Both wave halves have stopped before the trailer and merge. -/
  | waveSplitMerge (team split : Nat)
  /-- R145: A helper still in the group 4,096 cycles after a reclaim is stopped and its iteration abandoned. -/
  | helperAbandonTimeout (group : Nat)
  /-- R176: The driver grants a page and the parked instruction re-executes. -/
  | hostPageGrant (page : Nat)
  /-- R176: The driver refuses a page; the instruction raises MIGRATE. -/
  | hostPageRefuse (page : Nat)
  /-- R177: The host requests a device-owned page. -/
  | hostPageRecall (page : Nat)
  /-- R177: Once accesses are performed and the 20 µs hold has passed, lines are written back and invalidated and the page is granted. -/
  | hostPageHandback (page : Nat)
  /-- R178: The end of a 100 µs access-count period may move a unit's home. -/
  | placementPeriod
  /-- R202: Order-machine move: an entry leaves its queue and is read or written at the home. -/
  | commit (entry : Nat)
  /-- R204: Order-machine move: an update queue's head is applied to a sharer's copy. -/
  | propagate (home sharer : Nat)
  /-- R206: A fence retires once every older entry is performed. -/
  | fenceRetirement (entry : Nat)
  /-- R209: One element access of an engine command is performed. -/
  | engineElement (command element : Nat)
  /-- R298: Driver response resume: the parked team, elements and helper splits translate afresh. -/
  | driverResume (ctx : By Nat) (core slot : Nat)
  /-- R298: Driver response refuse: the parked instruction raises XLATE and waiting elements fail. -/
  | driverRefuse (ctx : By Nat) (core slot : Nat)
  /-- R299: Driver command to invalidate the translations of a range. -/
  | invalidate (ctx : By Nat) (base : Addr) (size : Nat)
  /-- R299: TLB and walk-cache entries are removed and their accesses performed; the done bit rises. -/
  | invalidateDone (ctx : Nat)
  /-- R246: Host doorbell write to a submission ring. -/
  | rqDoor (part ring : Nat) (value : By Addr)
  /-- R247: The device reads the next ring slot and accepts it, defers it or overruns. -/
  | cardRead (part ring : Nat)
  /-- R247: A stale slot is re-read after 1 µs, up to 16 times. -/
  | slotReread (part ring : Nat)
  /-- R248: Driver write to rq.ctl.reset clears the overrun and discards cards. -/
  | ringReset (part : Nat) (ring : By Nat)
  /-- R249: The dispatcher takes a head card and places its blocks. -/
  | dispatch (part : Nat)
  /-- R245: Every team of a launch has ended; the completion record is written. -/
  | launchCompletion (launch : Nat)
  /-- R254: A bin is dispatched 4,096 cycles after its first item. -/
  | packingBinTimeout (bin : Nat)
  /-- R256: Every 100 µs each context's balance is refilled after debt repayment. -/
  | equinoxPeriod
  /-- R257: Device time passes a launch's deadline; its key moves back and bit 8 is set. -/
  | deadlineExpiry (launch : Nat)
  /-- R284: A latch open 2^20 cycles without every member makes the waiting members raise MGANG. -/
  | latchTimeout (core tile : Nat)
  /-- R288: A sparse operation that has waited 2^20 cycles for metadata raises MMETA. -/
  | metadataTimeout (core tile : Nat)
  /-- R285: A queued matrix command takes effect on its tile at the head of the unit queue. -/
  | matrixOpComplete (core : Nat)
  /-- R281: The macro copies are exchanged once older readers and loads are done. -/
  | mswapExchange (core : Nat)
  /-- R101: The hypervisor, teardown or debugger removes every lane of a team. -/
  | kill (team : Nat)
  /-- R305: A set of cores is requested and each block is drained, flushed or saved. -/
  | preemptRequest (cores : List Nat)
  /-- R305: A draining block still resident after 200 µs is decided again without the drain row. -/
  | drainTimeout (block : Nat)
  /-- R307: Once results, queues and commands are done, the records are written and the block leaves. -/
  | saveComplete (block : Nat)
  /-- R310: A saved block resumes on a core and its waits continue. -/
  | blockRestore (block : Nat)
  /-- R316: The debugger resumes a stopped split and the frozen splits. -/
  | debugResume (team : Nat)
  /-- R323: In record mode, 2^32 retirements or a full region trigger a save-and-resume checkpoint. -/
  | checkpoint (part : Nat)
  /-- R324: A stop named by a retired count rolls the partition back and replays it. -/
  | replayStop (part count : Nat)
  /-- R324: The replayed count reaches N and every team stops. -/
  | replayCountReached (part : Nat)
  /-- R321: The sampling count expires and the next issued instruction is tagged. -/
  | sampleCountExpiry (core sched : Nat)
  /-- R325: A claim of a counter bank, trace unit or sampling unit. -/
  | claimWrite (unit : ClaimUnit) (owner : Owner)
  /-- R325: The hypervisor takes a guest-held unit. -/
  | forcedClaim (unit : ClaimUnit)
  /-- R302: A hypervisor write of zero to the count clears the violation log. -/
  | violationLogClear (part : Nat)
  /-- R336: The hypervisor writes a partition entry; it is refused or starts emptying the cores that leave. -/
  | partitionEntryWrite (part : Nat) (entry : PartEntry)
  /-- R336: The leaving cores are empty and the partition write completes. -/
  | partitionWriteDone (part : Nat)
  /-- R341: A descriptor write; clearing valid kills the context's teams. -/
  | contextDescriptorWrite (ctx : Nat) (desc : By CtxDesc)
  /-- R250: Writing an edge entry resets its head and tail counts. -/
  | edgeTableWrite (ctx edge : Nat) (entry : By EdgeEntry)
  /-- R339: A write to a host-interface register that has no row of its own. -/
  | registerWrite (owner : Owner) (reg : HostReg)
  /-- R337: Generates the keys of a key identifier. -/
  | keyCreate (key : Nat)
  /-- R338: Removes a key identifier from the key sets and drains its accesses. -/
  | keyRetire (key : Nat)
  /-- R338: Lines are written back and invalidated and the keys erased. -/
  | keyRetireComplete (key : Nat)
  /-- R340: A host CXL.mem read or write reaches a home slice. -/
  | hostMemAccess (access : HostAccess)
  /-- R344: An incoming peer element is checked against windows and committed or refused. -/
  | peerElementReceive (element : PeerElement)
  /-- R329: A die link fails and is retrained, or stops the device. -/
  | linkFailure (link : Nat) (retrainable : Bool)
  /-- R329: A retrained die link resumes its traffic. -/
  | linkRetrained (link : Nat)
  /-- R345: Stops dispatch, pre-empts every block and writes the device image. -/
  | frost (target : FrostTarget)
  /-- R345: The image is written and the status reads 0. -/
  | frostComplete
  /-- R345: Resumes the saved blocks after Frost and reopens the rings. -/
  | continueFrost
  /-- R347: Checks and restores a Frost image, then resumes. -/
  | thaw (image : Addr)
  /-- R350: A nonce request returns a signed device or partition report. -/
  | attestationRequest (owner : Owner) (nonce : BitVec 256)
  /-- R351: The board controller releases reset and bring-up begins. -/
  | resetRelease (image : ConfigImage) (identityOk : Bool)
  /-- R351: Stack, SRAM-die and link training ends. -/
  | trainingComplete (ok : Bool)
  /-- R349: Firmware is supplied and checked, and the device becomes ready. -/
  | firmwareSupply (image : Firmware)
  /-- R38: A fetched encoding that R36 does not define as an instruction (length 00, reserved opcode, disallowed class, pool bytes,
  window crossing) raises its fault precisely at its address. -/
  | encodingNotAnInstruction (fate : Fate)
  /-- R347: Thaw finishes restoring every section, sets each die's clock, resumes the saved blocks and reopens the rings. -/
  | thawComplete
  deriving DecidableEq, Repr

end Sys2Proof
end

