-- ==== Sys2Proof/Machine/Fields.lean ====
section
/-! DEFINITION. The field checks of the decoder: which field values each instruction accepts (R26 to R38, R50, R104, R108, R114, R115, R121 to R131, R133,
R192, R217, R236, R266, R277). A well-formed encoded instruction is one that raises none of ILLCLASS and ILLENC by its
encoding alone; the checks that need the state (held blocks, values in registers) are made at issue. -/
namespace Sys2Proof

/-! ### Register fields (R27, R28) -/

/-- A uniform register or an assigned uniform special (R27, R84, R183, R333). -/
def uniSrc (v : BitVec 8) : Bool := v.toNat ≤ 81

/-- A uniform register s0 to s63. -/
def uniReg (v : BitVec 8) : Bool := v.toNat < 64

/-- An even value naming a uniform pair d0 to d31. -/
def uniPair (v : BitVec 8) : Bool := v.toNat < 64 && v.toNat % 2 == 0

/-- An affine register or an affine special. -/
def affSrc (v : BitVec 8) : Bool := v.toNat ≤ 34

/-- An affine register a0 to a31. -/
def affReg (v : BitVec 8) : Bool := v.toNat < 32

/-- A predicate number. -/
def predNo (v : BitVec 8) : Bool := v.toNat < 8

def Ty.is64 : Ty → Bool
  | .i64 | .z64 => true
  | _ => false

namespace Fmt

/-- A uniform value source: a pair for the 64-bit types. -/
def uniVal (wide : Bool) (v : BitVec 8) : Bool := if wide then uniPair v else uniSrc v

/-- The destination field under the class (R27). -/
def dstOk (f : Fmt) (wide : Bool := false) : Bool :=
  match f.cls with
  | .uni => if wide then uniPair f.d else uniReg f.d
  | .aff => affReg f.d
  | .var => true
  | .sys => false

/-- Source A read under R28. -/
def aOk (f : Fmt) (wide : Bool := false) : Bool :=
  match f.cls with
  | .uni => !f.ka && uniVal wide f.a
  | .aff => affSrc f.a
  | .var => !f.ka || affSrc f.a
  | .sys => false

/-- Source B read under R28 and R35: in the 128-bit form it is the immediate. -/
def bOk (f : Fmt) (wide : Bool := false) : Bool :=
  if f.len = .l128 then f.b == 0 && !f.kb else
  match f.cls with
  | .uni => uniVal wide f.b
  | .aff => if f.kb then uniSrc f.b else affSrc f.b
  | .var => !f.kb || uniSrc f.b
  | .sys => false

/-- The count of a shift: with a 64-bit type field b names one of s0 to s63 (R53). -/
def countOk (f : Fmt) (wide : Bool) : Bool := f.bOk && (!wide || f.len == .l128 || decide (f.b.toNat < 64))

/-- Source C read under R28. -/
def cOk (f : Fmt) (wide : Bool := false) : Bool :=
  match f.cls, f.x.kc.toNat with
  | .uni, 0 | .uni, 1 => uniVal wide f.x.c
  | .aff, 0 | .aff, 2 => affSrc f.x.c
  | .aff, 1 => uniSrc f.x.c
  | .var, 0 => true
  | .var, 1 => uniSrc f.x.c
  | .var, 2 => affSrc f.x.c
  | _, _ => false

/-- A uniform register in field c: kc = 01, or in the uniform class the redundant spelling kc = 00. -/
def cUni (f : Fmt) : Bool :=
  uniSrc f.x.c && (f.x.kc == 1 || (f.cls = .uni && f.x.kc == 0))

/-- A uniform register in field b of a class 00 instruction; kb = 0 and kb = 1 select the same file (R28). -/
def bUniReg (f : Fmt) : Bool := uniReg f.b

def dZero (f : Fmt) : Bool := f.d == 0
def aZero (f : Fmt) : Bool := f.a == 0 && !f.ka
def bZero (f : Fmt) : Bool := f.b == 0 && !f.kb

/-- A small number in field b with kb = 0. -/
def bNum (f : Fmt) (bound : Nat) : Bool := f.b.toNat < bound && !f.kb

/-- A small number in field a with ka = 0. -/
def aNum (f : Fmt) (bound : Nat) : Bool := f.a.toNat < bound && !f.ka

/-- A PC-relative immediate has bits 1:0 zero (R35). -/
def immAligned (f : Fmt) : Bool := f.imm.toNat % 4 == 0

def lenIn (f : Fmt) (ls : List Len) : Bool := ls.contains f.len

/-- The memory space that the qualifier names (R34, R159). -/
def space? (f : Fmt) : Option Space :=
  match f.x.qual.toNat with
  | 0 => some .g
  | 1 => some .sp
  | 2 => some .vn
  | 3 => some .va
  | 4 => some .pv
  | _ => none

end Fmt

/-! ### The X-word (R31 to R34) -/

/-- What an instruction accepts in its X-word; the defaults accept only zero. -/
structure XRule where
  useC   : Bool := false
  mA     : Bool := false
  mB     : Bool := false
  mC     : Bool := false
  clamps : List Clamp := [.none]
  scale  : Bool := false
  rnds   : List Rnd := [.rne]
  tys    : List Ty := [.dflt]
  quals  : List (BitVec 4) := [0]

def allRnd : List Rnd := [.rne, .rz, .rpi, .rmi]
def allClamp : List Clamp := [.none, .unit, .pm1, .sat]

def XRule.ok (r : XRule) (x : XWord) : Bool :=
  (r.useC || (x.c == 0 && x.kc == 0)) &&
  (r.mA || !(x.negA || x.absA)) && (r.mB || !(x.negB || x.absB)) && (r.mC || !(x.negC || x.absC)) &&
  r.clamps.contains x.clamp && (r.scale || x.scale == 0) && r.rnds.contains x.rnd &&
  r.tys.contains x.ty && r.quals.contains x.qual

/-- The X-word rules of R50's rows: integer, bitwise and float. -/
def tysInt (c : Cls) (wide : Bool) : List Ty :=
  [.dflt, .i32, .z32] ++ (if wide && c = .uni then [.i64, .z64] else [])

def tysBits (c : Cls) : List Ty := tysInt c true ++ [.f32]

def tysF32 : List Ty := [.dflt, .f32]

/-- The packed types that the matrix unit takes: codes 6 to 10, 14 and 15 (R277). -/
def tysMat : List Ty := [.bf16, .f16, .f8e4, .f8e5, .i8, .i4, .b4]

namespace Fmt

/-- Qualifier values of the four affine forms: 1 selects the checked form, which has an X-word (R90). -/
def chkQuals (f : Fmt) : List (BitVec 4) := if f.cls = .aff then [0, 1] else [0]

/-- The affine forms take neither absolute value nor clamp (R89). -/
def affPlain (f : Fmt) : Bool := f.cls != .aff || (!f.x.absA && !f.x.absB)

/-- R50's integer rows with sources A and B, and for `mad` C. -/
def intOp (f : Fmt) (wide sat useC : Bool) : Bool :=
  let w := f.x.ty.is64
  f.lenIn [.l64, .l96, .l128] && f.dstOk w && f.aOk w && f.bOk w && (!useC || f.cOk w) && f.affPlain &&
  XRule.ok { useC := useC, mA := true, mB := true, mC := useC,
             clamps := if sat && f.cls != .aff then [.none, .sat] else [.none],
             tys := tysInt f.cls wide, quals := [0] } f.x

/-- `add`, `sub` and `mul`, with the affine forms of R89, R90 and R105. -/
def arithOp (f : Fmt) (wide mulLike : Bool) : Bool :=
  let w := f.x.ty.is64
  f.lenIn [.l64, .l96, .l128] && f.dstOk w && f.aOk w && f.bOk w && f.affPlain &&
  (f.cls != .aff || !mulLike || f.kb || f.len = .l128) &&
  XRule.ok { mA := true, mB := true, clamps := if f.cls != .aff then [.none, .sat] else [.none],
             tys := tysInt f.cls wide, quals := f.chkQuals } f.x

/-- `and`, `or`, `xor`. -/
def bitOp (f : Fmt) : Bool :=
  let w := f.x.ty.is64
  f.lenIn [.l64, .l96, .l128] && f.dstOk w && f.aOk w && f.bOk w && XRule.ok { tys := tysInt f.cls true } f.x

/-- One source A and no source B: `not`, `mov`. -/
def unaryBits (f : Fmt) (wide : Bool) : Bool :=
  let w := f.x.ty.is64
  f.lenIn [.l64, .l96] && f.dstOk w && f.aOk w && f.bZero && XRule.ok { tys := tysInt f.cls wide } f.x

/-- The shifts: the count is a single 32-bit register or the immediate (R53). -/
def shiftOp (f : Fmt) : Bool :=
  let w := f.x.ty.is64
  f.lenIn [.l64, .l96, .l128] && f.dstOk w && f.aOk w && f.countOk w && XRule.ok { tys := tysInt f.cls true } f.x

/-- `shl`, which has the affine forms too (R89, R90). -/
def shlOp (f : Fmt) : Bool :=
  let w := f.x.ty.is64
  f.lenIn [.l64, .l96, .l128] && f.dstOk w && f.aOk w && f.countOk w &&
  (f.cls != .aff || f.kb || f.len = .l128) && f.affPlain &&
  XRule.ok { mA := f.cls = .aff, mB := f.cls = .aff, tys := tysInt f.cls true, quals := f.chkQuals } f.x

/-- `bfe` and `bfi`. -/
def fieldOp (f : Fmt) (useC : Bool) : Bool :=
  f.lenIn [.l64, .l96, .l128] && f.dstOk && f.aOk && f.bOk && (!useC || f.cOk) &&
  XRule.ok { useC := useC, tys := tysInt f.cls false } f.x

/-- `sel`: field c names the selecting predicate (R55, R104). -/
def selOp (f : Fmt) : Bool :=
  let w := f.x.ty.is64
  f.lenIn [.l64, .l96, .l128] && f.dstOk w && f.aOk w && f.bOk w && predNo f.x.c && f.x.kc == 0 &&
  XRule.ok { useC := true, tys := tysInt f.cls true } f.x

/-- The integer compares: d names a predicate (R56). -/
def cmpOp (f : Fmt) : Bool :=
  let w := f.x.ty.is64
  f.lenIn [.l64, .l96, .l128] && predNo f.d && f.aOk w && f.bOk w &&
  XRule.ok { mA := true, mB := true, tys := tysInt f.cls true } f.x

/-- `movi` and `lit`: the immediate gives the value or the offset (R57, R58). -/
def immOp (f : Fmt) : Bool :=
  f.lenIn [.l128] && f.dstOk f.x.ty.is64 && f.aZero && f.bZero && XRule.ok { tys := tysBits f.cls } f.x

/-- The float operations on A and B, and for `ffma` C (R61, R62). -/
def floatOp (f : Fmt) (useC : Bool) : Bool :=
  f.lenIn [.l64, .l96, .l128] && f.dstOk && f.aOk && f.bOk && (!useC || f.cOk) &&
  XRule.ok { useC := useC, mA := true, mB := true, mC := useC, clamps := allClamp, scale := true, rnds := allRnd,
             tys := tysF32 } f.x

/-- The float compares (R63). -/
def fcmpOp (f : Fmt) : Bool :=
  f.lenIn [.l64, .l96, .l128] && predNo f.d && f.aOk && f.bOk && XRule.ok { mA := true, mB := true, tys := tysF32 } f.x

/-- The special functions (R64); only `rcp` and `sqrt` take every rounding mode. -/
def sfuOp (f : Fmt) (anyRnd : Bool) : Bool :=
  f.lenIn [.l64, .l96] && f.dstOk && f.aOk && f.bZero &&
  XRule.ok { mA := true, clamps := allClamp, scale := true, rnds := if anyRnd then allRnd else [.rne],
             tys := tysF32 } f.x

end Fmt

/-! ### Conversion (R65, R267) -/

/-- The type code of R34 as a number. -/
def Ty.code : Ty → Nat
  | .dflt => 0 | .i32 => 1 | .z32 => 2 | .f32 => 3 | .i64 => 4 | .z64 => 5 | .bf16 => 6 | .f16 => 7
  | .f8e4 => 8 | .f8e5 => 9 | .i8 => 10 | .z8 => 11 | .i16 => 12 | .z16 => 13 | .i4 => 14 | .b4 => 15

/-- The type that a code names; code 0 in either field of `cvt` means i32 (R65, R267). -/
def cvtTy (code : Nat) : Ty :=
  match code with
  | 0 => .i32 | 1 => .i32 | 2 => .z32 | 3 => .f32 | 4 => .i64 | 5 => .z64 | 6 => .bf16 | 7 => .f16
  | 8 => .f8e4 | 9 => .f8e5 | 10 => .i8 | 11 => .z8 | 12 => .i16 | 13 => .z16 | 14 => .i4 | _ => .b4

/-- The destination and source types of `cvt`. -/
def Fmt.cvtTypes (f : Fmt) : Ty × Ty := (cvtTy f.x.ty.code, cvtTy f.x.qual.toNat)

def Ty.isNarrowFloat : Ty → Bool
  | .bf16 | .f16 | .f8e4 | .f8e5 => true
  | _ => false

def Ty.isSmallInt : Ty → Bool
  | .i8 | .z8 | .i4 => true
  | _ => false

def Ty.isScalar : Ty → Bool
  | .i32 | .z32 | .f32 => true
  | _ => false

/-- The number of elements of a packed type in a lane's word (R258). -/
def Ty.elements : Ty → Nat
  | .bf16 | .f16 => 2
  | .f8e4 | .f8e5 | .i8 | .z8 => 4
  | .i4 | .b4 => 8
  | _ => 1

namespace Fmt

/-- Clamp, scale and rounding of a conversion: any for a float destination; for an integer destination clamp 00 or 11,
and rounding and (R65) a scale only from f32. -/
def cvtX (f : Fmt) (dt st : Ty) : Bool :=
  let toFloat := dt = .f32 || dt.isNarrowFloat
  let scaled := toFloat || (st = .f32 && !dt.isSmallInt)
  XRule.ok { mA := true, clamps := if toFloat then allClamp else [.none, .sat], scale := scaled,
             rnds := if toFloat || st = .f32 then allRnd else [.rne], tys := [f.x.ty], quals := [f.x.qual] } f.x

/-- `cvt` in the uniform class (R65). -/
def cvtUni (f : Fmt) : Bool :=
  let (dt, st) := f.cvtTypes
  f.lenIn [.l64, .l96] && (dt.isScalar || dt.is64) && (st.isScalar || st.is64) && dt != st &&
  f.dstOk dt.is64 && f.aOk st.is64 && f.bZero && f.cvtX dt st

/-- `cvt` in the varying class: the pairs of R267 on element j of field b, and the pairs of R88 on whole words. -/
def cvtVar (f : Fmt) : Bool :=
  let (dt, st) := f.cvtTypes
  if dt.isScalar && st.isScalar then
    f.lenIn [.l64, .l96] && dt != st && f.aOk && f.bZero && f.cvtX dt st
  else
    let narrow := (dt.isNarrowFloat && st = .f32) || (dt.isSmallInt && st.isScalar)
    let widen := (dt = .f32 && (st.isNarrowFloat || st.isSmallInt)) || (dt = .i32 && st.isSmallInt)
    f.lenIn [.l96] && (narrow || widen) && !f.ka && f.bNum (if narrow then dt.elements else st.elements) &&
    f.cvtX dt st

end Fmt

/-! ### Memory operands (R160, R217, R219) -/

namespace Fmt

/-- The operand forms of R160: `imm` says whether `[dN + imm]` exists for the instruction. -/
def memOperand (f : Fmt) (imm : Bool) : Bool :=
  match f.cls with
  | .uni => uniPair f.a && !f.ka && (if imm && f.len = .l128 then f.b == 0 && !f.kb else uniReg f.b)
  | .var => if f.kb then uniPair f.b && (!f.ka || affSrc f.a) else f.b.toNat % 2 == 0 && f.a == 0 && !f.ka
  | _ => false

def memLen (f : Fmt) (short : List Len) : Bool :=
  f.lenIn short || (f.len = .l128 && f.cls = .uni)

/-- The types of `ld`, `st`, `ldfe` and `stfe` (R219). -/
def memTys (f : Fmt) : List Ty :=
  [.dflt, .i32, .z32, .f32, .i64, .z64, .i8, .z8, .i16, .z16] ++
  (if f.cls = .var then [.bf16, .f16, .f8e4, .f8e5, .i4, .b4] else [])

/-- Field d of a load or store: a pair for the 64-bit types (R219). -/
def memData (f : Fmt) : Bool :=
  match f.cls with
  | .uni => if f.x.ty.is64 then uniPair f.d else uniReg f.d
  | .var => !f.x.ty.is64 || f.d.toNat % 2 == 0
  | _ => false

def loadStore (f : Fmt) (short : List Len) (rnds : List Rnd) : Bool :=
  f.memLen short && f.memOperand true && f.memData &&
  XRule.ok { rnds := rnds, tys := f.memTys, quals := [0, 1, 2, 3, 4] } f.x

/-- `pref`, `cwb`, `cinv`: no destination, space `.g` only. -/
def lineOp (f : Fmt) (rnds : List Rnd) : Bool :=
  f.memLen [.l64, .l96] && f.memOperand true && f.dZero && XRule.ok { rnds := rnds } f.x

/-- The atomic operation, bits 3:0 of the immediate (R229). -/
def atomCode (f : Fmt) : Nat := f.imm.toNat

def atomTys (f : Fmt) : List Ty :=
  match f.atomCode with
  | 8 => [.dflt, .f32]
  | 6 | 7 => [.dflt, .i32, .z32, .f32, .i64, .z64]
  | _ => [.dflt, .i32, .z32, .i64, .z64]

def atomData (f : Fmt) : Bool :=
  let w := f.x.ty.is64
  match f.cls, f.x.kc.toNat with
  | .uni, 0 | .uni, 1 => if w then uniPair f.x.c else uniSrc f.x.c
  | .var, 0 => !w || f.x.c.toNat % 2 == 0
  | .var, 1 => if w then uniPair f.x.c else uniSrc f.x.c
  | .var, 2 => !w && affSrc f.x.c
  | _, _ => false

def atomic (f : Fmt) (ret : Bool) : Bool :=
  f.lenIn [.l128] && f.memOperand false && (if ret then f.memData else f.dZero) && f.atomData &&
  f.atomCode ≤ 8 && (ret || !(f.atomCode == 6 || f.atomCode == 7)) &&
  XRule.ok { useC := true, rnds := if ret then allRnd else [.rne, .rpi], tys := f.atomTys, quals := [0, 1, 2, 3] } f.x

/-! ### Reductions (R124, R141, R153) -/

/-- The type codes and rounding that a reduction's qualifier accepts: integer, bitwise, float. -/
def redX (f : Fmt) (quals : List (BitVec 4)) (bitTys : List Ty) : Bool :=
  let q := f.x.qual.toNat
  let float := 6 ≤ q
  XRule.ok { rnds := if float then allRnd else [.rne],
             tys := if float then tysF32 else if 3 ≤ q then bitTys else [.dflt, .i32, .z32], quals := quals } f.x

/-- A source that is varying, or affine with ka = 1 (class 10). -/
def aVarAff (f : Fmt) : Bool := !f.ka || affSrc f.a

/-- A source B that is varying, uniform with kb = 1, or the immediate (class 10). -/
def bVarUniImm (f : Fmt) : Bool :=
  if f.len = .l128 then f.b == 0 && !f.kb else !f.kb || uniSrc f.b

/-- A class 11 source B: a uniform register with kb = 1, or the immediate with kb = 0 (R277). -/
def bSys (f : Fmt) : Bool :=
  if f.len = .l128 then f.b == 0 && !f.kb else f.kb && uniSrc f.b

/-- A quad of varying registers (R277). -/
def quad (v : BitVec 8) : Bool := v.toNat % 4 == 0

end Fmt

/-- The system-register numbers of the manual (R74, R94, R95, R99, R147, R156, R163, R165, R183, R240, R275, R303, R311,
R333), with the width in bits of each; an unassigned number has none. -/
def srWidth (n : Nat) : Option Nat :=
  if n = 0 || n = 2 || n = 4 then some 32
  else if n = 1 || n = 3 || n = 5 || n = 6 then some 64
  else if 8 ≤ n && n ≤ 15 then some 64
  else if n = 0x1C || n = 0x20 then some 64
  else if 0x10 ≤ n && n ≤ 0x1F then some 32
  else none

namespace Fmt

/-- The type of `rdsr` and `wrsr` matches the register's width (R75). -/
def srTys (f : Fmt) : List Ty :=
  match srWidth f.imm.toNat with
  | some 64 => [.i64]
  | some _ => [.dflt, .i32]
  | none => []

/-- `rdtime` and `rdhlc` (R76, R328): 64-bit with code 0, or 96-bit with code 4 and every other X-word field zero. DEDUCED: these
two rules, which name their forms, prevail over R25's word that an all-zero X-word is the 64-bit form's (log entry 33). -/
def clockRead (f : Fmt) : Bool :=
  uniPair f.d && f.aZero && f.bZero && (f.len = .l64 || (f.len = .l96 && f.x == { ty := .i64 }))

/-- Every field but control is zero. -/
def bare (f : Fmt) : Bool := f.dZero && f.aZero && f.bZero && f.x == {}

/-- A group of R192: type code 0 or 1, everything else of the X-word zero unless named. -/
def colX (f : Fmt) (useC : Bool) (quals : List (BitVec 4)) : Bool :=
  XRule.ok { useC := useC, tys := [.dflt, .i32], quals := quals } f.x

/-- What holds of every encoded instruction: sig, the fields a shorter form does not have (R26, R31, R35, R38). -/
def common (f : Fmt) : Bool :=
  (f.sig.toNat ≤ 11 || f.sig == 15) && f.x.kc != 3 && (f.len != .l64 || f.x == {}) && (f.len == .l128 || f.imm == 0)

end Fmt

/-- The classes that R36 allows for the opcode of an instruction; an event has none. -/
def Instr.classes : Instr → List Cls
  | .add _ | .sub _ | .mul _ | .shl _ => [.uni, .aff, .var]
  | .mulhi _ | .mad _ | .and _ | .or _ | .xor _ | .not _ | .shr _ | .sar _ | .popc _ | .clz _ | .brev _ | .bfe _ | .bfi _
  | .sel _ | .min _ | .max _ | .cmpEq _ | .cmpNe _ | .cmpLt _ | .cmpLe _ | .cmpGt _ | .cmpGe _ | .mov _ | .movi _ | .lit _
  | .idiv _ | .irem _ | .fadd _ | .fsub _ | .fmul _ | .ffma _ | .fmin _ | .fmax _ | .fcmpEq _ | .fcmpNe _ | .fcmpLt _
  | .fcmpLe _ | .fcmpGt _ | .fcmpGe _ | .fcmpUn _ | .rcp _ | .rsqrt _ | .sqrt _ | .exp2 _ | .log2 _ | .sin _ | .cos _
  | .cvt _ | .ld _ | .st _ | .ldfe _ | .stfe _ | .pref _ | .cwb _ | .cinv _ | .atom _ | .red _ | .vote _ | .pand _ | .por _
  | .pxor _ | .pnot _ | .pmov _ => [.uni, .var]
  | .pack4 _ | .unpk4 _ | .mksc _ | .tagrd _ | .tagset _ | .brv _ | .join _ | .jtab _ | .exitl _ | .ldline _ | .bcast _
  | .mata _ | .shfl _ | .vred _ | .scan _ | .ishuf _ | .rvsend _ | .rvrecv _ | .hnext _ | .hred _ | .hexit _ | .xpand _
  | .xpandN _ | .xnext _ | .segred _ | .spawn _ => [.var]
  | .vaff _ | .mkaff _ => [.aff]
  | .fence _ | .bar _ | .barx _ | .gang _ | .macq _ | .macqTry _ | .mrel _ | .mldb _ | .mswap _ | .mzero _ | .mma _ | .mmas _
  | .mdrain _ | .mstat _ | .brk _ => [.sys]
  | .bra _ | .brc _ | .call _ | .calli _ | .ret _ | .exit _ | .trap _ | .nop _ | .runend _ | .rfe _ | .pgrel _ | .pgown _
  | .vfirst _ | .vuni _ | .vuniTry _ | .setpart _ | .rgacq _ | .rgacqTry _ | .rgrel _ | .recruit _ | .hwait _ | .hrel _
  | .xend _ | .tint _ | .untint _ | .tintq _ | .tintqClr _ | .mtry _ | .mwait _ | .mnote _ | .mnall _ | .watch _ | .tshape _
  | .tcopy _ | .waitcnt _ | .cntrd _ | .card _ | .cardTry _ | .eput _ | .eputTry _ | .eget _ | .qstat _ | .rdsr _ | .wrsr _
  | .rdtime _ | .yield _ | .prog _ | .rdhlc _ => [.uni]
  | _ => []

/-- The field checks of one instruction, beside those of `Fmt.common` and of its classes. DESIGN CHOICE (log entry 81): where a
description lists no type, or code 0 alone, the explicit code of the opcode's default type is an undefined value of R34 and raises
ILLENC (`ishuf` with code 1, `pack4` and `mksc` with code 3); and `vote`, whose lengths R123 does not state, takes the 128-bit form
for the ballot of class 00 alone, which has an operand that an immediate can give. -/
def Instr.fieldsOk : Instr → Bool
  | .add f | .sub f => f.arithOp true false
  | .mul f => f.arithOp false true
  | .mulhi f => f.intOp false false false
  | .mad f => f.intOp false true true
  | .and f | .or f | .xor f => f.bitOp
  | .not f => f.unaryBits true
  | .shl f => f.shlOp
  | .shr f | .sar f => f.shiftOp
  | .popc f | .clz f | .brev f => f.unaryBits false
  | .bfe f => f.fieldOp false
  | .bfi f => f.fieldOp true
  | .sel f => f.selOp
  | .min f | .max f => f.intOp true false false
  | .cmpEq f | .cmpNe f | .cmpLt f | .cmpLe f | .cmpGt f | .cmpGe f => f.cmpOp
  | .mov f => f.unaryBits true && (f.cls != .var || !f.ka)
  | .movi f => f.immOp
  | .lit f => f.immOp && f.immAligned
  | .idiv f | .irem f => f.intOp false false false
  | .fadd f | .fsub f | .fmul f | .fmin f | .fmax f => f.floatOp false
  | .ffma f => f.floatOp true
  | .fcmpEq f | .fcmpNe f | .fcmpLt f | .fcmpLe f | .fcmpGt f | .fcmpGe f | .fcmpUn f => f.fcmpOp
  | .rcp f | .sqrt f => f.sfuOp true
  | .rsqrt f | .exp2 f | .log2 f | .sin f | .cos f => f.sfuOp false
  | .cvt f => if f.cls = .var then f.cvtVar else f.cvtUni
  | .pack4 f => f.lenIn [.l96, .l128] && !f.ka && f.bVarUniImm && f.cOk && XRule.ok { useC := true, mA := true, rnds := allRnd } f.x
  | .unpk4 f => f.lenIn [.l96, .l128] && !f.ka && f.bVarUniImm && f.cOk && XRule.ok { useC := true, tys := tysF32 } f.x
  | .mksc f => f.lenIn [.l64, .l96, .l128] && !f.ka && f.bVarUniImm && XRule.ok { quals := [0, 1, 2, 3] } f.x
  | .tagrd f => f.lenIn [.l64, .l96] && !f.ka && f.bZero && f.x == {}
  | .tagset f => f.lenIn [.l64, .l96] && !f.ka && f.bNum 11 && f.x == {}
  | .bra f | .call f => f.lenIn [.l128] && f.bare && f.immAligned
  | .brc f => f.lenIn [.l128] && uniReg f.d && f.aZero && f.bZero && XRule.ok { tys := [.dflt, .i32] } f.x && f.immAligned
  | .calli f => f.lenIn [.l64] && f.dZero && uniPair f.a && !f.ka && f.bZero
  | .ret f | .exit f | .rfe f | .yield f | .exitl f => f.lenIn [.l64] && f.bare
  | .trap f => f.lenIn [.l64, .l128] && f.bare
  | .nop f => f.bare && f.imm == 0 && f.sig == 15
  | .runend f => f.bare && f.imm == 0 && f.sig == 15 && f.guard == 7
  | .brv f => f.lenIn [.l128] && !f.ka && !f.kb && f.x == {} && f.immAligned
  | .join f => f.lenIn [.l64] && f.bare && f.guard == 7
  | .jtab f => f.lenIn [.l128] && f.dZero && f.aVarAff && f.bZero && f.x == {} && f.guard == 7 && f.immAligned
  | .ld f => f.loadStore [.l64, .l96] [.rne, .rz]
  | .st f => f.loadStore [.l64, .l96] [.rne, .rpi]
  | .ldfe f => f.loadStore [.l96] [.rne, .rz]
  | .stfe f => f.loadStore [.l96] [.rne]
  | .ldline f => f.lenIn [.l64, .l96] && f.memOperand false &&
      XRule.ok { tys := [.dflt, .i32, .z32, .f32, .bf16, .f16, .f8e4, .f8e5, .i4, .b4], quals := [0, 1, 2, 3] } f.x
  | .pref f => f.lineOp [.rne, .rz]
  | .cwb f | .cinv f => f.lineOp [.rne]
  | .pgrel f | .pgown f => f.lenIn [.l64, .l96, .l128] && predNo f.d && f.memOperand true && f.x == {}
  | .atom f => f.atomic true
  | .red f => f.atomic false
  | .fence f => f.lenIn [.l64, .l96] && f.bare
  | .bar f | .barx f => f.lenIn [.l64] && f.dZero && f.aZero && f.bNum 8
  | .bcast f => f.lenIn [.l64, .l96] && f.aZero && f.kb && uniSrc f.b && XRule.ok { tys := [.dflt, .i32, .z32, .f32] } f.x
  | .mata f => f.lenIn [.l64, .l96] && f.ka && affSrc f.a && f.bZero && f.x == {}
  | .vfirst f => f.lenIn [.l64, .l96] && uniReg f.d && !f.ka && f.bNum 8 && f.x == {}
  | .vuni f => f.lenIn [.l64, .l96] && uniReg f.d && !f.ka && f.bZero && f.x == {}
  | .vuniTry f => f.lenIn [.l96] && uniReg f.d && !f.ka && f.bNum 8 && f.x == { qual := 1 }
  | .vaff f => f.lenIn [.l64, .l96] && affReg f.d && !f.ka && f.bNum 8 && f.x == {}
  | .mkaff f => f.lenIn [.l96, .l128] && affReg f.d && f.aZero &&
      (if f.len = .l128 then f.bZero else f.kb && uniSrc f.b) && uniSrc f.x.c && f.x.kc == 1 && XRule.ok { useC := true } f.x
  | .shfl f => f.lenIn [.l64, .l96, .l128] && f.aVarAff && f.bVarUniImm && XRule.ok { quals := [0, 1, 2, 3] } f.x
  | .vote f =>
      f.aNum 8 && XRule.ok { quals := [0, 1, 2, 3] } f.x &&
      (if f.x.qual == 3 then
        (if f.cls = .uni then uniReg f.d && (if f.len = .l128 then f.bZero else uniSrc f.b) else f.len != .l128 && f.bZero)
       else f.len != .l128 && predNo f.d && f.bZero)
  | .vred f => f.lenIn [.l64, .l96] && f.aVarAff && f.bZero && f.redX [0, 1, 2, 3, 4, 5, 6, 7, 8] [.dflt, .i32]
  | .scan f => f.lenIn [.l64, .l96] && f.aVarAff && f.bNum 2 && f.redX [0, 1, 2, 3, 4, 5, 6, 7, 8] [.dflt, .i32]
  | .ishuf f => f.lenIn [.l64, .l96, .l128] && f.aVarAff && f.bVarUniImm && f.x == {}
  | .pand f | .por f | .pxor f => f.lenIn [.l64, .l96] && predNo f.d && f.aNum 8 && predNo f.b && f.x == {}
  | .pnot f | .pmov f => f.lenIn [.l64, .l96] && predNo f.d && f.aNum 8 && f.bZero && f.x == {}
  | .setpart f => f.lenIn [.l64, .l128] && f.dZero && f.aZero && (if f.len = .l128 then f.bZero else uniSrc f.b) && f.x == {}
  | .rgacq f | .rgrel f => f.lenIn [.l128] && f.bare && f.imm.toNat < 32
  | .rgacqTry f => f.lenIn [.l128] && predNo f.d && f.aZero && f.bZero && f.x == { qual := 1 } && f.imm.toNat < 32
  | .rvsend f => f.lenIn [.l64] && f.dZero && f.aVarAff && f.bNum 16
  | .rvrecv f => f.lenIn [.l64] && f.aZero && f.bNum 16
  | .recruit f => f.lenIn [.l128] && uniReg f.d && !f.ka && uniSrc f.a && f.bNum 8 && f.cUni && XRule.ok { useC := true } f.x &&
      f.immAligned
  | .hnext f => f.lenIn [.l64] && f.aZero && f.bNum 8 && f.guard == 7
  | .hred f => f.lenIn [.l64, .l96] && !f.ka && f.bZero && f.redX [0, 1, 2, 3, 4, 5, 6] [.dflt, .i32, .z32]
  | .hwait f => f.lenIn [.l64] && predNo f.d && f.aZero && f.bZero
  | .hrel f | .hexit f | .xend f => f.lenIn [.l64] && f.bare
  | .xpand f => f.lenIn [.l64, .l96, .l128] && f.dZero && f.aVarAff && f.bVarUniImm && f.x == {}
  | .xpandN f => f.lenIn [.l96, .l128] && uniPair f.d && f.aVarAff && f.bVarUniImm && f.x == { qual := 1 }
  | .xnext f => f.lenIn [.l64] && !f.ka && f.bNum 8 && f.guard == 7
  | .segred f => f.lenIn [.l64, .l96] && !f.ka && f.bZero && f.redX [0, 1, 2, 6] []
  | .tint f => f.lenIn [.l96] && predNo f.d && uniPair f.a && !f.ka && uniSrc f.b && f.cUni && f.colX true [0]
  | .untint f => f.lenIn [.l64, .l96] && predNo f.d && uniPair f.a && !f.ka && uniSrc f.b && f.colX false [0]
  | .tintq f => f.lenIn [.l64, .l96] && uniPair f.d && uniPair f.a && !f.ka && f.bZero && f.colX false [0]
  | .tintqClr f => f.lenIn [.l96] && uniPair f.d && uniPair f.a && !f.ka && f.bZero && f.colX false [1]
  | .mtry f => f.lenIn [.l64, .l96] && predNo f.d && !f.ka && uniSrc f.a && f.bZero && f.colX false [0]
  | .mwait f | .mnote f | .mnall f => f.lenIn [.l64, .l96] && f.dZero && !f.ka && uniSrc f.a && f.bZero && f.colX false [0]
  | .watch f => f.lenIn [.l96, .l128] && uniReg f.d && uniPair f.a && !f.ka &&
      (if f.len = .l128 then f.bZero else uniReg f.b) && f.cUni && f.colX true [0, 1, 2, 3]
  | .tshape f => predNo f.d && f.x.qual.toNat < 8 && XRule.ok { quals := [f.x.qual] } f.x &&
      (if f.len = .l128 then f.aZero && f.bZero && f.immAligned else uniPair f.a && !f.ka && uniReg f.b)
  | .tcopy f => f.lenIn [.l64, .l96] && uniPair f.d && uniPair f.a && !f.ka && f.bNum 8 && XRule.ok { quals := [f.x.qual] } f.x
  | .waitcnt f => f.lenIn [.l64] && f.dZero && f.aNum 4 && f.bNum 64
  | .cntrd f => f.lenIn [.l64] && uniReg f.d && f.aNum 4 && f.bZero
  | .card f => f.lenIn [.l96] && f.dZero && uniPair f.a && !f.ka && uniReg f.b && f.cUni && XRule.ok { useC := true } f.x
  | .cardTry f => f.lenIn [.l96] && predNo f.d && uniPair f.a && !f.ka && uniReg f.b && f.cUni &&
      XRule.ok { useC := true, quals := [1] } f.x
  | .spawn f => f.lenIn [.l128] && f.dZero && Fmt.quad f.a && !f.ka && f.bZero && f.x == {} && f.immAligned
  | .eput f => f.lenIn [.l64, .l96] && f.dZero && uniReg f.a && Fmt.quad f.a && !f.ka && f.bNum 64 && f.x == {}
  | .eputTry f => f.lenIn [.l96] && predNo f.d && uniReg f.a && Fmt.quad f.a && !f.ka && f.bNum 64 && f.x == { qual := 1 }
  | .eget f => f.lenIn [.l64] && uniReg f.d && Fmt.quad f.d && f.aZero && f.bNum 64
  | .qstat f => f.lenIn [.l64] && uniReg f.d && f.aZero && f.bNum 64
  | .gang f => f.lenIn [.l64, .l96] && f.dZero && !f.ka && uniSrc f.a && f.bZero && f.x == {}
  | .macq f => f.lenIn [.l64, .l96] && f.d.toNat < 4 && f.aZero && f.bZero && f.x == {}
  | .macqTry f => f.lenIn [.l96] && f.d.toNat < 4 && f.aZero && f.bNum 8 && f.x == { qual := 1 }
  | .mrel f | .mzero f => f.lenIn [.l64] && f.d.toNat < 4 && f.aZero && f.bZero
  | .mldb f => f.lenIn [.l96, .l128] && f.d.toNat < 8 && uniPair f.a && !f.ka && f.bSys && XRule.ok { tys := tysMat, quals := [1, 2, 3] } f.x
  | .mswap f => f.lenIn [.l128] && f.bare && f.imm.toNat < 256
  | .mma f | .mmas f => f.lenIn [.l96, .l128] && f.d.toNat < 4 && Fmt.quad f.a && !f.ka && f.bSys &&
      (if f.x.ty = .b4 then uniSrc f.x.c && f.x.kc == 1 else f.x.c == 0 && f.x.kc == 0) && XRule.ok { useC := true, tys := tysMat } f.x
  | .mdrain f => f.lenIn [.l96, .l128] && f.d.toNat < 4 && uniPair f.a && !f.ka && f.bSys && uniSrc f.x.c && f.x.kc == 1 &&
      XRule.ok { useC := true, clamps := allClamp, scale := true, rnds := allRnd,
                 tys := [.dflt, .f32, .i32, .bf16, .f16, .f8e4, .f8e5], quals := [1, 2, 3] } f.x
  | .mstat f => uniReg f.d && f.aZero && f.bSys && f.x == {}
  | .rdsr f => f.lenIn [.l128] && f.dstOk f.x.ty.is64 && f.aZero && f.bZero && XRule.ok { tys := f.srTys } f.x
  | .wrsr f => f.lenIn [.l128] && f.dZero && f.aOk f.x.ty.is64 && f.bZero && XRule.ok { tys := f.srTys } f.x
  | .rdtime f | .rdhlc f => f.clockRead
  | .prog f => f.lenIn [.l64, .l96] && f.dZero && !f.ka && uniSrc f.a && f.bZero && f.x == {}
  | .brk f => f.lenIn [.l64, .l128] && f.bare && f.sig == 15
  | _ => true

/-- The fields of an encoded instruction; an event has none. -/
def Instr.fmt? : Instr → Option Fmt
  | .add f | .sub f | .mul f | .mulhi f | .mad f | .and f | .or f | .xor f | .not f | .shl f
  | .shr f | .sar f | .popc f | .clz f | .brev f | .bfe f | .bfi f | .sel f | .min f | .max f
  | .cmpEq f | .cmpNe f | .cmpLt f | .cmpLe f | .cmpGt f | .cmpGe f | .mov f | .movi f | .lit f | .idiv f
  | .irem f | .fadd f | .fsub f | .fmul f | .ffma f | .fmin f | .fmax f | .fcmpEq f | .fcmpNe f | .fcmpLt f
  | .fcmpLe f | .fcmpGt f | .fcmpGe f | .fcmpUn f | .rcp f | .rsqrt f | .sqrt f | .exp2 f | .log2 f | .sin f
  | .cos f | .cvt f | .pack4 f | .unpk4 f | .mksc f | .tagrd f | .tagset f | .bra f | .brc f | .call f
  | .calli f | .ret f | .exit f | .trap f | .nop f | .runend f | .rfe f | .brv f | .join f | .jtab f
  | .exitl f | .ld f | .st f | .ldfe f | .stfe f | .ldline f | .pref f | .cwb f | .cinv f | .pgrel f
  | .pgown f | .atom f | .red f | .fence f | .bar f | .barx f | .bcast f | .mata f | .vfirst f | .vuni f
  | .vuniTry f | .vaff f | .mkaff f | .shfl f | .vote f | .vred f | .scan f | .ishuf f | .pand f | .por f
  | .pxor f | .pnot f | .pmov f | .setpart f | .rgacq f | .rgacqTry f | .rgrel f | .rvsend f | .rvrecv f | .recruit f
  | .hnext f | .hred f | .hwait f | .hrel f | .hexit f | .xpand f | .xpandN f | .xnext f | .segred f | .xend f
  | .tint f | .untint f | .tintq f | .tintqClr f | .mtry f | .mwait f | .mnote f | .mnall f | .watch f | .tshape f
  | .tcopy f | .waitcnt f | .cntrd f | .card f | .cardTry f | .spawn f | .eput f | .eputTry f | .eget f | .qstat f
  | .gang f | .macq f | .macqTry f | .mrel f | .mldb f | .mswap f | .mzero f | .mma f | .mmas f | .mdrain f
  | .mstat f | .rdsr f | .wrsr f | .rdtime f | .yield f | .prog f | .brk f | .rdhlc f => some f
  | _ => none

/-- Whether the row is an event of the device rather than an encoded instruction. -/
def Instr.isEvent (i : Instr) : Bool := i.fmt?.isNone

/-- The bounds of an event's own numbers: partitions (R1), contexts, keys, dies, links; what an entry of R336 has room for. -/
def Instr.eventOk : Instr → Bool
  | .driverResume ctx _ _ | .driverRefuse ctx _ _ | .invalidate ctx _ _ => ctx.value < 1024
  | .invalidateDone ctx => ctx < 1024
  | .rqDoor part ring _ | .cardRead part ring | .slotReread part ring => part < 32 && ring < 8
  | .ringReset part ring => part < 32 && ring.value < 8
  | .dispatch part | .checkpoint part | .replayStop part _ | .replayCountReached part | .violationLogClear part
  | .partitionWriteDone part => part < 32
  | .partitionEntryWrite part e =>
    part < 32 && decide (e.ranges.length ≤ 8) && decide (e.windows.length ≤ 5) &&
      e.ranges.all fun r => r.1.toNat % 65536 == 0 && r.2.toNat % 65536 == 0
  | .contextDescriptorWrite ctx d => ctx < 1024 && d.value.part.toNat < 32
  | .edgeTableWrite ctx edge _ => ctx < 1024 && edge < 64
  | .keyCreate k | .keyRetire k | .keyRetireComplete k => k < 64
  | .latchTimeout _ tile | .metadataTimeout _ tile => tile < 4
  | .linkFailure l _ | .linkRetrained l => l < 4
  | .claimWrite u _ | .forcedClaim u =>
    match u with
    | .counterBank core => core < 256
    | .traceUnit die n => die < 4 && n < 4
    | .sampling core sched => core < 256 && sched < 4
  | _ => true

end Sys2Proof
end

