-- ==== Sys2Proof/WellFormed.lean ====
section
/-! DEFINITION. Well-formed instructions: the encodings with none of the fates of R38 that the encoding alone decides, and
the events whose numbers are in range. The checks of each instruction stand in Machine/Fields.lean. -/
namespace Sys2Proof

/-- A well-formed instruction: for an encoded one, an encoding with none of the fates ILLCLASS and ILLENC (R38); for an
event, numbers in range. -/
def Instr.wellFormed (i : Instr) : Bool :=
  match i.fmt? with
  | some f => f.common && i.classes.contains f.cls && i.fieldsOk
  | none => i.eventOk

end Sys2Proof
end

