-- ==== Sys2Proof/Decode.lean ====
section
/-! DEFINITION. Decoding and encoding (R24, R26, R31, R34 to R39, R45): the fields of the core word, the X-word and the
immediate word, the opcode map of R36, and the fates of R38 that the encoding alone decides. -/
namespace Sys2Proof

/-! ### Codes of the small fields -/

def Cls.code : Cls → BitVec 2
  | .uni => 0 | .aff => 1 | .var => 2 | .sys => 3

def Cls.ofCode (c : BitVec 2) : Cls :=
  if c = 0 then .uni else if c = 1 then .aff else if c = 2 then .var else .sys

def Len.code : Len → BitVec 2
  | .l64 => 1 | .l96 => 2 | .l128 => 3

/-- The length field; 0b00 names no length (R24). -/
def Len.ofCode? (c : BitVec 2) : Option Len :=
  if c = 1 then some .l64 else if c = 2 then some .l96 else if c = 3 then some .l128 else none

/-- The bytes of an instruction (R14). -/
def Len.bytes : Len → Nat
  | .l64 => 8 | .l96 => 12 | .l128 => 16

def Ty.bits (t : Ty) : BitVec 4 := BitVec.ofNat 4 t.code

def Ty.ofBits (b : BitVec 4) : Ty :=
  match b.toNat with
  | 0 => .dflt | 1 => .i32 | 2 => .z32 | 3 => .f32 | 4 => .i64 | 5 => .z64 | 6 => .bf16 | 7 => .f16
  | 8 => .f8e4 | 9 => .f8e5 | 10 => .i8 | 11 => .z8 | 12 => .i16 | 13 => .z16 | 14 => .i4 | _ => .b4

def Rnd.bits : Rnd → BitVec 2
  | .rne => 0 | .rz => 1 | .rpi => 2 | .rmi => 3

def Rnd.ofBits (b : BitVec 2) : Rnd :=
  if b = 0 then .rne else if b = 1 then .rz else if b = 2 then .rpi else .rmi

def Clamp.bits : Clamp → BitVec 2
  | .none => 0 | .unit => 1 | .pm1 => 2 | .sat => 3

def Clamp.ofBits (b : BitVec 2) : Clamp :=
  if b = 0 then .none else if b = 1 then .unit else if b = 2 then .pm1 else .sat

/-! ### The words -/

/-- The X-word, bits 95:64 of the instruction (R31, R34). -/
def XWord.ofBits (w : Word) : XWord :=
  { c := w.extractLsb' 0 8, negA := w.getLsbD 8, absA := w.getLsbD 9, negB := w.getLsbD 10, absB := w.getLsbD 11,
    negC := w.getLsbD 12, absC := w.getLsbD 13, kc := w.extractLsb' 14 2, clamp := Clamp.ofBits (w.extractLsb' 16 2),
    scale := w.extractLsb' 18 4, rnd := Rnd.ofBits (w.extractLsb' 22 2), ty := Ty.ofBits (w.extractLsb' 24 4),
    qual := w.extractLsb' 28 4 }

/-- The X-word from its fields, the most significant first. -/
def XWord.bits (x : XWord) : Word :=
  x.qual ++ x.ty.bits ++ x.rnd.bits ++ x.scale ++ x.clamp.bits ++ x.kc ++
    BitVec.ofBool x.absC ++ BitVec.ofBool x.negC ++ BitVec.ofBool x.absB ++ BitVec.ofBool x.negB ++
    BitVec.ofBool x.absA ++ BitVec.ofBool x.negA ++ x.c

/-- The fields of the three words (R26, R31, R35); `none` for length 0b00. Words that the length does not have are
not looked at. -/
def Fmt.ofWords (w : BitVec 64) (xw imm : Word) : Option Fmt :=
  (Len.ofCode? (w.extractLsb' 0 2)).map fun len =>
    { cls := Cls.ofCode (w.extractLsb' 2 2), len := len, d := w.extractLsb' 14 8, a := w.extractLsb' 22 8,
      b := w.extractLsb' 30 8, stall := w.extractLsb' 38 4, wait := w.extractLsb' 42 12, sig := w.extractLsb' 54 4,
      guard := w.extractLsb' 58 4, kb := w.getLsbD 62, ka := w.getLsbD 63,
      x := if len = .l64 then {} else XWord.ofBits xw, imm := if len = .l128 then imm else 0 }

/-- The opcode field, bits 13:4 (R26). -/
def opcodeOf (w : BitVec 64) : BitVec 10 := w.extractLsb' 4 10

/-- The core word from the opcode and the fields (R26). -/
def Fmt.coreWord (op : BitVec 10) (f : Fmt) : BitVec 64 :=
  BitVec.ofBool f.ka ++ BitVec.ofBool f.kb ++ f.guard ++ f.sig ++ f.wait ++ f.stall ++ f.b ++ f.a ++ f.d ++ op ++
    f.cls.code ++ f.len.code

/-- The opcode map of R36: the instruction that an opcode names, with its form chosen by the qualifier where two rows
share one opcode (R108, R128, R133, R192, R236, R277). -/
def Instr.ofOpcode (op : Nat) (f : Fmt) : Option Instr :=
  match op with
  | 0x000 => some (.add f)
  | 0x001 => some (.sub f)
  | 0x002 => some (.mul f)
  | 0x003 => some (.mulhi f)
  | 0x004 => some (.mad f)
  | 0x008 => some (.and f)
  | 0x009 => some (.or f)
  | 0x00A => some (.xor f)
  | 0x00B => some (.not f)
  | 0x00C => some (.shl f)
  | 0x00D => some (.shr f)
  | 0x00E => some (.sar f)
  | 0x010 => some (.popc f)
  | 0x011 => some (.clz f)
  | 0x012 => some (.brev f)
  | 0x013 => some (.bfe f)
  | 0x014 => some (.bfi f)
  | 0x018 => some (.sel f)
  | 0x019 => some (.min f)
  | 0x01A => some (.max f)
  | 0x020 => some (.cmpEq f)
  | 0x021 => some (.cmpNe f)
  | 0x022 => some (.cmpLt f)
  | 0x023 => some (.cmpLe f)
  | 0x024 => some (.cmpGt f)
  | 0x025 => some (.cmpGe f)
  | 0x028 => some (.mov f)
  | 0x029 => some (.movi f)
  | 0x02A => some (.lit f)
  | 0x030 => some (.idiv f)
  | 0x031 => some (.irem f)
  | 0x080 => some (.fadd f)
  | 0x081 => some (.fsub f)
  | 0x082 => some (.fmul f)
  | 0x083 => some (.ffma f)
  | 0x084 => some (.fmin f)
  | 0x085 => some (.fmax f)
  | 0x088 => some (.fcmpEq f)
  | 0x089 => some (.fcmpNe f)
  | 0x08A => some (.fcmpLt f)
  | 0x08B => some (.fcmpLe f)
  | 0x08C => some (.fcmpGt f)
  | 0x08D => some (.fcmpGe f)
  | 0x08E => some (.fcmpUn f)
  | 0x0C0 => some (.rcp f)
  | 0x0C1 => some (.rsqrt f)
  | 0x0C2 => some (.sqrt f)
  | 0x0C3 => some (.exp2 f)
  | 0x0C4 => some (.log2 f)
  | 0x0C5 => some (.sin f)
  | 0x0C6 => some (.cos f)
  | 0x100 => some (.cvt f)
  | 0x108 => some (.pack4 f)
  | 0x109 => some (.unpk4 f)
  | 0x10A => some (.mksc f)
  | 0x10C => some (.tagrd f)
  | 0x10D => some (.tagset f)
  | 0x140 => some (.bra f)
  | 0x141 => some (.brc f)
  | 0x142 => some (.call f)
  | 0x143 => some (.calli f)
  | 0x144 => some (.ret f)
  | 0x145 => some (.exit f)
  | 0x146 => some (.trap f)
  | 0x147 => some (.nop f)
  | 0x148 => some (.runend f)
  | 0x149 => some (.rfe f)
  | 0x150 => some (.brv f)
  | 0x151 => some (.join f)
  | 0x152 => some (.jtab f)
  | 0x153 => some (.exitl f)
  | 0x180 => some (.ld f)
  | 0x181 => some (.st f)
  | 0x182 => some (.ldfe f)
  | 0x183 => some (.stfe f)
  | 0x184 => some (.ldline f)
  | 0x185 => some (.pref f)
  | 0x188 => some (.cwb f)
  | 0x189 => some (.cinv f)
  | 0x18A => some (.pgrel f)
  | 0x18B => some (.pgown f)
  | 0x200 => some (.atom f)
  | 0x201 => some (.red f)
  | 0x208 => some (.fence f)
  | 0x20C => some (.bar f)
  | 0x20D => some (.barx f)
  | 0x240 => some (.bcast f)
  | 0x241 => some (.mata f)
  | 0x242 => some (.vfirst f)
  | 0x243 => some (if f.x.qual == 1 then .vuniTry f else .vuni f)
  | 0x244 => some (.vaff f)
  | 0x245 => some (.mkaff f)
  | 0x248 => some (.shfl f)
  | 0x249 => some (.vote f)
  | 0x24A => some (.vred f)
  | 0x24B => some (.scan f)
  | 0x24C => some (.ishuf f)
  | 0x250 => some (.pand f)
  | 0x251 => some (.por f)
  | 0x252 => some (.pxor f)
  | 0x253 => some (.pnot f)
  | 0x254 => some (.pmov f)
  | 0x258 => some (.setpart f)
  | 0x25C => some (if f.x.qual == 1 then .rgacqTry f else .rgacq f)
  | 0x25D => some (.rgrel f)
  | 0x260 => some (.rvsend f)
  | 0x261 => some (.rvrecv f)
  | 0x280 => some (.recruit f)
  | 0x281 => some (.hnext f)
  | 0x282 => some (.hred f)
  | 0x283 => some (.hwait f)
  | 0x284 => some (.hrel f)
  | 0x285 => some (.hexit f)
  | 0x290 => some (if f.x.qual == 1 then .xpandN f else .xpand f)
  | 0x291 => some (.xnext f)
  | 0x292 => some (.segred f)
  | 0x293 => some (.xend f)
  | 0x2C0 => some (.tint f)
  | 0x2C1 => some (.untint f)
  | 0x2C2 => some (if f.x.qual == 1 then .tintqClr f else .tintq f)
  | 0x2C3 => some (.mtry f)
  | 0x2C4 => some (.mwait f)
  | 0x2C5 => some (.mnote f)
  | 0x2C6 => some (.mnall f)
  | 0x2C7 => some (.watch f)
  | 0x300 => some (.tshape f)
  | 0x301 => some (.tcopy f)
  | 0x308 => some (.waitcnt f)
  | 0x309 => some (.cntrd f)
  | 0x310 => some (if f.x.qual == 1 then .cardTry f else .card f)
  | 0x311 => some (.spawn f)
  | 0x318 => some (if f.x.qual == 1 then .eputTry f else .eput f)
  | 0x319 => some (.eget f)
  | 0x31A => some (.qstat f)
  | 0x340 => some (.gang f)
  | 0x341 => some (if f.x.qual == 1 then .macqTry f else .macq f)
  | 0x342 => some (.mrel f)
  | 0x343 => some (.mldb f)
  | 0x344 => some (.mswap f)
  | 0x345 => some (.mzero f)
  | 0x348 => some (.mma f)
  | 0x349 => some (.mmas f)
  | 0x34A => some (.mdrain f)
  | 0x34C => some (.mstat f)
  | 0x380 => some (.rdsr f)
  | 0x381 => some (.wrsr f)
  | 0x382 => some (.rdtime f)
  | 0x383 => some (.yield f)
  | 0x388 => some (.prog f)
  | 0x390 => some (.brk f)
  | 0x391 => some (.rdhlc f)
  | _ => none

/-- The opcode of an instruction (R36); an event has none. -/
def Instr.opcode? : Instr → Option (BitVec 10)
  | .add _ => some 0x000#10
  | .sub _ => some 0x001#10
  | .mul _ => some 0x002#10
  | .mulhi _ => some 0x003#10
  | .mad _ => some 0x004#10
  | .and _ => some 0x008#10
  | .or _ => some 0x009#10
  | .xor _ => some 0x00A#10
  | .not _ => some 0x00B#10
  | .shl _ => some 0x00C#10
  | .shr _ => some 0x00D#10
  | .sar _ => some 0x00E#10
  | .popc _ => some 0x010#10
  | .clz _ => some 0x011#10
  | .brev _ => some 0x012#10
  | .bfe _ => some 0x013#10
  | .bfi _ => some 0x014#10
  | .sel _ => some 0x018#10
  | .min _ => some 0x019#10
  | .max _ => some 0x01A#10
  | .cmpEq _ => some 0x020#10
  | .cmpNe _ => some 0x021#10
  | .cmpLt _ => some 0x022#10
  | .cmpLe _ => some 0x023#10
  | .cmpGt _ => some 0x024#10
  | .cmpGe _ => some 0x025#10
  | .mov _ => some 0x028#10
  | .movi _ => some 0x029#10
  | .lit _ => some 0x02A#10
  | .idiv _ => some 0x030#10
  | .irem _ => some 0x031#10
  | .fadd _ => some 0x080#10
  | .fsub _ => some 0x081#10
  | .fmul _ => some 0x082#10
  | .ffma _ => some 0x083#10
  | .fmin _ => some 0x084#10
  | .fmax _ => some 0x085#10
  | .fcmpEq _ => some 0x088#10
  | .fcmpNe _ => some 0x089#10
  | .fcmpLt _ => some 0x08A#10
  | .fcmpLe _ => some 0x08B#10
  | .fcmpGt _ => some 0x08C#10
  | .fcmpGe _ => some 0x08D#10
  | .fcmpUn _ => some 0x08E#10
  | .rcp _ => some 0x0C0#10
  | .rsqrt _ => some 0x0C1#10
  | .sqrt _ => some 0x0C2#10
  | .exp2 _ => some 0x0C3#10
  | .log2 _ => some 0x0C4#10
  | .sin _ => some 0x0C5#10
  | .cos _ => some 0x0C6#10
  | .cvt _ => some 0x100#10
  | .pack4 _ => some 0x108#10
  | .unpk4 _ => some 0x109#10
  | .mksc _ => some 0x10A#10
  | .tagrd _ => some 0x10C#10
  | .tagset _ => some 0x10D#10
  | .bra _ => some 0x140#10
  | .brc _ => some 0x141#10
  | .call _ => some 0x142#10
  | .calli _ => some 0x143#10
  | .ret _ => some 0x144#10
  | .exit _ => some 0x145#10
  | .trap _ => some 0x146#10
  | .nop _ => some 0x147#10
  | .runend _ => some 0x148#10
  | .rfe _ => some 0x149#10
  | .brv _ => some 0x150#10
  | .join _ => some 0x151#10
  | .jtab _ => some 0x152#10
  | .exitl _ => some 0x153#10
  | .ld _ => some 0x180#10
  | .st _ => some 0x181#10
  | .ldfe _ => some 0x182#10
  | .stfe _ => some 0x183#10
  | .ldline _ => some 0x184#10
  | .pref _ => some 0x185#10
  | .cwb _ => some 0x188#10
  | .cinv _ => some 0x189#10
  | .pgrel _ => some 0x18A#10
  | .pgown _ => some 0x18B#10
  | .atom _ => some 0x200#10
  | .red _ => some 0x201#10
  | .fence _ => some 0x208#10
  | .bar _ => some 0x20C#10
  | .barx _ => some 0x20D#10
  | .bcast _ => some 0x240#10
  | .mata _ => some 0x241#10
  | .vfirst _ => some 0x242#10
  | .vuni _ => some 0x243#10
  | .vuniTry _ => some 0x243#10
  | .vaff _ => some 0x244#10
  | .mkaff _ => some 0x245#10
  | .shfl _ => some 0x248#10
  | .vote _ => some 0x249#10
  | .vred _ => some 0x24A#10
  | .scan _ => some 0x24B#10
  | .ishuf _ => some 0x24C#10
  | .pand _ => some 0x250#10
  | .por _ => some 0x251#10
  | .pxor _ => some 0x252#10
  | .pnot _ => some 0x253#10
  | .pmov _ => some 0x254#10
  | .setpart _ => some 0x258#10
  | .rgacq _ => some 0x25C#10
  | .rgacqTry _ => some 0x25C#10
  | .rgrel _ => some 0x25D#10
  | .rvsend _ => some 0x260#10
  | .rvrecv _ => some 0x261#10
  | .recruit _ => some 0x280#10
  | .hnext _ => some 0x281#10
  | .hred _ => some 0x282#10
  | .hwait _ => some 0x283#10
  | .hrel _ => some 0x284#10
  | .hexit _ => some 0x285#10
  | .xpand _ => some 0x290#10
  | .xpandN _ => some 0x290#10
  | .xnext _ => some 0x291#10
  | .segred _ => some 0x292#10
  | .xend _ => some 0x293#10
  | .tint _ => some 0x2C0#10
  | .untint _ => some 0x2C1#10
  | .tintq _ => some 0x2C2#10
  | .tintqClr _ => some 0x2C2#10
  | .mtry _ => some 0x2C3#10
  | .mwait _ => some 0x2C4#10
  | .mnote _ => some 0x2C5#10
  | .mnall _ => some 0x2C6#10
  | .watch _ => some 0x2C7#10
  | .tshape _ => some 0x300#10
  | .tcopy _ => some 0x301#10
  | .waitcnt _ => some 0x308#10
  | .cntrd _ => some 0x309#10
  | .card _ => some 0x310#10
  | .cardTry _ => some 0x310#10
  | .spawn _ => some 0x311#10
  | .eput _ => some 0x318#10
  | .eputTry _ => some 0x318#10
  | .eget _ => some 0x319#10
  | .qstat _ => some 0x31A#10
  | .gang _ => some 0x340#10
  | .macq _ => some 0x341#10
  | .macqTry _ => some 0x341#10
  | .mrel _ => some 0x342#10
  | .mldb _ => some 0x343#10
  | .mswap _ => some 0x344#10
  | .mzero _ => some 0x345#10
  | .mma _ => some 0x348#10
  | .mmas _ => some 0x349#10
  | .mdrain _ => some 0x34A#10
  | .mstat _ => some 0x34C#10
  | .rdsr _ => some 0x380#10
  | .wrsr _ => some 0x381#10
  | .rdtime _ => some 0x382#10
  | .yield _ => some 0x383#10
  | .prog _ => some 0x388#10
  | .brk _ => some 0x390#10
  | .rdhlc _ => some 0x391#10
  | _ => none

/-- Decoding of the three words: ILLEN, ILLOP, ILLCLASS and ILLENC in the order of R39. -/
def decodeWords (w : BitVec 64) (xw imm : Word) : Except Code Instr :=
  match Fmt.ofWords w xw imm with
  | none => .error .ILLEN
  | some f =>
    match Instr.ofOpcode (opcodeOf w).toNat f with
    | none => .error .ILLOP
    | some i =>
      if i.classes.contains f.cls then
        if i.wellFormed then .ok i else .error .ILLENC
      else .error .ILLCLASS

/-- The value of up to `n` bytes, the lowest address first (R8); missing bytes count as zero. -/
def leNat : Nat → List Byte → Nat
  | 0, _ => 0
  | _ + 1, [] => 0
  | n + 1, b :: bs => b.toNat + 256 * leNat n bs

/-- The `n` bytes of a value, the lowest address first (R8). -/
def leBytes : Nat → Nat → List Byte
  | 0, _ => []
  | n + 1, v => BitVec.ofNat 8 v :: leBytes n (v / 256)

/-- Decoding of the bytes at an instruction's address, lowest address first. -/
def decode (bytes : List Byte) : Except Code Instr :=
  decodeWords (BitVec.ofNat 64 (leNat 8 bytes)) (BitVec.ofNat 32 (leNat 4 (bytes.drop 8)))
    (BitVec.ofNat 32 (leNat 4 (bytes.drop 12)))

/-- The bytes that encode an instruction; an event has none. -/
def encode (i : Instr) : List Byte :=
  match i.opcode?, i.fmt? with
  | some op, some f =>
    leBytes 8 (f.coreWord op).toNat ++
      (match f.len with
       | .l64 => []
       | .l96 => leBytes 4 f.x.bits.toNat
       | .l128 => leBytes 4 f.x.bits.toNat ++ leBytes 4 f.imm.toNat)
  | _, _ => []

/-- The instruction read from a word whose bit 0 is the least significant bit of the first word and whose bits above
`nbits` are zero. -/
def decodeTableWord (nbits w : Nat) : Option Instr :=
  match decode (leBytes 16 (w % 2 ^ nbits)) with
  | .ok i => some i
  | .error _ => none

end Sys2Proof
end

