-- ==== Sys2Proof/Machine/Arith.lean ====
section
/-! DEFINITION. Integer arithmetic of the sequential machine (R32, R51 to R56, R59, R89, R90, R95): exact values, wrapping and
saturation, shifts, bit fields, division, comparison. -/
namespace Sys2Proof

/-- Whether a type code reads as unsigned: the z-types (R51). -/
def Ty.unsigned : Ty → Bool
  | .z32 | .z64 | .z8 | .z16 => true
  | _ => false

/-- The width w of R51. -/
def Ty.width (t : Ty) : Nat := match t with | .i64 | .z64 => 64 | _ => 32

/-- The least value of an i-type or z-type of `w` bits (R51). -/
def loOf (w : Nat) (uns : Bool) : Int := if uns then 0 else -(2 ^ (w - 1) : Int)

/-- The greatest value of an i-type or z-type of `w` bits (R51). -/
def hiOf (w : Nat) (uns : Bool) : Int := if uns then 2 ^ w - 1 else 2 ^ (w - 1) - 1

/-- `val` of R51: the exact integer that the bits stand for. -/
def valOf {w : Nat} (uns : Bool) (x : BitVec w) : Int := if uns then (x.toNat : Int) else x.toInt

/-- Confines an integer to a range. -/
def clampInt (lo hi x : Int) : Int := if x < lo then lo else if hi < x then hi else x

/-- `wrapsat` of R51. -/
def wrapsat (w : Nat) (uns sat : Bool) (x : Int) : BitVec w :=
  BitVec.ofInt w (if sat then clampInt (loOf w uns) (hiOf w uns) x else x)

/-- The integer modifiers of R32: absolute value, then negation, both modulo the width. -/
def modInt {w : Nat} (ab ng : Bool) (x : BitVec w) : BitVec w :=
  let y := if ab && x.msb then -x else x
  if ng then -y else y

/-- The operations of R52, R55 and R59 on exact values. -/
inductive IntOp where
  | add | sub | mul | min | max
  deriving DecidableEq, Repr

def IntOp.exact : IntOp → Int → Int → Int
  | .add, a, b => a + b
  | .sub, a, b => a - b
  | .mul, a, b => a * b
  | .min, a, b => if a ≤ b then a else b
  | .max, a, b => if a ≤ b then b else a

/-- `mulhi` (R52): the high 32 bits of the exact product. -/
def mulhi (uns : Bool) (a b : Word) : Word := BitVec.ofInt 32 ((valOf uns a * valOf uns b) / 2 ^ 32)

/-- The bitwise operations of R53. -/
inductive BitOp where
  | and | or | xor
  deriving DecidableEq, Repr

def BitOp.apply {w : Nat} : BitOp → BitVec w → BitVec w → BitVec w
  | .and, a, b => a &&& b
  | .or, a, b => a ||| b
  | .xor, a, b => a ^^^ b

/-- The shifts of R53 by a 32-bit count. -/
inductive ShiftOp where
  | shl | shr | sar
  deriving DecidableEq, Repr

def ShiftOp.apply {w : Nat} (op : ShiftOp) (a : BitVec w) (n : Nat) : BitVec w :=
  match op with
  | .shl => if n ≥ w then 0 else a <<< n
  | .shr => if n ≥ w then 0 else a >>> n
  | .sar => if n ≥ w then (if a.msb then -1 else 0) else a.sshiftRight n

/-- The number of 1 bits among the low `n`. -/
def popcount (x : Nat) : Nat → Nat
  | 0 => 0
  | n + 1 => (if x.testBit n then 1 else 0) + popcount x n

/-- `popc` (R54). -/
def popc (a : Word) : Word := BitVec.ofNat 32 (popcount a.toNat 32)

/-- `clz` (R54): 32 for zero. -/
def clz (a : Word) : Word := if a = 0 then 32 else BitVec.ofNat 32 (31 - a.toNat.log2)

/-- The value of the bits `f 0, f 1, …, f (n-1)`. -/
def bitsNat (f : Nat → Bool) : Nat → Nat
  | 0 => 0
  | n + 1 => bitsNat f n + (if f n then 2 ^ n else 0)

/-- `brev` (R54). -/
def brev (a : Word) : Word := BitVec.ofNat 32 (bitsNat (fun i => a.toNat.testBit (31 - i)) 32)

/-- The effective length m of the bit-field instructions (R54), from the position-length operand. -/
def fieldLen (b : Word) : Nat :=
  let p := b.toNat % 256
  let n := b.toNat / 256 % 256
  if p ≥ 32 then 0 else if n ≤ 32 - p then n else 32 - p

/-- `bfe` (R54). -/
def bfe (uns : Bool) (a b : Word) : Word :=
  let p := b.toNat % 256
  let m := fieldLen b
  let f := a.toNat / 2 ^ p % 2 ^ m
  if m = 0 then 0
  else if !uns && f.testBit (m - 1) then BitVec.ofInt 32 ((f : Int) - 2 ^ m) else BitVec.ofNat 32 f

/-- `bfi` (R54). -/
def bfi (a b c : Word) : Word :=
  let p := b.toNat % 256
  let m := fieldLen b
  let mask : Word := BitVec.ofNat 32 ((2 ^ m - 1) * 2 ^ p)
  (c &&& ~~~mask) ||| ((a <<< p) &&& mask)

/-- The comparisons of R56 on exact values. -/
inductive Cond where
  | eq | ne | lt | le | gt | ge
  deriving DecidableEq, Repr

def Cond.holds : Cond → Int → Int → Bool
  | .eq, a, b => a = b
  | .ne, a, b => a ≠ b
  | .lt, a, b => a < b
  | .le, a, b => a ≤ b
  | .gt, a, b => b < a
  | .ge, a, b => b ≤ a

/-- `idiv` (R59). -/
def idiv (uns : Bool) (a b : Word) : Word :=
  if b = 0 then 0xFFFFFFFF
  else BitVec.ofInt 32 (Int.tdiv (valOf uns a) (valOf uns b))

/-- `irem` (R59). -/
def irem (uns : Bool) (a b : Word) : Word :=
  if b = 0 then a else BitVec.ofInt 32 (Int.tmod (valOf uns a) (valOf uns b))

/-- Sign-extends or zero-extends the low `n` bits of a number into a word of `w` bits (R9). -/
def extendTo (w n : Nat) (uns : Bool) (x : Nat) : BitVec w :=
  let y := x % 2 ^ n
  if !uns && y.testBit (n - 1) then BitVec.ofInt w ((y : Int) - 2 ^ n) else BitVec.ofNat w y

/-- A PC-relative target (R66): the address plus sx(imm, 32). -/
def pcRel (pc : Addr) (imm : Word) : Addr := pc + imm.signExtend 64

/-- The canonical form of R14 and R17: bits 63:57 equal bit 56. -/
def canonical (a : Addr) : Bool := (a.extractLsb' 0 57).signExtend 64 = a

end Sys2Proof
end

