-- ==== Sys2Proof/Machine/Map.lean ====
section
/-! DEFINITION. Sparse tables: plain data that stands for a function from numbers to values. The canonical form has its keys
strictly rising and no entry equal to the table's default, so that equal tables are equal data. -/
namespace Sys2Proof

/-- What key `k` holds; `d` is what an unlisted key holds. -/
def SMap.get {α : Type} (m : SMap α) (d : α) (k : Nat) : α :=
  match m with
  | [] => d
  | (i, x) :: r => if i = k then x else SMap.get r d k

/-- Removes every entry of key `k`. -/
def SMap.erase {α : Type} (m : SMap α) (k : Nat) : SMap α :=
  match m with
  | [] => []
  | (i, x) :: r => if i = k then SMap.erase r k else (i, x) :: SMap.erase r k

/-- Puts an entry before the first one with a greater key. -/
def SMap.insert {α : Type} (m : SMap α) (k : Nat) (v : α) : SMap α :=
  match m with
  | [] => [(k, v)]
  | (i, x) :: r => if k < i then (k, v) :: (i, x) :: r else (i, x) :: SMap.insert r k v

/-- Makes key `k` hold `v`; a value equal to the default is not listed. -/
def SMap.set {α : Type} [DecidableEq α] (m : SMap α) (d : α) (k : Nat) (v : α) : SMap α :=
  if v = d then m.erase k else (m.erase k).insert k v

/-- Sets the keys `k, k+1, …` to the listed values. -/
def SMap.setList {α : Type} [DecidableEq α] (m : SMap α) (d : α) (k : Nat) : List α → SMap α
  | [] => m
  | v :: vs => SMap.setList (m.set d k v) d (k + 1) vs

/-- The values of `n` keys from `k` on. -/
def SMap.getList {α : Type} (m : SMap α) (d : α) (k n : Nat) : List α :=
  (List.range n).map fun i => m.get d (k + i)

/-- Removes every entry whose key satisfies the test. -/
def SMap.dropKeys {α : Type} (m : SMap α) (p : Nat → Bool) : SMap α := m.filter fun e => !p e.1

/-- The canonical form: keys strictly rising from `lo` on, no entry equal to the default. -/
def SMap.wfFrom {α : Type} [DecidableEq α] (d : α) (lo : Nat) : SMap α → Bool
  | [] => true
  | (i, x) :: r => decide (lo ≤ i) && decide (x ≠ d) && SMap.wfFrom d (i + 1) r

/-- The canonical form of a table. -/
def SMap.wf {α : Type} [DecidableEq α] (m : SMap α) (d : α) : Bool := SMap.wfFrom d 0 m

/-! ### Lists in order -/

/-- Puts an element before the first one whose measure is not less. -/
def insertBy {α : Type} (g : α → Nat) (x : α) : List α → List α
  | [] => [x]
  | y :: r => if g x ≤ g y then x :: y :: r else y :: insertBy g x r

/-- Sorts by a measure; equals keep their order. -/
def sortBy {α : Type} (g : α → Nat) : List α → List α
  | [] => []
  | x :: r => insertBy g x (sortBy g r)

/-- Sorts numbers. -/
def sortNats (l : List Nat) : List Nat := sortBy id l

end Sys2Proof
end

