-- ==== Sys2Proof/Machine/Types.lean ====
section
/-! DEFINITION. The records that the machine's state is made of: registers and their scoreboard, splits, teams. -/
namespace Sys2Proof.Machine

/-- The grades of the Chroad (R1). -/
inductive Grade where
  | x256m | x256p | l240m | s224m
  deriving DecidableEq, Repr

/-- The code of a grade in the enumeration table (R331). -/
def Grade.code : Grade → Nat
  | .x256m => 0
  | .x256p => 1
  | .l240m => 2
  | .s224m => 3

/-- The grade of a code. -/
def gradeOf (n : Nat) : Grade :=
  match n % 4 with
  | 0 => .x256m
  | 1 => .x256p
  | 2 => .l240m
  | _ => .s224m

/-- Live cores on each die (R330): logical numbers are dense, die after die. -/
def Grade.coresPerDie : Grade → Nat
  | .x256m | .x256p => 64
  | .l240m => 60
  | .s224m => 56

/-- Live cores, and vaults. -/
def Grade.cores (g : Grade) : Nat := 4 * g.coresPerDie

/-- GB of each of the eight stacks. -/
def Grade.stackGB : Grade → Nat
  | .s224m => 36
  | _ => 48

/-- An affine register's pair (R89). -/
structure Affine where
  base   : Word := 0
  stride : Word := 0
  deriving DecidableEq, Repr

/-- A register that an instruction reads or writes. -/
inductive Reg where
  | s (n : Nat)     -- uniform
  | q (n : Nat)     -- uniform predicate
  | a (n : Nat)     -- affine
  | v (n : Nat)     -- varying, or a temporary from 248 on
  | p (n : Nat)     -- varying predicate
  deriving DecidableEq, Repr

/-- One register's part of a result: what lands when the result is written. -/
inductive Landing where
  | word (n : Nat) (w : Word)                                            -- a uniform register
  | bit (n : Nat) (b : Bool)                                             -- a uniform predicate
  | pair (n : Nat) (x : Affine)                                          -- an affine register
  | lanes (n : Nat) (tag : Option Tag) (vals : List (Nat × Word))        -- lanes of a varying register
  | preds (n : Nat) (vals : List (Nat × Bool))                           -- lanes of a varying predicate
  deriving DecidableEq, Repr

/-- A fixed-latency result that is written but not readable yet (R46, R49): what the register held before, when the first
rank of `ranks` becomes readable, and the next rank one cycle later; `split` is the split that issued it. -/
structure Fresh where
  reg     : Reg
  old     : Landing
  readyAt : Nat
  ranks   : BitVec 32
  split   : Nat := 0
  run     : Nat := 0                 -- when that split's run began: a temporary lives within it
  deriving DecidableEq, Repr

/-- What one rank of a swept instruction sees where other ranks see another value (R49): a uniform source, or for `ishuf` a lane of
another rank. Only what an instruction reads from holds any. -/
structure Glimpse where
  rank : Nat
  what : Landing
  deriving DecidableEq, Repr

/-- A sig flag's outstanding instruction (R47): how many effects are still to complete, or the cycle at which they do. -/
structure Flight where
  id   : Nat
  sig  : Option Nat
  left : Nat
  due  : Option Nat := none
  split : Nat := 0                   -- the split that issued it
  owing : Bool := false              -- some ranks of its instruction are still to issue (R256)
  deriving DecidableEq, Repr

/-- A variable-latency result on its way (R46): the registers it awaits, and its values once they are known. -/
structure Pending where
  id     : Nat
  flight : Nat
  regs   : List Reg
  value  : Option (List Landing)
  split  : Nat
  run    : Nat := 0                  -- the cycle at which that split's run began: a temporary lives within it
  deriving DecidableEq, Repr

/-- Page kinds (R172). -/
inductive PageKind where
  | rc | so | uo
  deriving DecidableEq, Repr

/-- Coherence domains (R174). -/
inductive Domain where
  | core | die | package | system
  deriving DecidableEq, Repr

/-- A violation (R302). -/
structure Viol where
  part  : Nat
  addr  : Nat
  va    : Addr
  who   : Nat
  unit  : Nat
  kind  : Nat
  key   : Nat
  cause : Nat
  die   : Nat
  deriving DecidableEq, Repr

/-- Where an access of a lane lands. -/
structure Loc where
  lane   : Nat
  va     : Addr
  keys   : List Nat
  page   : PageKind := .rc
  dom    : Domain := .core
  inside : Bool := true
  hosts  : List Nat := []            -- the host pages that it meets and the device does not own
  met    : List Nat := []            -- every host page that it meets
  word   : Option Nat := none        -- of a private access of 8 bytes, which of its words (R166)
  kid    : Nat := 0
  spans  : List (Addr × Nat) := []   -- its bytes in global addresses, and how many from each on
  drop   : Option Viol := none       -- its error response (R301)
  grace  : Bool := false             -- it passed its check before its key identifier was retired (R338)
  deriving DecidableEq, Repr

/-- The run state of a split (R40 to R42). -/
structure Run where
  active  : Bool := false
  count   : Nat := 0
  temps   : SMap Word := []          -- temporary t, lane l at key 1024 × t + l
  tags    : SMap Tag := []           -- tag of temporary t
  files   : SMap (Option (Nat × Tag)) := []  -- tags that half of a wave split has written, with where it stood (R170)
  written : BitVec 8 := 0
  waved   : Bool := false            -- a wave split has occurred in it (R169)
  deriving DecidableEq, Repr

/-- A fault record: the code, `fraddr` and `frlane` (R15, R303). -/
structure Flt where
  code : Code
  addr : Addr := 0
  lane : Word := 0xFFFFFFFF
  deriving DecidableEq, Repr

/-- The wait kinds of R310 and what each waits for. -/
inductive Park where
  | none
  | colour (still : List Nat)                        -- acquisition of colours (R184)
  | mwait (colour depth flight : Nat)                -- on a wait list or its entry queue (R197)
  | watch (spc : Space) (addr : Addr) (value : Word) -- R197
  | ldfe                                             -- R168
  | barrier (b : Nat)                                -- R131
  | rendezvous (slot : Nat) (send : Bool)            -- R130
  | queue                                            -- eput, eget or card (R249, R251)
  | acquire (blocks : Nat)                           -- rgacq (R128)
  | expandUnit                                       -- xpand on a full unit (R149)
  | token (tile : Nat)                               -- macq (R279)
  | unit                                             -- mldb and other requests on a bound unit (R274)
  | driver (f : Flt)                                 -- driver fault, and the XLATE of a refusal (R298)
  | page (n : Nat) (f : Option Flt)                  -- host hand-over, with the MIGRATE of a refusal (R176), or pgown (R228)
  | latch (tile : Nat)                               -- a rendezvous latch, in place (R284)
  | reclaim                                          -- a donor whose lanes are not all back (R145)
  | helpers                                          -- hwait, until the group is empty (R143)
  | stalled                                          -- xend, ret, mwait: tries again when the machine moves
  | paused                                           -- no park: the next instruction does not issue yet (R128, R154, R237, R284, R329)
  | counter (cls bound : Nat)                        -- waitcnt (R238)
  | stop                                             -- stopped or frozen for the debugger (R316)
  | withTeam                                         -- another split's wait parks the whole team (R100, R176, R298)
  deriving DecidableEq, Repr

/-- One half of a wave split (R169, R170): the other half's split, whether this half's lanes hit, the splitting load's flight,
the half's lanes, and the trailer before which it stops. -/
structure Wave where
  other  : Nat
  hit    : Bool
  flight : Nat
  lanes  : Mask
  stop   : Addr
  deriving DecidableEq, Repr

/-- A split entry (R96, R100). -/
structure Split where
  id      : Nat := 0
  entry   : Nat := 0                 -- the number of its entry in the split table, and 16 more inside a handler (R96, R99)
  pc      : Addr := 0
  mask    : Mask := 0
  link    : Option Nat := none       -- the innermost join record
  run     : Run := {}
  trailer : BitVec 12 := 0           -- the mask of the last trailer (R40)
  awaits  : List Nat := []           -- flights that the next run waits for (R46)
  last    : Nat := 0                 -- cycle after which the next instruction may issue, less 1 (R47)
  owed    : Nat := 0                 -- ranks of its last instruction that its context's budget has not let issue yet (R256)
  begun   : Nat := 0                 -- when the run began, and the order of runs (R48)
  inSlot  : Bool := false            -- its run holds a run slot (R42, R48)
  waits   : Nat := 0                 -- runs of other splits of its scheduler and tenant begun since it may begin one (R102)
  yielded : Bool := false            -- it has yielded in its run (R77)
  behind  : List Nat := []           -- the splits that its next run comes behind, since it yielded (R77)
  buffer  : Bool := false            -- holds an instruction-buffer entry
  request : Option Nat := none       -- order of its request for one (R100)
  park    : Park := .none
  gated   : Option (List Loc) := none        -- what the checks of an access found before its colours were awaited (R184)
  wave    : Option Wave := none
  answer  : Option Bool := none      -- whether the host has granted the page of its pgown (R228)
  older   : List Nat := []           -- entries of the order machine that are older in team order
  barred  : List Nat := []           -- entries that barriers have made older (R210)
  deriving DecidableEq, Repr

/-- A join record (R96). -/
structure Join where
  addr    : Addr
  expects : Mask
  arrived : Mask
  outer   : Option Nat
  older   : List Nat := []           -- what the arrived splits had before them in team order (R200)
  barred  : List Nat := []
  awaits  : List Nat := []
  held    : Bool := false            -- formed by the splits that a handler holds (R303)
  deriving DecidableEq, Repr

/-- What a handler keeps (R42, R303): the faulting split and the team's other splits. -/
structure Handler where
  fault : Split
  held  : List Split
  deriving DecidableEq, Repr

/-! ### Harvest and the expand unit (R134, R141, R148, R149) -/

/-- The states of a recruitment (R134). -/
inductive RecruitState where
  | none | active | released | cancelled
  deriving DecidableEq, Repr

/-- A reduction target (R141, R142): a register with one operation, and what each iteration has contributed so far. -/
structure Target where
  reg   : Nat
  op    : Nat                        -- the qualifier of R141
  rnd   : Rnd
  parts : List (Nat × Word) := []    -- iteration, folded contribution
  deriving DecidableEq, Repr

/-- A lane that is lent to a helper (R135, R145). -/
structure Lent where
  team      : Nat                    -- the donor
  lane      : Nat
  helper    : Nat
  reclaimed : Option Nat := none     -- the cycle of the reclaim
  deriving DecidableEq, Repr

/-- A recruitment (R134, R148). -/
structure Recruit where
  state    : RecruitState := .none
  l0       : Nat := 0
  total    : Nat := 0
  next     : Nat := 0
  returned : List Nat := []
  targets  : List Target := []
  current  : List (Nat × Nat) := []  -- helper, its current iteration
  mine     : List (Nat × Nat) := []  -- recruiter's lane, its current iteration
  group    : Option Nat := none      -- the helper group's team
  fault    : Option (Nat × Code × Nat × Addr) := none    -- helper, code, iteration, address (R147)
  deriving DecidableEq, Repr

/-- An owner of an expansion (R149, R150). -/
structure SegOwner where
  lane  : Nat
  start : Word
  base  : Nat
  len   : Nat
  deriving DecidableEq, Repr

/-- A buffered segment result (R153). -/
structure Segment where
  wave  : Nat
  reg   : Nat
  op    : Nat
  rnd   : Rnd
  owner : Nat
  value : Word
  deriving DecidableEq, Repr

/-- An expansion (R149). -/
structure Expansion where
  w         : Nat
  workers   : Mask
  owners    : List SegOwner
  total     : Nat
  next      : Nat := 0
  returned  : List Nat := []
  segments  : List Segment := []     -- in order of buffering
  mixed     : List Nat := []         -- destinations of its `segred`s, register r and owner l as 1024 × r + l
  closed    : List Nat := []         -- closed waves not applied yet
  applied   : Nat := 0               -- waves below this one are applied
  current   : Option Nat := none     -- the team's current wave
  opened    : Addr := 0              -- address of the xnext that opened it
  first     : Nat := 0               -- the next serial number then: what has been issued since belongs to the wave
  link      : Option Nat := none     -- the record that its split stood under then, how many deferred entries there were, and whether
  depth     : Nat := 0               -- a handler ran
  nested    : Bool := false
  group     : Option Nat := none     -- the drafted group's team
  gcurrent  : Option Nat := none     -- the group's current wave
  empty     : List Nat := []         -- returned waves that are not dealt again (R155)
  ending    : Bool := false
  replay    : Bool := false          -- the next xnext deals the current wave again (R157)
  fault     : Option (Nat × Code × Nat × Addr) := none
  deriving DecidableEq, Repr

/-- Whether a team is a launched team, a helper group or a drafted group of another team (R137, R151). -/
inductive Role where
  | main
  | helper (recruiter : Nat)
  | drafted (recruiter : Nat)
  deriving DecidableEq, Repr

/-- A serialised divergence (R99); `split` is the number of its split's entry. -/
structure Deferred where
  pc      : Option Addr
  mask    : Mask
  addr    : Addr
  arrived : Mask
  split   : Nat
  deriving DecidableEq, Repr

/-- A team (R80, R81), resident, saved or a helper group. Its executing split stands in the machine's state while the team
executes. -/
structure Team where
  id       : Nat := 0
  role     : Role := .main
  launch   : Nat := 0
  block    : Nat := 0
  core     : Nat := 0
  slot     : Nat := 0                -- `tslot` (R183)
  sched    : Nat := 0                -- scheduler of the core (R80)
  ctx      : Nat := 0
  part     : Nat := 0
  number   : Nat := 0                -- `teamid`
  n        : Nat := 1                -- lanes
  l0       : Nat := 0                -- of a helper group: the recruiting lane (R134)
  out      : Bool := false           -- saved and off its core (R307)
  live     : Mask := 0
  splits   : List Split := []        -- the splits other than the executing one
  joins    : SMap (Option Join) := []
  deferred : List Deferred := []     -- of a helper group, whose list the pool holds (R137); of another team only while an
                                     -- instruction works on the list, which stands in its private memory (R99)
  dflen    : Nat := 0                -- entries of the list in private memory
  handler  : Option Handler := none
  ended    : Bool := false
  exited   : Bool := false           -- it ended by `exit` or by the exit of its last lane
  region   : Option (Nat × Nat) := none      -- its private region: address, size (R166)
  -- registers
  s        : SMap Word := []
  q        : SMap Bool := []
  a        : SMap Affine := []
  v        : SMap Word := []         -- varying register r, lane l at key 1024 × r + l
  tags     : SMap Tag := []
  p        : SMap Mask := []
  c        : SMap Nat := []          -- completion flags
  -- results on their way
  fresh    : List Fresh := []
  glimpses : List Glimpse := []      -- of what an instruction reads from; none of a team that stands (R49)
  pending  : List Pending := []
  flights  : List Flight := []
  -- system registers
  tctl     : Word := 0
  fsbase   : Addr := 0
  fdepth   : Nat := 0
  trapvec  : Addr := 0
  frcode   : BitVec 8 := 0
  frpc     : Addr := 0
  fraddr   : Addr := 0
  frlane   : Word := 0xFFFFFFFF
  plbase   : SMap Addr := []
  pllim    : SMap Addr := []
  tile     : BitVec 3 := 0           -- `part`
  blocks   : Nat := 0                -- `rgcnt`
  hfrec    : Word := 0
  hfiter   : Word := 0
  xfown    : Word := 0xFFFFFFFF
  xfoff    : Word := 0
  xshort   : Bool := false
  vwin     : Word := 0
  engst    : Word := 0
  engaddr  : Addr := 0
  gang     : Word := 0
  progv    : BitVec 16 := 0
  progset  : Bool := false
  enumbase : Addr := 0
  held     : List (Nat × Nat) := []  -- held colours and their depths (R183)
  -- Harvest and expand
  recruit  : Recruit := {}
  expand   : Option Expansion := none
  own      : SMap Word := []         -- `own` of each lane, during an expansion
  lent     : List Lent := []         -- lanes that this helper group runs on
  -- waits and notices
  late     : Option Addr := none     -- a pending late VIOL (R301)
  watchHits : List (Nat × Addr) := []        -- pending WATCHPTs of engine writes: class, address (R319)
  stopped  : Bool := false           -- under team-stop: every split is frozen (R316)
  stopAt   : Option Nat := none      -- the split that stopped for the debugger last
  resumed  : Option Nat := none      -- the split that `rfe` or the debugger resumed last (R318)
  fetchOff : Option Nat := none      -- the split whose instruction has disabled fetch (R295)
  retired  : Nat := 0
  deriving DecidableEq, Repr

/-! ### The order machine (R198, R199) -/

/-- What an entry does at its commit. -/
inductive EntryKind where
  | load
  | store
  | atomic (op : Nat) (ty : Ty) (operand : Nat) (ret : Bool)    -- R229
  | ldfe (keep : Bool)
  | watch (value : Word)                             -- an acquire load that commits when the word differs (R197)
  | stfe
  | fence
  | writeback                                        -- cwb (R226)
  | invalidate                                       -- cinv (R226)
  | giveback (page q : Nat)                          -- pgrel (R227)
  | shape (slot q : Nat)                             -- the record read of tshape (R242)
  | card (target : Word) (q : Option Nat)            -- the card read of card (R249)
  | item (child : Addr)                              -- an item of spawn (R253)
  | put (edge slot : Nat) (q : Option Nat)           -- the slot store of eput (R251)
  | take (edge slot : Nat)                           -- the slot load of eget (R251)
  | acquire (colour : Nat)                           -- colour acquire (R214)
  | release (colour : Nat)                           -- colour release
  deriving DecidableEq, Repr

/-- Where a loaded value goes: a register and lane, and how the bytes are extended (R78, R219). -/
structure Dest where
  wide : Bool := false               -- a pair: the lower address in the even register
  var  : Bool := false               -- a varying register
  reg  : Nat
  lane : Nat := 0
  bits : Nat := 32                   -- bits loaded
  uns  : Bool := true
  tag  : Option Tag := none
  deriving DecidableEq, Repr

/-- An entry of a lane queue or scratchpad path queue (R199). -/
structure Entry where
  id        : Nat
  team      : Nat
  core      : Nat
  split     : Nat := 0
  pc        : Addr := 0              -- where the split stood after its instruction: team order within one run (R170)
  origin    : Addr := 0              -- of an atomic, its instruction's address (R320)
  flight    : Nat := 0
  run       : Nat := 0               -- when the split's run began: a temporary lives within it
  sp        : Bool := false          -- in the scratchpad path queue
  kind      : EntryKind
  acq       : Bool := false
  rel       : Bool := false
  locs      : List Nat := []         -- the locations: keys of the byte memory
  data      : List Byte := []
  va        : Addr := 0
  page      : PageKind := .rc
  dom       : Domain := .package
  inside    : Bool := true           -- issued inside the address's domain (R208)
  host      : Bool := false
  key       : Nat := 0
  spans     : List (Addr × Nat) := []        -- its bytes in global addresses (R299)
  lane      : Nat := 0               -- its lane; of a record read in two parts, the part (R173)
  dest      : Option Dest := none
  older     : List Nat := []         -- entries that are older in team order
  barred    : List Nat := []         -- entries made older by a barrier (R210)
  after     : List Nat := []         -- entries that must be performed first, whatever R202 says of them (R170)
  since     : Option Nat := none     -- the cycle from which R202 lets it commit (R215)
  committed : Bool := false
  grace     : Bool := false          -- it passed its check before its key identifier was retired (R338)
  needs     : List Nat := []         -- stores whose performance it awaits (R204)
  deriving DecidableEq, Repr

/-- A line that a core shares, under a key identifier (R162, R198, R203). -/
structure Share where
  core  : Nat
  line  : Nat
  key   : Nat := 0
  ready : Bool                       -- the fill has arrived
  data  : SMap Byte := []            -- by offset in the line
  deriving DecidableEq, Repr

/-- An entry of an update queue (R204): a fill of the line, or the bytes of a store. -/
structure Update where
  core  : Nat
  line  : Nat
  fill  : Bool
  bytes : List (Nat × Byte)          -- offset in the line, value
  store : Nat := 0                   -- the store's entry
  due   : Option Nat := none         -- the cycle by which the bound has it applied; none of a store on a UO page (R215)
  deriving DecidableEq, Repr

/-- A store that is committed and not performed, in coherence order: its entry and its locations. -/
structure Unperformed where
  store : Nat
  locs  : List Nat
  passed : List Nat := []             -- those to which a later write of the coherence order is performed: no read returns this one there
  deriving DecidableEq, Repr

/-! ### The matrix unit (R272 to R292) -/

/-- A chain of an accumulator tile (R263): its 48 bits and flags. -/
structure Chain where
  acc     : BitVec 48 := 0
  touched : Bool := false
  sticky  : Bool := false
  deriving DecidableEq, Repr

/-- The kind of a tile's chains. -/
inductive ChainKind where
  | none | float | int
  deriving DecidableEq, Repr

/-- An accumulator tile: chains at key 512 × row + column, and the records of R272; a record is a scale byte or none. -/
structure Tile where
  chains : SMap Chain := []
  kind   : ChainKind := .none
  cols   : SMap (Option Byte) := []
  rows   : SMap (Option (Option Byte)) := []
  set    : Bool := false             -- an operation since the last zeroing has set the column records
  deriving DecidableEq, Repr

/-- One copy of a macro: cells by byte 128 × k + c, its format, and the column scale bytes. -/
structure MacroCopy where
  cells  : SMap Byte := []
  format : Ty := .dflt               -- `dflt` stands for none
  scales : SMap Byte := []
  deriving DecidableEq, Repr

structure CimMacro where
  active : MacroCopy := {}
  shadow : MacroCopy := {}
  deriving DecidableEq, Repr

/-- The token of a tile (R276). -/
inductive Token where
  | unit
  | gang (teams : List Nat)
  | releasing (teams : List Nat)
  deriving DecidableEq, Repr

/-- One member's arrival at a latch (R284): its instruction and its control word. -/
structure MemberRows where
  team   : Nat
  split  : Nat
  flight : Nat
  fmt    : Fmt
  ctl    : Word
  cmd    : Nat := 0                  -- its command, which holds up its team's counter from its issue on (R292)
  older  : List Nat := []            -- entries that come before its metadata reads (R209)
  deriving DecidableEq, Repr

/-- The match fields of a latch and its waiting members (R284). -/
structure Latch where
  sparse  : Bool := false
  ty      : Ty := .dflt
  ctl     : Nat := 0                 -- ctl bits 11:0
  gang    : List Nat := []           -- member team numbers in gang order
  members : List MemberRows := []
  opened  : Nat := 0                 -- the clock's start
  full    : Option Nat := none       -- when the last member arrived (R288)
  broken  : Bool := false            -- a listed team has ended before the last arrival
  deriving DecidableEq, Repr

/-- A row of A of a captured operation: its accumulator row, its 256 elements' bits, its scale byte, which K take part. -/
structure OpRow where
  row   : Nat
  codes : List Nat
  scale : Option Byte := none
  mask  : List Bool
  deriving DecidableEq, Repr

/-- A queued command of the unit (R291). -/
inductive UnitOp where
  | op (cmds : List Nat) (tile : Nat) (ty : Ty) (rows : List OpRow)      -- its members' commands
  | swap (cmd mask : Nat) (loads : List Nat)         -- the mldb commands that it waits for (R281)
  | zero (cmd tile : Nat)
  | drain (cmd tile : Nat)
  | release (cmd tile : Nat)
  deriving DecidableEq, Repr

/-- A request that waits for the matrix unit or a token (R274, R279). -/
structure UnitWait where
  team  : Nat
  split : Nat
  block : Nat
  tile  : Option Nat                 -- none: an mldb waiting for the unit
  deriving DecidableEq, Repr

/-- The matrix unit of a core. -/
structure Matrix where
  bound   : Option Nat := none       -- the block
  macros  : SMap CimMacro := []
  tiles   : SMap Tile := []
  tokens  : SMap Token := []
  latches : SMap (Option Latch) := []
  queue   : List UnitOp := []
  waits   : List UnitWait := []
  deriving DecidableEq, Repr

/-! ### Cards, launches, blocks (R82, R83, R243 to R245, R309) -/

/-- A job card (R243), the fields that dispatch uses. -/
structure Card where
  entry    : Addr := 0
  code     : Addr := 0
  param    : Addr := 0
  affinity : Addr := 0
  deadline : Nat := 0
  done     : Addr := 0
  seq      : Addr := 0
  gx       : Nat := 1
  gy       : Nat := 1
  gz       : Nat := 1
  teams    : Nat := 1
  stage    : Nat := 0
  size     : Nat := 1
  blocks   : Nat := 0
  idem     : Bool := false
  spad     : Nat := 0
  ctx      : Nat := 0
  part     : Nat := 0
  est      : Nat := 0
  csize    : Nat := 0
  cblocks  : Nat := 0
  cspad    : Nat := 0
  valid    : Bool := true            -- every zero field is zero and every field in range (R244)
  deriving DecidableEq, Repr

/-- A team that waits for something a unit grants, in request order. -/
structure Waiter where
  team   : Nat
  split  : Nat
  flight : Nat := 0
  deriving DecidableEq, Repr

/-- What one block of a launch starts from: its place in the grid, or a bin's items (R82, R254). -/
structure Start where
  linear : Nat := 0
  child  : Bool := false
  entry  : Addr := 0
  items  : List (List Byte) := []
  core   : Nat := 0                  -- of a bin: the spawning core
  deriving DecidableEq, Repr

/-- A launch (R245). -/
structure Launch where
  id       : Nat
  card     : Card
  pools    : List (Addr × Addr) := []
  next     : Nat := 0                -- the next block to dispatch
  live     : Nat := 0                -- blocks dispatched and not ended, child blocks included
  redo     : List Start := []        -- blocks to dispatch again (R306)
  code     : Nat := 0                -- fault code of the first team that ended by a fault
  nfault   : Nat := 0
  place    : Addr := 0               -- `where`
  missed   : Bool := false           -- bit 8
  engine   : Bool := false           -- bit 10
  expired  : Bool := false           -- its key stands behind unexpired ones (R257)
  order    : Nat := 0                -- order of posting
  die      : Nat := 0                -- die of the core on which the last team ended
  desc     : Option CtxDesc := none  -- the descriptor it was dispatched under, once that has been rewritten (R341)
  deriving DecidableEq, Repr

/-- An arrival at a barrier: the team, whether by `barx`, and its entries older than the arrival (R131, R210). -/
structure Arrival where
  team    : Nat
  entries : List Nat
  deriving DecidableEq, Repr

/-- A barrier of a block (R132, R309). -/
structure Barrier where
  arrived : List Arrival := []
  x       : Bool := false            -- a `barx` arrival
  closed  : Bool := false            -- every live team has arrived; release awaits R211
  gen     : Nat := 0
  deriving DecidableEq, Repr

/-- A waiting party of a rendezvous slot (R130). -/
structure Party where
  team   : Nat
  split  : Nat
  flight : Nat
  reg    : Nat
  active : Mask
  vals   : List (Nat × Word) := []   -- what a sender sends, by lane
  tag    : Tag := .raw
  deriving DecidableEq, Repr

/-- A rendezvous slot. -/
structure Slot where
  senders   : List Party := []
  receivers : List Party := []
  deriving DecidableEq, Repr

/-- How a block gives up its core (R305 to R307). -/
inductive Preempt where
  | resident
  | draining (since : Nat)
  | restarting
  | saving
  | saved (since : Nat)
  deriving DecidableEq, Repr

/-- A block (R82). -/
structure Block where
  id       : Nat
  launch   : Nat
  core     : Nat
  x        : Nat := 0
  y        : Nat := 0
  z        : Nat := 0
  linear   : Nat := 0
  teams    : List Nat := []          -- its teams, in ascending team number
  nteams   : Nat := 1
  spsize   : Nat := 0
  child    : Bool := false           -- a bin of the packing unit (R254)
  began    : Nat := 0                -- the cycle of its dispatch
  barriers : SMap Barrier := []
  slots    : SMap Slot := []
  shapes   : SMap (List Byte) := []  -- 256 bytes, or empty
  posted   : Bool := false           -- a team completed card, spawn, eput or eget (R305)
  usedVn   : Bool := false
  preempt  : Preempt := .resident
  start    : Start := {}
  unit     : Option Matrix := none   -- the matrix unit's state at the save
  kept     : List Entry := []        -- pending `ldfe` and `watch` entries of a saved block (R310)
  reqs     : List Waiter := []       -- the `rgacq` requests of a saved block
  deriving DecidableEq, Repr

/-! ### Engine commands (R209, R237, R240) -/

/-- How one element of a command stands: not performed, read so far, read and written so far, performed, failed, waiting for the driver
(R356) or for a host page (R242). -/
inductive ElemState where
  | todo | done | failed | driver
  | part (got : List Byte)
  | out (n : Nat) (got : List Byte)
  | page (n : Nat)
  deriving DecidableEq, Repr

/-- The engine commands. -/
inductive CmdKind where
  | copy (shape : List Byte) (sspace : Space) (src : Addr) (dspace : Space) (dst : Addr) (speer dpeer : Bool)
  | line (space : Space) (team split run reg : Nat) (tag : Tag) (ranks : List (Addr × List Nat))    -- `ldline`: each line and its lanes
  | loadMacro (m : Nat) (ty : Ty) (space : Space) (base : Addr)
  | drain (tile : Nat) (space : Space) (base : Addr) (ctl : Word) (fmt : Fmt)
  | swap (mask : Nat)
  | zero (tile : Nat)
  | mul (tiles : List Nat)           -- the tile of an `mma` or `mmas`, and of an operation on a pair both
  | release (tile : Nat)
  deriving DecidableEq, Repr

/-- An engine command of a team. A team's engine counter of a class is the number of commands of that class that still count for it
(R237). -/
structure Command where
  id       : Nat
  team     : Nat
  core     : Nat
  slot     : Nat := 0
  ctx      : Nat
  part     : Nat
  block    : Nat
  cls      : Nat                     -- class 0 to 3
  kind     : CmdKind
  flights  : List (Nat × Nat) := []  -- teams and their flights, which land at completion (R237, R292)
  counts   : List Nat := []          -- teams whose counter it holds up
  pc       : Addr := 0
  held     : List Nat := []          -- the carried colours (R189)
  older    : List Nat := []          -- entries that must be performed before its first move (R209)
  total    : Nat := 0                -- elements
  elems    : SMap ElemState := []
  moving   : SMap (Option (Nat × List Nat)) := []    -- of an element that is half moved: its key identifier and locations
  writes   : List Nat := []          -- its writes that may not be performed yet
  ready    : Bool := true            -- false while a drain waits for its turn in the unit queue
  complete : Bool := false
  hold     : Option Nat := none      -- held by a watchpoint but for this 256-byte burst (R319)
  seen     : List Nat := []          -- watchpoints that have held it
  failures : Nat := 0
  fault    : Option (Code × Addr) := none    -- its first failure
  data     : List Byte := []         -- the drained elements
  olds     : SMap (List Byte) := []  -- a copy's written locations: the value before, and each value written (R242)
  deriving DecidableEq, Repr

/-! ### Cores, dies, contexts, partitions, the device -/

/-- A card waiting in a dispatch queue, with the order of its posting. -/
structure Posted where
  card   : Card
  addr   : Addr := 0
  ring   : Option (Nat × Nat) := none
  order  : Nat := 0
  deriving DecidableEq, Repr

/-- Equinox values of a context on a core (R256). -/
structure Budget where
  refill  : Word := 0
  balance : Nat := 0
  debt    : Nat := 0
  deriving DecidableEq, Repr

/-- A claimable unit (R325): its owner, and what each claimant's next read returns. -/
structure Claim where
  owner   : Option Owner := none
  answers : List (Owner × Nat) := []
  stopped : Bool := false            -- a forced claim has stopped its counts, until the new owner sets it up
  deriving DecidableEq, Repr

/-- A trace unit (R325): its claim, and its buffer's event records, oldest first. -/
structure TraceUnit where
  claim  : Claim := {}
  buffer : List (List Byte) := []
  deriving DecidableEq, Repr

/-- The instruction that a sampling unit has tagged (R321): its team and flight, and what its record holds but for the stamp. -/
structure Tagged where
  team   : Nat
  flight : Nat
  head   : List Byte                 -- bytes 39:0
  deriving DecidableEq, Repr

/-- A sampling unit (R321). -/
structure Sampling where
  claim    : Claim := {}
  interval : Nat := 0
  left     : Nat := 0
  armed    : Bool := false           -- the next eligible instruction is tagged
  tagged   : Option Tagged := none   -- the one whose completion is awaited
  buffer   : Addr := 0
  slots    : Nat := 0
  written  : Nat := 0
  drops    : Nat := 0
  deriving DecidableEq, Repr

structure Core where
  matrix    : Matrix := {}
  expanders : List Waiter := []      -- parked xpand (R149)
  acquirers : List Waiter := []      -- parked rgacq (R94)
  cards     : List Posted := []      -- queue of 64 cards
  posters   : List Waiter := []
  budgets   : SMap Budget := []      -- by context
  bank      : Claim := {}
  counters  : SMap Nat := []         -- 8 counters
  events    : SMap Word := []        -- the selected events
  sampling  : SMap Sampling := []    -- by scheduler
  asked     : Bool := false          -- the core is asked for (R305)
  deriving DecidableEq, Repr

/-- A bin of the packing unit (R254). -/
structure Bin where
  id     : Nat
  ctx    : Nat
  entry  : Addr
  launch : Nat
  items  : List (List Byte)
  opened : Nat
  core   : Nat                       -- the spawning core
  closed : Bool := false             -- dispatched, waiting for a core
  deriving DecidableEq, Repr

structure Die where
  hlc     : Addr := 0                -- hybrid logical clock (R327)
  cards   : SMap (List Posted) := [] -- partition queue of each partition
  posters : List Waiter := []
  bins    : List Bin := []
  traces  : SMap TraceUnit := []      -- units 0 to 3
  deriving DecidableEq, Repr

/-- The monitor of a colour (R183). -/
structure Monitor where
  holder    : Option Nat := none
  entry     : List Nat := []
  wait      : List Nat := []
  abandoned : Bool := false
  die       : Nat := 0               -- the die of the team that last released it: grants go from there (R335)
  behind    : List (Nat × Nat × Nat) := []   -- the updates that were queued from there then: sharer core, line, store
  deriving DecidableEq, Repr

/-- A coloured range (R180). -/
structure Range where
  base   : Nat
  len    : Nat
  colour : Nat
  deriving DecidableEq, Repr

/-- A graph edge (R250, R251): its entry and counts; which granted slots are filled; the waiting teams. -/
structure Edge where
  entry     : EdgeEntry := {}
  tail      : Nat := 0
  head      : Nat := 0
  freed     : Nat := 0
  filled    : List Nat := []         -- slots filled and not yet taken
  loaded    : List Nat := []         -- taken slots whose load is performed, not yet freed in order
  producers : List Waiter := []
  consumers : List Waiter := []
  deriving DecidableEq, Repr

structure Ctx where
  desc     : CtxDesc := {}
  ranges   : List Range := []
  monitors : SMap Monitor := []
  edges    : SMap Edge := []
  fqhead   : Nat := 0
  fqtail   : Nat := 0
  reports  : List (Addr × Nat × List Byte) := []     -- reports waiting for a free slot: the queue and its entries (R341, R342)
  tofs     : Addr := 0
  tscale   : Nat := 16777216
  tsteal   : Bool := false
  stolen   : Nat := 0
  away     : Option Nat := none      -- the device time since which its time is stolen
  last     : Addr := 0               -- the last `rdtime` value returned
  arena    : List (Nat × Nat) := []  -- allocated private regions: address, size (R166)
  deriving DecidableEq, Repr

/-- A host submission ring (R246). -/
structure Ring where
  base  : Addr := 0
  en    : Bool := false
  ovr   : Bool := false
  lsize : Nat := 2
  ctx   : Nat := 0
  door  : Nat := 0
  read  : Nat := 0
  free  : Addr := 0
  err   : Addr := 0
  log   : Addr := 0
  stale : Nat := 0                   -- re-reads of a stale slot
  since : Nat := 0                   -- the cycle at which it was last read
  posts : List (Nat × Nat) := []     -- doorbells of cards not yet read: the first card's count and its order of posting
  cards : List Posted := []
  deriving DecidableEq, Repr

/-- A watchpoint (R317). -/
structure Watchpoint where
  base : Addr := 0
  mask : BitVec 16 := 0
  ctx  : Nat := 0
  en   : Bool := false
  deriving DecidableEq, Repr

/-- What record mode logs in its order (R323): a run's beginning, a commit at a home, an engine element's move, the value of an input. -/
inductive LogItem where
  | run (core sched team split : Nat)
  | commit (die entry : Nat)
  | element (command n : Nat)
  | input (value : List Byte)
  deriving DecidableEq, Repr

structure Part where
  entry    : PartEntry := {}
  busy     : Option PartEntry := none        -- a write in progress (R336)
  regions  : SMap (BitVec 128) := []
  rings    : SMap Ring := []
  dbgctl   : Word := 0
  wps      : SMap Watchpoint := []
  wqaddr   : Addr := 0
  wqcount  : Nat := 0
  wqover   : Nat := 0
  violaddr : Addr := 0
  viols    : Nat := 0
  retired  : Nat := 0
  round    : Nat := 0                -- the queue after the one last dispatched from (R249)
  recBase  : Addr := 0               -- the region reserved for checkpoints and logs (R323)
  recSize  : Addr := 0
  checking : Bool := false           -- a checkpoint is being taken (R323)
  interval : Option Nat := none      -- retired count at the last checkpoint
  log      : List LogItem := []      -- of the interval, oldest first
  undo     : List (Nat × Nat × Byte) := []   -- bytes that the interval has written, newest first: retired count, byte, old value
  replayTo : Option Nat := none      -- a replay in progress (R324)
  deriving DecidableEq, Repr

/-- A host page (R176): who owns it, and the teams and hand-over in progress. -/
structure HostPage where
  device   : Bool := false
  since    : Nat := 0                -- the cycle of its acquisition
  asked    : Bool := false           -- the device has asked the host for it
  recalled : Bool := false           -- the host has asked the device for it
  refused  : Bool := false           -- the last request was refused
  deriving DecidableEq, Repr

/-- The home of a 2 MB unit (R178): the die, the counts of this period by die, the other dies whose count passed four times the home's in
the period before, the last move. -/
structure Home where
  die    : Nat := 0
  counts : SMap Nat := []
  hot    : List Nat := []
  moved  : Option Nat := none
  fixed  : List (Nat × Nat) := []    -- the die-domain region entries through which it has been accessed: partition, entry
  deriving DecidableEq, Repr

/-- Where a translation is held (R297): the L1 TLB of a core, the L2 TLB of a die, or a die's walk cache of non-leaf entries. -/
inductive CacheAt where
  | l1 (core : Nat)
  | l2 (die : Nat)
  | walk (die : Nat)
  deriving DecidableEq, Repr

/-- An entry of the tree that a TLB or walk cache holds (R297): the entry, and the addresses whose walk passes it. -/
structure Cached where
  place : CacheAt
  ctx   : Nat
  page  : Nat                        -- the first address
  shift : Nat                        -- log2 of the number of addresses
  entry : Addr
  deriving DecidableEq, Repr

/-! ### Checkpoints and images -/

/-- What a checkpoint and its logs let the device restore of a partition: the state in which the count of retired instructions
was `count` (R323, R324). `mem` are the partition's own bytes. -/
structure PartImage where
  part     : Nat
  count    : Nat
  viols    : Nat
  wqcount  : Nat
  wqover   : Nat
  rings    : SMap Ring
  teams    : List Team
  blocks   : List Block
  launches : List Launch
  mem      : SMap Byte
  seals    : SMap (Option (Nat × Nat))
  full     : SMap Bool
  hist     : SMap (List Byte)
  l1       : List Share
  floors   : SMap (Option (Nat × Bool))
  entries  : List Entry
  shares   : List Share
  updates  : List Update
  unperf   : List Unperformed
  commands : List Command
  cores    : SMap Core
  ctxs     : SMap Ctx
  cards    : SMap (List Posted)      -- the partition's queue on each die
  bins     : SMap (List Bin)
  deriving DecidableEq, Repr

/-- A Frost image (R346): what Thaw restores, with the hashes and the signature that Thaw checks. -/
structure DeviceImage where
  identity : BitVec 256              -- of the identity's public key
  grade    : Grade
  enum     : BitVec 256              -- of the enumeration table
  clocks   : List Addr               -- of dies 0 to 3
  parts    : SMap Part
  ctxs     : SMap Ctx
  teams    : List Team
  blocks   : List Block
  launches : List Launch
  mem      : SMap Byte
  seals    : SMap (Option (Nat × Nat))
  full     : SMap Bool
  homes    : SMap (Option Home)
  cards    : SMap Die                -- what the dies' queues hold
  cores    : SMap Core
  keysLive : BitVec 64
  keyNo    : SMap Nat
  deriving DecidableEq, Repr

/-- The frost state (R345, R347). -/
inductive Frozen where
  | no
  | freezing (target : FrostTarget)
  | frozen
  | thawing (image : Addr)
  deriving DecidableEq, Repr

end Sys2Proof.Machine
end

