-- ==== Sys2Proof/Machine/State.lean ====
section
/-! DEFINITION. The machine's state, as plain data: everything the manual gives the device, and six fields of the model's own
(`cycle`, `equinox`, `placement`, `free`, `nextId`, `agenda`; log entries 3, 5, 9). -/
namespace Sys2Proof.Machine

/-- The reasons for which the device as a whole stops. Every fault of a team is delivered inside the machine (R20, R303). -/
inductive Fault where
  /-- Raised by `step` once a die link that cannot be retrained has stopped the device (R329). Safe: nothing is claimed of a
  stopped device. -/
  | deviceStopped
  deriving DecidableEq, Repr

/-- The reasons for which the model gives no meaning. -/
inductive Refusal where
  /-- Raised by an arm of `exec` whose instruction has no meaning yet. Safe: nothing is claimed of it. -/
  | notModelled (mnemonic : String)
  deriving DecidableEq, Repr

structure State where
  -- bring-up and the whole device (R351, R329, R345)
  grade    : Grade := .x256m              -- the part's grade, once bring-up has read the configuration image (R1, R330)
  config   : ConfigImage := {}            -- the configuration image of this power-on (R349)
  pufOk    : Bool := true                 -- whether the identity's seed can be regenerated
  seed     : Option (BitVec 256) := none  -- the identity's seed, once it is
  firmware : Firmware := {}               -- the running firmware
  phase    : Nat := 0                     -- bring-up phase; 5 is ready
  error    : Nat := 0                     -- bring-up error code
  status   : Nat := 0                     -- command status (R339)
  stopped  : Bool := false                -- fatal stop
  frozen   : Frozen := .no
  devno    : Nat := 0
  links    : SMap Nat := []               -- die link: 0 down, 1 up, 2 retraining
  peers    : SMap Nat := []               -- peer link: 0 down, 1 + peer device number when up
  arrived  : List OutsideAccess := []     -- accesses from outside that wait for a link, oldest first (R329)
  peerBytes : SMap Byte := []             -- memory of peer devices as this device has written it, by aperture address
  outReads : List (List Byte) := []       -- what the reads from outside have returned, oldest first (R340, R344)
  hostNeeds : List Nat := []              -- stores whose performance the host's next system-domain access awaits (R340)
  msix     : SMap Nat := []               -- signals of each virtual function's MSI-X vector 0, by partition (R342)
  keysLive : BitVec 64 := 0               -- created key identifiers
  keyNo    : SMap Nat := []               -- the number of a key identifier's creation (R337)
  retiring : List Nat := []               -- key identifiers being retired
  images   : List (Addr × DeviceImage) := []  -- Frost images, by target address
  past     : List PartImage := []         -- the checkpoints and logs of record mode, oldest first (R323)
  reports  : List (Owner × List Byte) := []   -- attestation reports written, by who asked
  -- time and the model's own fields
  cycle    : Nat := 0
  equinox  : Nat := 0                     -- Equinox periods begun (R256)
  placement : Nat := 0                    -- placement periods begun (R178)
  free     : Nat := 0
  nextId   : Nat := 1
  agenda   : List Instr := []
  -- execution
  team     : Team := {}
  split    : Split := {}
  others   : List Team := []
  blocks   : List Block := []
  launches : List Launch := []
  -- memory and the order machine
  mem      : SMap Byte := []
  full     : SMap Bool := []
  seals    : SMap (Option (Nat × Nat)) := []      -- the key under which a line of the stacks is encrypted: identifier, creation (R337)
  backed   : SMap (Option Nat) := []      -- of a byte that `cwb` has written back: how many earlier values it had then (R226, R342)
  hist     : SMap (List Byte) := []       -- earlier values of a location's coherence order, newest first (R198)
  l1       : List Share := []             -- the lines of core-domain data that the cores' L1s hold (R162, R207)
  floors   : SMap (Option (Nat × Bool)) := []     -- after a core's `cinv` of a location (R226), at core × 2^56 + location: how many
                                          -- earlier values its loads no longer return, and whether its next load reads at the home
  entries  : List Entry := []
  shares   : List Share := []
  updates  : List Update := []
  unperf   : List Unperformed := []
  commands : List Command := []
  -- the units
  cores    : SMap Core := []
  dies     : SMap Die := []
  ctxs     : SMap Ctx := []
  parts    : SMap Part := []
  pages    : SMap HostPage := []          -- 2 × (physical address / 64 KB), and 1 more for a page of 2 MB (R176)
  homes    : SMap (Option Home) := []     -- by physical address / 2 MB
  tlb      : List Cached := []
  invals   : List (Nat × Addr × Nat) := []    -- invalidations in progress: context, base, 64 KB units
  deriving DecidableEq, Repr

/-- The machine right after reset: the board controller has not released it (R351), no partition is valid, no team exists,
memory lists nothing. -/
def State.reset : State := {}

end Sys2Proof.Machine
end

