-- ==== Sys2Proof/Machine/Ops.lean ====
section
/-! DEFINITION. The named operations over the state: registers, splits and teams, completion flags and results, memory bytes. -/
namespace Sys2Proof.Machine

/-! ### Lanes and ranks (R80, R81) -/

/-- The lanes below `n` in a mask, ascending. -/
def lanesOf (n : Nat) (m : Mask) : List Nat := (List.range n).filter m.getLsbD

/-- The mask of the lanes 0 to n − 1. -/
def fullMask (n : Nat) : Mask := BitVec.ofNat 1024 (2 ^ n - 1)

/-- The mask of one lane. -/
def laneBit (l : Nat) : Mask := BitVec.ofNat 1024 (2 ^ l)

/-- The mask of the listed lanes. -/
def maskOf (ls : List Nat) : Mask := ls.foldl (fun m l => m ||| laneBit l) 0

/-- The lowest lane of a mask. -/
def lowestLane (n : Nat) (m : Mask) : Option Nat := (lanesOf n m).head?

/-- The ranks of a team of n lanes. -/
def ranksOf (n : Nat) : Nat := (n + 31) / 32

/-- The occupied ranks of a mask, as bits (R81). -/
def rankBits (n : Nat) (m : Mask) : BitVec 32 :=
  BitVec.ofNat 32 (bitsNat (fun r => m.extractLsb' (32 * r) 32 != 0) (ranksOf n))

/-- How many ranks a mask occupies. -/
def rankCount (n : Nat) (m : Mask) : Nat := popcount (rankBits n m).toNat 32

/-- How many lanes a mask holds. -/
def laneCount (n : Nat) (m : Mask) : Nat := popcount m.toNat n

/-! ### Teams and splits -/

/-- The team without its executing split, and that split put back in order. -/
def insertSplit (x : Split) : List Split → List Split
  | [] => [x]
  | y :: r => if x.id < y.id then x :: y :: r else y :: insertSplit x r

def insertTeam (x : Team) : List Team → List Team
  | [] => [x]
  | y :: r => if x.id < y.id then x :: y :: r else y :: insertTeam x r

/-- Every split of a team: those that run, and those that its handler holds (R303). -/
def Team.every (t : Team) : List Split :=
  t.splits ++ match t.handler with
    | some h => h.fault :: h.held
    | none => []

/-- Updates a split of a team, running or held. -/
def Team.modEvery (sid : Nat) (g : Split → Split) (t : Team) : Team :=
  let upd := fun (x : Split) => if x.id = sid then g x else x
  { t with splits := t.splits.map upd,
           handler := t.handler.map fun (h : Handler) => { fault := upd h.fault, held := h.held.map upd } }

/-- Updates every split of a team, running or held. -/
def Team.mapEvery (g : Split → Split) (t : Team) : Team :=
  { t with splits := t.splits.map g,
           handler := t.handler.map fun (h : Handler) => { fault := g h.fault, held := h.held.map g } }

/-- The splits that a handler holds, the faulting one apart. -/
def Team.heldSplits (t : Team) : List Split :=
  match t.handler with
  | some h => h.held
  | none => []

/-- Puts a split among those that run, or among those that the handler holds. -/
def Team.addSplit (held : Bool) (x : Split) (t : Team) : Team :=
  if held && t.handler.isSome then
    { t with handler := t.handler.map fun (h : Handler) => { h with held := insertSplit x h.held } }
  else { t with splits := insertSplit x t.splits }

namespace State

/-- Puts the executing split and team back among the others; the vacant team has number 0. -/
def unfocus (s : State) : State :=
  if s.team.id = 0 then s
  else
    let t := if s.split.id = 0 then s.team else { s.team with splits := insertSplit s.split s.team.splits }
    { s with team := {}, split := {}, others := insertTeam t s.others }

/-- The team of a number, executing or not. -/
def findTeam (s : State) (id : Nat) : Option Team :=
  if s.team.id = id then some s.team else s.others.find? fun t => t.id == id

/-- Takes a split of a team out to execute. -/
def focus (s : State) (tid sid : Nat) : State :=
  let s := s.unfocus
  match s.others.find? fun t => t.id == tid with
  | none => s
  | some t =>
    match t.splits.find? fun x => x.id == sid with
    | none => s
    | some x => { s with team := { t with splits := t.splits.filter fun y => y.id != sid }, split := x,
                         others := s.others.filter fun y => y.id != tid }

/-- Updates the team of a number. -/
def modTeamId (s : State) (id : Nat) (g : Team → Team) : State :=
  if s.team.id = id then { s with team := g s.team }
  else { s with others := s.others.map fun t => if t.id = id then g t else t }

/-- Updates a split, executing or not. -/
def modSplitId (s : State) (tid sid : Nat) (g : Split → Split) : State :=
  if s.team.id = tid && s.split.id = sid then { s with split := g s.split }
  else s.modTeamId tid (Team.modEvery sid g)

def modTeam (s : State) (g : Team → Team) : State := { s with team := g s.team }
def modSplit (s : State) (g : Split → Split) : State := { s with split := g s.split }

/-- The executing team and every other one, helper groups included. -/
def allTeams (s : State) : List Team := if s.team.id = 0 then s.others else insertTeam s.team s.others

def findBlock (s : State) (id : Nat) : Option Block := s.blocks.find? fun b => b.id == id
def findLaunch (s : State) (id : Nat) : Option Launch := s.launches.find? fun l => l.id == id

def modBlock (s : State) (id : Nat) (g : Block → Block) : State :=
  { s with blocks := s.blocks.map fun b => if b.id = id then g b else b }

def modLaunch (s : State) (id : Nat) (g : Launch → Launch) : State :=
  { s with launches := s.launches.map fun l => if l.id = id then g l else l }

def core (s : State) (n : Nat) : Core := s.cores.get {} n
def modCore (s : State) (n : Nat) (g : Core → Core) : State := { s with cores := s.cores.set {} n (g (s.core n)) }
def ctx (s : State) (n : Nat) : Ctx := s.ctxs.get {} n

/-- The descriptor of a context that governs a launch: the present one, or for a launch dispatched before it was written the one it was
dispatched under (R341). -/
def descOf (s : State) (cx launch : Nat) : CtxDesc := ((s.findLaunch launch).bind Launch.desc).getD (s.ctx cx).desc

def modCtx (s : State) (n : Nat) (g : Ctx → Ctx) : State := { s with ctxs := s.ctxs.set {} n (g (s.ctx n)) }
def part (s : State) (n : Nat) : Part := s.parts.get {} n
def modPart (s : State) (n : Nat) (g : Part → Part) : State := { s with parts := s.parts.set {} n (g (s.part n)) }
def die (s : State) (n : Nat) : Die := s.dies.get {} n
def modDie (s : State) (n : Nat) (g : Die → Die) : State := { s with dies := s.dies.set {} n (g (s.die n)) }

/-- Takes a serial number. -/
def fresh (s : State) : Nat × State := (s.nextId, { s with nextId := s.nextId + 1 })

/-- Whether the executing split differs from the live mask, so that team-wide writes raise UDIV (R91). -/
def diverged (s : State) : Bool := s.split.mask != s.team.live

/-- The recruiter of a helper group, or the team itself. -/
def owner (s : State) : Team :=
  match s.team.role with
  | .main => s.team
  | .helper r | .drafted r => (s.findTeam r).getD s.team

/-- Whether the executing team is a helper group (R137, R151). -/
def inHelper (s : State) : Bool :=
  match s.team.role with
  | .main => false
  | _ => true

/-- The block that the executing team belongs to. -/
def block (s : State) : Block := (s.findBlock s.team.block).getD { id := 0, launch := 0, core := 0 }

/-- The card of the executing team's launch. -/
def card (s : State) : Card := ((s.findLaunch s.team.launch).map Launch.card).getD {}

/-- The die of a logical core (R330). -/
def dieOf (s : State) (c : Nat) : Nat := c / s.grade.coresPerDie

end State

/-! ### Registers (R13, R27, R84, R137) -/

/-- The tag of varying register `n` as a split sees it, where the team's is `t`: half of a wave split sees what it has written (R170). -/
def Split.tagSeen (x : Split) (n : Nat) (t : Tag) : Tag := if x.wave.isSome then ((x.run.files.get none n).map Prod.snd).getD t else t

namespace State

/-- The uniform specials (R84, R183, R333). -/
def special (s : State) (n : Nat) : Nat :=
  match n with
  | 64 => s.team.n
  | 65 => ranksOf s.team.n
  | 66 => s.team.number
  | 67 => s.block.nteams
  | 68 => s.block.linear
  | 69 => if s.block.child then 1 else s.card.gx * s.card.gy * s.card.gz
  | 70 => s.block.x
  | 71 => s.block.y
  | 72 => s.block.z
  | 73 => if s.block.child then 1 else s.card.gx
  | 74 => if s.block.child then 1 else s.card.gy
  | 75 => if s.block.child then 1 else s.card.gz
  | 76 => s.card.stage
  | 77 => s.team.core
  | 78 => s.team.ctx
  | 79 => s.team.part
  | 80 => s.team.slot
  | 81 => s.dieOf s.team.core
  | _ => 0

/-- A uniform register or special; a helper group reads its recruiter's (R137). -/
def readS (s : State) (n : Nat) : Word :=
  if n < 64 then s.owner.s.get 0 n else BitVec.ofNat 32 (s.special n)

/-- A pair d(n/2): s(n) the low word, s(n+1) the high word (R7). -/
def readD (s : State) (n : Nat) : Addr := s.readS (n + 1) ++ s.readS n

/-- A uniform predicate; q7 reads true (R14). -/
def readQ (s : State) (n : Nat) : Bool := if n = 7 then true else s.team.q.get false n

/-- An affine register or special as a pair (R89, R84); a helper group reads its recruiter's registers as uniform values. -/
def readPair (s : State) (n : Nat) : Affine :=
  if n < 32 then
    let x := s.owner.a.get {} n
    if s.inHelper then { base := x.base + x.stride * BitVec.ofNat 32 s.team.l0, stride := 0 } else x
  else if n = 32 then { base := 0, stride := 1 }
  else if n = 33 then { base := if s.inHelper then 0 else BitVec.ofNat 32 (s.team.number * s.team.n), stride := 1 }
  else { base := 0, stride := 0 }

/-- An affine source at a lane (R28); `own` yields the lane's owner (R152). -/
def readA (s : State) (n l : Nat) : Word :=
  if n = 34 then s.team.own.get 0 l
  else let x := s.readPair n; x.base + x.stride * BitVec.ofNat 32 l

/-- What rank `r` alone sees, the last said first. -/
def glimpsed {α : Type} (s : State) (r : Nat) (g : Landing → Option α) : Option α :=
  s.team.glimpses.reverse.findSome? fun x => if x.rank = r then g x.what else none

/-- A uniform register, a pair, a uniform predicate as the rank of lane `l` of a swept instruction sees it (R49). -/
def seeS (s : State) (n l : Nat) : Word :=
  (s.glimpsed (l / 32) fun x => match x with | .word m w => if m = n then some w else none | _ => none).getD (s.readS n)

def seeD (s : State) (n l : Nat) : Addr := s.seeS (n + 1) l ++ s.seeS n l

def seeQ (s : State) (n l : Nat) : Bool :=
  (s.glimpsed (l / 32) fun x => match x with | .bit m b => if m = n then some b else none | _ => none).getD (s.readQ n)

/-- An affine source at lane `m` as the rank of lane `l` sees it. -/
def seeA (s : State) (n l m : Nat) : Word :=
  match s.glimpsed (l / 32) fun x => match x with | .pair k p => if k = n then some p else none | _ => none with
  | some p => p.base + p.stride * BitVec.ofNat 32 m
  | none => s.readA n m

/-- Whether an open expansion of a team leaves a register at a lane unspecified: it is a destination of `segred` (R154). -/
def mixes (t : Team) (k : Nat) : Bool :=
  match t.expand with
  | some e => e.mixed.contains k
  | none => false

/-- A word for an unspecified mix of applied results (R154). -/
def mixedWord (s : State) (k : Nat) : Word := BitVec.ofNat 32 (Config.freeNat (s.free * 2 ^ 18 + k))

/-- A varying register or temporary at a lane; in a helper body 0 to 15 are h registers, 16 to 247 the recruiter's (R137). -/
def readV (s : State) (n l : Nat) : Word :=
  if 248 ≤ n then s.split.run.temps.get 0 (1024 * (n - 248) + l)
  else if s.inHelper && decide (16 ≤ n) then
    let k := 1024 * (n - 16) + s.team.l0
    if mixes s.owner k then mixedWord s k else s.owner.v.get 0 k
  else s.team.v.get 0 (1024 * n + l)

/-- A varying register at lane `m` as the rank of lane `l` sees it (R49, R126). -/
def seeV (s : State) (n l m : Nat) : Word :=
  (s.glimpsed (l / 32) fun x => match x with
    | .lanes k _ vals => if k = n then (vals.find? fun p => p.1 == m).map Prod.snd else none
    | _ => none).getD (s.readV n m)

/-- The format tag of a varying register or temporary (R87). -/
def tagOf (s : State) (n : Nat) : Tag :=
  if 248 ≤ n then s.split.run.tags.get .raw (n - 248)
  else if s.inHelper && decide (16 ≤ n) then s.owner.tags.get .raw (n - 16)
  else s.split.tagSeen n (s.team.tags.get .raw n)

/-- A varying predicate as a mask; p7 reads true. -/
def readP (s : State) (n : Nat) : Mask := if n = 7 then BitVec.allOnes 1024 else s.team.p.get 0 n

def writeS (s : State) (n : Nat) (w : Word) : State := { s with team := { s.team with s := s.team.s.set 0 n w } }

/-- Writes a pair: both halves in the same instruction (R14). -/
def writeD (s : State) (n : Nat) (w : Addr) : State :=
  (s.writeS n (w.extractLsb' 0 32)).writeS (n + 1) (w.extractLsb' 32 32)

/-- A write to q7 is discarded (R14). -/
def writeQ (s : State) (n : Nat) (b : Bool) : State :=
  if n = 7 then s else { s with team := { s.team with q := s.team.q.set false n b } }

def writeA (s : State) (n : Nat) (x : Affine) : State := { s with team := { s.team with a := s.team.a.set {} n x } }

/-- Writes one lane of a varying register or temporary. -/
def writeV (s : State) (n l : Nat) (w : Word) : State :=
  if 248 ≤ n then
    { s with split := { s.split with run := { s.split.run with temps := s.split.run.temps.set 0 (1024 * (n - 248) + l) w } } }
  else { s with team := { s.team with v := s.team.v.set 0 (1024 * n + l) w } }

/-- Sets a format tag; for a temporary also its written bit (R41, R87). DESIGN CHOICE (log entry 95): a helper group has one tag for each of its
h registers, set by any of its splits. -/
def setTag (s : State) (n : Nat) (t : Tag) : State :=
  if 248 ≤ n then
    { s with split := { s.split with run := { s.split.run with tags := s.split.run.tags.set .raw (n - 248) t,
                                                               written := s.split.run.written ||| BitVec.ofNat 8 (2 ^ (n - 248)) } } }
  else if s.split.wave.isSome then
    { s with split := { s.split with run := { s.split.run with files := s.split.run.files.set none n (some (s.split.pc.toNat, t)) } } }
  else { s with team := { s.team with tags := s.team.tags.set .raw n t } }

/-- Writes the listed lanes of a varying register. -/
def writeLanes (s : State) (n : Nat) : List (Nat × Word) → State
  | [] => s
  | (l, w) :: r => writeLanes (s.writeV n l w) n r

/-- Writes lanes and tag together (R91). -/
def writeVar (s : State) (n : Nat) (t : Tag) (vals : List (Nat × Word)) : State := (s.writeLanes n vals).setTag n t

/-- A varying predicate after the listed lanes are set. -/
def setLanes (m : Mask) (vals : List (Nat × Bool)) : Mask :=
  vals.foldl (fun m (l, b) => if b then m ||| laneBit l else m &&& ~~~laneBit l) m

/-- Writes the listed lanes of a varying predicate; p7 discards (R7). -/
def writeP (s : State) (n : Nat) (vals : List (Nat × Bool)) : State :=
  if n = 7 then s else { s with team := { s.team with p := s.team.p.set 0 n (setLanes (s.team.p.get 0 n) vals) } }

/-- Writes one part of a result. -/
def land (s : State) : Landing → State
  | .word n w => s.writeS n w
  | .bit n b => s.writeQ n b
  | .pair n x => s.writeA n x
  | .lanes n t vals => match t with
    | some t => s.writeVar n t vals
    | none => s.writeLanes n vals
  | .preds n vals => s.writeP n vals

def landAll (s : State) : List Landing → State
  | [] => s
  | x :: r => landAll (s.land x) r

end State

/-- The register that a landing writes. -/
def regOf : Landing → Reg
  | .word n _ => .s n
  | .bit n _ => .q n
  | .pair n _ => .a n
  | .lanes n _ _ => .v n
  | .preds n _ => .p n

/-- What is left of a landing once another has written its lanes: nothing of a register that is written whole. -/
def Landing.minus : Landing → Landing → Option Landing
  | .lanes n t vals, .lanes _ _ ws => some (.lanes n t (vals.filter fun x => !(ws.any fun w => w.1 == x.1)))
  | .preds n vals, .preds _ ws => some (.preds n (vals.filter fun x => !(ws.any fun w => w.1 == x.1)))
  | _, _ => none

/-- A result of split `sid` that is readable at once: no read sees what the registers held before the results that it follows (R18,
R46). -/
def Team.readable (t : Team) (sid : Nat) (x : Landing) : Team :=
  { t with fresh := t.fresh.filterMap fun y =>
      if y.reg = regOf x && (y.split == sid || match y.reg with | .v n => decide (n < 248) | _ => true) then
        (y.old.minus x).map fun o => { y with old := o }
      else some y }

/-! ### Completion flags (R47) -/

namespace State

/-- Starts a flight: the sig flag rises. -/
def launchFlight (s : State) (id : Nat) (sig : BitVec 4) (left : Nat) (due : Option Nat) : State :=
  let flight := fun (sig : Option Nat) =>
    ({ id := id, sig := sig, left := left, due := due, split := s.split.id, owing := s.split.owed != 0 } : Flight)
  if sig = 15 then { s with team := { s.team with flights := s.team.flights ++ [flight none] } }
  else { s with team := { s.team with flights := s.team.flights ++ [flight (some sig.toNat)],
                                      c := s.team.c.set 0 sig.toNat (s.team.c.get 0 sig.toNat + 1) } }

end State

/-- Ends a flight of a team: the sig flag falls (R47). -/
def endFlight (t : Team) (id : Nat) : Team :=
  match t.flights.find? fun x => x.id == id with
  | none => t
  | some x =>
    let t := { t with flights := t.flights.filter fun y => y.id != id }
    match x.sig with
    | none => t
    | some k => { t with c := t.c.set 0 k (t.c.get 0 k - 1) }

/-- One effect of a flight completes; the last one ends it. -/
def landFlight (t : Team) (id : Nat) : Team :=
  match t.flights.find? fun x => x.id == id with
  | none => t
  | some x =>
    if x.left ≤ 1 then endFlight t id
    else { t with flights := t.flights.map fun y => if y.id = id then { y with left := y.left - 1 } else y }

/-- Sets how many effects a flight has, and that they complete by events and not by time. -/
def holdFlight (t : Team) (id left : Nat) : Team :=
  { t with flights := t.flights.map fun y => if y.id = id then { y with left := left, due := none } else y }

/-- Ends the flights whose cycle has come (R46, R47). -/
def dueFlights (now : Nat) (t : Team) : Team :=
  (t.flights.filter fun x => match x.due with | some d => d ≤ now | none => false).foldl (fun t x => endFlight t x.id) t

/-! ### Runs (R40 to R42) -/

/-- Ends a split's run with a trailer mask. -/
def endRun (mask : BitVec 12) (x : Split) : Split := { x with run := {}, trailer := mask }

/-! ### Bytes of memory (log entry 1) -/

/-- The key of a vault byte: core number, offset in the vault (R165). -/
def vaultKey (core off : Nat) : Nat := 2 ^ 52 + core * 2 ^ 21 + off

/-- The key of a scratchpad byte: block, offset (R163). -/
def padKey (block off : Nat) : Nat := 2 ^ 53 + block * 2 ^ 20 + off

/-- What a byte that nothing has written reads as (log entry 2). -/
abbrev unlistedByte : Byte := 0

/-- The canonical form of memory: addresses strictly rising, and no entry that equals what an unlisted byte reads as. -/
def Memory.wf (m : SMap Byte) : Bool := m.wf unlistedByte

namespace State

/-- One byte of the machine's memory. -/
def byte (s : State) (k : Nat) : Byte := s.mem.get unlistedByte k

def bytes (s : State) (ks : List Nat) : List Byte := ks.map s.byte

/-- Writes bytes, the earlier value joining the coherence order (R198). -/
def putByte (s : State) (k : Nat) (b : Byte) : State :=
  { s with mem := s.mem.set unlistedByte k b, hist := s.hist.set [] k (s.byte k :: s.hist.get [] k) }

def putBytes (s : State) : List (Nat × Byte) → State
  | [] => s
  | (k, b) :: r => putBytes (s.putByte k b) r

/-- The full-empty bit of the granule that holds a byte (R167). -/
def isFull (s : State) (k : Nat) : Bool := s.full.get false (k / 16)

def setFull (s : State) (k : Nat) (b : Bool) : State := { s with full := s.full.set false (k / 16) b }

end State

end Sys2Proof.Machine
end

