-- ==== Sys2Proof/Machine/Clock.lean ====
section
/-! DEFINITION. Device time and the hybrid logical clocks (R326, R327). -/
namespace Sys2Proof.Machine

/-- Clock cycles in a number of nanoseconds, at 1.1 GHz (R162; log entry 5). -/
def cyclesOf (ns : Nat) : Nat := ns * 11 / 10

namespace State

/-- Device time D in nanoseconds: the model counts core cycles from the release of reset (R326; log entry 5). -/
def deviceTime (s : State) : Nat := s.cycle * 10 / 11 % 2 ^ 64

end State

/-- A clock of physical part `p` and logical count `l`; a count past 65,535 raises the physical part (R327). -/
def hlcOf (p l : Nat) : Addr := BitVec.ofNat 64 (if l ≤ 65535 then p * 65536 + l else (p + 1) * 65536)

/-- A local event (R327). -/
def hlcLocal (now : Nat) (h : Addr) : Addr :=
  if h.toNat / 65536 < now then hlcOf now 0 else hlcOf (h.toNat / 65536) (h.toNat % 65536 + 1)

/-- The receipt of a stamp (R327). -/
def hlcReceive (now : Nat) (h m : Addr) : Addr :=
  let hp := h.toNat / 65536
  let mp := m.toNat / 65536
  let p := max now (max hp mp)
  hlcOf p
    (if p = hp ∧ p = mp then max (h.toNat % 65536) (m.toNat % 65536) + 1
     else if p = hp then h.toNat % 65536 + 1
     else if p = mp then m.toNat % 65536 + 1
     else 0)

namespace State

/-- Device time in units of 16 ns. -/
def hlcTime (s : State) : Nat := s.deviceTime / 16

/-- A local event on a die's clock: the stamp, and the state after it. -/
def stamp (s : State) (d : Nat) : Addr × State :=
  let h := hlcLocal s.hlcTime (s.die d).hlc
  (h, s.modDie d fun x => { x with hlc := h })

/-- A die receives a stamp. -/
def receive (s : State) (d : Nat) (m : Addr) : State :=
  s.modDie d fun x => { x with hlc := hlcReceive s.hlcTime x.hlc m }

/-- A message from one die to another carries its sender's stamp (R327). -/
def message (s : State) (src dst : Nat) : State := if src = dst then s else s.receive dst (s.die src).hlc

end State

end Sys2Proof.Machine
end

