-- ==== Sys2Proof/Machine/Translate.lean ====
section
/-! DEFINITION. Translation (R296, R297, R299), domains (R175), homes (R178), host pages (R176). -/
namespace Sys2Proof.Machine

/-! ### Keys of the byte memory (log entry 1) -/

/-- The key of a byte of host memory. -/
def hostKey (pa : Nat) : Nat := 2 ^ 54 + pa

/-- The line of 128 bytes that holds a byte. -/
def lineOf (k : Nat) : Nat := k / 128

/-- Whether a key is a byte of the stacks or of host memory, which the caches hold (R162). -/
def cached (k : Nat) : Bool := k < 2 ^ 52 || 2 ^ 54 ≤ k

/-! ### Encryption (R337) -/

/-- The keys that a key identifier stands for now: the identifier and the number of its creation. -/
def State.sealOf (s : State) (kid : Nat) : Nat × Nat := (kid, s.keyNo.get 0 kid)

/-- What distinguishes the decryption of a byte: its address, the keys of the reader and of the writer. -/
def cipherCase (k : Nat) (a b : Nat × Nat) : List Nat := [k, a.1, a.2, b.1, b.2]

/-- The 16-byte block that holds a byte. -/
def State.blockBytes (s : State) (k : Nat) : List Byte := s.bytes ((List.range 16).map (k / 16 * 16 + ·))

/-- A byte as an access under a key identifier reads it: of a line of the stacks that other keys have encrypted, what these keys decrypt it
to (R337). A line that no keyed write has met reads the same under every key (log entry 52). -/
def State.byteAs (s : State) (kid k : Nat) : Byte :=
  match if k < 2 ^ 51 then s.seals.get none (lineOf k) else none with
  | some w => if w = s.sealOf kid then s.byte k else Config.decrypted (cipherCase k (s.sealOf kid) w) (s.blockBytes k)
  | none => s.byte k

def State.bytesAs (s : State) (kid : Nat) (ks : List Nat) : List Byte := ks.map (s.byteAs kid)

/-- A line of the stacks is encrypted under a key identifier from now on: what other keys had encrypted it holds as these decrypt it, and no
earlier value of it is left (R337). -/
def State.sealLine (s : State) (kid line : Nat) : State :=
  if 2 ^ 51 ≤ 128 * line || s.seals.get none line = some (s.sealOf kid) then s
  else
    let now := { s with seals := s.seals.set none line (some (s.sealOf kid)) }
    if s.seals.get none line = none then now
    else
      let ks := (List.range 128).map (128 * line + ·)
      { now with mem := s.mem.setList unlistedByte (128 * line) (s.bytesAs kid ks), hist := ks.foldl (fun m k => m.set [] k []) s.hist }

/-- The lines of locations are encrypted under a key identifier from now on. -/
def State.sealLines (s : State) (kid : Nat) (ks : List Nat) : State := ((ks.map lineOf).eraseDups).foldl (fun s l => s.sealLine kid l) s

/-! ### The tree (R296) -/

/-- The levels: the lowest index bit and the number of index bits. -/
def levels : List (Nat × Nat) := [(48, 9), (39, 9), (30, 9), (21, 9), (16, 5)]

/-- What a walk of the tree ends in. -/
inductive Walk where
  | leaf (e : Addr) (shift : Nat)
  | driver                              -- valid = 0 and demand = 1
  | bad                                 -- valid = 0, or malformed
  deriving DecidableEq, Repr

/-- A word of 64 bits from the memory of the stacks, as a walk reads it: under which key it does is open (log entry 52). -/
def State.word64 (s : State) (k : Nat) : Addr := BitVec.ofNat 64 (leNat 8 (s.bytes ((List.range 8).map (k + ·))))

/-- Bits 51:16, as the address they stand for. -/
def frameOf (e : Addr) : Nat := e.toNat / 2 ^ 16 % 2 ^ 36 * 2 ^ 16

/-- Whether a valid entry is malformed at the level with lowest index bit `sh`. -/
def malformed (e : Addr) (sh : Nat) : Bool :=
  e.getLsbD 15 || e.toNat / 2 ^ 52 != 0 ||
  (if e.getLsbD 1 then decide (sh > 30) || e.toNat / 64 % 4 == 3 || frameOf e % 2 ^ sh != 0 else sh == 16)

/-- Walks the levels from a table on. -/
def walk (s : State) (va : Nat) (table : Nat) : List (Nat × Nat) → Walk
  | [] => .bad
  | (sh, n) :: r =>
    let e := s.word64 (table + 8 * (va / 2 ^ sh % 2 ^ n))
    if !e.getLsbD 0 then (if e.getLsbD 2 then .driver else .bad)
    else if malformed e sh then .bad
    else if e.getLsbD 1 then .leaf e sh
    else walk s va (frameOf e) r

/-! ### Homes and ways (R178, R329) -/

/-- The die that homes a physical byte, where an access from die `d` would give its unit a home (R178); host memory is reached from die
0 (R340). -/
def State.homeFor (s : State) (d k : Nat) : Nat :=
  if k < 2 ^ 51 then ((s.homes.get none (k / 2 ^ 21)).map Home.die).getD d else 0

/-- The die that homes a physical byte. -/
def State.homeDie (s : State) (k : Nat) : Nat := s.homeFor 0 k

/-- The die links that a message crosses: first along the row, then along the column (R329). -/
def linksBetween (a b : Nat) : List Nat :=
  (if a % 2 = b % 2 then [] else [a / 2]) ++ (if a / 2 = b / 2 then [] else [2 + b % 2])

/-- Whether traffic passes from a die to another: over a link that is being retrained it waits (R329). -/
def State.routeOpen (s : State) (a b : Nat) : Bool := (linksBetween a b).all fun l => s.links.get 0 l != 2

/-- The messages of an access from a die to the home of a location, and back, if it goes to one (R327). -/
def State.roundTrip (s : State) (d k : Nat) : State :=
  if cached k then (s.message d (s.homeDie k)).message (s.homeDie k) d else s

/-- Whether an access from a die passes to the home of a physical byte, and its answer back: the two may cross different links (R329). -/
def State.wayBetween (s : State) (d k : Nat) : Bool := s.routeOpen d (s.homeFor d k) && s.routeOpen (s.homeFor d k) d

/-- The levels below the one whose lowest index bit is `sh`. -/
def levelsBelow (sh : Nat) : List (Nat × Nat) := levels.filter fun l => decide (l.1 < sh)

/-- What a held entry gives for an address: a leaf, or the walk that goes on from it. -/
def Cached.gives (s : State) (va : Nat) (x : Cached) : Walk :=
  match x.place with
  | .walk _ => walk s va (frameOf x.entry) (levelsBelow x.shift)
  | _ => .leaf x.entry x.shift

/-- Whether a held entry serves an address of a core. -/
def Cached.serves (x : Cached) (cx core die : Nat) (va : Nat) : Bool :=
  x.ctx == cx && x.page == va / 2 ^ x.shift * 2 ^ x.shift &&
    match x.place with
    | .l1 c => c == core
    | .l2 d | .walk d => d == die

/-- The tree's answer, or that of an entry which the core's L1 TLB, or its die's L2 TLB or walk cache, still holds and the tree no longer
gives: until its invalidation completes, an access may use either, and the lanes of one 64 KB page use one (R297, R299). -/
def State.lookup (s : State) (cx launch core : Nat) (va : Addr) : Walk :=
  let w := walk s va.toNat ((s.descOf cx launch).ptroot.toNat) levels
  match s.tlb.filter fun x => x.serves cx core (s.dieOf core) va.toNat with
  | [] => w
  | l =>
    let ws := (w :: l.map (Cached.gives s va.toNat)).eraseDups
    ws.getD (Config.freeStale s.cycle (va.toNat / 65536) % max 1 ws.length) w

/-- The entries that a walk passes, from a table on: each with the lowest bit of its level. -/
def passed (s : State) (va : Nat) (table : Nat) : List (Nat × Nat) → List (Addr × Nat)
  | [] => []
  | (sh, n) :: r =>
    let e := s.word64 (table + 8 * (va / 2 ^ sh % 2 ^ n))
    if !e.getLsbD 0 || malformed e sh then []
    else if e.getLsbD 1 then [(e, sh)]
    else (e, sh) :: passed s va (frameOf e) r

/-- Whether a walk for an access of a core meets no link that is being retrained: one that a TLB serves needs none (R297, R329). -/
def State.walkOpen (s : State) (cx launch core : Nat) (va : Addr) : Bool :=
  (s.links.all fun l => l.2 != 2) ||
  (s.tlb.any fun x => x.serves cx core (s.dieOf core) va.toNat && match x.place with | .walk _ => false | _ => true) ||
  let root := (s.descOf cx launch).ptroot.toNat
  (root :: ((passed s va.toNat root levels).filter fun e => !e.1.getLsbD 1).map fun e => frameOf e.1).all fun k =>
    s.wayBetween (s.dieOf core) k

/-! ### The outcome (R297, R301) -/

/-- What an access needs of its leaf, and its kind in reports (R297, R298). -/
inductive Access where
  | fetch | load | store | atomic | other | engineRead | engineWrite
  deriving DecidableEq, Repr

/-- The kind byte of a driver report (R298). -/
def Access.kind : Access → Nat
  | .fetch => 0 | .load => 1 | .store => 2 | .atomic => 3 | .other => 4 | .engineRead => 5 | .engineWrite => 6

/-- Whether a leaf has the permission of an access. -/
def Access.allowed (a : Access) (e : Addr) : Bool :=
  match a with
  | .fetch => e.getLsbD 5
  | .load | .engineRead => e.getLsbD 3
  | .store | .engineWrite => e.getLsbD 4
  | .atomic => e.getLsbD 3 && e.getLsbD 4
  | .other => true

def kindOf (e : Addr) : PageKind :=
  match e.toNat / 64 % 4 with
  | 1 => .so
  | 2 => .uo
  | _ => .rc

/-- A failed partition or key check: the physical address, the cause of R302, the key identifier. -/
structure Refused where
  addr  : Nat
  cause : Nat
  key   : Nat
  deriving DecidableEq, Repr

/-- A translated byte. -/
structure Phys where
  key  : Nat                 -- its key in the byte memory
  page : PageKind
  host : Option Nat          -- the host page that holds it, in units of 64 KB
  kid  : Nat                 -- key identifier
  deriving DecidableEq, Repr

/-- The outcome of a translation. -/
inductive Xl where
  | ok (p : Phys)
  | driver
  | fault (c : Code)
  | refused (r : Refused)
  | wait                     -- the walk meets a die link that is being retrained (R329)
  deriving DecidableEq, Repr

/-- Whether a physical byte lies in the partition's memory (R336). -/
def coversByte (p : PartEntry) (pa : Nat) : Bool := p.ranges.any fun r => decide (r.1.toNat ≤ pa) && decide (pa < r.2.toNat)

/-- The first failing check of the partition and key (R297, R302, R338); host memory lies outside the stacks' ranges (log
entry 13), and where the stacks end no range is cut (log entry 89). -/
def partCheck (s : State) (part : Nat) (pa kid : Nat) (host : Bool) : Option Refused :=
  let p := (s.part part).entry
  if !host && !coversByte p pa then some { addr := pa, cause := 1, key := kid }
  else if !p.keys.getLsbD kid || s.retiring.contains kid then some { addr := pa, cause := 2, key := kid }
  else none

/-- The number of the host page that holds a physical byte under a leaf of size 2^shift (R176): even for a page of 64 KB, odd for a
unit of 2 MB. -/
def hostPageOf (pa shift : Nat) : Nat := if shift = 16 then pa / 2 ^ 16 * 2 else pa / 2 ^ 21 * 64 + 1

/-- The first physical byte of a host page, and its size. -/
def hostPageBase (n : Nat) : Nat := n / 2 * 65536
def hostPageSize (n : Nat) : Nat := if n % 2 = 0 then 65536 else 2 ^ 21

/-- Whether a key is a byte of a host page. -/
def inHostPage (n k : Nat) : Bool :=
  decide (hostKey (hostPageBase n) ≤ k) && decide (k < hostKey (hostPageBase n + hostPageSize n))

/-- Translates one byte for a launch of a context (R297, R341), with the check of the partition and key or without; a frame in a peer
aperture raises PERM for a core's access (R343). -/
def State.translated (s : State) (check : Bool) (cx launch part core : Nat) (acc : Access) (va : Addr) : Xl :=
  if !s.walkOpen cx launch core va then .wait
  else match s.lookup cx launch core va with
  | .driver => .driver
  | .bad => .fault .XLATE
  | .leaf e sh =>
    let pa := frameOf e + va.toNat % 2 ^ sh
    let host := e.getLsbD 8
    let kid := e.toNat / 2 ^ 9 % 64
    if !acc.allowed e then .fault .PERM
    else if 2 ^ 51 ≤ pa && acc != .engineRead && acc != .engineWrite then .fault .PERM
    else if check && pa < 2 ^ 51 && (partCheck s part pa kid host).isSome then
      match partCheck s part pa kid host with
      | some r => .refused r
      | none => .driver
    else .ok { key := if host then hostKey pa else pa, page := kindOf e, host := if host then some (hostPageOf pa sh) else none,
               kid := kid }

/-- Translates one byte, with every check. -/
def State.translate (s : State) (cx launch part core : Nat) (acc : Access) (va : Addr) : Xl := s.translated true cx launch part core acc va

/-- Whether an access goes by a leaf that a TLB of its core or die has held since the leaf passed its check: then the check is left to the
target (R301, R338). Whether the TLB has kept it so long is open. -/
def State.goesUnchecked (s : State) (cx core : Nat) (va : Addr) : Bool :=
  (s.tlb.any fun x => x.serves cx core (s.dieOf core) va.toNat && match x.place with | .walk _ => false | _ => true) &&
    Config.freeStale s.cycle (va.toNat / 65536 + 2 ^ 52) % 2 = 1

/-- Keeps an entry in a TLB or walk cache that has none for its addresses. -/
def State.keepEntry (s : State) (x : Cached) : State :=
  if s.tlb.any fun y => y.place == x.place && y.ctx == x.ctx && y.page == x.page && y.shift == x.shift then s
  else { s with tlb := s.tlb ++ [x] }

/-- The core's L1 TLB and its die's L2 TLB hold the leaf of an address from now on, and the die's walk cache the entries above it
(R297). -/
def State.noteTlb (s : State) (cx launch core : Nat) (va : Addr) : State :=
  let d := s.dieOf core
  (passed s va.toNat ((s.descOf cx launch).ptroot.toNat) levels).foldl (fun s (e, sh) =>
    let x : Cached := { place := .walk d, ctx := cx, page := va.toNat / 2 ^ sh * 2 ^ sh, shift := sh, entry := e }
    if e.getLsbD 1 then (s.keepEntry { x with place := .l1 core }).keepEntry { x with place := .l2 d } else s.keepEntry x) s

/-! ### Domains and homes (R174, R175, R178, R207) -/

/-- The entry of the region table that holds an address: the lowest valid one. -/
def regionEntry (p : Part) (va : Addr) : Option Nat :=
  let u := va.toNat / 2 ^ 21 % 2 ^ 36
  (List.range 64).find? fun i =>
    let e := p.regions.get 0 i
    e.getLsbD 0 && decide (e.toNat / 2 ^ 21 % 2 ^ 36 ≤ u) && decide (u < e.toNat / 2 ^ 85 % 2 ^ 36)

/-- The domain that the region table gives an address. -/
def regionDomain (p : Part) (va : Addr) : Option Domain :=
  (regionEntry p va).map fun i =>
    match (p.regions.get 0 i).toNat / 2 % 4 with
    | 0 => .core
    | 1 => .die
    | 2 => .package
    | _ => .system

/-- R175: without an entry, package for device memory and system for host memory. -/
def domainOf (p : Part) (va : Addr) (host : Bool) : Domain :=
  (regionDomain p va).getD (if host then .system else .package)

/-- The die-domain region entry through which an access meets its unit, which then stays where it is while the entry stands (R178). -/
def State.pins (s : State) (part : Nat) (va : Addr) : Option (Nat × Nat) :=
  if regionDomain (s.part part) va = some .die then (regionEntry (s.part part) va).map fun i => (part, i) else none

/-- An access counts toward its unit's home, and gives a unit its home (R178). -/
def State.touch (s : State) (k d : Nat) (pin : Option (Nat × Nat)) : State :=
  if k < 2 ^ 51 then
    let h := (s.homes.get none (k / 2 ^ 21)).getD { die := d }
    { s with homes := s.homes.set none (k / 2 ^ 21)
               (some { h with counts := h.counts.set 0 d (h.counts.get 0 d + 1),
                              fixed := match pin with | some x => x :: h.fixed.filter (· != x) | none => h.fixed }) }
  else s

/-- Whether the device owns a host page (R176). -/
def State.owns (s : State) (n : Nat) : Bool := (s.pages.get {} n).device

end Sys2Proof.Machine
end

