-- ==== Sys2Proof/Machine/Home.lean ====
section
/-! DEFINITION. Writes at a home and what they send to sharers (R198, R203, R204). -/
namespace Sys2Proof.Machine

/-! ### Sharers (R198, R204) -/

namespace State

/-- The copy that a core has of a line, and which an access under a key identifier hits (R162). -/
def share (s : State) (c kid line : Nat) : Option Share := s.shares.find? fun x => x.core == c && x.line == line && x.key == kid

/-- Applies bytes to a core's copy of a line. -/
def applyCopy (s : State) (c line : Nat) (bs : List (Nat × Byte)) : State :=
  { s with shares := s.shares.map fun (x : Share) =>
      if x.core = c && x.line = line then { x with data := bs.foldl (fun m b => m.set 0 b.1 b.2) x.data } else x }

/-- The bytes of a write that lie in a line, by offset. -/
def inLine (line : Nat) (bs : List (Nat × Byte)) : List (Nat × Byte) :=
  (bs.filter fun b => lineOf b.1 == line).map fun b => (b.1 % 128, b.2)

/-- A core's own write is newer than what is on its way to its copy, which never goes back (R204, R215; log entry 34): the bytes
that it wrote leave the fill and the updates of the line. -/
def supersede (s : State) (c line : Nat) (bs : List (Nat × Byte)) : State :=
  { s with updates := s.updates.map fun (u : Update) =>
      if u.core = c && u.line = line then { u with bytes := u.bytes.filter fun b => !(bs.any fun x => x.1 == b.1) } else u }

/-- Who writes: the core whose own copy takes the write at once, the die that the write comes from (none: a peer device), and the cycle
from which the bound of R215 runs. -/
structure Writer where
  core  : Option Nat := none
  die   : Option Nat := none
  since : Nat := 0
  bound : Bool := true               -- false on a UO page, where no bound holds
  deriving DecidableEq, Repr

/-- Cycles of the bound between a writer's die, or a peer device, and a reader's die (R215). -/
def boundCycles (w : Option Nat) (d : Nat) : Nat := cyclesOf (match w with | none => 8000 | some a => if a = d then 1000 else 2000)

/-- One sharer of a line that a write touches: the writer's own copy takes the write at once, another gets an update. -/
def sendTo (w : Writer) (store : Nat) (bs : List (Nat × Byte)) (s : State) (x : Share) : State :=
  let mine := inLine x.line bs
  if mine.isEmpty then s
  else if w.core = some x.core then (s.applyCopy x.core x.line mine).supersede x.core x.line mine
  else { s with updates := s.updates ++ [{ core := x.core, line := x.line, fill := false, bytes := mine, store := store,
                                           due := if w.bound then some (w.since + boundCycles w.die (s.dieOf x.core)) else none }] }

/-- The lines of core-domain data after a core's L1 has taken bytes into those that it holds. -/
def applyOwn (c : Nat) (bs : List (Nat × Byte)) (l : List Share) : List Share :=
  l.map fun x => if x.core = c then { x with data := (inLine x.line bs).foldl (fun m b => m.set 0 b.1 b.2) x.data } else x

/-- What the L1 of the writing core holds of the written locations follows the write. -/
def ownCopies (w : Writer) (bs : List (Nat × Byte)) (l : List Share) : List Share := w.core.elim l fun c => applyOwn c bs l

/-- The bytes of a line as an access under a key identifier reads them in memory, by offset. -/
def lineBytes (s : State) (kid line : Nat) : SMap Byte :=
  (List.range 128).filterMap fun i => let b := s.byteAs kid (128 * line + i); if b = 0 then none else some (i, b)

/-- A core's L1 takes a line of core-domain data under a key identifier, unless it holds it; a copy under another key makes room (R162). -/
def takeLine (s : State) (c kid line : Nat) : State :=
  if s.l1.any fun x => x.core == c && x.line == line && x.key == kid then s
  else
    { s with l1 := (s.l1.filter fun x => !(x.core == c && x.line == line)) ++
        [{ core := c, line := line, key := kid, ready := true, data := s.lineBytes kid line }] }

/-- A core's L1 holds bytes of core-domain data from now on, with the rest of their lines (R162, R207). -/
def holdOwn (s : State) (c kid : Nat) (bs : List (Nat × Byte)) : State :=
  let s := ((bs.map fun b => lineOf b.1).eraseDups).foldl (fun s l => s.takeLine c kid l) s
  { s with l1 := applyOwn c bs s.l1 }

/-- A write that is performed stands over every earlier write of its locations: no later read returns those (R204). -/
def standsOver (s : State) (ks : List Nat) : State :=
  { s with unperf := s.unperf.map fun (u : Unperformed) => { u with passed := u.passed ++ u.locs.filter ks.contains } }

/-- A `watch` of a written location is to see the write within the write's own bound (R197, R215). -/
def wakeBy (w : Writer) (bs : List (Nat × Byte)) (e : Entry) : Entry :=
  match e.kind with
  | .watch _ => if e.since.isNone && !e.committed && e.locs.any fun k => bs.any fun b => b.1 == k then { e with since := some w.since } else e
  | _ => e

/-- A write commits at its home: it joins each location's coherence order and goes to the sharers (R204). While some update of
it is queued it is not performed. `store` is the entry's number, or a fresh one for other agents. -/
def commitWrite (s : State) (w : Writer) (store : Nat) (bs : List (Nat × Byte)) : State :=
  let n := s.updates.length
  let s := { s.putBytes bs with l1 := ownCopies w bs s.l1, entries := s.entries.map (wakeBy w bs) }
  let s := s.shares.foldl (sendTo w store bs) s
  if s.updates.length = n then s.standsOver (bs.map Prod.fst) else { s with unperf := s.unperf ++ [{ store := store, locs := bs.map Prod.fst }] }

/-- Writes consecutive bytes on the device's own account. -/
def putAt (s : State) (k : Nat) (bs : List Byte) : State :=
  let (id, s) := s.fresh
  s.commitWrite { die := some (s.homeDie k), since := s.cycle } id (bs.mapIdx fun i b => (k + i, b))

/-- A core becomes a sharer of a line under a key identifier: the fill joins the update queue (R203). A copy under another key makes room. -/
def startShare (s : State) (c kid line : Nat) : State :=
  if (s.share c kid line).isSome then s
  else
    let fill := (List.range 128).map fun i => (i, s.byteAs kid (128 * line + i))
    let other := fun (a b : Nat) => a == c && b == line
    { s with shares := (s.shares.filter fun x => !other x.core x.line) ++ [{ core := c, line := line, key := kid, ready := false }],
             updates := (s.updates.filter fun u => !other u.core u.line) ++
               [{ core := c, line := line, fill := true, bytes := fill,
                  due := some (s.cycle + boundCycles (some (s.homeDie (128 * line))) (s.dieOf c)) }] }

/-- A slice that cannot record a further sharer returns the fill alone, and the core does not become a sharer; which fills these are is
open (R335; log entry 84). -/
def maySharer (s : State) (c kid line : Nat) : State :=
  let s := { s with free := s.free + 1 }
  if Config.freeBit (s.free * 65536 + 50000) then s else s.startShare c kid line

end State

end Sys2Proof.Machine
end

