-- ==== Sys2Proof/Machine/Ends.lean ====
section
/-! DEFINITION. What leaves the machine: lanes that exit, joins that fire, helpers that leave, teams that end, and what each
of these releases (R85, R98, R101, R132, R145, R185, R187, R211, R216, R239). -/
namespace Sys2Proof.Machine

/-! ### Joins and exits of lanes (R98, R101), on a team with every split in its table -/

def unionIds (a b : List Nat) : List Nat := a ++ b.filter fun x => !a.contains x

/-- The record is complete: E ∩ live ⊆ A. -/
def Join.complete (j : Join) (live : Mask) : Bool := j.expects &&& live &&& ~~~j.arrived == 0

/-- The lanes of a split arrive at record `k`, and leave what the records inside it expect (R98, R200). -/
def arriveIn (k : Nat) (inner : List Nat) (x : Split) (t : Team) : Team :=
  let leave := fun (js : SMap (Option Join)) (i : Nat) =>
    js.set none i ((js.get none i).map fun (j : Join) => { j with expects := j.expects &&& ~~~x.mask })
  let come := fun (j : Join) => { j with arrived := j.arrived ||| x.mask, older := unionIds j.older x.older,
                                         barred := unionIds j.barred x.barred, awaits := unionIds j.awaits x.awaits }
  let js := inner.foldl leave t.joins
  { t with joins := js.set none k ((js.get none k).map come) }

/-- What a split that is retired, or a record that no lane reached, leaves to a record: its entries are older than what goes on (R200). -/
def inheritIn (older barred : List Nat) (link : Option Nat) (t : Team) : Team :=
  match link with
  | none => t
  | some k =>
    { t with joins := t.joins.set none k ((t.joins.get none k).map fun (j : Join) =>
        { j with older := unionIds j.older older, barred := unionIds j.barred barred }) }

/-- Fires the record `k` where it is complete, and with an empty arrived set checks the enclosing record (R98). DESIGN CHOICE (log entry 87):
what goes on takes the first of the freed split entries. -/
def fireJoin (now : Nat) : Nat → Nat → Team × List Split → Team × List Split
  | 0, _, a => a
  | fuel + 1, k, (t, freed) =>
    match t.joins.get none k with
    | none => (t, freed)
    | some j =>
      if !j.complete t.live then (t, freed)
      else if j.arrived &&& t.live == 0 then
        let t := inheritIn j.older j.barred j.outer { t with joins := t.joins.set none k none }
        match j.outer with
        | none => (t, freed)
        | some o => fireJoin now fuel o (t, freed)
      else
        match freed with
        | [] => (t, [])
        | y :: r =>
          let x : Split := { id := y.id, entry := y.entry, pc := j.addr + 8, mask := j.arrived &&& t.live, link := j.outer, last := now,
                             buffer := y.buffer, request := y.request, older := j.older, barred := j.barred, awaits := j.awaits }
          (Team.addSplit j.held x { t with joins := t.joins.set none k none }, r)

/-- Checks every record (R98, R101). DESIGN CHOICE (log entry 87): in ascending number. -/
def fireAll (now : Nat) (freed : List Split) (t : Team) : Team :=
  ((List.range 16).foldl (fun a k => fireJoin now 16 k a) (t, freed)).1

/-- The innermost record on a chain whose join address is `x`, with the records inside it. -/
def findRecord (t : Team) (x : Addr) : Nat → Option Nat → List Nat → Option (Nat × List Nat)
  | 0, _, _ => none
  | _, none, _ => none
  | fuel + 1, some k, inner =>
    match t.joins.get none k with
    | none => none
    | some j => if j.addr = x then some (k, inner) else findRecord t x fuel j.outer (inner ++ [k])

/-- The newest deferred entry of a split entry (R99). -/
def newestDeferred (t : Team) (n : Nat) : Option Deferred := (t.deferred.reverse.find? fun d => d.split == n)

/-- Removes the newest deferred entry of a split entry, or replaces it. -/
def setNewestDeferred (t : Team) (n : Nat) (new : Option Deferred) : Team :=
  let rec go : List Deferred → List Deferred
    | [] => []
    | d :: r => if d.split = n then (match new with | some n => n :: r | none => r) else d :: go r
  { t with deferred := (go t.deferred.reverse).reverse }

/-- What a split that comes to join address `a` does with its deferred entries (R117): it turns to a deferred side, or gathers the lanes
of every entry of that address; a side whose lanes have all left is taken up and empties at once (R101). -/
def gatherAt (a : Addr) : Nat → Split → Team → Bool × Split × Team
  | 0, x, t => (false, x, t)
  | fuel + 1, x, t =>
    match newestDeferred t x.entry with
    | none => (false, x, t)
    | some d =>
      if d.addr != a then (false, x, t)
      else match d.pc with
        | some pc =>
          if d.mask == 0 then gatherAt a fuel x (setNewestDeferred t x.entry none)
          else (true, { x with mask := d.mask, pc := pc }, setNewestDeferred t x.entry (some { d with pc := none, arrived := x.mask }))
        | none => gatherAt a fuel { x with mask := x.mask ||| d.arrived } (setNewestDeferred t x.entry none)

/-- A split whose mask has emptied takes up its newest deferred entry as though it had arrived at that entry's join (R101): it turns to a
side, or its gathered lanes act under R98 there; none where it is retired. -/
def takeDeferred (x : Split) : Nat → Team → Option Split × Team
  | 0, t => (none, t)
  | fuel + 1, t =>
    match newestDeferred t x.entry with
    | none => (none, t)
    | some d =>
      match gatherAt d.addr 300 x t with
      | (true, y, t) => (some y, t)
      | (false, y, t) =>
        if y.mask == 0 then takeDeferred x fuel t
        else match findRecord t d.addr 17 y.link [] with
          | some (k, inner) => (none, arriveIn k inner y t)
          | none => (some { y with pc := d.addr + 8 }, t)

/-- An emptied split leaves the table, or goes on with deferred lanes in its entry. -/
def retireSplit (serial : Nat) (held : Bool) (a : Team × List Split) (x : Split) : Team × List Split :=
  let x : Split := { x with run := {}, trailer := 0, inSlot := false, park := .none, wave := none, gated := none,
                            request := if x.buffer then none else some serial }
  match takeDeferred x 300 (inheritIn x.older x.barred x.link a.1) with
  | (some y, t) => (Team.addSplit held y t, a.2)
  | (none, t) => (t, a.2 ++ [x])

/-- Lanes leave the live mask, every split mask, expected set and deferred mask; emptied splits, running or held by a handler, are
retired, and every record is checked (R101). Of a faulting split that has emptied the handler keeps a vacant one. DESIGN CHOICE (log entry
88): a party of a held split that waits at a rendezvous slot stays in its queue. -/
def exitLanes (now serial : Nat) (gone : Mask) (t : Team) : Team :=
  let keep := ~~~gone
  let t := Team.mapEvery (fun x => { x with mask := x.mask &&& keep })
    { t with live := t.live &&& keep,
             deferred := t.deferred.map fun (d : Deferred) => { d with mask := d.mask &&& keep, arrived := d.arrived &&& keep },
             joins := t.joins.map fun (e : Nat × Option Join) => (e.1, e.2.map fun (j : Join) => { j with expects := j.expects &&& keep }) }
  let dead := t.splits.filter fun x => x.mask == 0
  let held := t.heldSplits.filter fun x => x.mask == 0
  let fault := match t.handler with
    | some h => if h.fault.id != 0 && h.fault.mask == 0 then [h.fault] else []
    | none => []
  let ids := (dead ++ held).map Split.id
  let alone := fun (x : Split) => if x.wave.any fun w => ids.contains w.other then { x with wave := none } else x
  let t := { t with splits := (t.splits.filter fun x => x.mask != 0).map alone,
                    handler := t.handler.map fun (h : Handler) =>
                      { fault := if h.fault.mask == 0 then {} else alone h.fault, held := (h.held.filter fun x => x.mask != 0).map alone } }
  let (t, freed) := dead.foldl (retireSplit serial false) (t, [])
  let (t, freed) := (held ++ fault).foldl (retireSplit serial true) (t, freed)
  fireAll now freed t

/-! ### Parks (R42, R100) -/

/-- Whether a wait parks the whole team, and not its split alone. -/
def Park.holdsTeam : Park → Bool
  | .colour _ | .mwait .. | .watch .. | .barrier _ | .queue | .acquire _ | .expandUnit | .token _ | .unit | .driver _ | .page ..
  | .reclaim | .helpers | .stalled => true
  | .none | .paused | .ldfe | .rendezvous .. | .latch _ | .counter .. | .stop | .withTeam => false

/-- Whether a waiting split keeps its run slot (R238, R284). -/
def Park.keepsSlot : Park → Bool
  | .none | .paused | .counter .. | .latch _ => true
  | _ => false

namespace State

/-- A split leaves its park and asks for an instruction-buffer entry again (R100). -/
def unparkSplit (s : State) (tid sid : Nat) : State :=
  let (r, s) := s.fresh
  s.modSplitId tid sid fun x => { x with park := .none, request := if x.buffer then none else some r }

/-- A team of which a split waits parks as a whole, and leaves the park as a whole (R100, R176, R298, R303): its other splits, those that
its handler holds among them, give up their entries, and ask for them again. A helper group's splits wait each for itself (R357). -/
def settlePark (s : State) (t : Team) : State :=
  let (r, s) := s.fresh
  let park := fun (x : Split) => if x.park = .none then { x with park := .withTeam, buffer := false, request := none } else x
  let go := fun (x : Split) => if x.park = .withTeam then { x with park := .none, request := some r } else x
  if t.splits.any fun x => x.park.holdsTeam then s.modTeamId t.id (Team.mapEvery park)
  else if t.every.any fun x => x.park == .withTeam then s.modTeamId t.id (Team.mapEvery go)
  else s

/-- Every team's park settled. -/
def settleParks (s : State) : State := (s.others.filter fun t => t.role == .main && !t.ended).foldl settlePark s

/-- The lanes of a team that are lent to helper groups (R135). -/
def lentOut (s : State) (tid : Nat) : List Lent := (s.allTeams.flatMap fun t => t.lent).filter fun x => x.team == tid

/-- A donor's condition has cleared: it reclaims its lent lanes (R145). -/
def reclaimLanes (s : State) (tid : Nat) : State :=
  let mark := fun (t : Team) =>
    { t with lent := t.lent.map fun x => if x.team = tid && x.reclaimed.isNone then { x with reclaimed := some s.cycle } else x }
  { s with team := mark s.team, others := s.others.map mark }

/-- A donor whose condition has cleared: it resumes once every lent lane is back (R145). -/
def clearPark (s : State) (tid sid : Nat) : State :=
  if (s.lentOut tid).isEmpty then s.unparkSplit tid sid
  else (s.reclaimLanes tid).modSplitId tid sid fun x => { x with park := .reclaim }

/-- After helpers left: donors that only wait for their lanes resume. -/
def returnDonors (s : State) : State :=
  s.allTeams.foldl (fun s t =>
    if (s.lentOut t.id).isEmpty then
      (t.every.filter fun x => x.park == .reclaim).foldl (fun s x => s.unparkSplit t.id x.id) s
    else s) s

/-! ### Barriers (R85, R131, R132, R210, R211) -/

/-- The live teams of a block. -/
def liveTeams (s : State) (b : Block) : List Team := s.allTeams.filter fun t => t.block == b.id && t.role == .main && t.live != 0

/-- Whether an entry is gone: committed and performed (R204). -/
def entryGone (s : State) (id : Nat) : Bool := !(s.entries.any fun e => e.id == id)

/-- Releases barrier `k`: its teams go on, each with the pairs of R210. -/
def releaseBarrier (s : State) (bid k : Nat) (b : Barrier) : State :=
  let ids := (b.arrived.flatMap fun a => a.entries).filter fun e => !s.entryGone e
  let s := s.modBlock bid fun bl => { bl with barriers := bl.barriers.set {} k { gen := b.gen + 1 } }
  b.arrived.foldl (fun s a =>
    match s.findTeam a.team with
    | none => s
    | some t =>
      (t.every.filter fun x => x.park == .barrier k).foldl
        (fun s x => (s.modSplitId t.id x.id fun x => { x with barred := unionIds x.barred ids }).clearPark t.id x.id) s) s

/-- Completes the generations that are due: every live team has arrived, and after a `barx` arrival every older entry of the
arrived teams is performed (R132, R211). -/
def checkBarriers (s : State) (bid : Nat) : State :=
  match s.findBlock bid with
  | none => s
  | some bl =>
    (List.range 8).foldl (fun s k =>
      let b := bl.barriers.get {} k
      let live := (s.liveTeams bl).map Team.id
      let here := b.arrived.filter fun a => live.contains a.team
      if !here.isEmpty && here.length = live.length && (!b.x || here.all fun a => a.entries.all s.entryGone) then
        s.releaseBarrier bid k b
      else s) s

/-! ### Monitors (R183 to R187, R197) -/

/-- An entry of a colour acquire or release joins the team's lane queue (R214). -/
def colourEntry (s : State) (t : Team) (kind : EntryKind) (older barred : List Nat) : State :=
  let (id, s) := s.fresh
  let e : Entry := { id := id, team := t.id, core := t.core, kind := kind, older := older, barred := barred }
  { s with entries := s.entries ++ [e] }

/-- A team takes a free colour at a depth: the holder, the held list and the acquire entry, whose performance lands `flight` (R184, R214). -/
def takeColourFor (s : State) (t : Team) (x : Split) (c depth : Nat) (flight : Nat := 0) : State :=
  let (e, s) := s.fresh
  let entry : Entry := { id := e, team := t.id, core := t.core, split := x.id, flight := flight, kind := .acquire c, acq := true,
                         older := x.older, barred := x.barred }
  let s := s.modCtx t.ctx fun y => { y with monitors := y.monitors.set {} c { y.monitors.get {} c with holder := some t.id } }
  let s := { s with entries := s.entries ++ [entry] }
  (s.modTeamId t.id fun t => { t with held := t.held ++ [(c, depth)] }).modSplitId t.id x.id fun x => { x with older := x.older ++ [e] }

/-- Whether a colour of a context is free: no holder and an empty entry queue. -/
def colourOpen (s : State) (cx c : Nat) : Bool :=
  let m := (s.ctx cx).monitors.get {} c
  m.holder.isNone && m.entry.isEmpty

/-- A parked split goes on acquiring the colours that it still seeks, ascending: at one that is not free its team joins that entry queue;
with the last it goes on (R184). -/
def seekColours (tid sid : Nat) : List Nat → State → State
  | [], s => s.clearPark tid sid
  | c :: r, s =>
    match s.findTeam tid with
    | none => s
    | some t =>
      if s.colourOpen t.ctx c then
        match t.every.find? fun x => x.id == sid with
        | some x => seekColours tid sid r (s.takeColourFor t x c t.fdepth)
        | none => s
      else
        let s := s.modCtx t.ctx fun y =>
          let m := y.monitors.get {} c
          { y with monitors := y.monitors.set {} c { m with entry := m.entry ++ [tid] } }
        s.modSplitId tid sid fun x => { x with park := .colour (c :: r) }

/-- Whether a colour's grant reaches a die now: between dies it goes behind the updates that were queued on its way when the colour was
released, and over a die link that is being retrained it waits (R329, R335). -/
def grantReaches (s : State) (m : Monitor) (d : Nat) : Bool :=
  s.routeOpen m.die d &&
    (m.die == d || !(m.behind.any fun u => s.dieOf u.1 == d && s.updates.any fun q => q.core == u.1 && q.line == u.2.1 && q.store == u.2.2))

/-- The oldest team in a colour's entry queue that is not switched out, where the grant reaches it (R185). -/
def nextHolder (s : State) (m : Monitor) : Option Team :=
  (m.entry.findSome? fun id => (s.findTeam id).filter fun t => !t.out && t.live != 0).filter fun t => s.grantReaches m (s.dieOf t.core)

/-- Grants a colour without a holder to that team; without one the holder is none (R185). The grant is a message between dies (R327). -/
def grantColour (s : State) (cx c : Nat) : State :=
  let m := (s.ctx cx).monitors.get {} c
  let s := s.modCtx cx fun x => { x with monitors := x.monitors.set {} c { m with holder := none } }
  match s.nextHolder m with
  | none => s
  | some t =>
    let id := t.id
    let s := s.modCtx cx fun x => { x with monitors := x.monitors.set {} c { m with holder := none, entry := m.entry.filter fun y => y != id } }
    let s := s.message m.die (s.dieOf t.core)
    match t.every.find? fun x => match x.park with | .colour (c' :: _) => c' == c | .mwait c' .. => c' == c | _ => false with
    | none => s
    | some x =>
      match x.park with
      | .mwait _ d fl => (s.takeColourFor t x c d fl).clearPark id x.id
      | .colour (_ :: r) => seekColours id x.id r (s.takeColourFor t x c t.fdepth)
      | _ => s

/-- A colour's holder releases it, on a die. -/
def freeColour (s : State) (cx c die : Nat) : State :=
  let behind := (s.updates.filter fun q => s.homeDie (128 * q.line) == die && s.dieOf q.core != die).map fun q => (q.core, q.line, q.store)
  (s.modCtx cx fun x => { x with monitors := x.monitors.set {} c { x.monitors.get {} c with die := die, behind := behind } }).grantColour cx c

/-- Colours that no team holds while a team that is not switched out waits for them: the team has been restored, or the way to it is open
again (R185, R329). DESIGN CHOICE (log entry 96): a team that comes to wait where only switched-out teams do is granted the colour too. -/
def regrant (s : State) : State :=
  s.ctxs.foldl (fun s e =>
    (e.2.monitors.filter fun m => m.2.holder.isNone && (s.nextHolder m.2).isSome).foldl (fun s m => s.grantColour e.1 m.1) s) s

/-- A colour is released at once, its abandoned bit set or left (R187). -/
def dropColour (s : State) (cx c die : Nat) (abandon : Bool) : State :=
  let s := s.modCtx cx fun x =>
    let m := x.monitors.get {} c
    { x with monitors := x.monitors.set {} c { m with holder := none, abandoned := m.abandoned || abandon } }
  s.freeColour cx c die

/-- A team leaves every queue it waits in. -/
def withdraw (s : State) (t : Team) : State :=
  let me := fun (w : Waiter) => w.team != t.id
  let s := s.modCtx t.ctx fun x =>
    { x with monitors := x.monitors.map fun (e : Nat × Monitor) =>
               (e.1, { e.2 with entry := e.2.entry.filter (· != t.id), wait := e.2.wait.filter (· != t.id) }),
             edges := x.edges.map fun (e : Nat × Edge) =>
               (e.1, { e.2 with producers := e.2.producers.filter me, consumers := e.2.consumers.filter me }) }
  let s := s.modBlock t.block fun b =>
    { b with slots := b.slots.map fun (e : Nat × Slot) =>
               (e.1, { senders := e.2.senders.filter fun p => p.team != t.id,
                       receivers := e.2.receivers.filter fun p => p.team != t.id }) }
  let s := { s with cores := s.cores.map fun (e : Nat × Core) =>
    (e.1, { e.2 with posters := e.2.posters.filter me, expanders := e.2.expanders.filter me,
                     acquirers := e.2.acquirers.filter me,
                     matrix := { e.2.matrix with waits := e.2.matrix.waits.filter fun w => w.team != t.id } }) }
  { s with dies := s.dies.map fun (e : Nat × Die) => (e.1, { e.2 with posters := e.2.posters.filter me }) }

/-- Whether an entry of an `ldfe` waits for its granule (R168, R213). -/
def waitsFull (s : State) (e : Entry) : Bool :=
  !e.committed && match e.kind with | .ldfe _ => !s.isFull (e.locs.headD 0) | _ => false

/-- Discards the uncommitted entries of a team (R216); `all` is false where only the entries of `ldfe` lanes that wait for a granule leave. -/
def dropEntries (s : State) (tid : Nat) (all : Bool) : State :=
  { s with entries := s.entries.filter fun e => !(e.team == tid && !e.committed && (all || s.waitsFull e)) }

/-- The colours whose release a team has under way: they have left its held list, and their release is not committed. -/
def releasing (s : State) (tid : Nat) : List Nat :=
  s.entries.filterMap fun e => match e.kind with | .release c => if e.team = tid && !e.committed then some c else none | _ => none

/-- The commands of a queued unit operation. -/
def unitCmds : UnitOp → List Nat
  | .op cs .. => cs
  | .swap c .. | .zero c _ | .drain c _ | .release c _ => [c]

/-- Cancels a team's commands that are not complete (R239); an operation of a gang goes on for its other members. -/
def dropCommands (s : State) (tid : Nat) : State :=
  let leave := fun (c : Command) => { c with flights := c.flights.filter fun p => p.1 != tid, counts := c.counts.filter (· != tid) }
  let cs := (s.commands.map leave).filter fun c => !c.counts.isEmpty
  let ids := cs.map Command.id
  { s with commands := cs,
           cores := s.cores.map fun (e : Nat × Core) =>
             (e.1, { e.2 with matrix := { e.2.matrix with queue := e.2.matrix.queue.filter fun u => (unitCmds u).any ids.contains } }) }

/-! ### Latches (R284) -/

/-- A member's `mma` is as if it had not issued: the split stands at it again. -/
def withdrawMember (s : State) (m : MemberRows) : State :=
  let s := s.modTeamId m.team fun t =>
    Team.modEvery m.split (fun (x : Split) =>
      { x with pc := x.pc - BitVec.ofNat 64 m.fmt.len.bytes, run := { x.run with count := x.run.count - 1 } })
      { endFlight t m.flight with retired := t.retired - 1 }
  let s := match s.findTeam m.team with
    | some t => s.modPart t.part fun p => { p with retired := p.retired - 1 }
    | none => s
  { s with commands := s.commands.filter fun c => c.id != m.cmd }.unparkSplit m.team m.split

/-- What the end of a team does to the latches of its unit: one that waits for it fails; after a kill or a save it is emptied, full or not,
and its members stand at their instructions again. -/
def breakLatches (s : State) (t : Team) (empty : Bool) : State :=
  let m := (s.core t.core).matrix
  if m.bound != some t.block then s
  else
    m.latches.foldl (fun s e =>
      match e.2 with
      | none => s
      | some l =>
        if !l.gang.contains t.number || (l.full.isSome && !empty) then s
        else if empty then
          let s := s.modCore t.core fun c => { c with matrix := { c.matrix with latches := c.matrix.latches.set none e.1 none } }
          l.members.foldl withdrawMember s
        else s.modCore t.core fun c =>
          { c with matrix := { c.matrix with latches := c.matrix.latches.set none e.1 (some { l with broken := true }) } }) s

/-! ### Helpers leave (R139, R145, R147, R148) -/

/-- An iteration is abandoned: it joins the returned list unless the recruitment is cancelled, and what it contributed is
discarded. -/
def abandonIteration (r : Recruit) (h : Nat) : Recruit :=
  match r.current.find? fun p => p.1 == h with
  | none => r
  | some (_, i) =>
    { r with current := r.current.filter fun p => p.1 != h,
             returned := if r.state = .cancelled then r.returned else
               (r.returned.filter (· < i)) ++ [i] ++ r.returned.filter (i < ·),
             targets := r.targets.map fun (g : Target) => { g with parts := g.parts.filter fun p => p.1 != i } }

/-- The group has lost its last helper: it ends, and the recruitment or expansion knows. Its entries go on, but for waiting
`ldfe` entries. -/
def endGroup (s : State) (g : Team) : State :=
  let s := (s.dropEntries g.id false).modTeamId g.id fun t =>
    { t with ended := true, splits := [], joins := [], deferred := [], pending := [], fresh := [], flights := [], lent := [] }
  match g.role with
  | .main => s
  | .helper r => s.modTeamId r fun t =>
      let left := t.recruit.next < t.recruit.total || !t.recruit.returned.isEmpty
      { t with recruit := { t.recruit with group := none,
                                           state := if t.recruit.state = .active && left then .released else t.recruit.state } }
  | .drafted r => s.modTeamId r fun t =>
      { t with expand := t.expand.map fun e => { e with group := none, empty := e.empty ++ e.returned, returned := [] } }

/-- Helpers leave the group as lanes exit; their lanes return to their donors. On an unfocused state. -/
def removeHelpers (s : State) (gid : Nat) (gone : Mask) : State :=
  let (serial, s) := s.fresh
  let s := s.modTeamId gid fun t =>
    let t := exitLanes s.cycle serial gone t
    { t with lent := t.lent.filter fun x => !gone.getLsbD x.helper }
  let s := match s.findTeam gid with
    | some g =>
      let s := match g.role with
        | .helper r => s.modTeamId r fun t =>
            { t with recruit := { t.recruit with current := t.recruit.current.filter fun p => !gone.getLsbD p.1 } }
        | _ => s
      if g.live == 0 && !g.ended then s.endGroup g else s
    | none => s
  s.returnDonors

/-- The wave that a drafted group has open is abandoned: it joins the returned list and loses its results (R156). -/
def abandonWave (e : Expansion) : Expansion :=
  match e.gcurrent with
  | none => e
  | some k => { e with gcurrent := none, segments := e.segments.filter fun g => g.wave != k,
                       returned := (e.returned.filter (· < k)) ++ [k] ++ e.returned.filter (k < ·) }

/-- Stops helpers at once under the abandonment rule (R145, R148, R156). On an unfocused state. -/
def stopHelpers (s : State) (gid : Nat) (gone : Mask) : State :=
  match s.findTeam gid with
  | none => s
  | some g =>
    if g.ended then s else
    let s := match g.role with
      | .main => s
      | .helper r => s.modTeamId r fun t =>
          { t with recruit := (lanesOf g.n (gone &&& g.live)).foldl abandonIteration t.recruit }
      | .drafted r => s.modTeamId r fun t => { t with expand := t.expand.map abandonWave }
    s.removeHelpers gid gone

/-- The helper groups of a recruiter, those that have ended among them. -/
def groupsOf (s : State) (tid : Nat) : List Nat := (s.others.filter fun t => t.role == .helper tid || t.role == .drafted tid).map Team.id

/-- Every helper group of a recruiter is stopped (R145). -/
def stopGroups (s : State) (tid : Nat) : State :=
  let gs := s.others.filter fun t => !t.ended && (t.role == .helper tid || t.role == .drafted tid)
  gs.foldl (fun s g => s.stopHelpers g.id g.live) s

/-- Every helper on a lane of a donor is stopped (R145). -/
def stopLent (s : State) (donor : Nat) : State :=
  s.others.foldl (fun s t =>
    let gone := maskOf ((t.lent.filter fun x => x.team == donor).map Lent.helper)
    if gone == 0 then s else s.stopHelpers t.id (match t.role with | .drafted _ => t.live | _ => gone)) s

/-! ### A team ends (R20, R22, R101, R187, R216, R239, R306) -/

end State

/-- How a team ends. -/
inductive Ending where
  | exit
  | fault (code : Nat) (pc : Addr)       -- a fault with no handler (R20)
  | kill
  | restart                              -- flush-and-restart (R306)
  deriving DecidableEq, Repr

namespace State

/-- The team ends: no lane is live, no split runs, helpers stop, waits are withdrawn, barriers are checked. Its stores and
commands go on unless it is killed; colours are released at once except after an exit, which releases them when its stores and
commands are done. On an unfocused state. -/
def endTeam (s : State) (tid : Nat) (why : Ending) : State :=
  match s.findTeam tid with
  | none => s
  | some t =>
    if t.ended then s else
    let s := s.stopGroups tid
    let s := s.stopLent tid
    let s := s.breakLatches t (why = .kill || why = .restart)
    let s := s.withdraw t
    let kill := why = .kill || why = .restart
    let leaving := if kill then s.releasing tid else []
    let s := s.dropEntries tid kill
    let s := if kill then (s.groupsOf tid).foldl (fun s g => s.dropEntries g true) (s.dropCommands tid) else s
    let s := s.modTeamId tid fun t =>
      { t with live := 0, splits := [], joins := [], deferred := [], dflen := 0, handler := none, ended := true, pending := [], fresh := [],
               flights := [], exited := why = .exit, recruit := {}, expand := none, own := [], held := if why = .exit then t.held else [], fetchOff := none }
    let s := match why with
      | .fault code pc => s.modLaunch t.launch fun l =>
          { l with code := if l.nfault = 0 then code else l.code, place := if l.nfault = 0 then pc else l.place, nfault := l.nfault + 1 }
      | _ => s
    let s := if why = .exit then s else
      (t.held.map Prod.fst ++ leaving).foldl (fun s c => s.dropColour t.ctx c (s.dieOf t.core) (why != .restart)) s
    let s := if t.role = .main then s.modLaunch t.launch fun l => { l with die := s.dieOf t.core } else s
    s.checkBarriers t.block

end State

end Sys2Proof.Machine
end

