-- ==== Sys2Proof/Machine/Float.lean ====
section
/-! DEFINITION. Floating point (R32, R33, R60 to R65, R259, R260, R263): values, the one rounding function of the device, exact
sums and products, modifiers, scale and clamp, comparisons and conversions. -/
namespace Sys2Proof

/-- A floating-point value: NaN, an infinity, or (−1)^neg × m × 2^e exactly. -/
inductive FVal where
  | nan
  | inf (neg : Bool)
  | fin (neg : Bool) (m : Nat) (e : Int)
  deriving DecidableEq, Repr

/-- A format of R259 or R263: exponent and fraction bits, bias, and whether it is E4M3, which has no infinities. -/
structure FFmt where
  ebits : Nat
  fbits : Nat
  bias  : Int
  e4m3  : Bool := false
  deriving DecidableEq, Repr

def FFmt.f32 : FFmt := { ebits := 8, fbits := 23, bias := 127 }
def FFmt.bf16 : FFmt := { ebits := 8, fbits := 7, bias := 127 }
def FFmt.f16 : FFmt := { ebits := 5, fbits := 10, bias := 15 }
def FFmt.f8e4 : FFmt := { ebits := 4, fbits := 3, bias := 7, e4m3 := true }
def FFmt.f8e5 : FFmt := { ebits := 5, fbits := 2, bias := 15 }
def FFmt.f48 : FFmt := { ebits := 10, fbits := 37, bias := 511 }

namespace FFmt

/-- The encoding of a magnitude of the first exponent that is not finite, or for E4M3 its one NaN code. -/
def top (f : FFmt) : Nat := if f.e4m3 then 2 ^ (f.ebits + f.fbits) - 1 else (2 ^ f.ebits - 1) * 2 ^ f.fbits

/-- The sign bit. -/
def signBit (f : FFmt) (neg : Bool) : Nat := if neg then 2 ^ (f.ebits + f.fbits) else 0

/-- The canonical NaN (R60, R259, R263). -/
def nan (f : FFmt) : Nat := if f.e4m3 then f.top else f.top + 2 ^ (f.fbits - 1)

/-- The largest finite value of a sign. -/
def maxFin (f : FFmt) (neg : Bool) : Nat := f.signBit neg + (f.top - 1)

/-- An infinity; in E4M3 the canonical NaN (R260). -/
def inf (f : FFmt) (neg : Bool) : Nat := if f.e4m3 then f.nan else f.signBit neg + f.top

/-- The value that the bits of a format stand for (R259, R263). -/
def decode (f : FFmt) (x : Nat) : FVal :=
  let neg := x.testBit (f.ebits + f.fbits)
  let e := x / 2 ^ f.fbits % 2 ^ f.ebits
  let m := x % 2 ^ f.fbits
  if f.e4m3 && e == 2 ^ f.ebits - 1 && m == 2 ^ f.fbits - 1 then .nan
  else if !f.e4m3 && e == 2 ^ f.ebits - 1 then (if m = 0 then .inf neg else .nan)
  else if e = 0 then .fin neg m (1 - f.bias - f.fbits)
  else .fin neg (m + 2 ^ f.fbits) (e - f.bias - f.fbits)

end FFmt

/-- Whether a magnitude between two neighbours, the lower with last bit `odd`, moves to the upper: `rem` of `2^s` is what
lies above the lower one (R260). -/
def roundUp (rnd : Rnd) (neg odd : Bool) (rem s : Nat) : Bool :=
  match rnd with
  | .rne => decide (2 * rem > 2 ^ s) || (decide (2 * rem = 2 ^ s) && odd)
  | .rz => false
  | .rpi => !neg && rem != 0
  | .rmi => neg && rem != 0

/-- The magnitude m × 2^e as an integer number of units of 2^q, rounded. -/
def roundAt (rnd : Rnd) (neg : Bool) (m : Nat) (e q : Int) : Nat :=
  if q ≤ e then m * 2 ^ (e - q).toNat
  else
    let s := (q - e).toNat
    let n := m / 2 ^ s
    if roundUp rnd neg (n % 2 == 1) (m % 2 ^ s) s then n + 1 else n

/-- `round(x, fmt, mode)` of R260, giving the bits of the format; `sat` is clamp 11, which turns an overflow or an infinity
into the largest finite value (R33, R260). -/
def FFmt.round (f : FFmt) (rnd : Rnd) (sat : Bool) (x : FVal) : Nat :=
  match x with
  | .nan => f.nan
  | .inf neg => if sat then f.maxFin neg else f.inf neg
  | .fin neg m e =>
    if m = 0 then f.signBit neg else
    let qmin := 1 - f.bias - f.fbits
    let q := max (e + m.log2 - f.fbits) qmin
    let n := roundAt rnd neg m e q
    let enc := (q - qmin).toNat * 2 ^ f.fbits + n
    if enc ≥ f.top then
      let away := match rnd with | .rne => true | .rz => false | .rpi => !neg | .rmi => neg
      if away && !sat then f.inf neg else f.maxFin neg
    else f.signBit neg + enc

/-- `round_to_integer` of R65 and R265. -/
def roundInt (rnd : Rnd) (neg : Bool) (m : Nat) (e : Int) : Int :=
  let n := roundAt rnd neg m e 0
  if neg then -(n : Int) else n

namespace FVal

/-- Multiplication by a power of two, exactly (R33). -/
def scale (x : FVal) (k : Int) : FVal :=
  match x with
  | .fin neg m e => .fin neg m (e + k)
  | y => y

def isNan : FVal → Bool
  | .nan => true
  | _ => false

/-- The sign of an exact zero sum of operands of opposite sign (R60). -/
def zeroSumNeg (rnd : Rnd) : Bool := rnd = .rmi

/-- The signed magnitude in units of 2^q, for q not above the value's exponent. -/
def units (neg : Bool) (m : Nat) (e q : Int) : Int :=
  let n : Int := (m * 2 ^ (e - q).toNat : Nat)
  if neg then -n else n

/-- The exact sum (R60, R61). -/
def add (rnd : Rnd) : FVal → FVal → FVal
  | .nan, _ => .nan
  | _, .nan => .nan
  | .inf a, .inf b => if a = b then .inf a else .nan
  | .inf a, .fin .. => .inf a
  | .fin .., .inf b => .inf b
  | .fin na ma ea, .fin nb mb eb =>
    let q := min ea eb
    let x := units na ma ea q + units nb mb eb q
    if x = 0 then .fin (if na = nb then na else zeroSumNeg rnd) 0 q
    else .fin (decide (x < 0)) x.natAbs q

def neg : FVal → FVal
  | .nan => .nan
  | .inf n => .inf !n
  | .fin n m e => .fin (!n) m e

/-- The exact product. -/
def mul : FVal → FVal → FVal
  | .nan, _ => .nan
  | _, .nan => .nan
  | .inf a, .inf b => .inf (a != b)
  | .inf a, .fin nb mb _ => if mb = 0 then .nan else .inf (a != nb)
  | .fin na ma _, .inf b => if ma = 0 then .nan else .inf (na != b)
  | .fin na ma ea, .fin nb mb eb => .fin (na != nb) (ma * mb) (ea + eb)

/-- The order of two values that are not NaN, with −0 equal to +0: less, equal or greater. -/
def cmp : FVal → FVal → Ordering
  | .inf a, .inf b => if a = b then .eq else if a then .lt else .gt
  | .inf a, _ => if a then .lt else .gt
  | _, .inf b => if b then .gt else .lt
  | .fin na ma ea, .fin nb mb eb =>
    let q := min ea eb
    compare (units na ma ea q) (units nb mb eb q)
  | _, _ => .eq

def signed : FVal → Bool
  | .inf n => n
  | .fin n _ _ => n
  | .nan => false

/-- minimumNumber of IEEE 754-2019 (R62): a NaN gives way, −0 lies below +0. -/
def minNum (a b : FVal) : FVal :=
  if a.isNan then b else if b.isNan then a else
  match cmp a b with
  | .lt => a
  | .gt => b
  | .eq => if a.signed then a else b

/-- maximumNumber of IEEE 754-2019 (R62). -/
def maxNum (a b : FVal) : FVal :=
  if a.isNan then b else if b.isNan then a else
  match cmp a b with
  | .lt => b
  | .gt => a
  | .eq => if a.signed then b else a

end FVal

/-! ### Binary32 words -/

def f32Of (x : Word) : FVal := FFmt.f32.decode x.toNat

/-- The float modifiers of R32 on an element of `w` bits whose top bit is the sign. -/
def modFloat {w : Nat} (ab ng : Bool) (x : BitVec w) : BitVec w :=
  let s : BitVec w := BitVec.ofNat w (2 ^ (w - 1))
  let y := if ab then x &&& ~~~s else x
  if ng then y ^^^ s else y

/-- The scale field as a signed power of two, −8 to 7 (R31). -/
def scaleOf (x : XWord) : Int := x.scale.toInt

/-- Clamps 01 and 10 of R33 on a rounded result: a NaN becomes +0 and other values are confined. -/
def clampRange (lo : FVal) (f : FFmt) (x : Nat) : Nat :=
  let one := FVal.fin false 1 0
  match f.decode x with
  | .nan => 0
  | v => if FVal.cmp v lo = .lt then f.round .rne false lo
         else if FVal.cmp v one = .gt then f.round .rne false one else x

/-- A float result: scale, one rounding, clamp, in the order of R33. -/
def FFmt.finish (f : FFmt) (rnd : Rnd) (clamp : Clamp) (scale : Int) (x : FVal) : Nat :=
  let r := f.round rnd (clamp = .sat) (x.scale scale)
  match clamp with
  | .unit => clampRange (.fin false 0 0) f r
  | .pm1 => clampRange (.fin true 1 0) f r
  | _ => r

/-- A binary32 result under the X-word's rounding, scale and clamp. -/
def finishF32 (x : XWord) (v : FVal) : Word := BitVec.ofNat 32 (FFmt.f32.finish x.rnd x.clamp (scaleOf x) v)

/-- The float operations of R61 and R62. -/
inductive FloatOp where
  | add | sub | mul | min | max
  deriving DecidableEq, Repr

def FloatOp.exact (rnd : Rnd) : FloatOp → FVal → FVal → FVal
  | .add, a, b => a.add rnd b
  | .sub, a, b => a.add rnd b.neg
  | .mul, a, b => a.mul b
  | .min, a, b => a.minNum b
  | .max, a, b => a.maxNum b

/-- `fadd`, `fsub`, `fmul`, `fmin`, `fmax` on words. -/
def floatBin (op : FloatOp) (x : XWord) (a b : Word) : Word := finishF32 x (op.exact x.rnd (f32Of a) (f32Of b))

/-- `ffma` (R61): one rounding only. -/
def floatFma (x : XWord) (a b c : Word) : Word := finishF32 x (((f32Of a).mul (f32Of b)).add x.rnd (f32Of c))

/-- The float comparisons of R63. -/
inductive FCond where
  | eq | ne | lt | le | gt | ge | un
  deriving DecidableEq, Repr

def FCond.holds (c : FCond) (a b : Word) : Bool :=
  let x := f32Of a
  let y := f32Of b
  let un := x.isNan || y.isNan
  match c with
  | .un => un
  | .ne => un || FVal.cmp x y != .eq
  | .eq => !un && FVal.cmp x y == .eq
  | .lt => !un && FVal.cmp x y == .lt
  | .le => !un && FVal.cmp x y != .gt
  | .gt => !un && FVal.cmp x y == .gt
  | .ge => !un && FVal.cmp x y != .lt

/-! ### Reciprocal and square root (R64) -/

/-- The integer square root by `k` binary digits. -/
def isqrt (n : Nat) : Nat → Nat → Nat
  | 0, r => r
  | k + 1, r => if (r + 2 ^ k) * (r + 2 ^ k) ≤ n then isqrt n k (r + 2 ^ k) else isqrt n k r

/-- The square root of m × 2^e to 64 bits and more, its last bit set where it is not exact: it rounds as the exact root does. -/
def sqrtFin (m : Nat) (e : Int) : FVal :=
  let odd := e % 2 = 1
  let m' := (if odd then 2 * m else m) * 2 ^ 128
  let e' := (if odd then e - 1 else e) - 128
  let r := isqrt m' 96 0
  .fin false (2 * r + (if r * r = m' then 0 else 1)) (e' / 2 - 1)

/-- `sqrt` on a value (R64's table). -/
def fSqrt : FVal → FVal
  | .nan => .nan
  | .inf n => if n then .nan else .inf false
  | .fin n m e => if m = 0 then .fin n 0 e else if n then .nan else sqrtFin m e

/-- `rcp` on a value (R64's table): the quotient 2^96 / m with its last bit set where it is not exact. -/
def fRcp : FVal → FVal
  | .nan => .nan
  | .inf n => .fin n 0 0
  | .fin n m e =>
    if m = 0 then .inf n
    else .fin n (2 * (2 ^ 96 / m) + (if 2 ^ 96 % m = 0 then 0 else 1)) (-e - 97)

/-! ### Conversion (R65) -/

/-- An integer as a float value; zero is +0. -/
def intVal (x : Int) : FVal := .fin (decide (x < 0)) x.natAbs 0

/-- A float value converted to an integer of a range: NaN gives 0, and it always saturates (R65). -/
def floatToInt (rnd : Rnd) (lo hi : Int) : FVal → Int
  | .nan => 0
  | .inf n => if n then lo else hi
  | .fin n m e => clampInt lo hi (roundInt rnd n m e)

end Sys2Proof
end

