-- ==== Sys2Proof/Machine/Operands.lean ====
section
/-! DEFINITION. Operand forms (R27 to R35, R137, R160): which registers an instruction names, and the value of each source. -/
namespace Sys2Proof.Machine

/-! ### The value of a source (R28, R32) -/

/-- Source A before modifiers: the class's file, or the affine file with ka = 1. -/
def rawA (f : Fmt) (v : State) (l : Nat) : Word :=
  match f.cls with
  | .uni | .sys => v.readS f.a.toNat
  | .aff => v.readA f.a.toNat l
  | .var => if f.ka then v.seeA f.a.toNat l l else v.readV f.a.toNat l

/-- Source B before modifiers: the immediate in the 128-bit form, the uniform file with kb = 1, else the class's file. -/
def rawB (f : Fmt) (v : State) (l : Nat) : Word :=
  if f.len = .l128 then f.imm else
  match f.cls with
  | .uni | .sys => v.readS f.b.toNat
  | .aff => if f.kb then v.readS f.b.toNat else v.readA f.b.toNat l
  | .var => if f.kb then v.seeS f.b.toNat l else v.readV f.b.toNat l

/-- Source C before modifiers, by its kind kc. -/
def rawC (f : Fmt) (v : State) (l : Nat) : Word :=
  if f.x.kc = 1 then (if f.cls = .var then v.seeS f.x.c.toNat l else v.readS f.x.c.toNat)
  else if f.x.kc = 2 then (if f.cls = .var then v.seeA f.x.c.toNat l l else v.readA f.x.c.toNat l)
  else match f.cls with
    | .uni | .sys => v.readS f.x.c.toNat
    | .aff => v.readA f.x.c.toNat l
    | .var => v.readV f.x.c.toNat l

/-- 64-bit sources of the uniform class; an immediate is sign-extended for i64 and zero-extended for z64 (R35). -/
def rawA64 (f : Fmt) (v : State) : Addr := v.readD f.a.toNat

def rawB64 (f : Fmt) (v : State) : Addr :=
  if f.len = .l128 then (if f.x.ty.unsigned then f.imm.zeroExtend 64 else f.imm.signExtend 64) else v.readD f.b.toNat

/-- Sources after the integer modifiers. -/
def intA (f : Fmt) (v : State) (l : Nat) : Word := modInt f.x.absA f.x.negA (rawA f v l)
def intB (f : Fmt) (v : State) (l : Nat) : Word := modInt f.x.absB f.x.negB (rawB f v l)
def intC (f : Fmt) (v : State) (l : Nat) : Word := modInt f.x.absC f.x.negC (rawC f v l)
def intA64 (f : Fmt) (v : State) : Addr := modInt f.x.absA f.x.negA (rawA64 f v)
def intB64 (f : Fmt) (v : State) : Addr := modInt f.x.absB f.x.negB (rawB64 f v)

/-- Sources after the float modifiers. -/
def fltA (f : Fmt) (v : State) (l : Nat) : Word := modFloat f.x.absA f.x.negA (rawA f v l)
def fltB (f : Fmt) (v : State) (l : Nat) : Word := modFloat f.x.absB f.x.negB (rawB f v l)
def fltC (f : Fmt) (v : State) (l : Nat) : Word := modFloat f.x.absC f.x.negC (rawC f v l)

/-- The pair of an affine-class source (R89): an affine source's base and stride, or a uniform source or immediate with
stride 0; neg negates both members. -/
def pairNeg (ng : Bool) (x : Affine) : Affine := if ng then { base := -x.base, stride := -x.stride } else x

def pairA (f : Fmt) (v : State) : Affine := pairNeg f.x.negA (v.readPair f.a.toNat)

def pairB (f : Fmt) (v : State) : Affine :=
  pairNeg f.x.negB
    (if f.len = .l128 then { base := f.imm, stride := 0 }
     else if f.kb then { base := v.readS f.b.toNat, stride := 0 } else v.readPair f.b.toNat)

/-! ### Memory operands (R160) -/

/-- The address of lane `l` (0 in the uniform class). -/
def memAddr (f : Fmt) (v : State) (l : Nat) : Addr :=
  match f.cls with
  | .var =>
    if f.kb then v.seeD f.b.toNat l + (rawA f v l).zeroExtend 64
    else v.readV (f.b.toNat + 1) l ++ v.readV f.b.toNat l
  | _ => v.readD f.a.toNat + (if f.len = .l128 then f.imm else v.readS f.b.toNat).zeroExtend 64

/-- The address of `[dN + sM]` or `[dN + imm]` in the classes 00 and 11. -/
def baseAddr (f : Fmt) (v : State) : Addr :=
  v.readD f.a.toNat + (if f.len = .l128 then f.imm else v.readS f.b.toNat).zeroExtend 64

/-! ### Which registers an instruction names (R41, R49, R93) -/

/-- The registers that an instruction reads and writes, and those that it names and writes later or not itself (the targets of
`hred` and `segred`). -/
structure Uses where
  reads  : List Reg := []
  writes : List Reg := []
  names  : List Reg := []
  deriving DecidableEq, Repr

/-- A uniform source; a special is no register. -/
def uniReads (wide : Bool) (n : BitVec 8) : List Reg :=
  if wide then [.s n.toNat, .s (n.toNat + 1)] else if n.toNat < 64 then [.s n.toNat] else []

def affReads (n : BitVec 8) : List Reg := if n.toNat < 32 then [.a n.toNat] else []

end Sys2Proof.Machine

namespace Sys2Proof.Fmt
open Sys2Proof.Machine (Reg uniReads affReads)

def usesA (f : Fmt) (wide : Bool := false) : List Reg :=
  match f.cls with
  | .uni | .sys => uniReads wide f.a
  | .aff => affReads f.a
  | .var => if f.ka then affReads f.a else [.v f.a.toNat]

def usesB (f : Fmt) (wide : Bool := false) : List Reg :=
  if f.len = .l128 then [] else
  match f.cls with
  | .uni | .sys => uniReads wide f.b
  | .aff => if f.kb then uniReads false f.b else affReads f.b
  | .var => if f.kb then uniReads false f.b else [.v f.b.toNat]

def usesC (f : Fmt) (wide : Bool := false) : List Reg :=
  if f.x.kc = 1 then uniReads wide f.x.c
  else if f.x.kc = 2 then affReads f.x.c
  else match f.cls with
    | .uni | .sys => uniReads wide f.x.c
    | .aff => affReads f.x.c
    | .var => if wide then [.v f.x.c.toNat, .v (f.x.c.toNat + 1)] else [.v f.x.c.toNat]

/-- The destination register in the class's file. -/
def usesD (f : Fmt) (wide : Bool := false) : List Reg :=
  match f.cls with
  | .uni | .sys => uniReads wide f.d
  | .aff => [.a f.d.toNat]
  | .var => if wide then [.v f.d.toNat, .v (f.d.toNat + 1)] else [.v f.d.toNat]

/-- A predicate of the class's file; number 7 is no register. -/
def predReg (f : Fmt) (n : Nat) : List Reg := if n = 7 then [] else if f.cls = .var then [.p n] else [.q n]

def qReg (n : Nat) : List Reg := if n = 7 then [] else [.q n]
def pReg (n : Nat) : List Reg := if n = 7 then [] else [.p n]

/-- An atomic's immediate holds its operation, so its field b always names the offset (R229): the operand of the short form. -/
def registerOffset (f : Fmt) : Fmt := { f with len := .l96 }

/-- The registers of a memory operand (R160). -/
def usesMem (f : Fmt) : List Reg :=
  match f.cls with
  | .var => if f.kb then uniReads true f.b ++ f.usesA else [.v f.b.toNat, .v (f.b.toNat + 1)]
  | _ => uniReads true f.a ++ (if f.len = .l128 then [] else uniReads false f.b)

def quadRegs (n : Nat) : List Reg := [.v n, .v (n + 1), .v (n + 2), .v (n + 3)]
def uniQuad (n : Nat) : List Reg := [.s n, .s (n + 1), .s (n + 2), .s (n + 3)]

/-- The predicate of the guard, of the destination's class file (R29). -/
def guardReg (f : Fmt) : List Reg := f.predReg (f.guard.toNat % 8)

end Sys2Proof.Fmt

namespace Sys2Proof.Machine

/-- The registers an instruction names, the guard's predicate apart. -/
def usesOf : Instr → Uses
  | .add f | .sub f | .min f | .max f | .and f | .or f | .xor f =>
    { reads := f.usesA f.x.ty.is64 ++ f.usesB f.x.ty.is64, writes := f.usesD f.x.ty.is64 }
  | .mul f | .mulhi f | .idiv f | .irem f | .fadd f | .fsub f | .fmul f | .fmin f | .fmax f | .bfe f =>
    { reads := f.usesA ++ f.usesB, writes := f.usesD }
  | .mad f | .bfi f | .ffma f => { reads := f.usesA ++ f.usesB ++ f.usesC, writes := f.usesD }
  | .not f | .mov f => { reads := f.usesA f.x.ty.is64, writes := f.usesD f.x.ty.is64 }
  | .shl f | .shr f | .sar f => { reads := f.usesA f.x.ty.is64 ++ f.usesB, writes := f.usesD f.x.ty.is64 }
  | .popc f | .clz f | .brev f | .rcp f | .rsqrt f | .sqrt f | .exp2 f | .log2 f | .sin f | .cos f =>
    { reads := f.usesA, writes := f.usesD }
  | .sel f => { reads := f.usesA f.x.ty.is64 ++ f.usesB f.x.ty.is64 ++ f.predReg f.x.c.toNat, writes := f.usesD f.x.ty.is64 }
  | .cmpEq f | .cmpNe f | .cmpLt f | .cmpLe f | .cmpGt f | .cmpGe f =>
    { reads := f.usesA f.x.ty.is64 ++ f.usesB f.x.ty.is64, writes := f.predReg f.d.toNat }
  | .fcmpEq f | .fcmpNe f | .fcmpLt f | .fcmpLe f | .fcmpGt f | .fcmpGe f | .fcmpUn f =>
    { reads := f.usesA ++ f.usesB, writes := f.predReg f.d.toNat }
  | .movi f | .lit f => { writes := f.usesD f.x.ty.is64 }
  | .cvt f =>
    let (dt, st) := f.cvtTypes
    { reads := f.usesA (f.cls = .uni && st.is64) ++ (if f.cls = .var && !dt.isScalar then f.usesD else []),
      writes := f.usesD (f.cls = .uni && dt.is64) }
  | .pack4 f => { reads := f.usesA ++ f.usesB ++ f.usesC ++ f.usesD, writes := f.usesD }
  | .unpk4 f => { reads := f.usesA ++ f.usesB ++ f.usesC, writes := f.usesD }
  | .mksc f => { reads := f.usesA ++ f.usesB ++ f.usesD, writes := f.usesD }
  | .tagrd f | .tagset f => { reads := f.usesA, writes := f.usesD }
  | .bra _ | .call _ | .ret _ | .exit _ | .trap _ | .nop _ | .runend _ | .rfe _ | .yield _ | .exitl _ | .join _ | .brv _ => {}
  | .brc f => { reads := f.usesD, writes := f.usesD }
  | .calli f => { reads := uniReads true f.a }
  | .jtab f => { reads := f.usesA }
  | .ld f | .ldfe f => { reads := f.usesMem, writes := f.usesD f.x.ty.is64 }
  | .st f | .stfe f => { reads := f.usesMem ++ f.usesD f.x.ty.is64 }
  | .ldline f => { reads := f.usesMem, writes := [.v f.d.toNat] }
  | .pref f | .cwb f | .cinv f => { reads := f.usesMem }
  | .pgrel f | .pgown f => { reads := f.usesMem, writes := Fmt.qReg f.d.toNat }
  | .atom f => { reads := f.registerOffset.usesMem ++ f.usesC f.x.ty.is64 ++ (if f.imm.toNat % 16 = 7 then f.usesD f.x.ty.is64 else []),
                 writes := f.usesD f.x.ty.is64 }
  | .red f => { reads := f.registerOffset.usesMem ++ f.usesC f.x.ty.is64 }
  | .fence _ | .bar _ | .barx _ => {}
  | .bcast f => { reads := uniReads false f.b, writes := f.usesD }
  | .mata f => { reads := affReads f.a, writes := f.usesD }
  | .vfirst f => { reads := .v f.a.toNat :: Fmt.pReg f.b.toNat, writes := [.s f.d.toNat] }
  | .vuni f => { reads := [.v f.a.toNat], writes := [.s f.d.toNat] }
  | .vuniTry f => { reads := [.v f.a.toNat], writes := .s f.d.toNat :: Fmt.qReg f.b.toNat }
  | .vaff f => { reads := [.v f.a.toNat], writes := .a f.d.toNat :: Fmt.qReg f.b.toNat }
  | .mkaff f => { reads := (if f.len = .l128 then [] else uniReads false f.b) ++ uniReads false f.x.c, writes := [.a f.d.toNat] }
  | .shfl f | .ishuf f => { reads := f.usesA ++ f.usesB, writes := f.usesD }
  | .vote f =>
    { reads := Fmt.pReg f.a.toNat ++ (if f.cls = .uni && f.x.qual == 3 then f.usesB else []),
      writes := if f.x.qual == 3 then f.usesD else f.predReg f.d.toNat }
  | .vred f | .scan f => { reads := f.usesA, writes := f.usesD }
  | .pand f | .por f | .pxor f =>
    { reads := f.predReg f.a.toNat ++ (if f.kb then Fmt.qReg f.b.toNat else f.predReg f.b.toNat), writes := f.predReg f.d.toNat }
  | .pnot f | .pmov f => { reads := f.predReg f.a.toNat, writes := f.predReg f.d.toNat }
  | .setpart f => { reads := if f.len = .l128 then [] else uniReads false f.b }
  | .rgacq _ | .rgrel _ => {}
  | .rgacqTry f => { writes := Fmt.qReg f.d.toNat }
  | .rvsend f => { reads := f.usesA }
  | .rvrecv f => { writes := f.usesD }
  | .recruit f => { reads := uniReads false f.a ++ uniReads false f.x.c, writes := .s f.d.toNat :: Fmt.qReg f.b.toNat }
  | .hnext f => { writes := .v f.d.toNat :: Fmt.pReg f.b.toNat }
  | .hred f => { reads := [.v f.a.toNat], names := [.v f.d.toNat] }
  | .hwait f => { writes := Fmt.qReg f.d.toNat }
  | .hrel _ | .hexit _ | .xend _ => {}
  | .xpand f => { reads := f.usesA ++ f.usesB }
  | .xpandN f => { reads := f.usesA ++ f.usesB ++ uniReads true f.d }
  | .xnext f => { writes := [.v f.d.toNat, .v f.a.toNat] ++ Fmt.pReg f.b.toNat }
  | .segred f => { reads := [.v f.a.toNat], names := [.v f.d.toNat] }
  | .tint f => { reads := uniReads true f.a ++ uniReads false f.b ++ uniReads false f.x.c, writes := Fmt.qReg f.d.toNat }
  | .untint f => { reads := uniReads true f.a ++ uniReads false f.b, writes := Fmt.qReg f.d.toNat }
  | .tintq f | .tintqClr f => { reads := uniReads true f.a, writes := uniReads true f.d }
  | .mtry f => { reads := uniReads false f.a, writes := Fmt.qReg f.d.toNat }
  | .mwait f | .mnote f | .mnall f => { reads := uniReads false f.a }
  | .watch f => { reads := uniReads true f.a ++ (if f.len = .l128 then [] else uniReads false f.b) ++ uniReads false f.x.c,
                  writes := [.s f.d.toNat] }
  | .tshape f => { reads := if f.len = .l128 then [] else uniReads true f.a ++ uniReads false f.b, writes := Fmt.qReg f.d.toNat }
  | .tcopy f => { reads := uniReads true f.d ++ uniReads true f.a }
  | .waitcnt _ => {}
  | .cntrd f => { writes := [.s f.d.toNat] }
  | .card f => { reads := uniReads true f.a ++ uniReads false f.b ++ uniReads false f.x.c }
  | .cardTry f => { reads := uniReads true f.a ++ uniReads false f.b ++ uniReads false f.x.c, writes := Fmt.qReg f.d.toNat }
  | .spawn f => { reads := Fmt.quadRegs f.a.toNat }
  | .eput f => { reads := Fmt.uniQuad f.a.toNat }
  | .eputTry f => { reads := Fmt.uniQuad f.a.toNat, writes := Fmt.qReg f.d.toNat }
  | .eget f => { writes := Fmt.uniQuad f.d.toNat }
  | .qstat f => { writes := [.s f.d.toNat] }
  | .gang f => { reads := uniReads false f.a }
  | .macq _ | .mrel _ | .mswap _ | .mzero _ => {}
  | .macqTry f => { writes := Fmt.qReg f.b.toNat }
  | .mldb f => { reads := uniReads true f.a ++ (if f.len = .l128 then [] else uniReads false f.b) }
  | .mma f | .mmas f =>
    { reads := Fmt.quadRegs f.a.toNat ++ (if f.len = .l128 then [] else uniReads false f.b) ++
               (if f.x.ty = .b4 then uniReads false f.x.c else []) }
  | .mdrain f => { reads := uniReads true f.a ++ (if f.len = .l128 then [] else uniReads false f.b) ++ uniReads false f.x.c }
  | .mstat f => { reads := if f.len = .l128 then [] else uniReads false f.b, writes := [.s f.d.toNat] }
  | .rdsr f => { writes := f.usesD f.x.ty.is64 }
  | .wrsr f => { reads := f.usesA f.x.ty.is64 }
  | .rdtime f | .rdhlc f => { writes := uniReads true f.d }
  | .prog f => { reads := uniReads false f.a }
  | .brk _ => {}
  | _ => {}

/-- The instructions whose results are readable a fixed number of cycles after their issue: the table of R46. -/
def fixedLatency : Instr → Bool
  | .add _ | .sub _ | .mul _ | .mulhi _ | .mad _ | .and _ | .or _ | .xor _ | .not _ | .shl _ | .shr _ | .sar _ | .popc _ | .clz _
  | .brev _ | .bfe _ | .bfi _ | .sel _ | .min _ | .max _ | .cmpEq _ | .cmpNe _ | .cmpLt _ | .cmpLe _ | .cmpGt _ | .cmpGe _ | .mov _
  | .movi _ | .idiv _ | .irem _ | .fadd _ | .fsub _ | .fmul _ | .ffma _ | .fmin _ | .fmax _ | .fcmpEq _ | .fcmpNe _ | .fcmpLt _
  | .fcmpLe _ | .fcmpGt _ | .fcmpGe _ | .fcmpUn _ | .rcp _ | .rsqrt _ | .sqrt _ | .exp2 _ | .log2 _ | .sin _ | .cos _ | .cvt _
  | .pack4 _ | .unpk4 _ | .mksc _ | .tagrd _ | .tagset _ | .brc _ | .bcast _ | .mata _ | .mkaff _ | .pand _ | .por _ | .pxor _
  | .pnot _ | .pmov _ | .setpart _ | .rdsr _ => true
  | _ => false

end Sys2Proof.Machine
end

