-- ==== Sys2Proof/Machine/Flags.lean ====
section
/-! DEFINITION. Guards, active lanes, completion flags and the scoreboard (R29, R30, R46 to R49, R81). -/
namespace Sys2Proof.Machine

/-! ### Guards (R29, R30) -/

/-- Bit 61 inverts the predicate; bits 60:58 name it. -/
def guardMask (f : Fmt) (v : State) : Mask :=
  let m := v.readP (f.guard.toNat % 8)
  if f.guard.getLsbD 3 then ~~~m else m

def guardBit (f : Fmt) (v : State) : Bool :=
  let b := v.readQ (f.guard.toNat % 8)
  if f.guard.getLsbD 3 then !b else b

/-- The active lanes of a varying instruction: the lanes of the split mask whose guard predicate reads true. -/
def activeMask (f : Fmt) (v : State) : Mask := v.split.mask &&& guardMask f v

def activeLanes (f : Fmt) (v : State) : List Nat := lanesOf v.team.n (activeMask f v)

/-- Whether the instruction has an effect: its uniform guard reads true, or it has an active lane. -/
def guardOn (f : Fmt) (v : State) : Bool :=
  match f.cls with
  | .var => activeMask f v != 0
  | _ => guardBit f v

/-- The ranks a swept instruction takes; one for the other classes (R81). -/
def sweepRanks (f : Fmt) (v : State) : BitVec 32 :=
  match f.cls with
  | .var => rankBits v.team.n v.split.mask
  | _ => 1

def sweepLen (f : Fmt) (v : State) : Nat := popcount (sweepRanks f v).toNat 32

/-! ### Results that are not readable yet (R46, R49) -/

/-- The position of a rank among the ranks issued before it. -/
def rankOrd (ranks : BitVec 32) (r : Nat) : Nat := popcount ranks.toNat r

/-- One reading of a register: the rank that reads, when it issues, and the rank that it reads. -/
structure Reading where
  rank : Nat
  at'  : Nat
  src  : Nat
  deriving DecidableEq, Repr

/-- Whether a lane is in the split mask and below n. -/
def present (v : State) (l : Nat) : Bool := decide (l < v.team.n) && v.split.mask.getLsbD l

/-- The readings of an instruction that issues from cycle `now` on: each rank of a sweep reads its own, one after the other; an instruction
of another class reads every rank at once (R81). -/
def readings (now : Nat) (f : Fmt) (s : State) : List Reading :=
  match f.cls with
  | .var => ((List.range 32).filter (sweepRanks f s).getLsbD).map fun r => { rank := r, at' := now + rankOrd (sweepRanks f s) r, src := r }
  | _ => (List.range 32).map fun r => { rank := 0, at' := now, src := r }

/-- What `ishuf` reads of its varying source A: the ranks that its active lanes name (R126). -/
def gathers (now : Nat) (f : Fmt) (s : State) : List Reading :=
  ((activeLanes f s).filterMap fun l =>
    let m := (rawB f s l).toNat
    if present s m then some { rank := l / 32, at' := now + rankOrd (sweepRanks f s) (l / 32), src := m / 32 : Reading } else none).eraseDups

/-- The readings of one register. -/
def readingsOf (now : Nat) (i : Instr) (f : Fmt) (s : State) (x : Reg) : List Reading :=
  match i with
  | .ishuf g =>
    if !g.ka && x = .v g.a.toNat then
      gathers now f s ++ (if g.len != .l128 && !g.kb && x = .v g.b.toNat then readings now f s else [])
    else readings now f s
  | _ => readings now f s

/-- Whether a reading comes too early for a result. -/
def Fresh.early (x : Fresh) (r : Reading) : Bool :=
  match x.reg with
  | .v _ | .p _ => x.ranks.getLsbD r.src && decide (r.at' < x.readyAt + rankOrd x.ranks r.src)
  | _ => decide (r.at' < x.readyAt)

/-- Whether a result that a run of a split issued is one that the executing split can name: a temporary is the run's own, which the halves
of a wave split share (R41, R170). -/
def State.canName (v : State) (by' run : Nat) : Reg → Bool
  | .v n => decide (n < 248) || (run == v.split.begun && (by' == v.split.id || v.split.wave.any fun w => w.other == by'))
  | _ => true

/-- The reads of fixed-latency results that come too early. -/
def earlyFixed (now : Nat) (i : Instr) (f : Fmt) (reads : List Reg) (v : State) : List Fresh :=
  v.team.fresh.filter fun x => reads.contains x.reg && v.canName x.split x.run x.reg && (readingsOf now i f v x.reg).any x.early

/-- Whether lanes of a flight of a team are still to be written (R170). -/
def State.lanesOut (s : State) (tid : Nat) (w : Wave) : Bool :=
  s.entries.any fun e => e.team == tid && e.flight == w.flight && w.lanes.getLsbD e.lane

/-- Whether the executing half of a wave split has its own lanes of the splitting load. -/
def State.ownLanesIn (v : State) (flight : Nat) : Bool :=
  match v.split.wave with
  | some w => w.flight == flight && !v.lanesOut v.team.id w
  | none => false

/-- The variable-latency results that an instruction names before they are written. -/
def earlyPending (regs : List Reg) (v : State) : List Pending :=
  v.team.pending.filter fun p => (p.regs.any fun r => regs.contains r && v.canName p.split p.run r) && !v.ownLanesIn p.flight

def foldIdx {α β : Type} (g : Nat → β → α → β) : Nat → β → List α → β
  | _, b, [] => b
  | k, b, a :: r => foldIdx g (k + 1) (g k b a) r

/-- The free bit for one reading of the `k`th early result: what R49 leaves open. -/
def seeBit (s : State) (k r src : Nat) : Bool := Config.freeBit (s.free * 2 ^ 40 + k * 2 ^ 12 + r * 64 + src)

/-- The values of a landing that differ from what the state holds. -/
def differing (s : State) : Landing → Landing
  | .lanes n t vals => .lanes n t (vals.filter fun (l, w) => s.readV n l != w)
  | .preds n vals => .preds n (vals.filter fun (l, b) => (s.readP n).getLsbD l != b)
  | x => x

/-- Whether a whole register's landing changes what the state holds. -/
def changes (s : State) : Landing → Bool
  | .word n w => s.readS n != w
  | .bit n b => s.readQ n != b
  | .pair n p => s.readPair n != p
  | _ => true

/-- The state as it looks where the readings `rs` see a landing: a rank that reads its own lanes, or an instruction that is not swept, finds
it in the register; what ranks see each for themselves of a register that they share, or of another rank's lanes, stands in glimpses. -/
def showTo (swept : Bool) (rs : List Reading) (sees : Reading → Bool) (x : Landing) (s : State) : State :=
  let own := fun r : Reading => !swept || r.rank == r.src
  match differing s x with
  | .lanes n _ vals =>
    let other := (rs.filter fun r => !own r).map fun r =>
      { rank := r.rank, what := .lanes n none ((vals.filter fun p => p.1 / 32 == r.src).map fun p =>
          (p.1, if sees r then p.2 else s.seeV n (32 * r.rank) p.1)) : Glimpse }
    State.writeLanes { s with team := { s.team with glimpses := s.team.glimpses ++ other } } n
      (vals.filter fun p => rs.any fun r => own r && r.src == p.1 / 32 && sees r)
  | .preds n vals => s.writeP n (vals.filter fun p => rs.any fun r => r.src == p.1 / 32 && sees r)
  | y =>
    if !changes s y then s
    else if swept then
      { s with team := { s.team with glimpses := s.team.glimpses ++ (rs.filter sees).map fun r => { rank := r.rank, what := y : Glimpse } } }
    else if (rs.take 1).any sees then s.land y else s

/-- The state with one early result taken back where the free bits say so: each early reading sees the previous or the new value. -/
def seeOld (now : Nat) (i : Instr) (f : Fmt) (s0 : State) (k : Nat) (s : State) (x : Fresh) : State :=
  showTo (f.cls = .var) (readingsOf now i f s0 x.reg) (fun r => x.early r && seeBit s k r.rank r.src) x.old s

/-- The state with one pending result seen already where its value is known and the free bits say so, by each reading for itself; its tag
as a whole. -/
def seeNew (now : Nat) (i : Instr) (f : Fmt) (s0 : State) (k : Nat) (s : State) (p : Pending) : State :=
  match p.value with
  | some ls => foldIdx (fun j s x =>
      let s := showTo (f.cls = .var) (readingsOf now i f s0 (regOf x)) (fun r => seeBit s (2 ^ 17 + 4 * k + j) r.rank r.src) x s
      match x with
      | .lanes n (some t) _ => if seeBit s (2 ^ 17 + 4 * k + j) 32 0 then s.setTag n t else s
      | _ => s) 0 s ls
  | none => s

/-- The state with an unspecified word in each destination of the `segred`s of the team's open expansion (R154). -/
def seeMixed (s : State) : State :=
  match s.team.expand with
  | some e => { s with team := { s.team with v := e.mixed.foldl (fun m k => m.set 0 k (s.mixedWord k)) s.team.v } }
  | none => s

/-- What an instruction that issues at cycle `now` reads its registers from (R49, R154). -/
def viewAt (now : Nat) (i : Instr) (f : Fmt) (reads : List Reg) (s : State) : State :=
  seeMixed (foldIdx (seeNew now i f s) 0 (foldIdx (seeOld now i f s) 0 s (earlyFixed now i f reads s)) (earlyPending reads s))

/-- Whether some register reads as an unspecified mix of results (R154). -/
def anyMixed (s : State) : Bool :=
  match s.owner.expand with
  | some e => !e.mixed.isEmpty
  | none => false

/-- Whether the checking scoreboard raises STALLCHK: a read before the result is readable, or a fixed-latency write to a register
that awaits a variable-latency result (R49). -/
def stallCheck (now : Nat) (i : Instr) (f : Fmt) (reads writes : List Reg) (s : State) : Bool :=
  s.team.tctl.getLsbD 0 && (!(earlyFixed now i f reads s).isEmpty || !(earlyPending (reads ++ writes) s).isEmpty)

/-- Whether an instruction reads a temporary whose written bit is clear (R41). -/
def tempDead (u : Uses) (s : State) : Bool :=
  u.reads.any fun r => match r with
    | .v n => decide (248 ≤ n) && !s.split.run.written.getLsbD (n - 248)
    | _ => false

/-- Whether an instruction names a varying register outside the held blocks (R93); in a helper body, outside the recruiter's
(R137). -/
def outsideBlocks (u : Uses) (s : State) : Bool :=
  (u.reads ++ u.writes ++ u.names).any fun r => match r with
    | .v n =>
      if 248 ≤ n then false
      else if s.inHelper then decide (16 ≤ n) && decide (8 * s.owner.blocks ≤ n - 16)
      else decide (8 * s.team.blocks ≤ n)
    | _ => false

/-- Whether an instruction meets a condition that would stop it; one that has waited for its colours has passed its checks (R184). -/
def State.unpassed (v : State) (b : Bool) : Bool := v.split.gated.isNone && b

/-! ### Writing results with their latency -/

/-- What a register holds now, as a landing that puts it back. -/
def oldOf (s : State) : Landing → Landing
  | .word n _ => .word n (s.readS n)
  | .bit n _ => .bit n (s.readQ n)
  | .pair n _ => .pair n (s.readPair n)
  | .lanes n _ vals => .lanes n none (vals.map fun (l, _) => (l, s.readV n l))
  | .preds n vals => .preds n (vals.map fun (l, _) => (l, (s.readP n).getLsbD l))

/-- The ranks that a landing writes. -/
def ranksOfLanding (ranks : BitVec 32) : Landing → BitVec 32
  | .lanes .. | .preds .. => ranks
  | _ => 1

/-- A result readable `lat` cycles after its rank issues: written now. One that the next instruction can read leaves no earlier value
of what it wrote to be seen; for more than one cycle the register's previous value is kept for early reads (R46, R49). -/
def putFixed (lat : Nat) (f : Fmt) (x : Landing) (s : State) : State :=
  if lat ≤ 1 then { s.land x with team := (s.land x).team.readable s.split.id x }
  else
    let r : Fresh := { reg := regOf x, old := oldOf s x, readyAt := s.split.last + 1 + s.split.owed - sweepLen f s + lat,
                       ranks := ranksOfLanding (sweepRanks f s) x, split := s.split.id, run := s.split.begun }
    let s := s.land x
    { s with team := { s.team with fresh := s.team.fresh ++ [r] } }

/-- A variable-latency result with its values known: it lands at a RESULT_WRITEBACK (R46). -/
def putLater (fl : Nat) (xs : List Landing) (s : State) : State :=
  let (id, s) := s.fresh
  let p : Pending := { id := id, flight := fl, regs := xs.map regOf, value := some xs, split := s.split.id, run := s.split.begun }
  { s with team := { holdFlight s.team fl 1 with pending := s.team.pending ++ [p] } }

/-- A variable-latency result whose values come from the order machine or a grant. -/
def putUnknown (fl : Nat) (regs : List Reg) (s : State) : State :=
  let (id, s) := s.fresh
  let p : Pending := { id := id, flight := fl, regs := regs, value := none, split := s.split.id, run := s.split.begun }
  { s with team := { s.team with pending := s.team.pending ++ [p] } }

end Sys2Proof.Machine
end

