-- ==== Sys2Proof/Machine/Watch.lean ====
section
/-! DEFINITION. Data watchpoints and their reports (R317 to R320); the records that the device writes on its own account (R302,
R319, R342). -/
namespace Sys2Proof.Machine

/-- A match of a write: what its report names (R320). -/
structure Match where
  part : Nat
  wp   : Nat
  addr : Addr
  pc   : Addr := 0
  who  : Nat
  unit : Nat := 0
  kind : Nat
  die  : Nat
  deriving DecidableEq, Repr

/-- Whether a watchpoint watches a byte of a context (R317). -/
def Watchpoint.sees (w : Watchpoint) (cx : Nat) (va : Nat) : Bool :=
  let base := w.base.toNat / 16 * 16
  w.en && w.ctx == cx && decide (base ≤ va) && decide (va < base + 16) && w.mask.getLsbD (va - base)

/-- The watchpoints that bytes of a context match, each with its first watched byte. -/
def watched (p : Part) (cx : Nat) (bytes : List Nat) : List (Nat × Addr) :=
  (List.range 4).filterMap fun i => (bytes.find? fun b => (p.wps.get {} i).sees cx b).map fun b => (i, BitVec.ofNat 64 b)

/-- Writes a match's report, or counts it as dropped where the ring of 256 is full. -/
def State.logMatch (s : State) (m : Match) : State :=
  let p := s.part m.part
  if p.wqcount ≥ 256 then s.modPart m.part fun p => { p with wqover := p.wqover + 1 }
  else
    let (h, s) := s.stamp m.die
    let bs := leBytes 8 m.addr.toNat ++ leBytes 8 m.pc.toNat ++ leBytes 2 m.who ++ leBytes 1 m.unit ++ leBytes 1 m.kind ++
      leBytes 1 m.wp ++ leBytes 3 0 ++ leBytes 8 h.toNat
    (s.putAt (p.wqaddr.toNat + 32 * p.wqcount) bs).modPart m.part fun p => { p with wqcount := p.wqcount + 1 }

/-- Reports the matches of a write that is no core store: the addresses, the writing instruction, then who wrote (R319, R320). -/
def State.reportWrites (s : State) (part cx : Nat) (bytes : List Nat) (pc : Addr) (who unit kind die : Nat) : State :=
  (watched (s.part part) cx bytes).foldl
    (fun s w => s.logMatch { part := part, wp := w.1, addr := w.2, pc := pc, who := who, unit := unit, kind := kind, die := die }) s

/-! ### Writes by physical address (R319) -/

/-- The translation trees that launches of a context go by (R341). -/
def State.rootsOf (s : State) (cx : Nat) : List Nat :=
  ((s.ctx cx).desc.ptroot.toNat :: s.launches.filterMap fun l => if l.card.ctx = cx then l.desc.map fun d => d.ptroot.toNat else none).eraseDups

/-- Whether a tree maps an address to one of listed bytes of memory. -/
def State.mapsTo (s : State) (root : Nat) (keys : List Nat) (va : Addr) : Bool :=
  match walk s va.toNat root levels with
  | .leaf e sh =>
    let pa := frameOf e + va.toNat % 2 ^ sh
    keys.contains (if e.getLsbD 8 then hostKey pa else pa)
  | _ => false

/-- The watched bytes of a watchpoint whose context maps them to listed bytes of memory: the first. -/
def State.seesKeys (s : State) (w : Watchpoint) (keys : List Nat) : Option Addr :=
  if !w.en then none
  else
    let vas := ((List.range 16).filter w.mask.getLsbD).map fun i => BitVec.ofNat 64 (w.base.toNat / 16 * 16 + i)
    (s.rootsOf w.ctx).findSome? fun root => vas.find? (s.mapsTo root keys)

/-- Reports the matches, in every partition, of a write of the host, a peer or the device. -/
def State.reportKeys (s : State) (keys : List Nat) (who kind die : Nat) : State :=
  s.parts.foldl (fun s p =>
    (List.range 4).foldl (fun s i =>
      match s.seesKeys (p.2.wps.get {} i) keys with
      | some va => s.logMatch { part := p.1, wp := i, addr := va, who := who, unit := 0, kind := kind, die := die }
      | none => s) s) s

/-- A write that the device makes on its own account: performed, and reported with kind 4 (R319). -/
def State.record (s : State) (k : Nat) (bs : List Byte) : State :=
  (s.putAt k bs).reportKeys ((List.range bs.length).map (k + ·)) 0xFFFE 4 (s.homeDie k)

/-! ### Reports of the device (R302, R298, R342) -/

/-- Writes an entry of the violation log. -/
def State.logViol (s : State) (v : Viol) : State :=
  let p := s.part v.part
  let (h, s) := s.stamp v.die
  let bs := leBytes 8 v.addr ++ leBytes 8 v.va.toNat ++ leBytes 2 v.who ++ leBytes 1 v.unit ++ leBytes 1 v.kind ++
    leBytes 1 v.key ++ leBytes 1 v.cause ++ leBytes 2 0 ++ leBytes 8 h.toNat
  (s.record (p.violaddr.toNat + 32 * (p.viols % 64)) bs).modPart v.part fun p => { p with viols := p.viols + 1 }

/-- The virtual function that a context belongs to signals its MSI-X vector 0 (R342). -/
def State.signal (s : State) (cx : Nat) : State :=
  let p := (s.ctx cx).desc.part.toNat
  { s with msix := s.msix.set 0 p (s.msix.get 0 p + 1) }

/-- Writes waiting reports into the context's fault queue while it has free slots, with a signal for each; a report goes to the queue of the
descriptor that governs its launch (R341, R342). -/
def flushReports (cx : Nat) : List (Addr × Nat × List Byte) → State → State
  | [], s => s.modCtx cx fun c => { c with reports := [] }
  | r :: rs, s =>
    let c := s.ctx cx
    if c.fqhead - c.fqtail < r.2.1 then
      flushReports cx rs (((s.record (r.1.toNat + 32 * (c.fqhead % r.2.1)) r.2.2).modCtx cx fun c => { c with fqhead := c.fqhead + 1 }).signal cx)
    else s.modCtx cx fun c => { c with reports := r :: rs }

/-- Adds a report of a driver fault of a launch (R298). -/
def State.report (s : State) (cx launch : Nat) (addr pc : Addr) (core slot kind : Nat) (owner off lane : Word) : State :=
  let d := s.descOf cx launch
  let r := leBytes 8 addr.toNat ++ leBytes 8 pc.toNat ++ leBytes 2 core ++ leBytes 1 slot ++ leBytes 1 kind ++
    leBytes 4 owner.toNat ++ leBytes 4 off.toNat ++ leBytes 4 lane.toNat
  flushReports cx ((s.ctx cx).reports ++ [(d.fqbase, 2 ^ d.fqlsize.toNat, r)]) s

end Sys2Proof.Machine
end

