-- ==== Sys2Proof/Machine/Issue.lean ====
section
/-! DEFINITION. Issuing one instruction (R30, R39 to R42, R46 to R49, R81, R93, R300) and taking a fault (R20, R147, R303, R304,
R316): the one shared operation of each. -/
namespace Sys2Proof.Machine

/-- The codes of R300. -/
def faultCode : Code → Nat
  | .ILLEN => 0x01 | .FETCHX => 0x02 | .ILLOP => 0x03 | .ILLCLASS => 0x04 | .ILLENC => 0x05 | .POOLX => 0x06
  | .STALLCHK => 0x07 | .TAGMIS => 0x08 | .UDIV => 0x09 | .AFFOVF => 0x0A | .RUNLEN => 0x0B | .TMPDEAD => 0x0C | .DEFER => 0x0D
  | .XLATE => 0x10 | .PERM => 0x11 | .ALIGN => 0x12 | .MIGRATE => 0x13 | .VIOL => 0x14 | .FEWAIT => 0x15
  | .CORDER => 0x18 | .CHELD => 0x19 | .CNOTHELD => 0x1A | .CENGINE => 0x1B | .HFAULT => 0x20 | .HCOLOUR => 0x21
  | .MTOKEN => 0x28 | .MGANG => 0x29 | .MSCALE => 0x2A | .MMETA => 0x2B | .MROWS => 0x2C | .JTAB => 0x30 | .STACK => 0x31
  | .BRK => 0x3C | .WATCHPT => 0x3D | .TRAP => 0x3E | .QOVR => 0x3F

/-- The answer of an instruction's body: its effect, a precise fault, or a stop in place: the instruction issues again. -/
inductive Res where
  | done (s : State)
  | raise (f : Flt)
  | refuse (f : Flt) (v : Viol)        -- a precise VIOL that the violation log records (R301)
  | watch (f : Flt) (ms : List Match)  -- a precise WATCHPT, with the reports of its matches (R318)
  | failing (g : State → State) (f : Flt)      -- a precise fault that comes with an effect of its own (R143, R155)
  | stay (s : State)

/-- A fault of the team as a whole, which no lane's value or address caused (R303). -/
def wholeFlt (c : Code) (a : Addr := 0) : Flt := { code := c, addr := a }

/-- A fault that a lane's value or address caused (R303). -/
def laneFlt (c : Code) (a : Addr) (l : Nat) : Flt := { code := c, addr := a, lane := BitVec.ofNat 32 l }

/-- How many of `n` ranks issue in a row: as many as the balance pays for, and of a borrower one, since each borrowed rank is an issue of
its own (R256). -/
def Budget.afford (b : Budget) (n : Nat) : Nat := if b.balance = 0 then min n 1 else min n b.balance

/-- A budget charged with `n` ranks that it affords. -/
def Budget.charge (b : Budget) (n : Nat) : Budget :=
  if b.balance = 0 then { b with debt := b.debt + n } else { b with balance := b.balance - n }

namespace State

/-! ### Taking a fault -/

/-- The owner lane and offset of lane `l`'s iteration in the open expansion (R156). -/
def iterationOf (e : Expansion) (k : Option Nat) (widx : Nat) : Option (Nat × Nat) :=
  match k with
  | none => none
  | some k =>
    let f := k * e.w + widx
    if f < e.total then (e.owners.find? fun o => o.base ≤ f && f < o.base + o.len).map fun o => (o.lane, f - o.base)
    else none

/-- The worker index of a lane: how many workers lie below it (R150). -/
def workerIndex (e : Expansion) (l : Nat) : Nat := popcount e.workers.toNat l

/-- `xfown` and `xfoff` after a fault with an expansion open: a lane that is no worker has no iteration (R156). -/
def recordOwner (s : State) (l : Word) : State :=
  match s.team.expand with
  | none => s
  | some e =>
    match (if l = 0xFFFFFFFF || !e.workers.getLsbD l.toNat then none else iterationOf e e.current (workerIndex e l.toNat)) with
    | some (o, off) => s.modTeam fun t => { t with xfown := BitVec.ofNat 32 o, xfoff := BitVec.ofNat 32 off }
    | none => s.modTeam fun t => { t with xfown := 0xFFFFFFFF, xfoff := 0 }

/-- The fault registers (R20 step 1, R303). -/
def recordFault (s : State) (f : Flt) : State :=
  (s.modTeam fun t => { t with frcode := BitVec.ofNat 8 (faultCode f.code), frpc := s.split.pc, fraddr := f.addr,
                               frlane := f.lane }).recordOwner f.lane

/-- The handler starts: it runs as one split whose mask is the live mask, with no record, in a run of its own; the faulting
split is kept with its run and the other splits are held, with their records (R42, R303). DESIGN CHOICE (log entry 69): the handler's
split takes over the faulting split's entries of the table and of the buffer pool, and gives them back at its return. -/
def enterHandler (s : State) : State :=
  let (id, s) := s.fresh
  let (r, s) := s.fresh
  let x := s.split
  { s with
    team := { s.team with handler := some { fault := { x with request := none, buffer := false, gated := none }, held := s.team.splits }, splits := [],
                          joins := s.team.joins.map fun (e : Nat × Option Join) => (e.1, e.2.map fun (j : Join) => { j with held := true }) },
    split := { id := id, entry := 16 + x.entry % 16, pc := s.team.trapvec &&& ~~~3, mask := s.team.live, link := none, run := {}, last := s.cycle,
               buffer := x.buffer, request := if x.buffer then none else some r, older := x.older, barred := x.barred } }

/-- A stop for the debugger (R316): the faulting split stops; under team-stop every other split freezes where it stands, and under
split-stop the others run on. -/
def debugStop (s : State) (teamStop : Bool) : State :=
  let s := s.modSplit fun x => { x with park := .stop, buffer := false, request := none }
  let s := s.modTeam fun t => { t with stopAt := some s.split.id, stopped := t.stopped || teamStop }
  if teamStop then
    s.modTeam fun t => { t with splits := t.splits.map fun (x : Split) =>
      if x.park = .none then { x with park := .stop, buffer := false, request := none } else x }
  else s

/-- A helper fault (R147): the faulting helper, or every helper of the split, is stopped; the first fault of a recruitment or
expansion is recorded, and the recruitment is cancelled. DESIGN CHOICE (log entry 70): a helper with no current iteration or wave is
recorded with iteration 0. -/
def helperFault (s : State) (f : Flt) : State :=
  let g := s.team
  let whole := f.lane == 0xFFFFFFFF
  let h := if whole then (lowestLane g.n s.split.mask).getD 0 else f.lane.toNat
  let gone := if whole then s.split.mask else laneBit h
  let s := s.unfocus
  let s := match g.role with
    | .main => s
    | .helper r => s.modTeamId r fun (t : Team) =>
        let it := ((t.recruit.current.find? fun (p : Nat × Nat) => p.1 == h).map Prod.snd).getD 0
        { t with recruit := { t.recruit with fault := t.recruit.fault.or (some (h, f.code, it, f.addr)),
                                             state := if t.recruit.state = RecruitState.none then RecruitState.none else RecruitState.cancelled, returned := [] } }
    | .drafted r => s.modTeamId r fun (t : Team) =>
        { t with expand := t.expand.map fun (e : Expansion) =>
            { e with fault := e.fault.or (some (h, f.code, e.gcurrent.getD 0, f.addr)), ending := true } }
  s.removeHelpers g.id gone

/-- Whether BRK and WATCHPT stop the team for the debugger (R314, R316). -/
def debugAttached (s : State) : Bool := (s.part s.team.part).dbgctl.getLsbD 0

/-- Takes a precise fault at the executing split's instruction, which has no effect (R20, R303, R304, R316). -/
def takeFault (s : State) (f : Flt) : State :=
  if s.inHelper then s.helperFault f
  else if (f.code = .BRK || f.code = .WATCHPT) && s.debugAttached then
    (s.recordFault f).debugStop ((s.part s.team.part).dbgctl.getLsbD 1)
  else if s.team.handler.isSome || s.team.trapvec = 0 then
    let s := s.recordFault f
    s.unfocus.endTeam s.team.id (.fault (faultCode f.code) s.team.frpc)
  else (s.recordFault f).enterHandler

/-! ### Issuing -/

/-- The cycle at which the instruction's first rank issues (R47). -/
def issueCycle (s : State) (f : Fmt) : Nat := max s.cycle (s.split.last + 1 + f.stall.toNat)

/-- How many of `n` ranks of the executing team issue now: in a partition whose arbitration is EDF all (R256, R257). -/
def ranksNow (s : State) (n : Nat) : Nat :=
  if (s.part s.team.part).entry.edf then n else (((s.core s.team.core).budgets.get {} s.team.ctx).afford n)

/-- The split after an instruction: past it, with the run's length counted or, after a control transfer, the run ended (R40). -/
def splitPast (s : State) (f : Fmt) (ends : Bool) : Split :=
  let n := max 1 (sweepLen f s)
  let x := { s.split with pc := s.split.pc + BitVec.ofNat 64 f.len.bytes, last := s.issueCycle f + s.ranksNow n - 1, owed := n - s.ranksNow n }
  if ends then endRun 0 x else { x with run := { x.run with count := x.run.count + 1 } }

/-- Whether the executing split is the resumed one at `frpc`: `tctl.wpskip` speaks of this instruction (R318). -/
def atResumed (s : State) : Bool := s.split.pc == s.team.frpc && s.team.resumed == some s.split.id

/-- The team after an instruction: one more retired; `tctl.wpskip` clears where the resumed split executes at `frpc` (R318). -/
def teamPast (s : State) : Team :=
  { s.team with retired := s.team.retired + 1, tctl := if s.atResumed then s.team.tctl &&& ~~~8 else s.team.tctl }

/-- The partition's count of retired instructions (R323). -/
def countRetired (s : State) : State := s.modPart s.team.part fun q => { q with retired := q.retired + 1 }

/-- Charges the context's budget on the team's core, in a partition whose arbitration is not EDF (R256). -/
def chargeBudget (s : State) (n : Nat) : State :=
  if (s.part s.team.part).entry.edf then s
  else s.modCore s.team.core fun (c : Core) =>
    { c with budgets := c.budgets.set {} s.team.ctx ((c.budgets.get {} s.team.ctx).charge n) }

/-- One instruction is issued: the split, the team, the cycle, the retired count and the budget move on. -/
def account (s : State) (f : Fmt) (ends : Bool) : State :=
  let n := s.ranksNow (max 1 (sweepLen f s))
  State.chargeBudget (State.countRetired
    { s with split := s.splitPast f ends, cycle := s.issueCycle f + n, team := s.teamPast }) n

/-- Undoes the issue of an instruction that stops in place: it issues again from its kept run state (R42), and no rank of it has cost a
token (R256). -/
def withdrawIssue (s0 s : State) (fl : Nat) : State :=
  let s := { s with split := { s0.split with park := s.split.park, buffer := s.split.buffer, older := s.split.older, gated := s.split.gated },
                    team := { endFlight s.team fl with retired := s0.team.retired, tctl := s0.team.tctl } }
  let s := s.modCore s0.team.core fun c => { c with budgets := (s0.core s0.team.core).budgets }
  s.modPart s0.team.part fun q => { q with retired := (s0.part s0.team.part).retired }

end State

/-- How an instruction's result or effect completes (R46). -/
inductive Lat where
  | fixed (n : Nat)        -- readable n cycles after each rank
  | later                  -- variable latency
  deriving DecidableEq, Repr

/-- Whether a helper body may execute an instruction (R138; log entry 22). -/
def helperMay (i : Instr) (f : Fmt) : Bool :=
  match i with
  | .pack4 _ | .unpk4 _ | .mksc _ | .tagrd _ | .tagset _ | .exitl _ | .rvsend _ | .rvrecv _ | .spawn _ | .xpand _ | .xpandN _ => false
  | .ld _ | .st _ | .ldfe _ | .stfe _ | .ldline _ | .atom _ | .red _ => f.cls = .var && f.x.qual != 4
  | .vote _ => f.cls = .var || f.x.qual != 3       -- a ballot of class 00 writes a uniform register
  | .fence _ | .bra _ | .nop _ | .runend _ | .yield _ | .recruit _ | .pand _ | .por _ | .pxor _ | .pnot _ | .pmov _ => true
  | _ => f.cls = .var

/-- Whether an instruction of class 01 names `own` (R84, R152). -/
def namesOwn (i : Instr) (f : Fmt) : Bool :=
  match i with
  | .add _ | .sub _ | .mul _ | .shl _ => f.cls == .aff && (f.a == 34 || (f.len != .l128 && !f.kb && f.b == 34))
  | _ => false

/-- ILLENC for what an instruction that acts may not name where it stands: a register of the recruiter as a destination in a helper
body (R137), `own` in class 01 while an expansion is open (R152). -/
def namesBadly (i : Instr) (f : Fmt) (u : Uses) (s : State) : Bool :=
  (s.inHelper && u.writes.any fun r => match r with | .v n => decide (16 ≤ n) && decide (n < 248) | _ => false) ||
    (s.team.expand.isSome && namesOwn i f)

/-- What the executing split's instruction meets before its own effect (R300): ILLCLASS for a form that a helper body may not execute,
at rank 1; STALLCHK and TMPDEAD at rank 3; the held-block check of R93, made whatever the guard, and the names of `namesBadly` at rank
4. One that has waited for its colours has passed them (R184). But for the guard's own predicate and the held blocks,
an instruction that its guard turns off meets none of them (R30). -/
def preCheck (now : Nat) (i : Instr) (f : Fmt) (u : Uses) (on : Bool) (s : State) : Option Flt :=
  if s.split.gated.isSome then none
  else if on && s.inHelper && !helperMay i f then some (wholeFlt .ILLCLASS)
  else if stallCheck now i f f.guardReg [] s then some (wholeFlt .STALLCHK)
  else if on && stallCheck now i f u.reads (if fixedLatency i then u.writes else []) s then some (wholeFlt .STALLCHK)
  else if on && tempDead u s then some (wholeFlt .TMPDEAD)
  else if outsideBlocks u s then some (wholeFlt .ILLENC)
  else if on && namesBadly i f u s then some (wholeFlt .ILLENC)
  else none

/-- The cycle after which a fixed-latency instruction's last rank is readable (R46). -/
def dueAt (f : Fmt) (lat : Lat) (s : State) : Option Nat :=
  match lat with
  | .fixed n => some (s.issueCycle f + max 1 (sweepLen f s) - 1 + n)
  | .later => none

/-- The split's next run waits for a flight of an instruction that names no completion flag (R46). -/
def State.awaitFlight (s : State) (fl : Nat) : State := s.modSplit fun x => { x with awaits := x.awaits ++ [fl] }

/-- The state that the body of an instruction starts from: issued, with its flight in the air. -/
def launch (f : Fmt) (u : Uses) (lat : Lat) (ends : Bool) (s : State) : Nat × State :=
  let s1 := s.account f ends
  let fl := s1.nextId
  if f.sig = 15 && (dueAt f lat s).isSome then (0, s1)
  else
    let s2 := { s1 with nextId := fl + 1 }.launchFlight fl f.sig 1 (dueAt f lat s)
    (fl, if f.sig = 15 && !u.writes.isEmpty then s2.awaitFlight fl else s2)

/-- Counts the free values that an instruction consulted: the counter moves on where it read a register early, or where some
register holds an unspecified mix of results. -/
def bumpFree (now : Nat) (i : Instr) (f : Fmt) (reads : List Reg) (s0 s : State) : State :=
  if (earlyFixed now i f reads s0).isEmpty && (earlyPending reads s0).isEmpty && !anyMixed s0 then s else { s with free := s.free + 1 }

/-- Issues one instruction of the executing split. A faulting instruction has not issued: its split keeps its run and its count, `trap`'s
too (DESIGN CHOICE, log entry 71: R40 and R66 end the run of a transfer that acts, R42 and R73 keep the run at a fault). `gated` is false
for `brv`, whose guard is its condition (R116). The body gets its flight's number, the state it reads registers from, and the state it acts on. -/
def issue (i : Instr) (f : Fmt) (lat : Lat) (ends gated : Bool) (body : Nat → State → State → Res) (s : State) :
    Host.Outcome State Fault Refusal :=
  let now := s.issueCycle f
  let u := usesOf i
  let reads := u.reads ++ f.guardReg
  let v := viewAt now i f reads s
  let on := !gated || guardOn f v || s.split.gated.isSome
  match preCheck now i f u on s with
  | some flt => .next (s.takeFault flt)
  | none =>
    if !on then .next (bumpFree now i f reads s (s.account f ends))
    else
      let (fl, s1) := launch f u lat ends s
      match body fl v s1 with
      | .done s2 => .next (bumpFree now i f reads s s2)
      | .raise flt => .next (s.takeFault flt)
      | .refuse flt x => .next ((s.takeFault flt).logViol x)
      | .watch flt ms => .next (ms.foldl State.logMatch (s.takeFault flt))
      | .failing g flt => .next ((g s).takeFault flt)
      | .stay s2 => .next (State.withdrawIssue s s2 fl)

/-- An instruction that ends no run. -/
def straight (i : Instr) (f : Fmt) (lat : Lat) (body : Nat → State → State → Res) (s : State) :
    Host.Outcome State Fault Refusal := issue i f lat false true body s

/-- A control transfer: it ends its run (R40). -/
def transfer (i : Instr) (f : Fmt) (lat : Lat) (body : Nat → State → State → Res) (s : State) :
    Host.Outcome State Fault Refusal := issue i f lat true true body s

end Sys2Proof.Machine
end

