-- ==== Sys2Proof/Machine/Access.lean ====
section
/-! DEFINITION. What every access passes before it enters a queue (R79, R161, R163 to R166, R176, R184, R301): its locations,
the checks in their order, hand-overs of host pages, the colour stage. -/
namespace Sys2Proof.Machine

/-- What the checks stop at. -/
inductive Stop where
  | fault (c : Code)
  | driver
  | refused (v : Viol)
  | wait
  deriving DecidableEq, Repr

/-- Bytes of hardware areas from `fsbase` on (R166). -/
def hardwareBytes : Nat := 73728

/-- Whether `n` bytes from an address touch the frame records or deferred list of a team of the context (R19, R99). -/
def State.hardwareArea (s : State) (cx : Nat) (va : Addr) (n : Nat) : Bool :=
  s.allTeams.any fun t => t.role == .main && t.ctx == cx && !t.ended &&
    decide (va.toNat < t.fsbase.toNat + hardwareBytes) && decide (t.fsbase.toNat < va.toNat + n)

/-- An entry of the violation log for an access of the executing team. -/
def State.violOf (s : State) (acc : Access) (va : Addr) (r : Refused) : Viol :=
  let kind := match acc with | .store => 1 | .atomic => 2 | .fetch => 3 | .engineRead => 4 | .engineWrite => 5 | _ => 0
  { part := s.team.part, addr := r.addr, va := va, who := s.team.core, unit := s.team.slot, kind := kind, key := r.key,
    cause := r.cause, die := s.dieOf s.team.core }

/-- Translates the pieces of an access, the lowest address first: the first stop, or the bytes' keys with the pieces' pages. -/
def piecesBy (xl : Addr → Xl) (viol : Addr → Refused → Viol) : List (Addr × Nat) → Except Stop (List Nat × List Phys)
  | [] => .ok ([], [])
  | (va, n) :: r =>
    match xl va with
    | .driver => .error .driver
    | .wait => .error .wait
    | .fault c => .error (.fault c)
    | .refused x => .error (.refused (viol va x))
    | .ok p =>
      match piecesBy xl viol r with
      | .error e => .error e
      | .ok (ks, ps) => .ok ((List.range n).map (p.key + ·) ++ ks, p :: ps)

/-- The pieces of an access of the device for the executing team. -/
def State.pieces (s : State) (acc : Access) (l : List (Addr × Nat)) : Except Stop (List Nat × List Phys) :=
  piecesBy (s.translate s.team.ctx s.team.launch s.team.part s.team.core acc) (s.violOf acc) l

/-- The pieces of a lane's access, which its target checks again (R301). -/
def State.lanePieces (s : State) (acc : Access) (l : List (Addr × Nat)) : Except Stop (List Nat × List Phys) :=
  piecesBy (fun va => s.translated (!s.goesUnchecked s.team.ctx s.team.core va) s.team.ctx s.team.launch s.team.part s.team.core acc va)
    (s.violOf acc) l

/-- The global addresses of a lane's private bytes: word w of lane l at fsbase + 73,728 + 4 (w n + l) (R166). -/
def privatePieces (t : Team) (l : Nat) (va : Addr) (n : Nat) : List (Addr × Nat) :=
  let word := fun a => t.fsbase + BitVec.ofNat 64 (hardwareBytes + (a / 4 * t.n + l) * 4 + a % 4)
  if n ≤ 4 then [(word va.toNat, n)] else (List.range (n / 4)).map fun i => (word (va.toNat + 4 * i), 4)

/-- Splits an access at a 64 KB boundary (R173). -/
def splitPage (va : Addr) (n : Nat) : List (Addr × Nat) :=
  let room := 65536 - va.toNat % 65536
  if n ≤ room then [(va, n)] else [(va, room), (va + BitVec.ofNat 64 room, n - room)]

/-- The window of a team in the vaults, in bytes: base and size (R165). -/
def windowOf (t : Team) : Nat × Nat := (t.vwin.toNat % 32 * 65536, t.vwin.toNat / 32 % 64 * 65536)

/-- The vault byte that a `.vn` or `.va` address names: core, offset in the vault, or what stops it (R161, R165). -/
def vaultAt (s : State) (t : Team) (spc : Space) (va : Addr) (n : Nat) : Except Stop (Nat × Nat) :=
  let (base, size) := windowOf t
  if spc = .vn then
    if va.toNat + n > size then .error (.fault .PERM) else .ok (t.core, base + va.toNat)
  else
    let vault := va.toNat / 2 ^ 21 % 256
    if va.toNat / 2 ^ 29 != 0 || vault ≥ s.grade.cores || va.toNat % 2 ^ 21 + n > size then .error (.fault .PERM)
    else if !(s.part t.part).entry.cores.getLsbD vault then
      .error (.refused { part := t.part, addr := vault * 2 ^ 21 + (base + va.toNat % 2 ^ 21), va := va, who := t.core, unit := t.slot,
                         kind := 0, key := 0, cause := 4, die := s.dieOf vault })
    else .ok (vault, base + va.toNat % 2 ^ 21)

/-- The checks of R161 for one lane, in order, and the locations of its access. -/
def State.checkLane (s : State) (spc : Space) (acc : Access) (n : Nat) (aligned : Bool) (l : Nat) (va : Addr) : Except Stop Loc :=
  let t := s.team
  if spc = .g && !canonical va then .error (.fault .XLATE)
  else if aligned && va.toNat % n != 0 then .error (.fault .ALIGN)
  else match spc with
  | .sp =>
    if va.toNat + n > s.block.spsize then .error (.fault .PERM)
    else .ok { lane := l, va := va, keys := (List.range n).map fun i => padKey t.block (va.toNat + i) }
  | .vn | .va =>
    match vaultAt s t spc va n with
    | .error (.refused v) => .error (.refused { v with kind := match acc with | .store => 1 | .atomic => 2 | _ => 0 })
    | .error e => .error e
    | .ok (c, off) => .ok { lane := l, va := va, keys := (List.range n).map fun i => vaultKey c (off + i), dom := .package }
  | .pv =>
    if va.toNat + n > 16384 then .error (.fault .PERM)
    else match s.lanePieces acc (privatePieces t l va n) with
      | .error e => .error e
      | .ok (ks, ps) => .ok { lane := l, va := va, keys := ks, kid := (ps.head?.map Phys.kid).getD 0, spans := privatePieces t l va n }
  | .g =>
    match s.lanePieces acc (splitPage va n) with
    | .error e => .error e
    | .ok (ks, ps) =>
      if s.hardwareArea t.ctx va n then .error (.fault .PERM)
      else
        let host := ps.any fun p => p.host.isSome
        let dom := domainOf (s.part t.part) va host
        .ok { lane := l, va := va, keys := ks, page := (ps.head?.map Phys.page).getD .rc, dom := dom,
              inside := dom != .die || s.homeFor (s.dieOf t.core) (ks.headD 0) == s.dieOf t.core, spans := [(va, n)],
              hosts := (ps.filterMap Phys.host).filter fun h => !s.owns h, met := ps.filterMap Phys.host, kid := (ps.head?.map Phys.kid).getD 0 }

/-- Whether an error response lets the instruction go on: a store or reduction is dropped, except in a vault (R301). -/
def dropsQuietly (acc : Access) (spc : Space) (quiet : Bool) : Bool := quiet && acc != .load && (spc = .g || spc = .pv)

/-- The checks for every lane, the lowest first: the first stop with its lane and address, or every lane's locations. -/
def State.checkLanes (s : State) (spc : Space) (acc : Access) (n : Nat) (aligned quiet : Bool) :
    List (Nat × Addr) → Except (Stop × Nat × Addr) (List Loc)
  | [] => .ok []
  | (l, va) :: r =>
    match s.checkLane spc acc n aligned l va with
    | .error (.refused v) =>
      if dropsQuietly acc spc quiet then
        match s.checkLanes spc acc n aligned quiet r with
        | .ok ls => .ok ({ lane := l, va := va, keys := [], drop := some v } :: ls)
        | e => e
      else .error (.refused v, l, va)
    | .error e => .error (e, l, va)
    | .ok x =>
      match s.checkLanes spc acc n aligned quiet r with
      | .ok ls => .ok (x :: ls)
      | e => e

/-! ### Parks of a memory instruction (R176, R298, R357) -/

/-- The owner lane and offset of the iteration of a lane, or of a drafted helper, for a report (R156, R298, R357). -/
def State.ownerOf (s : State) (l : Nat) : Word × Word :=
  let place := match s.team.role with
    | .main => s.team.expand.bind fun e => if e.workers.getLsbD l then State.iterationOf e e.current (State.workerIndex e l) else none
    | .drafted r => ((s.findTeam r).bind Team.expand).bind fun e => State.iterationOf e e.gcurrent (popcount s.team.live.toNat l)
    | .helper _ => none
  match place with
  | some (o, off) => (BitVec.ofNat 32 o, BitVec.ofNat 32 off)
  | none => (0xFFFFFFFF, 0)

/-- Parks the executing split in place; its team issues nothing until this instruction has passed its checks (R295), but for a helper
group, where only this split parks (R357). -/
def State.parkHere (s : State) (p : Park) : State :=
  let s := s.modSplit fun x => { x with park := p, buffer := false }
  if s.inHelper then s else s.modTeam fun t => { t with fetchOff := some s.split.id }

/-- A driver fault: the report, and the park with the XLATE of a refusal (R298, R357). Where no lane's address caused it the lane of the
report is free (log entry 24), and in a helper body it is a helper index of the split; bit 31 is set there. -/
def State.driverPark (s0 s : State) (acc : Access) (f : Flt) : State :=
  let t := s0.owner
  let lanes := lanesOf s0.team.n s0.split.mask
  let n := Config.freeNat (s0.free * 64 + 61)
  let whole := f.lane == 0xFFFFFFFF
  let l := if !whole then f.lane.toNat else if s0.inHelper then lanes.getD (n % max 1 lanes.length) 0 else n
  let s := if whole then { s with free := s.free + 1 } else s
  let (o, off) := s0.ownerOf l
  let lane := if s0.inHelper then BitVec.ofNat 32 l ||| 0x80000000 else BitVec.ofNat 32 l
  (s.report t.ctx t.launch f.addr s0.split.pc t.core t.slot acc.kind o off lane).parkHere (.driver f)

/-- Asks the host for a page: one request for every team that waits (R176, R228). -/
def State.askPage (s : State) (n : Nat) : State :=
  { s with pages := s.pages.set {} n { s.pages.get {} n with asked := true } }

/-! ### The colour stage (R182, R184, R188) -/

/-- The colour of a byte (R180). -/
def State.colourOf (s : State) (cx : Nat) (va : Addr) : Nat :=
  match (s.ctx cx).ranges.find? fun r => decide (r.base ≤ va.toNat) && decide (va.toNat < r.base + r.len) with
  | some r => r.colour
  | none => 0

/-- The colours that lanes meet and the team does not hold, ascending, each with the lowest lane that meets it. -/
def State.newColours (s : State) (ls : List Loc) : List (Nat × Loc) :=
  let held := s.owner.held.map Prod.fst
  let met := ls.filterMap fun x =>
    let c := s.colourOf s.team.ctx x.va
    if c = 0 || held.contains c then none else some (c, x)
  let cs := sortNats (met.map Prod.fst).eraseDups
  cs.filterMap fun c => met.find? fun m => m.1 == c

/-- The greatest held colour, `cstat.top` (R183). -/
def topColour (t : Team) : Nat := (t.held.map Prod.fst).foldl max 0

/-- Takes a free colour for the executing team at a depth: the held list and the acquire entry (R184, R214). -/
def State.takeColour (s : State) (c depth : Nat) : State :=
  s.takeColourFor s.team s.split c depth

/-- Whether a colour of the executing team's context is free. -/
def State.colourFree (s : State) (c : Nat) : Bool := s.colourOpen s.team.ctx c

/-- Acquires colours in ascending order; at one that is not free the team joins its entry queue and parks (R184). -/
def State.acquireAll (s : State) : List Nat → Bool × State
  | [] => (true, s)
  | c :: r =>
    if s.colourFree c then (s.takeColour c s.team.fdepth).acquireAll r
    else
      let s := s.modCtx s.team.ctx fun x =>
        let m := x.monitors.get {} c
        { x with monitors := x.monitors.set {} c { m with entry := m.entry ++ [s.team.id] } }
      (false, s.parkHere (.colour (c :: r)))

/-- What the stage answers: go on, a precise fault, or the team waits. -/
inductive Gate where
  | go (s : State)
  | raise (f : Flt)
  | stop (r : Res)
  | park (s : State)

/-- The colour stage (R184); a helper acquires nothing (R146). `v` is the state before the instruction. -/
def State.colourStage (v s : State) (ls : List Loc) (watch : Option Res) : Gate :=
  match v.newColours ls with
  | [] => match watch with | some r => .stop r | none => .go s
  | (c, x) :: r =>
    let n := c :: r.map Prod.fst
    if v.inHelper then .raise (laneFlt .HCOLOUR x.va x.lane)
    else if v.team.held.length + n.length > 16 then
      let first := ((c, x) :: r).foldl (fun m y => if y.2.lane < m.lane then y.2 else m) x
      .raise (laneFlt .CHELD first.va first.lane)
    else if !v.team.held.isEmpty && decide (c < topColour v.team) then .raise (laneFlt .CORDER x.va x.lane)
    else match watch, s.acquireAll n with
      | some r, _ => .stop r
      | none, (true, s) => .go s
      | none, (false, s) => .park s

/-! ### The whole gate -/

/-- The instruction does not issue yet: the split keeps its run slot and its entry, and tries again once something has moved. -/
def notYet (s : State) : Res := .stay (s.modSplit fun x => { x with park := .paused })

/-- The team parks, and the split tries again once something has moved. -/
def again (s : State) : Res := .stay (s.modSplit fun x => { x with park := .stalled, buffer := false })

/-- What an access comes to before it enters its entries. -/
inductive Entry? where
  | go (s : State) (ls : List Loc)
  | res (r : Res)

/-- A block that has accessed `.vn` resumes on its own core only (R307). -/
def State.noteVn (s : State) (used : Bool) : State := if used then s.modBlock s.team.block fun b => { b with usedVn := true } else s

/-- The translations that accesses have used stay in the TLBs and the walk cache (R297). -/
def State.noteSpans (s v : State) (ls : List Loc) : State :=
  (ls.flatMap Loc.spans).foldl (fun s a => s.noteTlb v.team.ctx v.team.launch v.team.core a.1) s

/-- R161, then R176, then R184 for `.g`; the answer acts on `s`, the checks read `v`. `watch` is the WATCHPT that the access would meet:
DEDUCED (log entry 72): it is decided after CHELD and CORDER and before any colour is acquired, since an acquisition is never undone
(R184, R318). An instruction whose team was granted the colours that it waited for has passed its checks already; a host page that the
device has handed back meanwhile it asks for again (R176). -/
def State.gate (v s : State) (spc : Space) (acc : Access) (n : Nat) (aligned quiet colours : Bool) (lanes : List (Nat × Addr))
    (watch : List Loc → Option Res := fun _ => none) : Entry? :=
  match v.split.gated with
  | some ls =>
    match ls.findSome? fun x => (x.met.find? fun h => !v.owns h).map fun h => (h, x) with
    | some (h, x) => .res (.stay ((s.askPage h).parkHere (.page h (some (laneFlt .MIGRATE x.va x.lane)))))
    | none => .go (s.modSplit fun x => { x with gated := none }) ls
  | none =>
  match v.checkLanes spc acc n aligned quiet lanes with
  | .error (.fault c, l, va) => .res (.raise (laneFlt c va l))
  | .error (.refused x, l, va) => .res (.refuse (laneFlt .VIOL va l) x)
  | .error (.driver, l, va) => .res (.stay (v.driverPark s acc (laneFlt .XLATE va l)))
  | .error (.wait, _, _) => .res (notYet s)
  | .ok ls =>
    let s := s.noteSpans v ls
    match ls.find? fun x => !x.hosts.isEmpty with
    | some x => let n := x.hosts.headD 0
                .res (.stay ((s.askPage n).parkHere (.page n (some (laneFlt .MIGRATE x.va x.lane)))))
    | none =>
      if spc = .g && colours then
        match v.colourStage s (ls.filter fun x => x.drop.isNone) (watch ls) with
        | .go s => .go s ls
        | .raise f => .res (.raise f)
        | .stop r => .res r
        | .park s => .res (.stay (s.modSplit fun x => { x with gated := some ls }))
      else match watch ls with
        | some r => .res r
        | none => .go (s.noteVn (spc = .vn)) ls

/-! ### The hardware areas of a team (R19, R99) -/

/-- What the device's own access to a team's frame records or deferred list comes to. -/
inductive Hw where
  | go (s : State) (keys : List Nat) (kid : Nat)
  | res (r : Res)

/-- The device's own access to the executing team's private memory, translated and checked as an access of the instruction (R69, R99,
R298, R301): `flt` is the fault of a code at the address. A store that gets an error response is dropped. -/
def State.hwGate (v s : State) (acc : Access) (a : Addr) (n : Nat) (flt : Code → Flt) : Hw :=
  match v.pieces acc (splitPage a n) with
  | .error (.fault c) => .res (.raise (flt c))
  | .error .driver => .res (.stay (v.driverPark s acc (flt .XLATE)))
  | .error .wait => .res (notYet s)
  | .error (.refused x) => if acc = .store then .go (s.logViol x) [] 0 else .res (.refuse (flt .VIOL) x)
  | .ok (ks, ps) =>
    match (ps.filterMap Phys.host).find? fun h => !v.owns h with
    | some h => .res (.stay ((s.askPage h).parkHere (.page h (some (flt .MIGRATE)))))
    | none =>
      let k := ks.headD (2 ^ 60)
      .go (((s.noteTlb v.team.ctx v.team.launch v.team.core a).touch k (s.dieOf v.team.core) (v.pins v.team.part a)).roundTrip (s.dieOf v.team.core) k)
        ks ((ps.head?.map Phys.kid).getD 0)

/-- The gate for each of several pieces, in order. -/
def State.hwGates (v : State) (acc : Access) (flt : Addr → Code → Flt) : List (Addr × Nat) → State → Except Res (State × List (List Nat × Nat))
  | [], s => .ok (s, [])
  | (a, n) :: r, s =>
    match v.hwGate s acc a n (flt a) with
    | .res r => .error r
    | .go s ks kid =>
      match v.hwGates acc flt r s with
      | .error r => .error r
      | .ok (s, kss) => .ok (s, (ks, kid) :: kss)

/-- The device's own write to private memory commits at once; one that was dropped has no bytes. -/
def State.hwWrite (s : State) (core : Nat) (ks : List Nat) (kid : Nat) (bs : List Byte) : State :=
  if ks.isEmpty then s
  else
    let (id, s) := (s.sealLines kid ks).fresh
    s.commitWrite { core := some core, die := some (s.dieOf core), since := s.cycle } id (ks.zip bs)

end Sys2Proof.Machine
end

