-- ==== Sys2Proof/Machine/Code.lean ====
section
/-! DEFINITION. Fetching an instruction's bytes (R24, R39, R44, R297, R301) and looking ahead in a run (R40, R169). -/
namespace Sys2Proof.Machine

/-! ### Fetch -/

/-- Whether some byte of a range lies in a pool range (R44). -/
def meetsPool (t : Team) (a : Addr) (n : Nat) : Bool :=
  (List.range 4).any fun i =>
    let lo := max (t.plbase.get 0 i).toNat a.toNat
    decide (lo < (t.pllim.get 0 i).toNat) && decide (lo < a.toNat + n)

/-- What a fetch comes to. -/
inductive Fetched where
  | ok (i : Instr)
  | fate (f : Fate)
  | driver
  | page (n : Nat)
  | refused (v : Viol)
  | wait
  deriving DecidableEq, Repr

/-- Bytes of a window that a fetch of `n` bytes reads, from a translated address. -/
def State.codeBytes (s : State) (p : Phys) (n : Nat) : List Byte := s.bytesAs p.kid ((List.range n).map (p.key + ·))

/-- Fetches and decodes the instruction at an address, for the executing team: the fates of R39 in their order. -/
def State.fetch (s : State) (pc : Addr) : Fetched :=
  let t := s.team
  let w := s.owner
  if !canonical pc then .fate { code := .XLATE, addr := pc }
  else match s.translate t.ctx t.launch t.part t.core .fetch pc with
  | .driver => .driver
  | .wait => .wait
  | .fault c => .fate { code := c, addr := pc }
  | .refused r => .refused (s.violOf .fetch pc r)
  | .ok p =>
    match p.host.bind fun h => if s.owns h then none else some h with
    | some h => .page h
    | none =>
      if meetsPool w pc 4 then .fate { code := .POOLX }
      else match Len.ofCode? ((s.byteAs p.kid p.key).extractLsb' 0 2) with
        | none => .fate { code := .ILLEN }
        | some len =>
          if 32 < pc.toNat % 32 + len.bytes then .fate { code := .FETCHX }
          else if meetsPool w (pc + 4) (len.bytes - 4) then .fate { code := .POOLX }
          else match decode (s.codeBytes p len.bytes) with
            | .ok i => .ok i
            | .error c => .fate { code := c }

/-! ### Looking ahead (R40, R169) -/

/-- Whether an instruction ends its run (R40). -/
def endsRun : Instr → Bool
  | .runend _ | .bra _ | .brc _ | .call _ | .calli _ | .ret _ | .exit _ | .trap _ | .rfe _ | .brv _ | .join _ | .jtab _ | .exitl _ => true
  | _ => false

/-- Whether an instruction may follow a splitting load in its run (R169). -/
def waveMay : Instr → Bool
  | .add f | .sub f | .mul f | .mulhi f | .mad f | .and f | .or f | .xor f | .not f | .shl f | .shr f | .sar f | .popc f | .clz f
  | .brev f | .bfe f | .bfi f | .sel f | .min f | .max f | .cmpEq f | .cmpNe f | .cmpLt f | .cmpLe f | .cmpGt f | .cmpGe f | .mov f
  | .movi f | .lit f | .idiv f | .irem f | .fadd f | .fsub f | .fmul f | .ffma f | .fmin f | .fmax f | .fcmpEq f | .fcmpNe f
  | .fcmpLt f | .fcmpLe f | .fcmpGt f | .fcmpGe f | .fcmpUn f | .rcp f | .rsqrt f | .sqrt f | .exp2 f | .log2 f | .sin f | .cos f
  | .cvt f | .pand f | .por f | .pxor f | .pnot f | .pmov f => f.cls = .var
  | .bcast _ | .mata _ | .nop _ => true
  | .ld f => f.cls = .var && (f.x.qual.toNat ≤ 3)
  | _ => false

/-- The address of the run's trailer, if every instruction before it may run in a wave split. -/
def State.trailerOf (s : State) : Nat → Addr → Option Addr
  | 0, _ => none
  | fuel + 1, pc =>
    match s.fetch pc with
    | .ok i =>
      if endsRun i then some pc
      else if waveMay i then s.trailerOf fuel (pc + BitVec.ofNat 64 ((i.fmt?.map fun f => f.len.bytes).getD 8))
      else none
    | _ => none

/-! ### Entries of the split table (R96, R99, R137) -/

/-- Split entries and join records that a team, or a helper group, has (R96, R137), and its deferred entries (R99). -/
def splitLimit (v : State) : Nat := if v.inHelper then 4 else 16
def deferLimit (v : State) : Nat := if v.inHelper then 16 else 256

/-- How many entries of its table a team has in use: its splits and those that a handler holds (R96). -/
def entriesUsed (v : State) : Nat := v.team.splits.length + 1 + v.team.heldSplits.length

/-- The number of a free entry for a split that the executing one forms. -/
def freeEntry (s : State) : Nat :=
  let used := (s.split :: s.team.splits ++ s.team.heldSplits).map fun x => x.entry % 16
  (if s.team.handler.isSome then 16 else 0) + ((List.range 16).find? fun k => !used.contains k).getD 0

/-! ### Instruction-buffer entries (R96, R100) -/

/-- How many entries of a core's pool are held. -/
def State.buffersUsed (s : State) (core : Nat) : Nat :=
  ((s.allTeams.filter fun t => t.core == core && !t.out).map fun t => (t.every.filter Split.buffer).length).foldl (· + ·) 0 +
    (if s.split.buffer && s.team.core = core then 1 else 0)

end Sys2Proof.Machine
end

