-- ==== Sys2Proof/Machine/Memory.lean ====
section
/-! DEFINITION. Loads, stores, full-empty accesses, atomics, the fence, cache and page controls (R168, R217 to R222, R225 to R231). -/
namespace Sys2Proof.Machine

/-! ### Types and tags (R219) -/

/-- The access size n. -/
def memSize : Ty → Nat
  | .i64 | .z64 => 8
  | .i8 | .z8 => 1
  | .i16 | .z16 => 2
  | _ => 4

/-- The tag that a load of a type writes. -/
def memTag : Ty → Tag
  | .f32 => .f32
  | .bf16 => .bf16x2
  | .f16 => .f16x2
  | .f8e4 => .f8e4x4
  | .f8e5 => .f8e5x4
  | .i4 => .i4x8
  | .b4 => .b4x8
  | _ => .i32

/-- Whether a register carries one of the tags. -/
def tagIn (v : State) (n : Nat) (ts : List Tag) : Bool := ts.contains (v.tagOf n)

/-- The tags of the address registers (R160). -/
def addrTags (f : Fmt) (v : State) : Bool :=
  match f.cls with
  | .var =>
    if f.kb then f.ka || tagIn v f.a.toNat [.i32, .raw]
    else tagIn v f.b.toNat [.i32, .raw] && tagIn v (f.b.toNat + 1) [.i32, .raw]
  | _ => true

/-- The tags of the data of a store (R219). -/
def dataTags (f : Fmt) (v : State) : Bool :=
  match f.cls with
  | .var => tagIn v f.d.toNat [memTag f.x.ty, .raw] && (!f.x.ty.is64 || tagIn v (f.d.toNat + 1) [.i32, .raw])
  | _ => true

/-- The lanes of an access with their addresses; the uniform class is lane 0. -/
def accessLanes (f : Fmt) (v : State) : List (Nat × Addr) :=
  match f.cls with
  | .var => (activeLanes f v).map fun l => (l, memAddr f v l)
  | _ => [(0, memAddr f v 0)]

/-- The space that the qualifier names; no well-formed encoding names another (R159). -/
def spaceOf (f : Fmt) : Space := f.space?.getD .g

/-- Where lane `l`'s loaded value goes. -/
def destOf (f : Fmt) (l : Nat) : Dest :=
  { wide := f.x.ty.is64, var := f.cls = .var, reg := f.d.toNat, lane := l, bits := 8 * memSize f.x.ty, uns := f.x.ty.unsigned,
    tag := some (memTag f.x.ty) }

/-- The bits of a register or pair at a lane: the data of a store, a compare value. -/
def dataBits (f : Fmt) (v : State) (n : BitVec 8) (l : Nat) : Nat :=
  let r := fun k => (match f.cls with | .var => v.readV k l | _ => v.readS k).toNat
  if f.x.ty.is64 then r n.toNat + 2 ^ 32 * r (n.toNat + 1) else r n.toNat

/-! ### Entering entries (R199, R200, R220) -/

/-- What the entries of one instruction have in common. -/
structure Group where
  kind   : Loc → EntryKind
  origin : Addr := 0
  acq    : Bool := false
  rel    : Bool := false
  sp     : Bool := false
  flight : Nat
  after  : List Nat := []
  data   : Nat → List Byte := fun _ => []          -- by lane
  dest   : Nat → Option Dest := fun _ => none

/-- The words of a private access of 8 bytes: a `.g` access sees each on its own (R166). -/
def Loc.words (x : Loc) : List Loc :=
  if x.drop.isSome then [x]
  else [0, 1].map fun i => { x with word := some i, keys := (x.keys.drop (4 * i)).take 4, spans := (x.spans.drop i).take 1 }

def inWords (f : Fmt) (ls : List Loc) : List Loc := if spaceOf f = .pv && f.x.ty.is64 then ls.flatMap Loc.words else ls

/-- The bytes and the destination of a word of an access, of those of the whole. -/
def Loc.bytesOf (x : Loc) (bs : List Byte) : List Byte := match x.word with | some i => (bs.drop (4 * i)).take 4 | none => bs
def Loc.destOf (x : Loc) (d : Dest) : Dest := match x.word with | some i => { d with wide := false, reg := d.reg + i } | none => d

/-- Enters one lane's entry; a dropped lane makes none and is logged (R301). -/
def enterLane (g : Group) (older : List Nat) (s : State) (x : Loc) : State :=
  match x.drop with
  | some v => s.logViol v
  | none =>
    let (id, s) := s.fresh
    let e : Entry :=
      { id := id, team := s.team.id, core := s.team.core, split := s.split.id, flight := g.flight, run := s.split.begun, sp := g.sp,
        pc := s.split.pc, origin := g.origin, kind := g.kind x, acq := g.acq, rel := g.rel, locs := x.keys,
        data := x.bytesOf (g.data x.lane), va := x.va, page := x.page, dom := x.dom,
        inside := x.inside, host := x.keys.any fun k => decide (2 ^ 54 ≤ k), key := x.kid, spans := x.spans, lane := x.lane, grace := x.grace,
        dest := (g.dest x.lane).map x.destOf, older := older, barred := s.split.barred, after := g.after }
    let s := s.touch (x.keys.headD (2 ^ 60)) (s.dieOf s.team.core) (if x.dom = .die then s.pins s.team.part x.va else none)
    { s with entries := s.entries ++ [e], split := { s.split with older := s.split.older ++ [id] } }

/-- What the other half of a wave split has entered for earlier instructions of the run: it is older too (R170). -/
def siblingOlder (s : State) : List Nat :=
  match s.split.wave with
  | some w => (s.entries.filter fun e => e.team == s.team.id && e.split == w.other && decide (e.pc.toNat < s.split.pc.toNat)).map Entry.id
  | none => []

/-- The entries of the other half's later instructions come after this half's new ones (R170). -/
def siblingYounger (first : Nat) (s : State) : State :=
  match s.split.wave with
  | some w =>
    let mine := (s.entries.filter fun e => decide (first ≤ e.id) && e.team == s.team.id && e.split == s.split.id).map Entry.id
    { s with entries := s.entries.map fun (e : Entry) =>
        if e.team = s.team.id && e.split = w.other && decide (s.split.pc.toNat < e.pc.toNat) && !e.committed then
          { e with older := unionIds e.older mine } else e }
  | none => s

/-- Enters the entries of every lane, ascending; the flight lands once for each (R47). -/
def enterAll (g : Group) (ls : List Loc) (s : State) : State :=
  let older := unionIds (s.split.older.filter fun e => !s.entryGone e) (siblingOlder s)
  let first := s.nextId
  let s := s.modSplit fun x => { x with older := older, barred := x.barred.filter fun e => !s.entryGone e }
  let s := siblingYounger first (ls.foldl (enterLane g older) s)
  let n := (ls.filter fun x => x.drop.isNone).length
  s.modTeam fun t => if n = 0 then endFlight t g.flight else holdFlight t g.flight n

/-- The registers that a load of lanes awaits. -/
def awaited (f : Fmt) : List Reg := f.usesD f.x.ty.is64

/-- Whether a write to a register of the class needs the whole team, and the split is not the whole team (R91). -/
def teamWide (f : Fmt) (v : State) : Bool := f.cls != .var && v.diverged

/-- The lines that lanes name, each once, at its lowest lane. -/
def byLine (ls : List Loc) : List Loc :=
  ls.foldl (fun acc x => if acc.any fun y => lineOf (y.keys.headD 0) == lineOf (x.keys.headD 0) then acc else acc ++ [x]) []

/-! ### Wave splitting (R169, R170) -/

/-- The lanes of a load that hit: scratchpad and the near vault always; in the L1 any of them (log entry 11). -/
def hitLanes (f : Fmt) (v : State) : Mask :=
  match spaceOf f with
  | .sp | .vn => BitVec.allOnes 1024
  | .va => maskOf ((activeLanes f v).filter fun l => (memAddr f v l).toNat / 2 ^ 21 == v.team.core)
  | _ => Config.hitLanes v.free

/-- A split of its lanes where a load meets hits and misses, and the conditions of R169 hold. The lanes of the split that the load's guard
leaves out neither hit nor miss, and the manual places them in neither half: DESIGN CHOICE (log entry 76), they go with the half that
hit. -/
def waveSplit (f : Fmt) (fl : Nat) (v s : State) : State :=
  if f.cls != .var then s
  else
    let act := activeMask f v
    let hit := act &&& hitLanes f v
    let s := if spaceOf f = .g || spaceOf f = .pv then { s with free := s.free + 1 } else s
    match v.trailerOf 25 s.split.pc with
    | none => s
    | some stop =>
      if hit = 0 || hit = act || v.team.tctl.getLsbD 2 || v.split.run.waved ||
          decide (splitLimit v ≤ entriesUsed v) || v.buffersUsed v.team.core ≥ 64 then s
      else
        let (mid, s) := s.fresh
        let miss := act &&& ~~~hit
        let h := s.split.mask &&& ~~~miss
        let run := { s.split.run with waved := true, files := if s.split.wave.isSome then s.split.run.files else [] }
        let x := s.split
        let m : Split := { x with id := mid, entry := freeEntry s, inSlot := false, waits := 0, mask := miss, run := run, buffer := true, awaits := x.awaits,
                                  wave := some { other := x.id, hit := false, flight := fl, lanes := miss, stop := stop } }
        let x : Split := { x with mask := h, run := run,
                                  wave := some { other := mid, hit := true, flight := fl, lanes := h, stop := stop } }
        let s := { s with entries := s.entries.map fun (e : Entry) =>
                     if e.flight = fl && e.team = s.team.id && miss.getLsbD e.lane then { e with split := mid } else e }
        { s with split := x, team := { s.team with splits := insertSplit m s.team.splits } }

/-- The tags after the halves of a wave split have merged: of each register the tag written last in the run, of each temporary that of
the half that has written it. -/
def mergeTags (h m : Run) (tags : SMap Tag) : SMap Tag × SMap Tag :=
  let late := fun (a : SMap Tag) (e : Nat × Option (Nat × Tag)) =>
    match e.2, h.files.get none e.1 with
    | some x, some y => if y.1 < x.1 then a.set .raw e.1 x.2 else a
    | some x, none => a.set .raw e.1 x.2
    | none, _ => a
  let own := fun (a : SMap Tag) (e : Nat × Option (Nat × Tag)) => match e.2 with | some x => a.set .raw e.1 x.2 | none => a
  let temps := (List.range 8).foldl (fun (a : SMap Tag) t =>
    if m.written.getLsbD t && !h.written.getLsbD t then a.set .raw t (m.tags.get .raw t) else a) h.tags
  (m.files.foldl late (h.files.foldl own tags), temps)

/-- WAVE_SPLIT_MERGE (R170): both halves have stopped before the trailer. On an unfocused state. -/
def State.mergeWave (s : State) (tid sid : Nat) : State :=
  match s.findTeam tid with
  | none => s
  | some t =>
    match t.splits.find? fun x => x.id == sid with
    | none => s
    | some x =>
      match x.wave with
      | none => s
      | some w =>
        match t.splits.find? fun y => y.id == w.other with
        | none => s
        | some y =>
          if x.pc != w.stop || y.pc != w.stop || x.park != .none || y.park != .none then s
          else
            let (h, m) := if w.hit then (x, y) else (y, x)
            let late := m.run.temps.filter fun e => m.mask.getLsbD (e.1 % 1024)
            let temps := late.foldl (fun (a : SMap Word) e => a.set 0 e.1 e.2) (h.run.temps.dropKeys fun k => m.mask.getLsbD (k % 1024))
            let (files, tags) := mergeTags h.run m.run t.tags
            let z : Split := { h with mask := h.mask ||| m.mask, wave := none, older := unionIds h.older m.older,
                                      barred := unionIds h.barred m.barred, awaits := unionIds h.awaits m.awaits, last := max h.last m.last,
                                      run := { h.run with temps := temps, tags := tags, files := [], written := h.run.written ||| m.run.written } }
            s.modTeamId tid fun t => { t with tags := files, splits := insertSplit z (t.splits.filter fun y => y.id != h.id && y.id != m.id) }

/-! ### Loads and stores (R220, R221) -/

/-- What a load on an SO page of the half that hit waits for: the other half's lanes of the splitting load, on whatever pages, must be
performed first (R170). -/
def State.waveLanes (s : State) (ls : List Loc) : List Nat :=
  match s.split.wave with
  | some w =>
    if w.hit && ls.any fun x => x.page == .so then
      (s.entries.filter fun e => e.team == s.team.id && e.flight == w.flight && e.split == w.other).map Entry.id
    else []
  | none => []

/-- `ld` (R220). -/
def load (f : Fmt) (fl : Nat) (v s : State) : Res :=
  if v.unpassed (teamWide f v) then .raise (wholeFlt .UDIV)
  else if v.unpassed (!addrTags f v) then .raise (wholeFlt .TAGMIS)
  else
    match State.gate v s (spaceOf f) .load (memSize f.x.ty) true false true (accessLanes f v) with
    | .res r => r
    | .go s ls =>
      let g : Group := { kind := fun _ => .load, acq := f.x.rnd = .rz, sp := spaceOf f = .sp, flight := fl, after := s.waveLanes ls,
                         dest := fun l => some (destOf f l) }
      .done (waveSplit f fl v (putUnknown fl (awaited f) (enterAll g (inWords f ls) s)))

/-- The global addresses of the bytes that a lane's store writes; the spaces of scratchpad and vaults have none. -/
def globalBytes (t : Team) (spc : Space) (n : Nat) (x : Loc) : List Nat :=
  match spc with
  | .g => (List.range n).map (x.va.toNat + ·)
  | .pv => (privatePieces t x.lane x.va n).flatMap fun p => (List.range p.2).map (p.1.toNat + ·)
  | _ => []

/-- Whether the store at this address is the one that `tctl.wpskip` leaves unchecked (R318). -/
def skipsWatch (v : State) : Bool := v.team.tctl.getLsbD 3 && v.atResumed

/-- WATCHPT of a core store, at the lowest matching lane, with a report for each watchpoint that some lane matches (R318). -/
def watchStore (v : State) (spc : Space) (n : Nat) (ls : List Loc) : Option Res :=
  let t := v.team
  let p := v.part t.part
  let hit := fun x => watched p t.ctx (globalBytes t spc n x)
  if skipsWatch v then none
  else
    match ls.find? fun x => !(hit x).isEmpty with
    | none => none
    | some x =>
      let first := (((hit x).map fun w => w.2.toNat).foldl min (2 ^ 64))
      let all := (List.range 4).filterMap fun i => (ls.flatMap hit).find? fun w => w.1 == i
      let m := fun w : Nat × Addr =>
        ({ part := t.part, wp := w.1, addr := w.2, pc := v.split.pc, who := t.core, unit := t.slot, kind := 0,
           die := v.dieOf t.core } : Match)
      some (.watch (laneFlt .WATCHPT (BitVec.ofNat 64 first) x.lane) (all.map m))

/-- `st` (R220). -/
def store (f : Fmt) (fl : Nat) (v s : State) : Res :=
  if v.unpassed (!addrTags f v || !dataTags f v) then .raise (wholeFlt .TAGMIS)
  else
    match State.gate v s (spaceOf f) .store (memSize f.x.ty) true true true (accessLanes f v) (watchStore v (spaceOf f) (memSize f.x.ty)) with
    | .res r => r
    | .go s ls =>
      let g : Group := { kind := fun _ => .store, rel := f.x.rnd = .rpi, sp := spaceOf f = .sp, flight := fl,
                         data := fun l => leBytes (memSize f.x.ty) (dataBits f v f.d l) }
      .done (enterAll g (inWords f ls) s)

/-! ### Full-empty forms (R168, R222) -/

/-- `ldfe`: bits 87:86 = 01 keep the granule full. -/
def loadFull (f : Fmt) (fl : Nat) (v s : State) : Res :=
  if spaceOf f = .g || spaceOf f = .pv then .raise (wholeFlt .FEWAIT)
  else if teamWide f v then .raise (wholeFlt .UDIV)
  else if !addrTags f v then .raise (wholeFlt .TAGMIS)
  else
    match State.gate v s (spaceOf f) .load (memSize f.x.ty) true false false (accessLanes f v) with
    | .res r => r
    | .go s ls =>
      let g : Group := { kind := fun _ => .ldfe (f.x.rnd = .rz), acq := true, sp := spaceOf f = .sp, flight := fl,
                         dest := fun l => some (destOf f l) }
      .done (putUnknown fl (awaited f) (enterAll g ls s))

/-- `stfe`. -/
def storeFull (f : Fmt) (fl : Nat) (v s : State) : Res :=
  if spaceOf f = .g || spaceOf f = .pv then .raise (wholeFlt .FEWAIT)
  else if !addrTags f v || !dataTags f v then .raise (wholeFlt .TAGMIS)
  else
    match State.gate v s (spaceOf f) .store (memSize f.x.ty) true true false (accessLanes f v) with
    | .res r => r
    | .go s ls =>
      let g : Group := { kind := fun _ => .stfe, rel := true, sp := spaceOf f = .sp, flight := fl,
                         data := fun l => leBytes (memSize f.x.ty) (dataBits f v f.d l) }
      .done (enterAll g ls s)

/-! ### Atomics (R229, R230) -/

/-- The type of an atomic: code 0 means f32 for `fadd` and i32 otherwise. -/
def atomTy (f : Fmt) : Ty := if f.x.ty = .dflt then (if f.imm.toNat % 16 = 8 then .f32 else .i32) else f.x.ty

/-- The data source C at a lane. -/
def atomData (f : Fmt) (v : State) (l : Nat) : Nat :=
  if f.x.ty.is64 then
    (if f.cls = .var && f.x.kc = 0 then
       (v.readV f.x.c.toNat l).toNat + 2 ^ 32 * (v.readV (f.x.c.toNat + 1) l).toNat
     else if f.cls = .var then (v.seeD f.x.c.toNat l).toNat
     else (v.readD f.x.c.toNat).toNat)
  else (rawC f v l).toNat

/-- The tags of the varying sources of an atomic. -/
def atomTags (f : Fmt) (v : State) : Bool :=
  let ok := [if atomTy f = .f32 then Tag.f32 else Tag.i32, Tag.raw]
  let reg := fun n : BitVec 8 => tagIn v n.toNat ok && (!f.x.ty.is64 || tagIn v (n.toNat + 1) ok)
  f.cls != .var || ((f.x.kc != 0 || reg f.x.c) && (f.imm.toNat % 16 != 7 || reg f.d))

/-- `atom` and `red`; the entry carries the data, and for `cas` the compare value after it. -/
def atomic (ret : Bool) (f : Fmt) (fl : Nat) (v s : State) : Res :=
  let ty := atomTy f
  let n := memSize ty
  if v.unpassed (ret && teamWide f v) then .raise (wholeFlt .UDIV)
  else if v.unpassed (!addrTags f v || !atomTags f v) then .raise (wholeFlt .TAGMIS)
  else
    match State.gate v s (spaceOf f) .atomic n true (!ret) true (accessLanes f.registerOffset v) with
    | .res r => r
    | .go s ls =>
      let op := f.imm.toNat % 16
      let g : Group :=
        { kind := fun x => .atomic op ty (atomData f v x.lane) ret, acq := ret && (f.x.rnd = .rz || f.x.rnd = .rmi),
          rel := f.x.rnd = .rpi || f.x.rnd = .rmi, sp := spaceOf f = .sp, flight := fl, origin := v.split.pc,
          data := fun l => if op = 7 then leBytes n (dataBits f v f.d l) else [],
          dest := fun l => if ret then some { destOf f l with bits := 8 * n, tag := some (if ty = .f32 then .f32 else .i32) } else none }
      let s := enterAll g ls s
      .done (if ret then putUnknown fl (awaited f) s else s)

/-! ### The fence (R206, R231) -/

def fenceBody (fl : Nat) (s : State) : Res :=
  .done (enterAll { kind := fun _ => .fence, flight := fl } [{ lane := 0, va := 0, keys := [] }] s)

/-! ### Cache and page controls (R225 to R228) -/

/-- `pref` creates no entry and changes no value that any move reads: past its tag checks it does nothing. -/
def prefetch (f : Fmt) (v s : State) : Res :=
  if !addrTags f v then .raise (wholeFlt .TAGMIS) else .done s

/-- `cwb` and `cinv`: one entry for each line; a host-owned page makes a lane do nothing. -/
def lineControl (k : EntryKind) (f : Fmt) (fl : Nat) (v s : State) : Res :=
  if !addrTags f v then .raise (wholeFlt .TAGMIS)
  else
    match v.checkLanes .g .load 1 false false (accessLanes f v) with
    | .error (.fault c, l, va) => .raise (laneFlt c va l)
    | .error (.refused x, l, va) => .refuse (laneFlt .VIOL va l) x
    | .error (.driver, l, va) => .stay (v.driverPark s .load (laneFlt .XLATE va l))
    | .error (.wait, _, _) => notYet s
    | .ok ls =>
      let s := s.noteSpans v ls
      let own := byLine (ls.filter fun x => x.hosts.isEmpty)
      let whole := own.map fun x => { x with page := .rc, keys := (List.range 128).map fun i => 128 * lineOf (x.keys.headD 0) + i }
      .done (enterAll { kind := fun _ => k, flight := fl } whole s)

/-- The host page that holds an address, and whether the device owns it; none for device memory. -/
def hostPageAt (v : State) (va : Addr) : Option (Nat × Bool) :=
  match v.lookup v.team.ctx v.team.launch v.team.core va with
  | .leaf e sh => if e.getLsbD 8 then let n := hostPageOf (frameOf e + va.toNat % 2 ^ sh) sh; some (n, v.owns n) else none
  | _ => none

/-- The checks of `pgrel` and `pgown` (R233): they access nothing, and a frame outside the partition's memory or keys raises nothing. -/
def pageGate (f : Fmt) (v s : State) : Option Res :=
  let va := baseAddr f v
  if v.diverged then some (.raise (wholeFlt .UDIV))
  else if !canonical va then some (.raise (laneFlt .XLATE va 0))
  else match v.translate v.team.ctx v.team.launch v.team.part v.team.core .other va with
    | .fault c => some (.raise (laneFlt c va 0))
    | .driver => some (.stay (v.driverPark s .other (laneFlt .XLATE va 0)))
    | .wait => some (notYet s)
    | .refused _ | .ok _ => none

/-- `pgrel` (R227): the page goes back when the entry commits, after every older entry of the team and every access to the page. -/
def pageRelease (f : Fmt) (fl : Nat) (v s : State) : Res :=
  match pageGate f v s with
  | some r => r
  | none =>
    match hostPageAt v (baseAddr f v) with
    | some (n, true) =>
      .done (putUnknown fl (Fmt.qReg f.d.toNat)
        (enterAll { kind := fun _ => .giveback n f.d.toNat, rel := true, flight := fl } [{ lane := 0, va := baseAddr f v, keys := [] }] s))
    | some (_, false) => .done (putLater fl [.bit f.d.toNat true] s)
    | none => .done (putLater fl [.bit f.d.toNat false] s)

/-- `pgown` (R228): a host-owned page parks the team; when it issues again the device owns the page, or the host has refused. -/
def pageOwn (f : Fmt) (fl : Nat) (v s : State) : Res :=
  match pageGate f v s with
  | some r => r
  | none =>
    match hostPageAt v (baseAddr f v) with
    | some (n, false) =>
      if v.split.answer = some false then .done (putLater fl [.bit f.d.toNat false] (s.modSplit fun x => { x with answer := none }))
      else .stay ((s.askPage n).parkHere (.page n none))
    | some (_, true) =>
      let s := s.modSplit fun x => { x with answer := none }
      let s := if v.split.answer = some true then
          enterAll { kind := fun _ => .load, acq := true, flight := 0 } [{ lane := 0, va := baseAddr f v, keys := [] }] s else s
      .done (putLater fl [.bit f.d.toNat true] s)
    | none => .done (putLater fl [.bit f.d.toNat true] s)

/-! ### The instructions -/

abbrev Out := Host.Outcome State Fault Refusal

def execLd (f : Fmt) (s : State) : Out := straight (.ld f) f .later (load f) s
def execSt (f : Fmt) (s : State) : Out := straight (.st f) f .later (store f) s
def execLdfe (f : Fmt) (s : State) : Out := straight (.ldfe f) f .later (loadFull f) s
def execStfe (f : Fmt) (s : State) : Out := straight (.stfe f) f .later (storeFull f) s
def execAtom (f : Fmt) (s : State) : Out := straight (.atom f) f .later (atomic true f) s
def execRed (f : Fmt) (s : State) : Out := straight (.red f) f .later (atomic false f) s
def execFence (f : Fmt) (s : State) : Out := straight (.fence f) f .later (fun fl _ s => fenceBody fl s) s
def execPref (f : Fmt) (s : State) : Out := straight (.pref f) f (.fixed 0) (fun _ v s => prefetch f v s) s
def execCwb (f : Fmt) (s : State) : Out := straight (.cwb f) f .later (lineControl .writeback f) s
def execCinv (f : Fmt) (s : State) : Out := straight (.cinv f) f .later (lineControl .invalidate f) s
def execPgrel (f : Fmt) (s : State) : Out := straight (.pgrel f) f .later (pageRelease f) s
def execPgown (f : Fmt) (s : State) : Out := straight (.pgown f) f .later (pageOwn f) s

end Sys2Proof.Machine
end

