-- ==== Sys2Proof/Machine/Alu.lean ====
section
/-! DEFINITION. What the register instructions share (R51, R88 to R91, R103): tag checks of varying sources, and the writing of a
result to the destination of each class. -/
namespace Sys2Proof.Machine

/-! ### Tag checks (R88) -/

/-- The varying registers among sources A, B and C. -/
def varA (f : Fmt) : List Nat := if f.cls = .var && !f.ka then [f.a.toNat] else []
def varB (f : Fmt) : List Nat := if f.cls = .var && !f.kb && f.len != .l128 then [f.b.toNat] else []
def varC (f : Fmt) : List Nat := if f.cls = .var && f.x.kc = 0 then [f.x.c.toNat] else []

/-- Whether every listed varying register carries one of the tags. -/
def tagsOk (v : State) (rs : List Nat) (ts : List Tag) : Bool := rs.all fun r => tagIn v r ts

/-! ### Writing a result -/

/-- A 32-bit result: to the uniform register, checked under R91, or to every active lane with its tag (R51, R103). -/
def put (lat : Nat) (f : Fmt) (tag : Tag) (val : Nat → Word) (v s : State) : Res :=
  match f.cls with
  | .var => .done (putFixed lat f (.lanes f.d.toNat (some tag) ((activeLanes f v).map fun l => (l, val l))) s)
  | _ => if v.diverged then .raise (wholeFlt .UDIV) else .done (putFixed lat f (.word f.d.toNat (val 0)) s)

/-- A 64-bit result to a uniform pair (R14, R51). -/
def putWide (lat : Nat) (f : Fmt) (val : Addr) (v s : State) : Res :=
  if v.diverged then .raise (wholeFlt .UDIV)
  else .done (putFixed lat f (.word (f.d.toNat + 1) (val.extractLsb' 32 32)) (putFixed lat f (.word f.d.toNat (val.extractLsb' 0 32)) s))

/-- A predicate result (R56, R104). -/
def putPred (lat : Nat) (f : Fmt) (val : Nat → Bool) (v s : State) : Res :=
  match f.cls with
  | .var => .done (putFixed lat f (.preds f.d.toNat ((activeLanes f v).map fun l => (l, val l))) s)
  | _ => if v.diverged then .raise (wholeFlt .UDIV) else .done (putFixed lat f (.bit f.d.toNat (val 0)) s)

/-- An affine result (R89, R91). -/
def putPair (f : Fmt) (x : Affine) (v s : State) : Res :=
  if v.diverged then .raise (wholeFlt .UDIV) else .done (putFixed 1 f (.pair f.d.toNat x) s)

/-- Raises TAGMIS where a varying source carries another tag (R88). -/
def tagged (ok : Bool) (r : Res) : Res := if ok then r else .raise (wholeFlt .TAGMIS)

/-- A result of the 32-bit or the 64-bit width that the type names. -/
def putAny (lat : Nat) (f : Fmt) (tag : Tag) (val : Nat → Word) (wide : Addr) (v s : State) : Res :=
  if f.x.ty.is64 then putWide lat f wide v s else put lat f tag val v s

end Sys2Proof.Machine
end

