-- ==== Sys2Proof/Machine/Integer.lean ====
section
/-! DEFINITION. The integer instructions in their uniform, affine and varying forms (R52 to R59, R89, R90, R103 to R105). -/
namespace Sys2Proof.Machine

/-! ### Shapes -/

/-- The integer operations on A and B of either width (R52, R55). -/
def intOp (op : IntOp) (f : Fmt) (v s : State) : Res :=
  let u := f.x.ty.unsigned
  let sat := f.x.clamp = .sat
  tagged (tagsOk v (varA f ++ varB f) [.i32])
    (putAny 1 f .i32 (fun l => wrapsat 32 u sat (op.exact (valOf u (intA f v l)) (valOf u (intB f v l))))
      (wrapsat 64 u sat (op.exact (valOf u (intA64 f v)) (valOf u (intB64 f v)))) v s)

/-- A lane operation on A, B and C whose result is tagged `i32`. -/
def laneOp (srcs : List Nat) (f : Fmt) (g : Nat → Word) (v s : State) : Res :=
  tagged (tagsOk v srcs [.i32]) (put 1 f .i32 g v s)

/-- The bitwise operations (R53): any tag; the result is `i32` where every varying source is. -/
def bitTag (v : State) (srcs : List Nat) : Tag := if srcs.all fun r => v.tagOf r == .i32 then .i32 else .raw

def bitOp (op : BitOp) (f : Fmt) (v s : State) : Res :=
  putAny 1 f (bitTag v (varA f ++ varB f)) (fun l => op.apply (rawA f v l) (rawB f v l)) (op.apply (rawA64 f v) (rawB64 f v)) v s

/-- The shift count: a 32-bit source even for the 64-bit types (R53). -/
def shiftOp (op : ShiftOp) (f : Fmt) (v s : State) : Res :=
  tagged (tagsOk v (varA f ++ varB f) [.i32])
    (putAny 1 f .i32 (fun l => op.apply (rawA f v l) (rawB f v l).toNat) (op.apply (rawA64 f v) (rawB f v 0).toNat) v s)

/-- The integer compares (R56). -/
def cmpOp (c : Cond) (f : Fmt) (v s : State) : Res :=
  let u := f.x.ty.unsigned
  tagged (tagsOk v (varA f ++ varB f) [.i32])
    (putPred 1 f (fun l => if f.x.ty.is64 then c.holds (valOf u (intA64 f v)) (valOf u (intB64 f v))
                           else c.holds (valOf u (intA f v l)) (valOf u (intB f v l))) v s)

/-! ### Affine forms (R89, R90) -/

/-- The pair operations of R89. -/
inductive PairOp where
  | add | sub | mul | shl
  deriving DecidableEq, Repr

def PairOp.apply (op : PairOp) (x y : Affine) : Affine :=
  match op with
  | .add => { base := x.base + y.base, stride := x.stride + y.stride }
  | .sub => { base := x.base - y.base, stride := x.stride - y.stride }
  | .mul => { base := x.base * y.base, stride := x.stride * y.base }
  | .shl => { base := ShiftOp.shl.apply x.base y.base.toNat, stride := ShiftOp.shl.apply x.stride y.base.toNat }

/-- A pair's value at a lane. -/
def Affine.at (x : Affine) (l : Nat) : Word := x.base + x.stride * BitVec.ofNat 32 l

/-- The exact result at a lane, from signed lane values (R90). -/
def PairOp.exact (op : PairOp) (a b : Word) : Int :=
  match op with
  | .add => a.toInt + b.toInt
  | .sub => a.toInt - b.toInt
  | .mul => a.toInt * b.toInt
  | .shl => a.toInt * (2 ^ b.toNat : Nat)

/-- Whether the exact result lies outside the signed range; a shift of 32 or more leaves it only from 0. -/
def PairOp.overflows (op : PairOp) (a b : Word) : Bool :=
  if op = .shl && b.toNat ≥ 32 then a != 0
  else
    let x := op.exact a b
    decide (x < -(2 ^ 31)) || decide (2 ^ 31 ≤ x)

/-- The affine form, checked where the qualifier is 1 (R90). -/
def pairOp (op : PairOp) (f : Fmt) (v s : State) : Res :=
  if v.diverged then .raise (wholeFlt .UDIV)
  else if f.x.qual = 1 && (List.range v.team.n).any fun l => op.overflows ((pairA f v).at l) ((pairB f v).at l) then
    .raise (laneFlt .AFFOVF 0 0)
  else putPair f (op.apply (pairA f v) (pairB f v)) v s

def byClass (f : Fmt) (aff other : Fmt → State → State → Res) : State → State → Res :=
  match f.cls with
  | .aff => aff f
  | _ => other f

/-! ### `lit` (R58) -/

/-- Whether an access lies within one pool range (R43). -/
def inPool (t : Team) (a : Addr) (n : Nat) : Bool :=
  (List.range 4).any fun i => decide ((t.plbase.get 0 i).toNat ≤ a.toNat) && decide (a.toNat + n ≤ (t.pllim.get 0 i).toNat)

/-- `lit`. DESIGN CHOICE (log entry 73): where the team has stored into the pool, `lit` reads the bytes that memory now holds; R58
guarantees neither these nor the bytes as loaded. -/
def litBody (f : Fmt) (fl : Nat) (v s : State) : Res :=
  let n := if f.x.ty.is64 then 8 else 4
  let a := pcRel v.split.pc f.imm
  let flt := fun c => if f.cls = .var then wholeFlt c a else laneFlt c a 0
  if f.cls != .var && v.diverged then .raise (wholeFlt .UDIV)
  else if a.toNat % n != 0 then .raise (flt .ALIGN)
  else if !inPool v.owner a n then .raise (flt .PERM)
  else match v.checkLane .g .load n true 0 a with
    | .error (.fault c) => .raise (flt c)
    | .error .driver => .stay (v.driverPark s .load (flt .XLATE))
    | .error .wait => notYet s
    | .error (.refused x) => .refuse (flt .VIOL) x
    | .ok x =>
      if !x.hosts.isEmpty then .stay ((s.askPage (x.hosts.headD 0)).parkHere (.page (x.hosts.headD 0) (some (flt .MIGRATE)))) else
      let w := leNat 8 (v.bytesAs x.kid x.keys)
      let lo := BitVec.ofNat 32 w
      .done (putLater fl
        (if f.cls = .var then
           [.lanes f.d.toNat (some (if f.x.ty = .f32 then .f32 else .i32)) ((activeLanes f v).map fun l => (l, lo))]
         else if f.x.ty.is64 then [.word f.d.toNat lo, .word (f.d.toNat + 1) (BitVec.ofNat 32 (w / 2 ^ 32))]
         else [.word f.d.toNat lo])
        (((s.noteTlb v.team.ctx v.team.launch v.team.core a).touch (x.keys.headD (2 ^ 60)) (s.dieOf v.team.core) (v.pins v.team.part a)).roundTrip
          (s.dieOf v.team.core) (x.keys.headD (2 ^ 60))))

/-! ### The instructions -/

/-- An integer instruction: one cycle of latency (R46). -/
def one (i : Instr) (f : Fmt) (body : Fmt → State → State → Res) (s : State) : Out :=
  straight i f (.fixed 1) (fun _ v s => body f v s) s

def execAdd (f : Fmt) (s : State) : Out := one (.add f) f (fun f => byClass f (pairOp .add) (intOp .add)) s
def execSub (f : Fmt) (s : State) : Out := one (.sub f) f (fun f => byClass f (pairOp .sub) (intOp .sub)) s
def execMul (f : Fmt) (s : State) : Out := one (.mul f) f (fun f => byClass f (pairOp .mul) (intOp .mul)) s
def execMulhi (f : Fmt) (s : State) : Out :=
  one (.mulhi f) f (fun f v => laneOp (varA f ++ varB f) f (fun l => mulhi f.x.ty.unsigned (intA f v l) (intB f v l)) v) s
def execMad (f : Fmt) (s : State) : Out :=
  one (.mad f) f (fun f v =>
    let u := f.x.ty.unsigned
    laneOp (varA f ++ varB f ++ varC f) f
      (fun l => wrapsat 32 u (f.x.clamp = .sat) (valOf u (intA f v l) * valOf u (intB f v l) + valOf u (intC f v l))) v) s
def execAnd (f : Fmt) (s : State) : Out := one (.and f) f (bitOp .and) s
def execOr (f : Fmt) (s : State) : Out := one (.or f) f (bitOp .or) s
def execXor (f : Fmt) (s : State) : Out := one (.xor f) f (bitOp .xor) s
def execNot (f : Fmt) (s : State) : Out :=
  one (.not f) f (fun f v => putAny 1 f (bitTag v (varA f)) (fun l => ~~~(rawA f v l)) (~~~(rawA64 f v)) v) s
def execShl (f : Fmt) (s : State) : Out := one (.shl f) f (fun f => byClass f (pairOp .shl) (shiftOp .shl)) s
def execShr (f : Fmt) (s : State) : Out := one (.shr f) f (shiftOp .shr) s
def execSar (f : Fmt) (s : State) : Out := one (.sar f) f (shiftOp .sar) s
def execPopc (f : Fmt) (s : State) : Out := one (.popc f) f (fun f v => laneOp (varA f) f (fun l => popc (rawA f v l)) v) s
def execClz (f : Fmt) (s : State) : Out := one (.clz f) f (fun f v => laneOp (varA f) f (fun l => clz (rawA f v l)) v) s
def execBrev (f : Fmt) (s : State) : Out := one (.brev f) f (fun f v => laneOp (varA f) f (fun l => brev (rawA f v l)) v) s
def execBfe (f : Fmt) (s : State) : Out :=
  one (.bfe f) f (fun f v => laneOp (varA f ++ varB f) f (fun l => bfe f.x.ty.unsigned (rawA f v l) (rawB f v l)) v) s
def execBfi (f : Fmt) (s : State) : Out :=
  one (.bfi f) f (fun f v => laneOp (varA f ++ varB f ++ varC f) f (fun l => bfi (rawA f v l) (rawB f v l) (rawC f v l)) v) s
def execSel (f : Fmt) (s : State) : Out :=
  one (.sel f) f (fun f v s =>
    let p := fun l => if f.cls = .var then (v.readP (f.x.c.toNat % 8)).getLsbD l else v.readQ (f.x.c.toNat % 8)
    tagged (tagsOk v (varA f ++ varB f) [.i32])
      (putAny 1 f .i32 (fun l => if p l then rawA f v l else rawB f v l) (if p 0 then rawA64 f v else rawB64 f v) v s)) s
def execMin (f : Fmt) (s : State) : Out := one (.min f) f (intOp .min) s
def execMax (f : Fmt) (s : State) : Out := one (.max f) f (intOp .max) s
def execCmpEq (f : Fmt) (s : State) : Out := one (.cmpEq f) f (cmpOp .eq) s
def execCmpNe (f : Fmt) (s : State) : Out := one (.cmpNe f) f (cmpOp .ne) s
def execCmpLt (f : Fmt) (s : State) : Out := one (.cmpLt f) f (cmpOp .lt) s
def execCmpLe (f : Fmt) (s : State) : Out := one (.cmpLe f) f (cmpOp .le) s
def execCmpGt (f : Fmt) (s : State) : Out := one (.cmpGt f) f (cmpOp .gt) s
def execCmpGe (f : Fmt) (s : State) : Out := one (.cmpGe f) f (cmpOp .ge) s
def execMov (f : Fmt) (s : State) : Out :=
  one (.mov f) f (fun f v => putAny 1 f (((varA f).head?.map v.tagOf).getD .i32) (fun l => rawA f v l) (rawA64 f v) v) s
def execMovi (f : Fmt) (s : State) : Out :=
  one (.movi f) f (fun f v =>
    putAny 1 f (if f.x.ty = .f32 then .f32 else .i32) (fun _ => f.imm)
      (if f.x.ty.unsigned then f.imm.zeroExtend 64 else f.imm.signExtend 64) v) s
def execLit (f : Fmt) (s : State) : Out := straight (.lit f) f .later (litBody f) s
def execIdiv (f : Fmt) (s : State) : Out :=
  one (.idiv f) f (fun f v => laneOp (varA f ++ varB f) f (fun l => idiv f.x.ty.unsigned (intA f v l) (intB f v l)) v) s
def execIrem (f : Fmt) (s : State) : Out :=
  one (.irem f) f (fun f v => laneOp (varA f ++ varB f) f (fun l => irem f.x.ty.unsigned (intA f v l) (intB f v l)) v) s

end Sys2Proof.Machine
end

