-- ==== Sys2Proof/Machine/Control.lean ====
section
/-! DEFINITION. Control transfer, divergence and joins, exits, handlers' return (R66 to R73, R77, R97 to R101, R115 to R120, R186). -/
namespace Sys2Proof.Machine

/-! ### Branches (R66, R67) -/

/-- Sets the executing split's pc. -/
def State.jump (s : State) (a : Addr) : State := s.modSplit fun x => { x with pc := a }

/-- The fault of a target that is not canonical: the value of a uniform instruction, or the whole split's in a helper body (R147, R303). -/
def targetFlt (s : State) (a : Addr) : Flt := if s.inHelper then wholeFlt .XLATE a else laneFlt .XLATE a 0

/-- A transfer to a target that must be canonical (R14, R66). -/
def goTo (a : Addr) (s : State) : Res := if canonical a then .done (s.jump a) else .raise (targetFlt s a)

/-- A control transfer with no result. -/
def ctl (i : Instr) (f : Fmt) (body : Fmt → State → State → Res) (s : State) : Out :=
  transfer i f (.fixed 0) (fun _ v s => body f v s) s

def braBody (f : Fmt) (v s : State) : Res := goTo (pcRel v.split.pc f.imm) s

/-- `brc`: the counter less one, and the branch where it is not zero. -/
def brcBody (f : Fmt) (v s : State) : Res :=
  let n := v.readS f.d.toNat - 1
  if v.diverged then .raise (wholeFlt .UDIV)
  else if n = 0 then .done (putFixed 1 f (.word f.d.toNat n) s)
  else goTo (pcRel v.split.pc f.imm) (putFixed 1 f (.word f.d.toNat n) s)

/-! ### Frame records (R19, R68, R69, R186) -/

/-- The address of a frame record. -/
def recordAddr (t : Team) (i : Nat) : Addr := t.fsbase + BitVec.ofNat 64 (16 * i)

/-- Pushes a record and transfers. -/
def callTo (target : Addr) (f : Fmt) (v s : State) : Res :=
  let t := v.team
  let a := recordAddr t t.fdepth
  let rec16 := leBytes 8 (v.split.pc.toNat + f.len.bytes) ++ leBytes 2 (t.fdepth + 1) ++ leBytes 6 0
  if t.fdepth = 256 then .raise (wholeFlt .STACK)
  else match v.hwGate s .store a 16 (fun c => laneFlt c a 0) with
    | .res r => r
    | .go s ks kid => .done (((s.hwWrite t.core ks kid rec16).modTeam fun t => { t with fdepth := t.fdepth + 1 }).jump target)

def callBody (f : Fmt) (v s : State) : Res :=
  let target := pcRel v.split.pc f.imm
  if v.diverged then .raise (wholeFlt .UDIV)
  else if !canonical target then .raise (laneFlt .XLATE target 0)
  else callTo target f v s

def calliBody (f : Fmt) (v s : State) : Res :=
  let target := v.readD f.a.toNat
  if v.diverged then .raise (wholeFlt .UDIV)
  else if !canonical target then .raise (laneFlt .XLATE target 0)
  else if target.toNat % 4 != 0 then .raise (laneFlt .ALIGN target 0)
  else callTo target f v s

/-- Whether a recruitment, or an expansion with a drafted group, forbids `ret` and `mwait` (R145, R188). -/
def lendingOpen (t : Team) : Bool := t.recruit.state != .none || t.expand.any fun e => e.group.isSome

/-- Whether a command of the team with a nonempty held set is outstanding (R189). -/
def State.markedCommands (s : State) (tid : Nat) : Bool := s.commands.any fun c => c.counts.contains tid && !c.complete && !c.held.isEmpty

/-- Releases colours, ascending: each leaves the held list, and its release enters the lane queue (R186, R214). -/
def State.releaseAll (s : State) (cs : List Nat) : State :=
  cs.foldl (fun s c =>
    let (id, s) := s.fresh
    let e : Entry := { id := id, team := s.team.id, core := s.team.core, split := s.split.id, kind := .release c, rel := true,
                       older := s.split.older.filter fun e => !s.entryGone e, barred := s.split.barred }
    { s with entries := s.entries ++ [e], team := { s.team with held := s.team.held.filter fun h => h.1 != c },
             split := { s.split with older := s.split.older ++ [id] } }) s

/-- `ret` (R19, R69, R186): the record, then the colours of this depth, then the return. Its faults come by lower code (R300): UDIV, the
XLATE of the record or of the address in it, PERM, VIOL, STACK. -/
def retBody (_f : Fmt) (v s : State) : Res :=
  let t := v.team
  let a := recordAddr t (t.fdepth - 1)
  if v.diverged then .raise (wholeFlt .UDIV)
  else if t.fdepth = 0 then .raise (wholeFlt (if lendingOpen t then .PERM else .STACK))
  else match v.pieces .load (splitPage a 16) with
    | .error (.fault c) => .raise (laneFlt c a 0)
    | .ok (k :: ks, ps) =>
      let back := BitVec.ofNat 64 (leNat 8 (v.bytesAs ((ps.head?.map Phys.kid).getD 0) (k :: ks)))
      if !canonical back then .raise (laneFlt .XLATE back 0)
      else if lendingOpen t then .raise (wholeFlt .PERM)
      else match v.hwGate s .load a 16 (fun c => laneFlt c a 0) with
        | .res r => r
        | .go s _ _ =>
          let mine := sortNats ((t.held.filter fun h => h.2 == t.fdepth).map Prod.fst)
          if !mine.isEmpty && v.markedCommands t.id then again s
          else .done (((s.releaseAll mine).modTeam fun t => { t with fdepth := t.fdepth - 1 }).jump (back &&& ~~~3))
    | _ =>
      if lendingOpen t then .raise (wholeFlt .PERM)
      else match v.hwGate s .load a 16 (fun c => laneFlt c a 0) with
        | .res r => r
        | .go s _ _ => .done s

/-! ### Ends, traps, trailers (R70 to R72, R77) -/

def exitBody (_f : Fmt) (_v s : State) : Res := .done (s.unfocus.endTeam s.team.id .exit)

def trapBody (f : Fmt) (_v _s : State) : Res := .raise (wholeFlt .TRAP (f.imm.zeroExtend 64))

/-- `runend`: the trailer ends the run with its wait mask (R40, R72). -/
def runendBody (f : Fmt) (_v s : State) : Res := .done (s.modSplit (endRun f.wait))

/-- `rfe` (R14, R42, R73, R303): the faulting split goes on at `frpc` with the run state kept for it, and the held splits, their records and
held commands are released. Where the handler's lanes have ended every lane of the faulting split, only the held ones go on. DESIGN CHOICE
(log entry 92): where the handler's own split has diverged, its other splits are dropped and their join records stay. -/
def rfeBody (_f : Fmt) (v s : State) : Res :=
  let t := s.team
  if !canonical t.frpc then .raise (laneFlt .XLATE t.frpc 0)
  else
    let s := { s with commands := s.commands.map fun (c : Command) => if c.team = t.id then { c with hold := none } else c }
    match v.team.handler with
    | none => .done ((s.jump (t.frpc &&& ~~~3)).modTeam fun t => { t with resumed := some s.split.id })
    | some h =>
      let t := { t with handler := none, splits := h.held.map fun (x : Split) => { x with inSlot := false },
                        resumed := some h.fault.id,
                        joins := t.joins.map fun (e : Nat × Option Join) => (e.1, e.2.map fun (j : Join) => { j with held := false }) }
      let x : Split := { h.fault with pc := t.frpc &&& ~~~3, last := s.split.last, buffer := s.split.buffer, older := s.split.older,
                                      barred := s.split.barred, park := .none, inSlot := s.split.inSlot && h.fault.run.active }
      if h.fault.mask = (0 : Mask) then .done ({ s with team := t, split := {} }.unfocus)
      else .done { s with team := t, split := x }

/-! ### Divergence (R97, R99, R116) -/

/-- A free join record. -/
def freeRecord (v : State) : Option Nat := (List.range (splitLimit v)).find? fun k => (v.team.joins.get none k).isNone

/-- The address of the record that a link names. -/
def recordJoin (t : Team) : Option Nat → Option Addr
  | none => none
  | some k => (t.joins.get none k).map Join.addr

/-- A new split with the taken lanes, under a record. -/
def State.newSplit (s : State) (mask : Mask) (pc : Addr) (link : Option Nat) : State :=
  let (id, s) := s.fresh
  let (r, s) := s.fresh
  let x : Split := { s.split with id := id, entry := freeEntry s, inSlot := false, waits := 0, pc := pc, mask := mask, link := link,
                                  run := {}, begun := 0, yielded := false, behind := [], buffer := false,
                                  request := some r, park := .none }
  { s with team := { s.team with splits := insertSplit x s.team.splits } }

/-- Divides the executing split: the taken lanes, the target, the join, and where the others go on (R97, R99). -/
def diverge (taken : Mask) (target jn fall : Addr) (v s : State) : Res :=
  let rest := v.split.mask &&& ~~~taken
  let room := entriesUsed v < splitLimit v
  if taken = 0 then .done (s.jump fall)
  else if rest = 0 then .done (s.jump target)
  else if room && recordJoin v.team v.split.link == some jn then
    .done ((s.newSplit taken target v.split.link).modSplit fun x => { x with mask := rest, pc := fall })
  else match (if room then freeRecord v else none) with
    | some k =>
      let j : Join := { addr := jn, expects := v.split.mask, arrived := 0, outer := v.split.link }
      let s := s.modTeam fun t => { t with joins := t.joins.set none k (some j) }
      .done ((s.newSplit taken target (some k)).modSplit fun x => { x with mask := rest, pc := fall, link := some k })
    | none =>
      if s.team.deferred.length ≥ deferLimit v then .raise (wholeFlt .DEFER)
      else
        let d : Deferred := { pc := some fall, mask := rest, addr := jn, arrived := 0, split := v.split.entry }
        .done ((s.modTeam fun t => { t with deferred := t.deferred ++ [d] }).modSplit fun x => { x with mask := taken, pc := target })

/-! ### The deferred list (R99) -/

/-- The address and size of slot `i` of a team's deferred list. -/
def deferredSlot (t : Team) (i : Nat) : Addr × Nat := (t.fsbase + BitVec.ofNat 64 (4096 + 272 * i), 272)

/-- The 272 bytes of a deferred entry. DESIGN CHOICE (log entry 68): the pc with bit 0 set, or zero where it is clear; the mask; the join
address with the number of the split's entry in bits 61:57; the arrived mask. -/
def deferredBytes (d : Deferred) : List Byte :=
  leBytes 8 (match d.pc with | some a => a.toNat + 1 | none => 0) ++ leBytes 128 d.mask.toNat ++
    leBytes 8 (d.addr.toNat % 2 ^ 57 + 2 ^ 57 * (d.split % 32)) ++ leBytes 128 d.arrived.toNat

/-- The entry that 272 bytes stand for. -/
def deferredOf (bs : List Byte) : Deferred :=
  let pc := leNat 8 bs
  let jn := leNat 8 (bs.drop 136)
  { pc := if pc % 2 = 1 then some (BitVec.ofNat 64 (pc - 1)) else none, mask := BitVec.ofNat 1024 (leNat 128 (bs.drop 8)),
    addr := (BitVec.ofNat 57 jn).signExtend 64, arrived := BitVec.ofNat 1024 (leNat 128 (bs.drop 144)), split := jn / 2 ^ 57 % 32 }

/-- The fault of an access to the deferred list: no lane's address caused it. -/
def deferredFlt (a : Addr) (c : Code) : Flt := wholeFlt c a

/-- The executing team's deferred list as its private memory holds it. -/
def loadDeferred (v s : State) : Except Res (State × List Deferred) :=
  match v.hwGates .load deferredFlt ((List.range v.team.dflen).map (deferredSlot v.team)) s with
  | .error r => .error r
  | .ok (s, kss) => .ok (s, kss.map fun x => deferredOf (v.bytesAs x.2 x.1))

/-- Puts the list back: the slots whose entry has changed are written. `s` is the state that a stop leaves, `u` what the instruction has
made of the machine. -/
def storeDeferred (v s u : State) (old : List Deferred) : Res :=
  match u.findTeam v.team.id with
  | none => .done u
  | some t =>
    let changed := (List.range t.deferred.length).filter fun i => old[i]? != t.deferred[i]?
    match v.hwGates .store deferredFlt (changed.map (deferredSlot v.team)) s with
    | .error r => r
    | .ok (_, kss) =>
      let u := (changed.zip kss).foldl (fun u p => u.hwWrite v.team.core p.2.1 p.2.2 ((t.deferred[p.1]?.map deferredBytes).getD [])) u
      .done (u.modTeamId t.id fun t => { t with deferred := [], dflen := t.deferred.length })

/-- Runs what acts on the executing team's deferred list: a helper group's stands in the pool, another team's in its private memory. -/
def withDeferred (v s : State) (g : State → Res) : Res :=
  if v.inHelper then g s
  else match loadDeferred v s with
    | .error r => r
    | .ok (s, old) =>
      match g (s.modTeam fun t => { t with deferred := old }) with
      | .done u => storeDeferred v s u old
      | r => r

/-- Bits 37:14 of `brv`: the signed join offset in units of 4 bytes (R115). -/
def joinOffset (f : Fmt) : Addr := ((f.b ++ f.a ++ f.d : BitVec 24).signExtend 64) * 4

/-- `brv`. DESIGN CHOICE (log entry 80): where neither address is canonical the target stands in `fraddr`, and XLATE comes before DEFER. -/
def brvBody (f : Fmt) (v s : State) : Res :=
  let pc := v.split.pc
  let target := pcRel pc f.imm
  let jn := pc + joinOffset f
  if !canonical target then .raise (wholeFlt .XLATE target)
  else if !canonical jn then .raise (wholeFlt .XLATE jn)
  else withDeferred v s (diverge (activeMask f v) target jn (pc + 16) v)

/-! ### Joins (R98, R117) -/

/-- The executing split arrives at a record, and its entry is freed (R98). -/
def arrive (k : Nat) (inner : List Nat) (s : State) : State :=
  ({ s with split := {}, team := fireAll s.cycle [s.split] (arriveIn k inner s.split s.team) }).unfocus

/-- `join` at address X: the deferred sides first, then the record (R117). -/
def joinAt (x : Addr) (s : State) : State :=
  let (turned, y, t) := gatherAt x 300 s.split s.team
  let s := { s with split := y, team := t }
  if turned then s
  else match findRecord t x 17 y.link [] with
    | some (k, inner) => arrive k inner s
    | none => s

def joinBody (_f : Fmt) (v s : State) : Res := withDeferred v s fun s => .done (joinAt v.split.pc s)

/-! ### Jump tables (R118, R119) -/

/-- Reads a word of a table with the rules of `lit`: the word, and the state with the access counted. -/
def tableWord (v s : State) (a : Addr) : Except Res (State × Word) :=
  if !inPool v.owner a 4 then .error (.raise (wholeFlt .PERM a))
  else match v.hwGate s .load a 4 (fun c => wholeFlt c a) with
    | .res r => .error r
    | .go s ks kid => .ok (s, BitVec.ofNat 32 (leNat 4 (v.bytesAs kid ks)))

/-- A signed offset with bits 1:0 ignored, from an address. -/
def tableAddr (pc : Addr) (w : Word) : Addr := pc + ((w &&& ~~~3).signExtend 64)

/-- `jtab`. DESIGN CHOICE (log entry 93): word 1 is read before the entry word, so that its address is the one in `fraddr` where neither lies in
a pool. -/
def jtabBody (f : Fmt) (v s : State) : Res :=
  let pc := v.split.pc
  let table := pcRel pc f.imm
  if !tagsOk v (varA f) [.i32, .raw] then .raise (wholeFlt .TAGMIS)
  else match tableWord v s table with
    | .error r => r
    | .ok (s, w0) =>
      let n := min (w0.toNat % 512) 256
      let lanes := (lanesOf v.team.n v.split.mask).map fun l => (l, (rawA f v l).toNat)
      match lanes.find? fun x => decide (n ≤ x.2) with
      | some x => .raise (laneFlt .JTAB table x.1)
      | none =>
        let j := (lanes.map Prod.snd).foldl min 256
        match tableWord v s (table + 4) with
        | .error r => r
        | .ok (s, w1) =>
        match tableWord v s (table + BitVec.ofNat 64 (8 + 4 * j)) with
        | .error r => r
        | .ok (s, w2) =>
          let target := tableAddr pc w2
          let jn := tableAddr pc w1
          if !canonical target then .raise (wholeFlt .XLATE target)
          else if !canonical jn then .raise (wholeFlt .XLATE jn)
          else withDeferred v s (diverge (maskOf ((lanes.filter fun x => x.2 == j).map Prod.fst)) target jn pc v)

/-! ### Lane exit (R101, R120, R145) -/

/-- The recruitment of a team whose lanes exit ends at once. -/
def State.endRecruitment (s : State) (tid : Nat) : State :=
  let gs := s.others.filter fun t => t.role == .helper tid
  let s := gs.foldl (fun s g => s.stopHelpers g.id g.live) s
  s.modTeamId tid fun t => { t with recruit := {} }

/-- Lanes of a team exit; with the last one the team ends. On an unfocused state. -/
def State.laneExit (s : State) (tid : Nat) (gone : Mask) : State :=
  let s := s.endRecruitment tid
  let (serial, s) := s.fresh
  let s := s.modTeamId tid (exitLanes s.cycle serial gone)
  match s.findTeam tid with
  | some t => if t.live = 0 then s.endTeam tid .exit else s
  | none => s

def exitlBody (f : Fmt) (v s : State) : Res := withDeferred v s fun s => .done (s.unfocus.laneExit v.team.id (activeMask f v))

/-! ### The instructions -/

def execBra (f : Fmt) (s : State) : Out := ctl (.bra f) f braBody s
def execBrc (f : Fmt) (s : State) : Out := ctl (.brc f) f brcBody s
def execCall (f : Fmt) (s : State) : Out := ctl (.call f) f callBody s
def execCalli (f : Fmt) (s : State) : Out := ctl (.calli f) f calliBody s
def execRet (f : Fmt) (s : State) : Out := ctl (.ret f) f retBody s
def execExit (f : Fmt) (s : State) : Out := ctl (.exit f) f exitBody s
def execTrap (f : Fmt) (s : State) : Out := ctl (.trap f) f trapBody s
def execNop (f : Fmt) (s : State) : Out := straight (.nop f) f (.fixed 0) (fun _ _ s => .done s) s
def execRunend (f : Fmt) (s : State) : Out := straight (.runend f) f (.fixed 0) (fun _ v s => runendBody f v s) s
def execRfe (f : Fmt) (s : State) : Out := ctl (.rfe f) f rfeBody s
def execBrv (f : Fmt) (s : State) : Out := issue (.brv f) f (.fixed 0) true false (fun _ v s => brvBody f v s) s
def execJoin (f : Fmt) (s : State) : Out := ctl (.join f) f joinBody s
def execJtab (f : Fmt) (s : State) : Out := ctl (.jtab f) f jtabBody s
def execExitl (f : Fmt) (s : State) : Out := ctl (.exitl f) f exitlBody s
def execYield (f : Fmt) (s : State) : Out :=
  straight (.yield f) f (.fixed 0) (fun _ _ s => .done (s.modSplit fun x => { x with yielded := true })) s

end Sys2Proof.Machine
end

