-- ==== Sys2Proof/Machine/Lanes.lean ====
section
/-! DEFINITION. Promotions, predicates, cross-lane instructions, tiles (R95, R108 to R114, R121 to R127). -/
namespace Sys2Proof.Machine

/-- An instruction of variable latency. -/
def later (i : Instr) (f : Fmt) (body : Fmt → Nat → State → State → Res) (s : State) : Out :=
  straight i f .later (body f) s

/-- A variable-latency write of team-wide registers, checked under R91. -/
def putTeam (fl : Nat) (ls : List Landing) (v s : State) : Res :=
  if v.diverged then .raise (wholeFlt .UDIV) else .done (putLater fl ls s)

/-! ### Promotions (R108 to R113) -/

def bcastBody (f : Fmt) (v s : State) : Res :=
  put 1 f (if f.x.ty = .f32 then .f32 else .i32) (fun l => v.seeS f.b.toNat l) v s

def mataBody (f : Fmt) (v s : State) : Res := put 1 f .i32 (fun l => v.seeA f.a.toNat l l) v s

/-- `vfirst`: the lowest lane of the split mask whose pK reads true, or 0. -/
def vfirstBody (f : Fmt) (fl : Nat) (v s : State) : Res :=
  let x := match lowestLane v.team.n (v.split.mask &&& v.readP f.b.toNat) with
    | some l => v.readV f.a.toNat l
    | none => 0
  putTeam fl [.word f.d.toNat x] v s

/-- The value on which the lanes of the split agree, or the lowest lane that differs from the first (R111). -/
def agree (f : Fmt) (v : State) : Except Nat Word :=
  match lanesOf v.team.n v.split.mask with
  | [] => .ok 0
  | l0 :: r =>
    match r.find? fun l => v.readV f.a.toNat l != v.readV f.a.toNat l0 with
    | some l => .error l
    | none => .ok (v.readV f.a.toNat l0)

def vuniBody (f : Fmt) (fl : Nat) (v s : State) : Res :=
  if v.diverged then .raise (wholeFlt .UDIV)
  else match agree f v with
    | .error l => .raise (wholeFlt .UDIV (BitVec.ofNat 64 l))
    | .ok x => .done (putLater fl [.word f.d.toNat x] s)

def vuniTryBody (f : Fmt) (fl : Nat) (v s : State) : Res :=
  match agree f v with
  | .error _ => putTeam fl [.bit f.b.toNat false] v s
  | .ok x => putTeam fl [.word f.d.toNat x, .bit f.b.toNat true] v s

/-- The inverse of an odd number modulo 2^32, by `k` doublings of its correct digits. -/
def oddInverse (g : Word) : Nat → Word
  | 0 => g
  | k + 1 => let x := oddInverse g k; x * (2 - g * x)

/-- The least s with s × g = diff modulo 2^32 (R112). -/
def leastStride (g : Nat) (diff : Word) : Option Word :=
  let t := ((List.range 10).find? fun i => g.testBit i).getD 0
  if diff.toNat % 2 ^ t != 0 then none
  else
    let inv := oddInverse (BitVec.ofNat 32 (g / 2 ^ t)) 5
    some (BitVec.ofNat 32 ((BitVec.ofNat 32 (diff.toNat / 2 ^ t) * inv).toNat % 2 ^ (32 - t)))

/-- The progression that the lanes of the split hold (R112). -/
def progression (f : Fmt) (v : State) : Option Affine :=
  let val := v.readV f.a.toNat
  let ls := lanesOf v.team.n v.split.mask
  let x : Option Affine :=
    match ls with
    | [] => none
    | [l0] => some { base := val l0, stride := 0 }
    | l0 :: l1 :: _ => (leastStride (l1 - l0) (val l1 - val l0)).map fun st => { base := val l0 - st * BitVec.ofNat 32 l0, stride := st }
  x.bind fun p => if ls.all fun l => val l == p.at l then some p else none

def vaffBody (f : Fmt) (fl : Nat) (v s : State) : Res :=
  if !tagIn v f.a.toNat [.i32, .raw] then .raise (wholeFlt .TAGMIS)
  else if v.diverged then .raise (wholeFlt .UDIV)
  else match progression f v with
    | some p => .done (putLater fl [.pair f.d.toNat p, .bit f.b.toNat true] s)
    | none => .done (putLater fl [.bit f.b.toNat false] s)

def mkaffBody (f : Fmt) (v s : State) : Res :=
  putPair f { base := if f.len = .l128 then f.imm else v.readS f.b.toNat, stride := v.readS f.x.c.toNat } v s

/-! ### Predicates (R114) -/

def predOp (g : Bool → Bool → Bool) (f : Fmt) (v s : State) : Res :=
  let b := fun l => if f.kb then v.seeQ f.b.toNat l else (v.readP f.b.toNat).getLsbD l
  match f.cls with
  | .var => putPred 1 f (fun l => g ((v.readP f.a.toNat).getLsbD l) (b l)) v s
  | _ => putPred 1 f (fun _ => g (v.readQ f.a.toNat) (v.readQ f.b.toNat)) v s

/-! ### Tiles (R95, R121) -/

/-- The tile size T. -/
def tileSize (t : Team) : Nat :=
  match t.tile.toNat with
  | 1 => 2
  | 2 => 4
  | 3 => 8
  | 4 => 16
  | _ => 32

/-- The first lane of a lane's tile; tiles never span ranks, and every T divides 32. -/
def tileBase (t : Team) (l : Nat) : Nat := l - l % tileSize t

/-- A tile's participants among the active lanes, ascending. -/
def participants (f : Fmt) (v : State) (l : Nat) : List Nat :=
  (activeLanes f v).filter fun m => tileBase v.team m == tileBase v.team l

/-- A varying result of variable latency. -/
def putLanes (f : Fmt) (fl : Nat) (tag : Tag) (val : Nat → Word) (v s : State) : Res :=
  .done (putLater fl [.lanes f.d.toNat (some tag) ((activeLanes f v).map fun l => (l, val l))] s)

/-- The tag that a copied source gives: vA's, and `i32` of an affine source (R122). DESIGN CHOICE (log entry 75): `ishuf`, of which R126
says only that vD takes vA's tag, accepts an affine source too and gives it the same tag. -/
def copyTag (f : Fmt) (v : State) : Tag := if f.ka then .i32 else v.tagOf f.a.toNat

/-- `shfl` (R122): the source position of a lane. -/
def shflLane (f : Fmt) (v : State) (l : Nat) : Nat :=
  let n := tileSize v.team
  let j := l % n
  let k := (rawB f v l).toNat
  let j' := match f.x.qual.toNat with
    | 0 => k
    | 1 => if k ≤ j then j - k else n
    | 2 => j + k
    | _ => j ^^^ k
  if j' < n && present v (l - j + j') then l - j + j' else l

def shflBody (f : Fmt) (fl : Nat) (v s : State) : Res := putLanes f fl (copyTag f v) (fun l => rawA f v (shflLane f v l)) v s

/-- `ishuf` (R126): what a lane gathers. -/
def gathered (f : Fmt) (v : State) (l : Nat) : Word :=
  let m := (rawB f v l).toNat
  if !present v m then 0 else if f.ka then v.seeA f.a.toNat l m else v.seeV f.a.toNat l m

def ishufBody (f : Fmt) (fl : Nat) (v s : State) : Res := putLanes f fl (copyTag f v) (gathered f v) v s

/-! ### Votes (R123) -/

/-- `.all`, `.any` and `.uni` over lanes. -/
def voteOf (mode : Nat) (p : Mask) (ls : List Nat) : Bool :=
  match mode with
  | 0 => ls.all p.getLsbD
  | 1 => ls.any p.getLsbD
  | _ => ls.all p.getLsbD || !ls.any p.getLsbD

/-- The bits of the lanes of one rank whose predicate is true. -/
def ballot (p : Mask) (ls : List Nat) : Word :=
  BitVec.ofNat 32 (((ls.filter p.getLsbD).map fun m => 2 ^ (m % 32)).foldl (· + ·) 0)

def voteBody (f : Fmt) (fl : Nat) (v s : State) : Res :=
  let p := v.readP f.a.toNat
  let mode := f.x.qual.toNat
  match f.cls with
  | .var =>
    if mode = 3 then putLanes f fl .i32 (fun l => ballot p (participants f v l)) v s
    else .done (putLater fl [.preds f.d.toNat ((activeLanes f v).map fun l => (l, voteOf mode p (participants f v l)))] s)
  | _ =>
    let ls := lanesOf v.team.n v.split.mask
    if mode = 3 then
      let r := (rawB f v 0).toNat
      putTeam fl [.word f.d.toNat (ballot p (ls.filter fun l => l / 32 == r))] v s
    else putTeam fl [.bit f.d.toNat (voteOf mode p ls)] v s

/-! ### Reductions and scans (R124, R125) -/

/-- An op of R124 on two words. -/
def redOp (f : Fmt) (q : Nat) (a b : Word) : Word :=
  let u := f.x.ty.unsigned
  let le := decide (valOf u a ≤ valOf u b)
  match q with
  | 0 => a + b
  | 1 => if le then a else b
  | 2 => if le then b else a
  | 3 => a &&& b
  | 4 => a ||| b
  | 5 => a ^^^ b
  | 6 => floatBin .add { rnd := f.x.rnd } a b
  | 7 => floatBin .min { rnd := f.x.rnd } a b
  | _ => floatBin .max { rnd := f.x.rnd } a b

/-- The tags that an op accepts. -/
def redTags (q : Nat) : List Tag := if q ≥ 6 then [.f32] else if q ≥ 3 then [.i32, .raw] else [.i32]

/-- The tag that an op writes. -/
def redTag (f : Fmt) (v : State) (q : Nat) : Tag :=
  if q ≥ 6 then .f32 else if q ≥ 3 && (varA f).any fun r => v.tagOf r == .raw then .raw else .i32

/-- One level of the pairwise tree: an empty node gives way, a last node with no partner passes on. -/
def treeLevel (op : Word → Word → Word) : List (Option Word) → List (Option Word)
  | [] => []
  | [x] => [x]
  | x :: y :: r =>
    (match x, y with
      | some a, some b => some (op a b)
      | some a, none => some a
      | none, z => z) :: treeLevel op r

/-- The root of the tree (R124, R142). -/
def treeRoot (op : Word → Word → Word) : Nat → List (Option Word) → Option Word
  | _, [] => none
  | _, [x] => x
  | 0, _ => none
  | fuel + 1, l => treeRoot op fuel (treeLevel op l)

/-- A tile's reduction: the tree for the float ops, and for the exact ones a fold, which any order gives. -/
def reduceTile (f : Fmt) (v : State) (l : Nat) : Word :=
  let ps := participants f v l
  let op := redOp f f.x.qual.toNat
  let leaf := fun j => let m := tileBase v.team l + j; if ps.contains m then some (rawA f v m) else none
  (treeRoot op 6 ((List.range (tileSize v.team)).map leaf)).getD 0

def vredBody (f : Fmt) (fl : Nat) (v s : State) : Res :=
  let q := f.x.qual.toNat
  tagged (tagsOk v (varA f) (redTags q)) (putLanes f fl (redTag f v q) (reduceTile f v) v s)

/-- The identity of an exclusive scan (R125). -/
def scanId (f : Fmt) (q : Nat) : Word :=
  let u := f.x.ty.unsigned
  match q with
  | 1 => if u then 0xFFFFFFFF else 0x7FFFFFFF
  | 2 => if u then 0 else 0x80000000
  | 3 => 0xFFFFFFFF
  | 7 => 0x7F800000
  | 8 => 0xFF800000
  | _ => 0

/-- The op over a list from left to right. -/
def foldLeft (op : Word → Word → Word) : List Word → Option Word
  | [] => none
  | x :: r => some (r.foldl op x)

def scanLane (f : Fmt) (v : State) (l : Nat) : Word :=
  let ps := (participants f v l).filter fun m => if f.b = 0 then decide (m ≤ l) else decide (m < l)
  (foldLeft (redOp f f.x.qual.toNat) (ps.map (rawA f v))).getD (scanId f f.x.qual.toNat)

def scanBody (f : Fmt) (fl : Nat) (v s : State) : Res :=
  let q := f.x.qual.toNat
  tagged (tagsOk v (varA f) (redTags q)) (putLanes f fl (redTag f v q) (scanLane f v) v s)

/-! ### `setpart` (R127) -/

def setpartBody (f : Fmt) (v s : State) : Res :=
  let w := if f.len = .l128 then f.imm else v.readS f.b.toNat
  if w.toNat > 4 then .raise (laneFlt .ILLENC 0 0)
  else if v.diverged then .raise (wholeFlt .UDIV)
  else .done (s.modTeam fun t => { t with tile := w.extractLsb' 0 3 })

/-! ### The instructions -/

def execBcast (f : Fmt) (s : State) : Out := one (.bcast f) f bcastBody s
def execMata (f : Fmt) (s : State) : Out := one (.mata f) f mataBody s
def execVfirst (f : Fmt) (s : State) : Out := later (.vfirst f) f vfirstBody s
def execVuni (f : Fmt) (s : State) : Out := later (.vuni f) f vuniBody s
def execVuniTry (f : Fmt) (s : State) : Out := later (.vuniTry f) f vuniTryBody s
def execVaff (f : Fmt) (s : State) : Out := later (.vaff f) f vaffBody s
def execMkaff (f : Fmt) (s : State) : Out := one (.mkaff f) f mkaffBody s
def execShfl (f : Fmt) (s : State) : Out := later (.shfl f) f shflBody s
def execVote (f : Fmt) (s : State) : Out := later (.vote f) f voteBody s
def execVred (f : Fmt) (s : State) : Out := later (.vred f) f vredBody s
def execScan (f : Fmt) (s : State) : Out := later (.scan f) f scanBody s
def execIshuf (f : Fmt) (s : State) : Out := later (.ishuf f) f ishufBody s
def execPand (f : Fmt) (s : State) : Out := one (.pand f) f (predOp fun a b => a && b) s
def execPor (f : Fmt) (s : State) : Out := one (.por f) f (predOp fun a b => a || b) s
def execPxor (f : Fmt) (s : State) : Out := one (.pxor f) f (predOp fun a b => a != b) s
def execPnot (f : Fmt) (s : State) : Out := one (.pnot f) f (predOp fun a _ => !a) s
def execPmov (f : Fmt) (s : State) : Out := one (.pmov f) f (predOp fun a _ => a) s
def execSetpart (f : Fmt) (s : State) : Out := one (.setpart f) f setpartBody s

end Sys2Proof.Machine
end

