-- ==== Sys2Proof/Machine/Queues.lean ====
section
/-! DEFINITION. Job cards and the queues that hold them, shape records, graph edges, the packing unit's bins (R241 to R244, R249 to
R254). -/
namespace Sys2Proof.Machine

/-- A little-endian field of `n` bytes. -/
def field (bs : List Byte) (lo n : Nat) : Nat := leNat n (bs.drop lo)

/-! ### Job cards (R243, R244) -/

/-- Whether every field of a card lies in its range and every zero field is zero. -/
def cardInRange (bs : List Byte) : Bool :=
  let f := field bs
  let within := fun x lo hi => decide (lo ≤ x) && decide (x ≤ hi)
  f 0 8 % 4 == 0 && canonical (BitVec.ofNat 64 (f 0 8)) && within (f 56 2) 1 65535 && within (f 58 2) 1 65535 &&
  within (f 60 2) 1 65535 && within (f 62 1) 1 16 && f 63 1 < 8 && within (f 64 2) 1 1024 && f 66 1 ≤ 31 && f 67 1 ≤ 1 &&
  f 68 4 ≤ 393216 && f 72 2 ≤ 1023 && f 74 1 ≤ 31 && f 75 1 == 0 && f 88 2 ≤ 1024 && (f 88 2 == 0 || within (f 90 1) 1 31) &&
  f 91 1 == 0 && f 80 8 == 0 && ((bs.drop 96).take 32).all (· == 0)

/-- The card that 128 bytes hold. -/
def parseCard (bs : List Byte) : Card :=
  let f := field bs
  let a := fun lo => BitVec.ofNat 64 (f lo 8)
  { entry := a 0, code := a 8, param := a 16, affinity := a 24, deadline := f 32 8, done := a 40, seq := a 48,
    gx := f 56 2, gy := f 58 2, gz := f 60 2, teams := f 62 1, stage := f 63 1 % 8, size := f 64 2, blocks := f 66 1,
    idem := f 67 1 % 2 == 1, spad := f 68 4, ctx := f 72 2, part := f 74 1, est := f 76 4, csize := f 88 2, cblocks := f 90 1,
    cspad := f 92 4, valid := cardInRange bs }

/-! ### Dispatch queues (R249) -/

/-- The target of the partition queue. -/
def partitionTarget : Word := 0xFFFFFFFF

/-- The cards of a queue: a core's, or a partition's on a die. -/
def State.queueOf (s : State) (target : Word) (die part : Nat) : List Posted :=
  if target = partitionTarget then (s.die die).cards.get [] part else (s.core target.toNat).cards

/-- Whether an entry will post to the queue. -/
def postsTo (s : State) (target : Word) (die part : Nat) (e : Entry) : Bool :=
  match e.kind with
  | .card t _ => t == target && (target != partitionTarget || (s.dieOf e.core == die && ((s.findTeam e.team).map Team.part) == some part))
  | _ => false

/-- Whether a queue has a free place, counting the posts under way. -/
def State.queueRoom (s : State) (target : Word) (die part : Nat) : Bool :=
  decide ((s.queueOf target die part).length + (s.entries.filter (postsTo s target die part)).length <
    (if target = partitionTarget then 256 else 64))

/-- The teams that wait for a place, in arrival order. -/
def State.postersOf (s : State) (target : Word) (die part : Nat) : List Waiter :=
  if target = partitionTarget then (s.die die).posters.filter fun w => ((s.findTeam w.team).map Team.part) == some part
  else (s.core target.toNat).posters

/-- The first waiter whose team is not switched out. -/
def State.firstHere (s : State) (ws : List Waiter) : Option Waiter :=
  ws.find? fun w => match s.findTeam w.team with | some t => !t.out && t.live != 0 | none => false

/-- Whether the executing team's turn has come in a list of waiters. -/
def State.myTurn (s : State) (ws : List Waiter) : Bool :=
  match s.firstHere ws with
  | none => true
  | some w => w.team == s.team.id

/-- Adds a waiter once. -/
def addWaiter (ws : List Waiter) (w : Waiter) : List Waiter := if ws.any fun x => x.team == w.team && x.split == w.split then ws else ws ++ [w]

/-- Removes a team's split from a list of waiters. -/
def dropWaiter (ws : List Waiter) (tid sid : Nat) : List Waiter := ws.filter fun w => !(w.team == tid && w.split == sid)

/-- Changes the waiters of a queue. -/
def State.modPosters (s : State) (target : Word) (die : Nat) (g : List Waiter → List Waiter) : State :=
  if target = partitionTarget then s.modDie die fun d => { d with posters := g d.posters }
  else s.modCore target.toNat fun c => { c with posters := g c.posters }

/-- Puts a card at the end of a queue: to a core of another die it goes as a message (R327). -/
def State.pushCard (s : State) (target : Word) (die part : Nat) (c : Card) (va : Addr) : State :=
  let (n, s) := s.fresh
  let p : Posted := { card := c, addr := va, order := n }
  if target = partitionTarget then s.modDie die fun d => { d with cards := d.cards.set [] part (d.cards.get [] part ++ [p]) }
  else (s.message die (s.dieOf target.toNat)).modCore target.toNat fun x => { x with cards := x.cards ++ [p] }

/-! ### Shape records (R241) -/

def shapeDims (r : List Byte) : Nat := field r 0 1
def shapeElem (r : List Byte) : Nat := field r 1 1
def shapeExtent (r : List Byte) (j : Nat) : Nat := field r (16 + 4 * j) 4
def shapeSource (r : List Byte) (j : Nat) : Addr := BitVec.ofNat 64 (field r (64 + 8 * j) 8)
def shapeDest (r : List Byte) (j : Nat) : Addr := BitVec.ofNat 64 (field r (160 + 8 * j) 8)

/-- The product of the used extents. -/
def shapeTotal (r : List Byte) : Nat := ((List.range (shapeDims r)).map (shapeExtent r)).foldl (· * ·) 1

def shapeValid (r : List Byte) : Bool :=
  decide (1 ≤ shapeDims r) && decide (shapeDims r ≤ 12) && decide (1 ≤ shapeElem r) && decide (shapeElem r ≤ 16) &&
  ((r.drop 2).take 14).all (· == 0) && decide (shapeTotal r < 2 ^ 40)

/-- Σ i_j × stride_j of the element of linear index n: dimension 0 is the innermost. -/
def strideSum (r : List Byte) (stride : List Byte → Nat → Addr) : Nat → Nat → Nat → Addr
  | 0, _, _ => 0
  | k + 1, j, n =>
    let x := shapeExtent r j
    stride r j * BitVec.ofNat 64 (n % max 1 x) + strideSum r stride k (j + 1) (n / max 1 x)

/-! ### Graph edges (R250 to R252) -/

/-- An edge of a context. -/
def State.edge (s : State) (cx e : Nat) : Edge := (s.ctx cx).edges.get {} e

def State.modEdge (s : State) (cx e : Nat) (g : Edge → Edge) : State :=
  s.modCtx cx fun c => { c with edges := c.edges.set {} e (g (c.edges.get {} e)) }

def edgeCap (x : Edge) : Nat := x.entry.cap.toNat

/-- Whether a slot is free for a producer. -/
def edgeRoom (x : Edge) : Bool := decide (x.tail - x.freed < edgeCap x)

/-- The address of a slot. -/
def slotAddr (x : Edge) (i : Nat) : Addr := x.entry.base + BitVec.ofNat 64 (16 * (i % max 1 (edgeCap x)))

/-- Whether the next slot for a consumer is filled. -/
def edgeReady (x : Edge) : Bool := x.filled.contains x.head

/-- A slot becomes filled when its store is performed. -/
def fillSlot (i : Nat) (x : Edge) : Edge := { x with filled := x.filled ++ [i] }

/-- Frees slots in order as far as their loads are performed. -/
def freeSlots : Nat → Edge → Edge
  | 0, x => x
  | fuel + 1, x =>
    if x.loaded.contains x.freed then freeSlots fuel { x with freed := x.freed + 1, loaded := x.loaded.filter (· != x.freed) } else x

/-- A slot's load is performed. -/
def loadSlot (i : Nat) (x : Edge) : Edge := freeSlots (x.loaded.length + 1) { x with loaded := x.loaded ++ [i] }

/-- `qstat` (R252). -/
def edgeCounts (x : Edge) : Word :=
  BitVec.ofNat 32 ((x.filled.filter fun i => decide (x.head ≤ i)).length + 65536 * (edgeCap x - (x.tail - x.freed)))

/-! ### The packing unit (R253, R254) -/

/-- Whether a bin's time is up: 4,096 cycles after its first item. -/
def Bin.late (b : Bin) (now : Nat) : Bool := decide (b.opened + 4096 ≤ now) && !b.closed

/-- Whether a bin takes an item. -/
def binTakes (now cx : Nat) (child : Addr) (launch size : Nat) (b : Bin) : Bool :=
  !b.closed && !b.late now && b.ctx == cx && b.entry == child && b.launch == launch && decide (b.items.length < size)

/-- Whether the packing unit of a die can accept an item now. -/
def State.packRoom (s : State) (die cx : Nat) (child : Addr) (launch size : Nat) : Bool :=
  (s.die die).bins.any (binTakes s.cycle cx child launch size) || decide ((s.die die).bins.length < 64)

/-- Adds an item to the first of the bins that takes it. -/
def addItem (takes : Bin → Bool) (size : Nat) (it : List Byte) : List Bin → List Bin
  | [] => []
  | b :: r => if takes b then { b with items := b.items ++ [it], closed := decide (size ≤ b.items.length + 1) } :: r
              else b :: addItem takes size it r

/-- An item enters the packing unit of its core's die. -/
def State.packItem (s : State) (core cx : Nat) (child : Addr) (launch size : Nat) (it : List Byte) : State :=
  let d := s.dieOf core
  let takes := binTakes s.cycle cx child launch size
  if (s.die d).bins.any takes then s.modDie d fun x => { x with bins := addItem takes size it x.bins }
  else
    let (id, s) := s.fresh
    let b : Bin := { id := id, ctx := cx, entry := child, launch := launch, items := [it], opened := s.cycle, core := core,
                     closed := decide (size ≤ 1) }
    s.modDie d fun x => { x with bins := x.bins ++ [b] }

/-- A bin reaches its time (R254). -/
def closeBin (id : Nat) (d : Die) : Die := { d with bins := d.bins.map fun (b : Bin) => if b.id = id then { b with closed := true } else b }

end Sys2Proof.Machine
end

