-- ==== Sys2Proof/Machine/Order.lean ====
section
/-! DEFINITION. The order machine's moves (R201 to R208, R213 to R215, R226, R227): when an entry may commit, what a commit reads
and writes, when an entry is performed, propagation, fence retirement. Every move acts on a state with no executing split. -/
namespace Sys2Proof.Machine

/-! ### When an entry may commit (R202, R203, R209, R210, R213, R226) -/

def overlaps (a b : List Nat) : Bool := a.any b.contains

/-- Whether an entry reads or writes its locations: fences, colour entries, a page's release and a write-back do not. -/
def EntryKind.isAccess : EntryKind → Bool
  | .fence | .acquire _ | .release _ | .giveback .. | .writeback | .item _ => false
  | _ => true

def EntryKind.isRelease : EntryKind → Bool
  | .release _ => true
  | _ => false

def EntryKind.isAcquire : EntryKind → Bool
  | .acquire _ => true
  | _ => false

/-- Whether a load may forward from an older store: no acquire flag, an RC or UO page (R203). -/
def Entry.mayForward (e : Entry) : Bool := e.kind == .load && !e.acq && e.page != .so

/-- Whether an older entry holds another back (R202): fences always; a barrier's pair until it commits; same-location accesses
until they commit, stores apart where the entry forwards; then by the kind of the younger entry. -/
def holds (forwards : Bool) (f e : Entry) : Bool :=
  let same := f.kind.isAccess && overlaps f.locs e.locs
  let fwd := forwards && (f.kind == .store || f.kind == .stfe)
  let uoFree := f.kind.isAccess && f.page == .uo && (!same || f.committed)
  let strong := e.rel || e.kind.isRelease || (e.kind.isAccess && e.page == .so)
  let weak := f.kind == .fence || f.acq || f.kind.isAcquire || (f.kind.isAccess && f.page == .so)
  if e.kind == .fence then true
  else if f.kind == .fence then true
  else if e.kind == .writeback then false
  else if strong then !uoFree
  else if f.committed then false
  else if same && !fwd then true
  else if e.kind.isAcquire then f.kind.isAccess && f.page == .so
  else if e.page == .uo && e.kind.isAccess then false
  else weak

/-- The entries that are older than an entry and still remain. -/
def State.olderOf (s : State) (e : Entry) : List Entry := s.entries.filter fun f => e.older.contains f.id

/-- The store whose data a load returns at once: the newest older uncommitted store to its locations, where it covers them (R203). -/
def State.forwarder (s : State) (e : Entry) : Option Entry :=
  if e.mayForward then
    (((s.olderOf e).filter fun f => !f.committed && (f.kind == .store || f.kind == .stfe) && overlaps f.locs e.locs).getLast?).filter
      fun f => e.locs.all f.locs.contains
  else none

/-- A write-back waits until every older entry to its line is performed (R226). -/
def lineWaits (s : State) (e : Entry) : Bool :=
  e.kind == .writeback && (s.olderOf e).any fun f => overlaps f.locs e.locs

/-- Entries of one instruction to one location commit in ascending lane order (R200). -/
def laneWaits (s : State) (e : Entry) : Bool :=
  (e.kind != .load && match e.kind with | .ldfe _ => false | _ => e.flight != 0) &&
    s.entries.any fun f => f.flight == e.flight && f.team == e.team && decide (f.id < e.id) && !f.committed && overlaps f.locs e.locs

/-- Items enter the packing unit in ascending lane order (R253). -/
def itemWaits (s : State) (e : Entry) : Bool :=
  match e.kind with
  | .item _ => s.entries.any fun f => f.team == e.team && f.flight == e.flight && decide (f.id < e.id) && !f.committed
  | _ => false

/-- Whether an entry is one before which every older entry of its team is committed and performed: a card, an item, a page's release
(R227, R249, R253). -/
def EntryKind.afterAll : EntryKind → Bool
  | .card .. | .item _ | .giveback .. => true
  | _ => false

/-- Whether an access to a host page is issued and not performed (R177). -/
def pageBusy (s : State) (n : Nat) : Bool :=
  (s.entries.any fun f => f.kind.isAccess && f.locs.any (inHostPage n)) || (s.unperf.any fun u => u.locs.any (inHostPage n)) ||
    s.commands.any fun c => c.moving.any fun x => x.2.any fun y => y.2.any (inHostPage n)

/-- A host page goes back: its lines leave the caches, and the host owns it (R177). -/
def State.dropPage (s : State) (n : Nat) : State :=
  let mine := fun line => inHostPage n (128 * line)
  { s with shares := s.shares.filter fun x => !mine x.line, updates := s.updates.filter fun x => !mine x.line,
           l1 := s.l1.filter fun x => !mine x.line,
           pages := s.pages.set {} n { s.pages.get {} n with device := false, recalled := false } }

/-- Whether an entry's turn has come under R202, R209 and R210. -/
def State.mayCommit (s : State) (e : Entry) : Bool :=
  !e.committed && e.kind != .fence &&
    !((s.olderOf e).any fun f => holds (s.forwarder e).isSome f e) &&
    !(s.entries.any fun f => e.barred.contains f.id && !f.committed) &&
    e.after.all s.entryGone && (!e.kind.afterAll || (s.olderOf e).isEmpty) &&
    !lineWaits s e && !laneWaits s e && !itemWaits s e

/-- The entries of the same instruction on the same granule (R213). -/
def party (s : State) (e : Entry) : List Entry :=
  s.entries.filter fun f => f.team == e.team && f.flight == e.flight && f.kind == e.kind && !f.committed &&
    f.locs.headD 0 / 16 == e.locs.headD 0 / 16

/-- Whether the granule of an `ldfe` is full and its party is the first that waits for it (R168). -/
def served (s : State) (e : Entry) : Bool :=
  let g := e.locs.headD 0 / 16
  let first := s.entries.find? fun f => (match f.kind with | .ldfe _ => !f.committed && f.locs.headD 0 / 16 == g | _ => false)
  s.isFull (16 * g) && (match first with | some f => f.team == e.team && f.flight == e.flight | none => false) &&
    (party s e).all s.mayCommit

/-- Whether a plain load waits for the fill of a line that its core is about to share (R203; log entry 14). -/
def fillWaits (s : State) (e : Entry) : Bool :=
  e.kind == .load && !e.acq && (s.forwarder e).isNone && e.locs.any fun k => (s.share e.core e.key (lineOf k)).any fun x => !x.ready

/-! ### What a read returns (R203, R207, R208) -/

/-- The key of a core's own value of a core-domain location. -/
def coreKey (core k : Nat) : Nat := core * 2 ^ 56 + k

/-- A core's own value of a core-domain byte: what its L1 holds under the key identifier, or what memory holds (R162, R207). -/
def State.ownByte (s : State) (core kid k : Nat) : Byte :=
  match s.l1.find? fun x => x.core == core && x.line == lineOf k && x.key == kid with
  | some x => x.data.get 0 (k % 128)
  | none => s.byteAs kid k

/-- A free choice from a list whose first element is the default. -/
def pick {α : Type} (n : Nat) (d : α) (l : List α) : α := l.getD (Config.freeNat n % max 1 l.length) d

/-- What a core outside a location's domain may read there: a write of the coherence order (R208). After the core's `cinv` of the line its
next load reads the last one, and no later load an earlier one than that (R226). -/
def State.outsideByte (s : State) (core kid n k : Nat) : Byte :=
  let old := s.hist.get [] k
  let now := s.byteAs kid k
  if now != s.byte k then now
  else match s.floors.get none (coreKey core k) with
  | none => pick n now (now :: old)
  | some (_, true) => now
  | some (m, false) => pick n now (now :: old.take (old.length - m))

/-- The byte that a read at the home returns: the last write; in the core domain what the core's L1 holds, or what memory holds, since the
L1 may have replaced the line (one answer for each aligned 16 bytes, R78); outside the domain some write of the coherence order (R162,
R207, R208). -/
def State.homeByte (s : State) (e : Entry) (i k : Nat) : Byte :=
  if e.dom = .core && cached k then
    let own := s.ownByte e.core e.key k
    if own != s.byteAs e.key k then pick (s.free * 64 + k / 16 % 64) own [own, s.byteAs e.key k] else own
  else if !e.inside then s.outsideByte e.core e.key (s.free * 64 + i) k
  else s.byteAs e.key k

/-- What a read at the home leaves behind: in the core domain the L1 holds its lines, with what it returned; outside the domain
the load after a `cinv` has refreshed its core's lines (R207, R208, R226). -/
def State.noteRead (s : State) (e : Entry) (bs : List Byte) : State :=
  if e.dom = .core then s.holdOwn e.core e.key ((e.locs.zip bs).filter fun b => cached b.1)
  else if e.inside then s
  else
    let due := (e.locs.filter fun k => match s.floors.get none (coreKey e.core k) with | some (_, true) => true | _ => false).map lineOf
    let note := fun (m : SMap (Option (Nat × Bool))) (k : Nat) =>
      match m.get none (coreKey e.core k) with
      | some (_, true) => m.set none (coreKey e.core k) (some ((s.hist.get [] k).length, false))
      | _ => m
    { s with floors := due.eraseDups.foldl (fun m l => ((List.range 128).map (128 * l + ·)).foldl note m) s.floors }

/-- The byte of a core's copy. -/
def State.copyByte (s : State) (core kid k : Nat) : Byte :=
  ((s.share core kid (lineOf k)).map fun x => x.data.get 0 (k % 128)).getD (s.byteAs kid k)

/-- Whether a core has a copy of every location that an access under a key identifier hits. -/
def State.sharesAll (s : State) (core kid : Nat) (ks : List Nat) : Bool :=
  !ks.isEmpty && ks.all fun k => (s.share core kid (lineOf k)).any Share.ready

/-- Whether a location's line can be shared: cached bytes outside the core domain, read inside their domain (R207, R208). -/
def shareable (e : Entry) : Bool := e.dom != .core && e.inside && e.locs.all cached

/-- The bytes that an entry reads: forwarded, from its core's copy, or at the home (R203). -/
def State.readEntry (s : State) (e : Entry) : List Byte :=
  match s.forwarder e with
  | some f => e.locs.map fun k => f.data.getD (f.locs.findIdx (· == k)) 0
  | none =>
    if e.kind == .load && !e.acq && shareable e && s.sharesAll e.core e.key e.locs then e.locs.map (s.copyByte e.core e.key)
    else e.locs.mapIdx fun i k => s.homeByte e i k

/-- The unperformed stores whose writes a read returns: for each location the newest one that the reader sees (R204). -/
def State.readNeeds (s : State) (e : Entry) : List Nat :=
  match s.forwarder e with
  | some f => [f.id]
  | none =>
    let copy := e.kind == .load && !e.acq && shareable e && s.sharesAll e.core e.key e.locs
    let seen := s.unperf.filter fun u => !copy || !(s.updates.any fun q => q.core == e.core && q.store == u.store)
    (e.locs.filterMap fun k => (seen.filter fun u => u.locs.contains k && !u.passed.contains k).getLast?.map Unperformed.store).eraseDups

/-! ### What an atomic writes (R229) -/

/-- The new value of an atomic from the old bits m and the data x; none where `cas` fails. -/
def atomNew (op : Nat) (ty : Ty) (m x cmp : Nat) : Option Nat :=
  let w := 8 * memSize ty
  let mv := BitVec.ofNat w m
  let xv := BitVec.ofNat w x
  let ge := decide (valOf ty.unsigned mv ≤ valOf ty.unsigned xv)
  match op with
  | 0 => some (mv + xv).toNat
  | 1 => some (if ge then mv else xv).toNat
  | 2 => some (if ge then xv else mv).toNat
  | 3 => some (mv &&& xv).toNat
  | 4 => some (mv ||| xv).toNat
  | 5 => some (mv ^^^ xv).toNat
  | 6 => some xv.toNat
  | 7 => if m = cmp then some xv.toNat else none
  | _ => some (FFmt.f32.round .rne false ((FFmt.f32.decode m).add .rne (FFmt.f32.decode x)))

/-! ### Landing loaded values -/

/-- What results leave in a team: the registers of its split that asked, a temporary's only within the run that asked (R41, R46). Those of
an instruction that a wave split came after are the run's as a whole, and so replace the tags that a half has written (R170). -/
def State.landIn (s : State) (sid run : Nat) (whole : Bool) (ls : List Landing) (t : Team) : Team :=
  let x := (t.every.find? fun x => x.id == sid).getD {}
  let here := x.id == sid && x.begun == run
  let kept := ls.filter fun y => match y with | .lanes n .. => here || decide (n < 248) | _ => true
  let named := fun n : Nat => kept.any fun y => match y with | .lanes m (some _) _ => m == n | _ => false
  let s1 := State.landAll { s with team := kept.foldl (fun t y => t.readable sid y) t, split := if whole then { x with wave := none } else x } kept
  let run := if whole then { s1.split.run with files := s1.split.run.files.dropKeys named } else s1.split.run
  Team.modEvery sid (fun y => { y with run := run }) s1.team

/-- The results of a flight land in a team's registers: in both halves of a wave split that came after it (R170). On an unfocused state. -/
def State.landFor (s : State) (tid sid run fl : Nat) (ls : List Landing) : State :=
  let s := s.unfocus
  match s.others.find? fun t => t.id == tid with
  | none => s
  | some t =>
    match ((t.every.find? fun x => x.id == sid).bind Split.wave).filter fun w => decide (fl < w.flight) with
    | some w => s.modTeamId tid fun t => s.landIn w.other run true ls (s.landIn sid run true ls t)
    | none => s.modTeamId tid fun t => s.landIn sid run false ls t

/-- The parts of a loaded value (R219). -/
def landings (d : Dest) (bs : List Byte) : List Landing :=
  let x := leNat 8 bs
  let one := fun r (w : Word) => if d.var then Landing.lanes r d.tag [(d.lane, w)] else Landing.word r w
  if d.wide then [one d.reg (BitVec.ofNat 32 x), one (d.reg + 1) (BitVec.ofNat 32 (x / 2 ^ 32))]
  else [one d.reg (extendTo 32 d.bits d.uns x)]

/-! ### Performance (R204) -/

/-- Whether a committed entry is performed: its own write has reached every sharer, and so has every write that it returned. -/
def performed (s : State) (e : Entry) : Bool :=
  e.committed && !(s.unperf.any fun u => u.store == e.id) &&
    e.needs.all fun n => !(s.unperf.any fun u => u.store == n) && !(s.entries.any fun f => f.id == n && !f.committed)

/-- Every register that awaited a flight is written: they await it no more, and neither does a split's next run (R46). -/
def allWritten (fl : Nat) (t : Team) : Team :=
  Team.mapEvery (fun x => { x with awaits := x.awaits.filter (· != fl) })
    { t with pending := t.pending.filter fun p => p.flight != fl || p.value.isSome }

/-- A flight's effect is done; a register that awaited it is written at the latest when the flight is over. -/
def landEffect (fl : Nat) (t : Team) : Team :=
  let t := landFlight t fl
  if t.flights.any fun x => x.id == fl then t else allWritten fl t

/-- With the commit of the last of an instruction's entries its registers are written (R46, R221); `eput` answers when its slot store is
performed (R251). -/
def State.writtenBy (s : State) (e : Entry) : State :=
  let more := s.entries.any fun f => f.team == e.team && f.flight == e.flight && !f.committed
  match e.kind with
  | .put .. => s
  | _ => if more then s else s.modTeamId e.team (allWritten e.flight)

/-- The team that an entry belongs to, for its context and partition. -/
def State.teamOf (s : State) (e : Entry) : Team := (s.findTeam e.team).getD {}

/-- What the performance of an entry brings about beyond its flag: a slot of an edge fills or frees (R251). -/
def State.whenPerformed (s : State) (e : Entry) : State :=
  let t := s.teamOf e
  match e.kind with
  | .put x i q =>
    let s := (s.modEdge t.ctx x (fillSlot i)).modBlock t.block fun b => { b with posted := true }
    match q with
    | some q => s.landFor e.team e.split e.run e.flight [.bit q true]
    | none => s
  | .take x i => (s.modEdge t.ctx x (loadSlot i)).modBlock t.block fun b => { b with posted := true }
  | _ => s

/-- The stores whose updates have all been applied are performed, and stand over the earlier ones (R204). -/
def sweepUnperf (queued : Nat → Bool) : List Unperformed → List Unperformed × List Nat
  | [] => ([], [])
  | u :: r =>
    let (l, ks) := sweepUnperf queued r
    if queued u.store then ({ u with passed := u.passed ++ u.locs.filter fun k => ks.contains k && !u.passed.contains k } :: l, ks)
    else (l, u.locs ++ ks)

/-- Removes the performed entries, whose flags fall; the barriers that waited for them are checked (R204, R211). -/
def State.settle (s : State) : State :=
  let s := { s with unperf := (sweepUnperf (fun n => s.updates.any fun q => q.store == n) s.unperf).1 }
  let gone := s.entries.filter (performed s)
  let s := { s with entries := s.entries.filter fun e => !performed s e }
  let s := gone.foldl (fun s e => (s.whenPerformed e).modTeamId e.team (landEffect e.flight)) s
  if gone.isEmpty then s else (s.blocks.map Block.id).foldl State.checkBarriers s

/-! ### The moves -/

/-- Marks an entry committed. -/
def State.mark (s : State) (id : Nat) (needs : List Nat) : State :=
  { s with entries := s.entries.map fun (e : Entry) => if e.id = id then { e with committed := true, needs := needs } else e }

/-- A write of an entry commits: in the core domain it is the core's own and is carried to memory; outside the domain it sends
no updates (R204, R207, R208). -/
def State.writeEntry (s : State) (e : Entry) (bs : List Byte) : State :=
  let ks := e.locs.zip bs
  let s := s.sealLines e.key e.locs
  let s := if e.dom = .core && e.locs.all cached then s.holdOwn e.core e.key ks else s
  if !e.inside || !(e.locs.all cached) then (s.putBytes ks).standsOver e.locs
  else s.commitWrite { core := some e.core, die := some (s.dieOf e.core), since := e.since.getD s.cycle, bound := e.page != .uo } e.id ks

/-- The messages between dies that an access sends: to the home of its location, and the answer (R327). -/
def State.travel (s : State) (e : Entry) : State :=
  if e.locs.all cached && e.dom != .core then s.roundTrip (s.dieOf e.core) (e.locs.headD 0) else s

/-- A load, an `ldfe` or an atomic's read delivers its value. -/
def State.deliver (s : State) (e : Entry) (bs : List Byte) : State :=
  match e.dest with
  | some d => s.landFor e.team e.split e.run e.flight (landings d bs)
  | none => s

/-- Grants of a colour follow the commit of its release (R205, R214). -/
def State.commitRelease (s : State) (e : Entry) (c : Nat) : State := s.freeColour (s.teamOf e).ctx c (s.dieOf e.core)

/-- Whether the target of an entry refuses it: it checks the partition's memory and keys of every byte again, but for a key identifier that
has been retired since the access passed its check (R301, R338). -/
def State.targetRefuses (s : State) (e : Entry) : Bool :=
  e.locs.any fun k => (decide (k < 2 ^ 51) || decide (2 ^ 54 ≤ k)) &&
    (partCheck s (s.teamOf e).part k e.key (decide (2 ^ 54 ≤ k))).any fun r => !(e.grace && r.cause == 2)

/-- The split that waits in a `watch` goes on (R197). -/
def State.endWatch (s : State) (e : Entry) : State :=
  match (s.findTeam e.team).bind fun t => t.every.find? fun x => x.id == e.split with
  | some x => match x.park with
    | .watch .. => s.clearPark e.team e.split
    | _ => s
  | none => s

/-- A read at the home: its bytes, the writes whose performance it awaits, and the state after it; a core that reads a line of its domain
becomes a sharer of it (R203). -/
def State.readHome (s : State) (e : Entry) : List Byte × List Nat × State :=
  let bs := e.locs.mapIdx fun i k => s.homeByte e i k
  let needs := s.readNeeds e
  let s := { s with free := s.free + 1 }.noteRead e bs
  let s := if shareable e then ((e.locs.map lineOf).eraseDups).foldl (fun s l => s.maySharer e.core e.key l) s else s
  (bs, needs, s)

/-- The other part of a record that is read in two (R173). -/
def State.otherPart (s : State) (e : Entry) : Option Entry :=
  s.entries.find? fun f => f.team == e.team && f.flight == e.flight && f.kind == e.kind && f.id != e.id && !f.committed

/-- The whole of a record, where the first part of it has left its bytes. -/
def wholeRecord (e : Entry) (bs : List Byte) : List Byte := if e.lane = 0 then bs ++ e.data else e.data ++ bs

/-- One part of a record leaves its bytes to the other. -/
def State.leavePart (s : State) (f : Entry) (bs : List Byte) : State :=
  { s with entries := s.entries.map fun (x : Entry) => if x.id = f.id then { x with data := bs } else x }

/-- What a commit does, by the kind of the entry. Of several entries of one `stfe` on a granule, the manual does not say which sets the bit:
DESIGN CHOICE (log entry 77), the last to commit. A `cas` that fails is performed as a load (R230). -/
def State.commitKind (s : State) (e : Entry) : State :=
  let s := s.travel e
  match e.kind with
  | .load =>
    if (s.forwarder e).isNone && !(!e.acq && shareable e && s.sharesAll e.core e.key e.locs) then
      let (bs, needs, s) := s.readHome e
      (s.deliver e bs).mark e.id needs
    else
      let bs := s.readEntry e
      let needs := s.readNeeds e
      ({ s with free := s.free + 1 }.deliver e bs).mark e.id needs
  | .store => (s.writeEntry e e.data).mark e.id []
  | .stfe =>
    let s := (s.writeEntry e e.data).mark e.id []
    let last := fun k => !(s.entries.any fun f => f.team == e.team && f.flight == e.flight && f.kind == .stfe && !f.committed &&
      f.locs.any fun q => q / 16 == k / 16)
    e.locs.foldl (fun s k => if last k then s.setFull k true else s) s
  | .atomic op ty x _ =>
    let old := e.locs.mapIdx fun i k => s.homeByte e i k
    let needs := s.readNeeds e
    let s := { s with free := s.free + 1 }.noteRead e old
    let t := s.teamOf e
    match atomNew op ty (leNat 8 old) x (leNat 8 e.data) with
    | some new =>
      let s := s.writeEntry e (leBytes (memSize ty) new)
      let s := if e.locs.all cached then
          s.reportWrites t.part t.ctx ((List.range (memSize ty)).map (e.va.toNat + ·)) e.origin t.core t.slot 2 (s.homeDie (e.locs.headD 0)) else s
      (s.deliver e old).mark e.id []
    | none => (s.deliver e old).mark e.id needs
  | .ldfe keep =>
    let es := party s e
    let s := es.foldl (fun s f => (s.deliver f (f.locs.map s.byte)).mark f.id []) s
    if keep then s else s.setFull (e.locs.headD 0) false
  | .watch _ =>
    let (bs, needs, s) := s.readHome e
    ((s.deliver e bs).endWatch e).mark e.id needs
  | .shape k q =>
    let (bs, needs, s) := s.readHome e
    match s.otherPart e with
    | some f => (s.leavePart f bs).mark e.id needs
    | none =>
      let r := wholeRecord e bs
      let ok := shapeValid r
      let s := s.modBlock (s.teamOf e).block fun b => { b with shapes := b.shapes.set [] k (if ok then r else []) }
      (s.landFor e.team e.split e.run e.flight [.bit q ok]).mark e.id needs
  | .card target q =>
    let (bs, needs, s) := s.readHome e
    match s.otherPart e with
    | some f => (s.leavePart f bs).mark e.id needs
    | none =>
      let bs := wholeRecord e bs
      let t := s.teamOf e
      let s := s.pushCard target (s.dieOf e.core) t.part
        { parseCard bs with valid := cardInRange bs && field bs 72 2 == t.ctx && field bs 74 1 == t.part } e.va
      let s := s.modBlock t.block fun b => { b with posted := true }
      (match q with
        | some q => s.landFor e.team e.split e.run e.flight [.bit q true]
        | none => s).mark e.id needs
  | .item child =>
    let t := s.teamOf e
    let size := ((s.findLaunch t.launch).map fun l => l.card.csize).getD 0
    let s := (s.packItem e.core t.ctx child t.launch size e.data).modBlock t.block fun b => { b with posted := true }
    s.mark e.id []
  | .put .. => (s.writeEntry e e.data).mark e.id []
  | .take .. =>
    let (bs, needs, s) := s.readHome e
    let reg := (e.dest.map Dest.reg).getD 0
    let words := (List.range 4).map fun i => Landing.word (reg + i) (BitVec.ofNat 32 (field bs (4 * i) 4))
    (s.landFor e.team e.split e.run e.flight words).mark e.id needs
  | .fence => s.mark e.id []
  | .writeback => { s with backed := e.locs.foldl (fun m k => m.set none k (some (s.hist.get [] k).length)) s.backed }.mark e.id []
  | .invalidate =>
    let l := lineOf (e.locs.headD 0)
    let s := { s with updates := s.updates.filter fun q => !(q.core == e.core && q.line == l),
                      shares := s.shares.filter fun x => !(x.core == e.core && x.line == l),
                      l1 := s.l1.filter fun x => !(x.core == e.core && x.line == l),
                      floors := if e.inside then s.floors else
                        e.locs.foldl (fun m k => m.set none (coreKey e.core k) (some ((s.hist.get [] k).length, true))) s.floors }
    s.mark e.id []
  | .giveback n q =>
    ((s.dropPage n).landFor e.team e.split e.run e.flight [.bit q true]).mark e.id []
  | .acquire _ => s.mark e.id []
  | .release c => (s.commitRelease e c).mark e.id []

/-- A late VIOL: the access failed at its target (R301). A store is dropped, a read delivers zeros, and the team takes VIOL at its next run. -/
def State.commitRefused (s : State) (e : Entry) : State :=
  let t := s.teamOf e
  let kind := match e.kind with | .store | .put .. => 1 | .atomic .. => 2 | _ => 0
  let s := s.logViol { part := t.part, addr := e.locs.headD 0, va := e.va, who := e.core, unit := t.slot, kind := kind, key := e.key,
                       cause := 3, die := s.homeDie (e.locs.headD 0) }
  let late := fun (s : State) => s.modTeamId e.team fun t => { t with late := t.late.or (some e.va) }
  match e.kind with
  | .load | .atomic .. => (late (s.deliver e (e.locs.map fun _ => 0))).mark e.id []
  | .watch _ => (late ((s.endWatch e).deliver e (e.locs.map fun _ => 0))).mark e.id []
  | .shape .. | .card .. | .take .. | .put .. => late (s.commitKind { e with locs := [] })
  | _ => (late s).mark e.id []

/-- Whether the way from an entry's core to its location's home is open, and back (R329). -/
def State.reaches (s : State) (e : Entry) : Bool :=
  !(e.locs.any cached) || e.dom == .core || s.wayBetween (s.dieOf e.core) (e.locs.headD 0)

/-- Whether the move is open to an entry. -/
def State.canCommit (s : State) (e : Entry) : Bool :=
  s.reaches e && match e.kind with
  | .ldfe _ => served s e
  | .item child =>
    let t := s.teamOf e
    s.mayCommit e && s.packRoom (s.dieOf e.core) t.ctx child t.launch (((s.findLaunch t.launch).map fun l => l.card.csize).getD 0)
  | .giveback n _ => s.mayCommit e && !pageBusy s n
  | .watch x => s.mayCommit e && (s.targetRefuses e || leNat 4 (e.locs.mapIdx fun i k => s.homeByte e i k) != x.toNat)
  | _ => s.mayCommit e && !fillWaits s e

/-- COMMIT (R202): no effect while the entry may not commit. -/
def State.commit (s : State) (id : Nat) : State :=
  match s.entries.find? fun e => e.id == id with
  | none => s
  | some e =>
    if !s.canCommit e then s
    else (((if s.targetRefuses e then s.commitRefused e else s.commitKind e)).writtenBy e).settle

/-- The home slice of a line: its die's slices are numbered 16 to a die, and the hash over them is fixed for the part and
open (R162, R330). -/
def State.homeOf (s : State) (line : Nat) : Nat := 16 * s.homeDie (128 * line) + Config.sliceOf line % 16

/-- Takes the first update that satisfies a test off its queue. -/
def dropFirst (p : Update → Bool) : List Update → List Update
  | [] => []
  | u :: r => if p u then r else u :: dropFirst p r

/-- Applies an update that stands at the head of its queue to its sharer's copy (R204); it and its acknowledgement are messages between
dies (R327). -/
def State.applyUpdate (s : State) (q : Update) : State :=
  let s := { s with updates := dropFirst (· == q) s.updates }
  let h := s.homeDie (128 * q.line)
  let s := (s.message h (s.dieOf q.core)).message (s.dieOf q.core) h
  let s := s.applyCopy q.core q.line q.bytes
  let s := if q.fill then
      { s with shares := s.shares.map fun (x : Share) => if x.core = q.core && x.line = q.line then { x with ready := true } else x }
    else s
  s.settle

/-- The update that may be applied next from a home to a sharer core: the head of their queue, and between dies the first of all
that go from the home's die to the sharer's, over links that are up (R329, R335). -/
def State.headUpdate (s : State) (home core : Nat) : Option Update :=
  match s.updates.find? fun q => q.core == core && s.homeOf q.line == home with
  | none => none
  | some q =>
    let d := s.dieOf core
    let first := s.updates.find? fun x => s.dieOf x.core == d && s.homeDie (128 * x.line) == home / 16
    if (home / 16 != d && first != some q) || !s.routeOpen (home / 16) d then none else some q

/-- PROPAGATE (R204): the head of the update queue from a home to a sharer core; between dies every update of the home's die
keeps its order (R329, R335). -/
def State.propagate (s : State) (home core : Nat) : State :=
  match s.headUpdate home core with
  | none => s
  | some q => s.applyUpdate q

/-- Whether the move is open. -/
def State.mayPropagate (s : State) (home core : Nat) : Bool := (s.headUpdate home core).isSome

/-- Whether a fence may retire: every older entry is performed (R206). -/
def State.canRetire (s : State) (e : Entry) : Bool :=
  e.kind == .fence && !e.committed && (s.olderOf e).isEmpty &&
    !(s.entries.any fun f => e.barred.contains f.id)

/-- FENCE_RETIREMENT (R206). -/
def State.retireFence (s : State) (id : Nat) : State :=
  match s.entries.find? fun e => e.id == id with
  | none => s
  | some e => if s.canRetire e then (s.mark id []).settle else s

/-! ### The visibility bound (R215) -/

/-- Notes from when on an entry may commit; of a `watch` whose word no longer differs nothing is noted. -/
def State.noteReady (s : State) : State :=
  { s with entries := s.entries.map fun (e : Entry) =>
      match e.kind with
      | .watch _ => if s.canCommit e then (if e.since.isNone then { e with since := some s.cycle } else e) else { e with since := none }
      | _ => if e.since.isNone && s.canCommit e then { e with since := some s.cycle } else e }

/-- A move that the bound of R215 no longer lets wait. -/
inductive Move where
  | commit (entry : Nat)
  | update (home core : Nat)
  deriving DecidableEq, Repr

/-- Whether the bound applies to an entry: a write on an SO or RC page, or a `watch`. -/
def Entry.bounded (e : Entry) : Bool :=
  match e.kind with
  | .store | .stfe | .atomic .. | .put .. => e.page != .uo
  | .watch _ => true
  | _ => false

/-- The update that goes first of those on the way of an update, where it may be applied. -/
def State.updateBefore (s : State) (q : Update) : Option Update :=
  let h := s.homeDie (128 * q.line)
  let d := s.dieOf q.core
  let first := s.updates.find? fun x =>
    if h = d then s.homeOf x.line == s.homeOf q.line && x.core == q.core else s.homeDie (128 * x.line) == h && s.dieOf x.core == d
  first.filter fun x => s.mayPropagate (s.homeOf x.line) x.core

/-- A store on an SO or RC page, or an update of one, that has waited for its whole bound: a reader on the writer's own die allows a
store 1 µs, each update has what its reader's place allows, and a `watch` sees a write by the first of these. -/
def State.overdue (s : State) : Option Move :=
  match (s.updates.filter fun q => q.due.any fun d => decide (d ≤ s.cycle)).findSome? s.updateBefore with
  | some x => some (.update (s.homeOf x.line) x.core)
  | none =>
    (s.entries.find? fun e => e.bounded && (e.since.any fun c => decide (c + boundCycles (some 0) 0 ≤ s.cycle)) && s.canCommit e).map
      fun e => .commit e.id

end Sys2Proof.Machine
end

