-- ==== Sys2Proof/Machine/Blocks.lean ====
section
/-! DEFINITION. Register blocks, rendezvous moves and barriers (R93, R94, R128 to R132, R211). -/
namespace Sys2Proof.Machine

/-! ### Register blocks (R93, R94, R128) -/

/-- The rank-blocks that the resident teams of a core hold. -/
def State.rankBlocks (s : State) (c : Nat) : Nat :=
  ((s.allTeams.filter fun t => t.core == c && t.role == .main && !t.out && !t.ended).map fun t => t.blocks * ranksOf t.n).foldl (· + ·) 0

/-- Whether a team can take k further blocks now. -/
def State.blocksFit (s : State) (t : Team) (k : Nat) : Bool :=
  decide (t.blocks + k ≤ 31) && decide (s.rankBlocks t.core + k * ranksOf t.n ≤ 512)

/-- Changes the blocks that a team holds; registers outside them hold 0 with tag `raw`. -/
def setBlocks (m : Nat) (t : Team) : Team :=
  { t with blocks := m, v := t.v.dropKeys fun k => decide (8 * m ≤ k / 1024) && decide (k / 1024 < 248),
           tags := t.tags.dropKeys fun k => decide (8 * m ≤ k) && decide (k < 248) }

/-- Grants parked acquires of a core in the order of request (R94). On an unfocused state. -/
def grantBlocks (c : Nat) : List Waiter → State → State
  | [], s => s.modCore c fun x => { x with acquirers := [] }
  | w :: r, s =>
    match s.findTeam w.team with
    | none => grantBlocks c r s
    | some t =>
      match t.every.find? fun x => x.id == w.split with
      | some x =>
        match x.park with
        | .acquire k =>
          if s.blocksFit t k then
            let s := s.modTeamId t.id fun t => endFlight (setBlocks (t.blocks + k) t) w.flight
            grantBlocks c r (s.clearPark t.id x.id)
          else s.modCore c fun x => { x with acquirers := w :: r }
        | _ => grantBlocks c r s
      | none => grantBlocks c r s

def rgacqBody (f : Fmt) (fl : Nat) (v s : State) : Res :=
  let k := f.imm.toNat
  let t := v.team
  if v.diverged then .raise (wholeFlt .UDIV)
  else if k = 0 then .done (s.modTeam fun t => endFlight t fl)
  else if (v.core t.core).acquirers.isEmpty && v.blocksFit t k then .done (s.modTeam fun t => endFlight (setBlocks (t.blocks + k) t) fl)
  else
    let s := s.modSplit fun x => { x with park := .acquire k, buffer := false }
    .done (if t.blocks + k ≤ 31 then
        s.modCore t.core fun c => { c with acquirers := c.acquirers ++ [{ team := t.id, split := v.split.id, flight := fl }] }
      else s)

/-- `rgacq.try`. DESIGN CHOICE (log entry 94): with k = 0 it answers true; with k not 0 it answers false while an earlier `rgacq` waits. -/
def rgacqTryBody (f : Fmt) (fl : Nat) (v s : State) : Res :=
  let k := f.imm.toNat
  let t := v.team
  if v.diverged then .raise (wholeFlt .UDIV)
  else if k = 0 || ((v.core t.core).acquirers.isEmpty && v.blocksFit t k) then
    .done (putLater fl [.bit f.d.toNat true] (s.modTeam fun t => if k = 0 then t else setBlocks (t.blocks + k) t))
  else .done (putLater fl [.bit f.d.toNat false] s)

/-- `rgrel` does not issue while a result is on its way to a block that it releases. -/
def rgrelBody (f : Fmt) (v s : State) : Res :=
  let t := v.team
  let m := t.blocks - f.imm.toNat
  let busy := t.pending.any fun p => p.regs.any fun r => match r with | .v n => decide (8 * m ≤ n) && decide (n < 248) | _ => false
  if v.diverged then .raise (wholeFlt .UDIV)
  else if t.recruit.state != .none || t.expand.isSome then .raise (wholeFlt .PERM)
  else if busy then notYet s
  else
    let s := s.modTeam (setBlocks m)
    let u := s.unfocus
    let u := grantBlocks t.core (u.core t.core).acquirers u
    .done (u.focus t.id v.split.id)

/-! ### Rendezvous (R129, R130) -/

/-- What the receiver's lanes get from a sender. -/
def transferred (ns nr : Nat) (send recv : Party) : Landing :=
  .lanes recv.reg (some send.tag)
    (((lanesOf nr recv.active).filter fun l => decide (l < ns)).map fun l => (l, ((send.vals.find? fun p => p.1 == l).map Prod.snd).getD 0))

/-- A waiting party goes on: its flag falls and its split leaves the park. On an unfocused state. -/
def State.partyDone (s : State) (p : Party) : State :=
  (s.modTeamId p.team (landEffect p.flight)).clearPark p.team p.split

def rvsendBody (f : Fmt) (fl : Nat) (v s : State) : Res :=
  let t := v.team
  let k := f.b.toNat
  let me : Party := { team := t.id, split := v.split.id, flight := fl, reg := f.a.toNat, active := activeMask f v,
                      vals := (activeLanes f v).map fun l => (l, rawA f v l), tag := copyTag f v }
  let slot := (v.block.slots.get {} k)
  match slot.receivers with
  | r :: rest =>
    let nr := ((v.findTeam r.team).map Team.n).getD 0
    let s := s.modBlock t.block fun b => { b with slots := b.slots.set {} k { slot with receivers := rest } }
    let s := s.modTeam fun t => endFlight t fl
    let run := (((v.findTeam r.team).bind fun x => x.every.find? fun y => y.id == r.split).map Split.begun).getD 0
    let u := (s.unfocus.landFor r.team r.split run r.flight [transferred t.n nr me r]).partyDone r
    .done (u.focus t.id v.split.id)
  | [] =>
    let s := s.modBlock t.block fun b => { b with slots := b.slots.set {} k { slot with senders := slot.senders ++ [me] } }
    .done (s.modSplit fun x => { x with park := .rendezvous k true, buffer := false })

def rvrecvBody (f : Fmt) (fl : Nat) (v s : State) : Res :=
  let t := v.team
  let k := f.b.toNat
  let me : Party := { team := t.id, split := v.split.id, flight := fl, reg := f.d.toNat, active := activeMask f v }
  let slot := (v.block.slots.get {} k)
  match slot.senders with
  | p :: rest =>
    let ns := ((v.findTeam p.team).map Team.n).getD 0
    let s := s.modBlock t.block fun b => { b with slots := b.slots.set {} k { slot with senders := rest } }
    let s := putLater fl [transferred ns t.n p me] s
    let u := s.unfocus.partyDone p
    .done (u.focus t.id v.split.id)
  | [] =>
    let s := putUnknown fl [.v f.d.toNat] s
    let s := s.modBlock t.block fun b => { b with slots := b.slots.set {} k { slot with receivers := slot.receivers ++ [me] } }
    .done (s.modSplit fun x => { x with park := .rendezvous k false, buffer := false })

/-! ### Barriers (R131, R132, R210, R211) -/

/-- Arrival: the team parks, and the generation completes if it is due. -/
def barrierBody (x : Bool) (f : Fmt) (v s : State) : Res :=
  let t := v.team
  let k := f.b.toNat
  if v.diverged then .raise (wholeFlt .UDIV)
  else
    let me : Arrival := { team := t.id, entries := v.split.older.filter fun e => !v.entryGone e }
    let s := s.modBlock t.block fun b =>
      let bar := b.barriers.get {} k
      { b with barriers := b.barriers.set {} k { bar with arrived := bar.arrived ++ [me], x := bar.x || x } }
    let s := s.modSplit fun y => { y with park := .barrier k, buffer := false }
    .done (s.unfocus.checkBarriers t.block)

def execRgacq (f : Fmt) (s : State) : Out := later (.rgacq f) f rgacqBody s
def execRgacqTry (f : Fmt) (s : State) : Out := later (.rgacqTry f) f rgacqTryBody s
def execRgrel (f : Fmt) (s : State) : Out := straight (.rgrel f) f (.fixed 0) (fun _ v s => rgrelBody f v s) s
def execRvsend (f : Fmt) (s : State) : Out := later (.rvsend f) f rvsendBody s
def execRvrecv (f : Fmt) (s : State) : Out := later (.rvrecv f) f rvrecvBody s
def execBar (f : Fmt) (s : State) : Out := straight (.bar f) f (.fixed 0) (fun _ v s => barrierBody false f v s) s
def execBarx (f : Fmt) (s : State) : Out := straight (.barx f) f (.fixed 0) (fun _ v s => barrierBody true f v s) s

end Sys2Proof.Machine
end

