-- ==== Sys2Proof/Machine/Colours.lean ====
section
/-! DEFINITION. The colour instructions, `mwait`, notifications and `watch` (R192 to R197). -/
namespace Sys2Proof.Machine

/-! ### Coloured ranges (R193, R194) -/

/-- Checks 1 and 2 of R193 on a base and a length. Of a length of 0 the rule leaves open what base + len − 1 is to be: DESIGN CHOICE (log
entry 78), then only the base is checked. -/
def rangeFault (base : Addr) (n : Nat) : Option Flt :=
  if !canonical base || (n != 0 && (2 ^ 64 ≤ base.toNat + n - 1 || !canonical (base + BitVec.ofNat 64 (n - 1)))) then
    some (laneFlt .XLATE base 0)
  else if base.toNat % 64 != 0 || n % 64 != 0 then some (laneFlt .ALIGN base 0)
  else none

/-- Whether a coloured range meets the bytes [base, base + n). -/
def Range.meets (r : Range) (base n : Nat) : Bool := n != 0 && decide (r.base < base + n) && decide (base < r.base + r.len)

/-- Whether it lies wholly within them. -/
def Range.within (r : Range) (base n : Nat) : Bool := decide (base ≤ r.base) && decide (r.base + r.len ≤ base + n)

def tintBody (f : Fmt) (fl : Nat) (v s : State) : Res :=
  let base := v.readD f.a.toNat
  let n := (v.readS f.b.toNat).toNat
  let c := (v.readS f.x.c.toNat).toNat % 65536
  let rs := (v.ctx v.team.ctx).ranges
  let answer := fun (b : Bool) (s : State) => putLater fl [.bit f.d.toNat b] s
  if v.diverged then .raise (wholeFlt .UDIV)
  else match rangeFault base n with
    | some x => .raise x
    | none =>
      if n = 0 || c = 0 || (rs.any fun r => r.meets base.toNat n) || 1024 ≤ rs.length then .done (answer false s)
      else .done (answer true (s.modCtx v.team.ctx fun x => { x with ranges := x.ranges ++ [{ base := base.toNat, len := n, colour := c }] }))

def untintBody (f : Fmt) (fl : Nat) (v s : State) : Res :=
  let base := v.readD f.a.toNat
  let n := (v.readS f.b.toNat).toNat
  let rs := (v.ctx v.team.ctx).ranges
  if v.diverged then .raise (wholeFlt .UDIV)
  else match rangeFault base n with
    | some x => .raise x
    | none =>
      if rs.any fun r => r.meets base.toNat n && !r.within base.toNat n then .done (putLater fl [.bit f.d.toNat false] s)
      else .done (putLater fl [.bit f.d.toNat true]
        (s.modCtx v.team.ctx fun x => { x with ranges := x.ranges.filter fun r => !r.within base.toNat n }))

/-! ### Reading and taking (R195, R196) -/

/-- Whether a team holds a colour. -/
def holdsColour (t : Team) (c : Nat) : Bool := t.held.any fun h => h.1 == c

/-- The two words of `tintq`. -/
def colourState (v : State) (va : Addr) : Word × Word :=
  let c := v.colourOf v.team.ctx va
  let m := (v.ctx v.team.ctx).monitors.get {} c
  let holder := if c = 0 then none else m.holder.bind v.findTeam
  let low := c + (if c != 0 && m.abandoned then 2 ^ 16 else 0) + (if c != 0 && holdsColour v.team c then 2 ^ 17 else 0) +
    (if holder.isSome then 2 ^ 18 else 0)
  (BitVec.ofNat 32 low, match holder with
    | some t => BitVec.ofNat 32 (t.core * 64 + t.slot)
    | none => 0xFFFFFFFF)

def tintqBody (f : Fmt) (fl : Nat) (v s : State) : Res :=
  let va := v.readD f.a.toNat
  let (lo, hi) := colourState v va
  if v.diverged then .raise (wholeFlt .UDIV)
  else if !canonical va then .raise (laneFlt .XLATE va 0)
  else .done (putLater fl [.word f.d.toNat lo, .word (f.d.toNat + 1) hi] s)

def tintqClrBody (f : Fmt) (fl : Nat) (v s : State) : Res :=
  let va := v.readD f.a.toNat
  let c := v.colourOf v.team.ctx va
  let (lo, hi) := colourState v va
  if v.diverged then .raise (wholeFlt .UDIV)
  else if !canonical va then .raise (laneFlt .XLATE va 0)
  else if c = 0 || !holdsColour v.team c then .raise (laneFlt .CNOTHELD 0 0)
  else
    let s := s.modCtx v.team.ctx fun x =>
      { x with monitors := x.monitors.set {} c { x.monitors.get {} c with abandoned := false } }
    .done (putLater fl [.word f.d.toNat (lo &&& ~~~65536), .word (f.d.toNat + 1) hi] s)

def mtryBody (f : Fmt) (fl : Nat) (v s : State) : Res :=
  let c := (v.readS f.a.toNat).toNat % 65536
  if v.diverged then .raise (wholeFlt .UDIV)
  else if c = 0 || holdsColour v.team c then .done (putLater fl [.bit f.d.toNat true] s)
  else if v.team.held.length = 16 then .raise (laneFlt .CHELD 0 0)
  else if v.colourFree c then .done (putLater fl [.bit f.d.toNat true] (s.takeColour c v.team.fdepth))
  else .done (putLater fl [.bit f.d.toNat false] s)

/-! ### Waiting and notifying (R197) -/

def mwaitBody (f : Fmt) (fl : Nat) (v s : State) : Res :=
  let t := v.team
  let c := (v.readS f.a.toNat).toNat % 65536
  match t.held.find? fun h => h.1 == c with
  | none => .raise (laneFlt .CNOTHELD 0 0)
  | some (_, d) =>
    if v.diverged then .raise (wholeFlt .UDIV)
    else if lendingOpen t then .raise (wholeFlt .PERM)
    else if v.markedCommands t.id then again s
    else
      let s := s.releaseAll [c]
      let s := s.modCtx t.ctx fun x =>
        let m := x.monitors.get {} c
        { x with monitors := x.monitors.set {} c { m with wait := m.wait ++ [t.id] } }
      .done (s.modSplit fun x => { x with park := .mwait c d fl, buffer := false })

/-- Moves the first `k` waiters of a colour to the end of its entry queue; each reclaims the lanes that it has lent (R145, R197). -/
def State.notify (s : State) (cx c k : Nat) : State :=
  let m := (s.ctx cx).monitors.get {} c
  (m.wait.take k).foldl State.reclaimLanes
    (s.modCtx cx fun x => { x with monitors := x.monitors.set {} c { m with entry := m.entry ++ m.wait.take k, wait := m.wait.drop k } })

def mnoteBody (all : Bool) (f : Fmt) (v s : State) : Res :=
  let c := (v.readS f.a.toNat).toNat % 65536
  let m := (v.ctx v.team.ctx).monitors.get {} c
  if !holdsColour v.team c then .raise (laneFlt .CNOTHELD 0 0)
  else .done (s.notify v.team.ctx c (if all then m.wait.length else 1))

/-- `watch`: an acquire load that commits once the word differs; until then the team is parked. -/
def watchBody (f : Fmt) (fl : Nat) (v s : State) : Res :=
  let va := baseAddr f v
  match State.gate v s (spaceOf f) .load 4 true false false [(0, va)] with
  | .res r => r
  | .go s ls =>
    if v.diverged then .raise (wholeFlt .UDIV)
    else
      let x := v.readS f.x.c.toNat
      let dest : Dest := { reg := f.d.toNat }
      let g : Group := { kind := fun _ => .watch x, acq := true, sp := spaceOf f = .sp, flight := fl, dest := fun _ => some dest }
      let s := putUnknown fl [.s f.d.toNat] (enterAll g ls s)
      .done (s.modSplit fun y => { y with park := .watch (spaceOf f) va x, buffer := false })

def execTint (f : Fmt) (s : State) : Out := straight (.tint f) f .later (tintBody f) s
def execUntint (f : Fmt) (s : State) : Out := straight (.untint f) f .later (untintBody f) s
def execTintq (f : Fmt) (s : State) : Out := straight (.tintq f) f .later (tintqBody f) s
def execTintqClr (f : Fmt) (s : State) : Out := straight (.tintqClr f) f .later (tintqClrBody f) s
def execMtry (f : Fmt) (s : State) : Out := straight (.mtry f) f .later (mtryBody f) s
def execMwait (f : Fmt) (s : State) : Out := straight (.mwait f) f .later (mwaitBody f) s
def execMnote (f : Fmt) (s : State) : Out := straight (.mnote f) f (.fixed 0) (fun _ v s => mnoteBody false f v s) s
def execMnall (f : Fmt) (s : State) : Out := straight (.mnall f) f (.fixed 0) (fun _ v s => mnoteBody true f v s) s
def execWatch (f : Fmt) (s : State) : Out := straight (.watch f) f .later (watchBody f) s

end Sys2Proof.Machine
end

