-- ==== Sys2Proof/Machine/Harvest.lean ====
section
/-! DEFINITION. Harvest: recruitments, helper groups, reductions (R134 to R148, R232). -/
namespace Sys2Proof.Machine

/-! ### Idle lanes and free sets (R135, R136) -/

/-- Whether a lane is lent already. -/
def State.isLent (s : State) (tid l : Nat) : Bool := s.allTeams.any fun g => g.lent.any fun x => x.team == tid && x.lane == l

/-- Lanes parked at a join of a team. -/
def atJoins (t : Team) : Mask :=
  let recs := t.joins.foldl (fun (m : Mask) (e : Nat × Option Join) => m ||| (e.2.map Join.arrived).getD 0) 0
  (t.deferred.foldl (fun (m : Mask) (d : Deferred) => m ||| d.arrived) recs) &&& t.live

/-- Whether a split of a team waits where its lanes may be lent: in `mwait`, until it is notified (R135, R145). -/
def State.lends (s : State) (u : Team) (x : Split) : Bool :=
  match x.park with
  | .barrier _ | .watch .. => true
  | .mwait c _ _ => ((s.ctx u.ctx).monitors.get {} c).wait.contains u.id
  | _ => false

/-- The lanes that may be lent, in order: the recruiter's own, then those of waiting teams of its block (R135). -/
def State.idleLanes (s : State) (joins : Bool) : List (Nat × Nat) :=
  let t := s.team
  let own := ~~~t.live ||| (if joins then atJoins t else 0)
  let mine := if t.tctl.getLsbD 1 then [] else (lanesOf t.n own).map fun l => (t.id, l)
  let other := fun id : Nat =>
    match s.others.find? fun u => u.id == id with
    | none => []
    | some u =>
      if u.tctl.getLsbD 1 || u.out || u.stopped then []
      else (u.splits.filter (s.lends u)).flatMap fun x => (lanesOf u.n (x.mask &&& u.live)).map fun l => (id, l)
  (mine ++ (s.block.teams.filter (· != t.id)).flatMap other).filter fun x => !s.isLent x.1 x.2

/-- Helper sets in use on a core, of its 1,024 (R136). -/
def State.freeSets (s : State) (c : Nat) : Nat :=
  1024 - ((s.allTeams.filter fun g => g.core == c && g.role != .main).map fun g => laneCount g.n g.live).foldl (· + ·) 0

/-- Whether a pre-emption is in progress on a core (R305). -/
def State.preempting (s : State) (c : Nat) : Bool :=
  (s.core c).asked || s.blocks.any fun b => b.core == c && match b.preempt with | .draining _ | .restarting | .saving => true | _ => false

/-- Whether the executing team's context has exhausted its budget (R256). -/
def State.budgetOut (s : State) : Bool :=
  !(s.part s.team.part).entry.edf && ((s.core s.team.core).budgets.get {} s.team.ctx).balance == 0

/-- The refusals 6, 4, 5 and 2 of R136, in its order. -/
def State.refusal (s : State) : Option Nat :=
  let t := s.team
  if t.recruit.state != .none || t.expand.any fun e => e.group.isSome then some 6
  else if s.preempting t.core then some 4
  else if s.budgetOut then some 5
  else if s.freeSets t.core = 0 then some 2
  else none

/-! ### Groups (R137, R232) -/

/-- Forms a helper group that begins a run at an address; its number, and the state. -/
def State.formGroup (s : State) (role : Role) (lanes : List (Nat × Nat)) (body : Addr) (l0 : Nat) : Nat × State :=
  let (id, s) := s.fresh
  let (sid, s) := s.fresh
  let (r, s) := s.fresh
  let t := s.team
  let g := lanes.length
  let older := s.split.older.filter fun e => !s.entryGone e
  let x : Split := { id := sid, pc := body &&& ~~~3, mask := fullMask g, request := some r, last := s.cycle, barred := older }
  let u : Team :=
    { id := id, role := role, launch := t.launch, block := t.block, core := t.core, slot := t.slot, sched := t.sched, ctx := t.ctx,
      part := t.part, number := t.number, n := g, l0 := l0, live := fullMask g, splits := [x], tctl := t.tctl, fsbase := t.fsbase,
      tile := t.tile, blocks := t.blocks, vwin := t.vwin, plbase := t.plbase, pllim := t.pllim, enumbase := t.enumbase,
      lent := lanes.mapIdx fun h (d, l) => ({ team := d, lane := l, helper := h } : Lent) }
  (id, { s with others := insertTeam u s.others })

/-- After the group: its remaining entries are older than every later entry of the recruiter (R232). -/
def State.afterGroup (s : State) (role : Role) : State :=
  let groups := (s.others.filter fun g => g.role == role).map Team.id
  let ids := (s.entries.filter fun e => groups.contains e.team).map Entry.id
  s.modSplit fun x => { x with barred := unionIds x.barred ids }

/-! ### `recruit` (R136) -/

def recruitBody (f : Fmt) (fl : Nat) (v s : State) : Res :=
  let t := v.team
  let answer := fun (ok : Bool) (n : Nat) (s : State) =>
    if v.inHelper then putLater fl [.bit f.b.toNat false] s
    else putLater fl [.word f.d.toNat (BitVec.ofNat 32 n), .bit f.b.toNat ok] s
  if v.diverged then .raise (wholeFlt .UDIV)
  else if v.inHelper then .done (answer false 3 s)
  else match v.refusal with
    | some c => .done (answer false c s)
    | none =>
      let n := (v.readS f.a.toNat).toNat
      let q := min (v.readS f.x.c.toNat).toNat 1024
      let lanes := (v.idleLanes false).take (min (min q n) (v.freeSets t.core))
      if lanes.isEmpty then .done (answer false 1 s)
      else
        let l0 := (lowestLane t.n v.split.mask).getD 0
        let (g, s) := s.formGroup (.helper t.id) lanes (pcRel v.split.pc f.imm) l0
        let r : Recruit := { state := .active, l0 := l0, total := n, group := some g }
        .done (answer true lanes.length (s.modTeam fun t => { t with recruit := r }))

/-! ### `hnext` (R140) -/

/-- Whether an iteration remains. -/
def Recruit.remains (r : Recruit) : Bool := r.next < r.total || !r.returned.isEmpty

/-- Deals to lanes, ascending: the recruitment after it, and each lane's iteration. -/
def deal : List Nat → Recruit → Recruit × List (Nat × Option Nat)
  | [], r => (r, [])
  | l :: ls, r =>
    let r := { r with current := r.current.filter fun p => p.1 != l }
    if r.state = .cancelled || !r.remains then
      let (r, out) := deal ls r
      (r, (l, none) :: out)
    else
      let (i, r) : Nat × Recruit := match r.returned with
        | i :: rest => (i, { r with returned := rest })
        | [] => (r.next, { r with next := r.next + 1 })
      let (r, out) := deal ls { r with current := r.current ++ [(l, i)] }
      (r, (l, some i) :: out)

/-- The helpers whose lanes are reclaimed; of a drafted group, all of them (R145, R156). -/
def leaving (g : Team) : Mask :=
  let ms := maskOf ((g.lent.filter fun x => x.reclaimed.isSome).map Lent.helper)
  match g.role with
  | .drafted _ => if ms = 0 then 0 else g.live
  | _ => ms &&& g.live

/-- Helpers leave and the executing split goes on without them, if any of it is left. -/
def State.leave (s : State) (gone : Mask) : State :=
  let tid := s.team.id
  let sid := s.split.id
  (s.unfocus.removeHelpers tid gone).focus tid sid

/-- The recruitment as its recruiter's own lanes see it, and back: their current iterations stand apart from the helpers'. -/
def Recruit.swap (r : Recruit) : Recruit := { r with current := r.mine, mine := r.current }

/-- The recruitment that `hnext` deals from. DESIGN CHOICE (log entry 79): a drafted group has none, and its `hnext` raises ILLENC. -/
def dealSource (v : State) : Option Recruit :=
  match v.team.role with
  | .helper r => (v.findTeam r).map Team.recruit
  | .drafted _ => none
  | .main => if v.team.recruit.state = .released || v.team.recruit.state = .cancelled then some v.team.recruit else none

/-- Changes the recruitment that the executing team works for. -/
def State.modRecruit (s : State) (g : Recruit → Recruit) : State :=
  match s.team.role with
  | .helper r | .drafted r => s.modTeamId r fun t => { t with recruit := g t.recruit }
  | .main => s.modTeam fun t => { t with recruit := g t.recruit }

def hnextBody (f : Fmt) (fl : Nat) (v s : State) : Res :=
  match dealSource v with
  | none => .raise (wholeFlt .ILLENC)
  | some _ =>
    let gone := if v.inHelper then leaving v.team &&& v.split.mask else 0
    let s := if gone = 0 then s else s.leave gone
    if s.team.id != v.team.id then .done s
    else
      let r := (dealSource s).getD {}
      let ls := lanesOf s.team.n s.split.mask
      let (r, out) := if v.inHelper then deal ls r else ((deal ls r.swap).1.swap, (deal ls r.swap).2)
      let got := out.filterMap fun x => x.2.map fun i => (x.1, BitVec.ofNat 32 i)
      let vals : Landing := .lanes f.d.toNat (if got.isEmpty then none else some .i32) got
      let preds : Landing := .preds f.b.toNat (out.map fun x => (x.1, x.2.isSome))
      .done (putLater fl [vals, preds] (s.modRecruit fun _ => r))

/-! ### `hred` (R141, R142) -/

/-- A reduction's step; the qualifiers of R141 and R153. -/
def redStep (q : Nat) (rnd : Rnd) (a b : Word) : Word :=
  match q with
  | 0 => a + b
  | 1 => if a.toInt ≤ b.toInt then a else b
  | 2 => if a.toInt ≤ b.toInt then b else a
  | 3 => a &&& b
  | 4 => a ||| b
  | 5 => a ^^^ b
  | _ => floatBin .add { rnd := rnd } a b

/-- Folds a contribution into an iteration's part. -/
def contribute (q : Nat) (rnd : Rnd) (parts : List (Nat × Word)) (x : Nat × Word) : List (Nat × Word) :=
  if parts.any fun p => p.1 == x.1 then parts.map fun p => if p.1 = x.1 then (p.1, redStep q rnd p.2 x.2) else p
  else parts ++ [x]

/-- The register that a reduction names: in a helper body `r.vN`, field d = 16 + N. -/
def redReg (f : Fmt) (v : State) : Nat := if v.inHelper then f.d.toNat - 16 else f.d.toNat

/-- Whether that register is in the blocks of the team. -/
def redHeld (f : Fmt) (v : State) : Bool :=
  decide (f.d.toNat < 248) && (!v.inHelper || decide (16 ≤ f.d.toNat)) && decide (redReg f v < 8 * v.owner.blocks)

/-- The recruitment that `hred` contributes to. -/
def redSource (v : State) : Option Recruit :=
  match v.team.role with
  | .helper r => (v.findTeam r).map Team.recruit
  | .drafted _ => none
  | .main => if v.team.recruit.state = .none then none else some v.team.recruit

/-- The current iteration of a lane of the executing team. -/
def iterOf (v : State) (r : Recruit) (l : Nat) : Option Nat :=
  ((if v.inHelper then r.current else r.mine).find? fun p => p.1 == l).map Prod.snd

def hredBody (f : Fmt) (fl : Nat) (v s : State) : Res :=
  let q := f.x.qual.toNat
  let reg := redReg f v
  match redSource v with
  | none => .raise (wholeFlt .ILLENC)
  | some r =>
    let ls := activeLanes f v
    let have? := r.targets.find? fun g => g.reg == reg
    let bad := fun l => match iterOf v r l with
      | none => true
      | some i => q == 6 && decide (1024 ≤ i)
    let srcTags : List Tag := if q = 6 then [.f32] else if q ≥ 3 then [.i32, .raw] else [.i32]
    let dstTag : Tag := if q = 6 then .f32 else .i32
    if !redHeld f v || (have?.isNone && 4 ≤ r.targets.length) || have?.any fun g => g.op != q then .raise (wholeFlt .ILLENC)
    else match ls.find? bad with
    | some l => .raise (laneFlt .ILLENC 0 l)
    | none =>
      if !tagIn v f.a.toNat srcTags || v.owner.tags.get .raw reg != dstTag then .raise (wholeFlt .TAGMIS)
      else
        let xs := ls.map fun l => ((iterOf v r l).getD 0, v.readV f.a.toNat l)
        let base := have?.getD { reg := reg, op := q, rnd := f.x.rnd }
        let tgt : Target := { base with parts := xs.foldl (contribute q f.x.rnd) base.parts }
        let put := fun (r : Recruit) =>
          { r with targets := if have?.isSome then r.targets.map fun g => if g.reg = reg then tgt else g else r.targets ++ [tgt] }
        .done ((s.modRecruit put).modTeam fun t => endFlight t fl)

/-! ### `hwait`, `hrel`, `hexit` (R139, R143, R144, R147) -/

/-- A target's combined value: the fold of the exact contributions, or the root of the tree over the leaves (R142). -/
def landed (total : Nat) (g : Target) : Option Word :=
  if g.op = 6 then
    treeRoot (redStep 6 g.rnd) 12 ((List.range (min total 1024)).map fun i => (g.parts.find? fun p => p.1 == i).map Prod.snd)
  else
    match g.parts.map Prod.snd with
    | [] => none
    | x :: r => some (r.foldl (redStep g.op g.rnd) x)

/-- Lands one target in the recruiting lane. -/
def landTarget (r : Recruit) (s : State) (g : Target) : State :=
  match landed r.total g with
  | none => s
  | some x => s.writeVar g.reg (if g.op = 6 then .f32 else .i32) [(r.l0, redStep g.op g.rnd (s.readV g.reg r.l0) x)]

/-- The fault record of a helper fault (R147). -/
def helperRecord (fault : Nat × Code × Nat × Addr) (xp : Bool) (t : Team) : Team :=
  { t with hfrec := BitVec.ofNat 32 (fault.1 % 1024 + 65536 * faultCode fault.2.1 + (if xp then 2 ^ 24 else 0)),
           hfiter := BitVec.ofNat 32 fault.2.2.1 }

/-- The fault that the recruiter takes. -/
def helperFlt (fault : Nat × Code × Nat × Addr) : Flt :=
  wholeFlt (if fault.2.1 = .HCOLOUR then .HCOLOUR else .HFAULT) fault.2.2.2

def hwaitBody (f : Fmt) (fl : Nat) (v s : State) : Res :=
  let r := s.team.recruit
  let me : Role := .helper v.team.id
  let finish := fun (q : Bool) (s : State) => (s.modTeam fun t => endFlight t fl).writeQ f.d.toNat q
  if v.diverged then .raise (wholeFlt .UDIV)
  else if r.state = .none then .done (finish false s)
  else if r.group.isSome then .stay (s.modSplit fun x => { x with park := .helpers, buffer := false })
  else match r.fault with
    | some e => .failing (fun s => (s.afterGroup me).modTeam fun t => helperRecord e false { t with recruit := {} }) (helperFlt e)
    | none =>
      if r.state != .cancelled && r.remains then
        .done (finish true (s.modTeam fun t => { t with recruit := { r with state := .released } }))
      else
        let s := r.targets.foldl (landTarget r) s
        .done (finish false ((s.afterGroup me).modTeam fun t => { t with recruit := {} }))

def hrelBody (_f : Fmt) (v s : State) : Res :=
  if v.diverged then .raise (wholeFlt .UDIV)
  else .done (s.modTeam fun t =>
    if t.recruit.state = .none then t else { t with recruit := { t.recruit with state := .cancelled, returned := [] } })

def hexitBody (f : Fmt) (v s : State) : Res :=
  if !v.inHelper then .raise (wholeFlt .ILLENC)
  else .done (s.leave (activeMask f v))

/-- HELPER_ABANDON_TIMEOUT (R145): helpers whose lanes were reclaimed 4,096 cycles ago are stopped. -/
def State.abandonLate (s : State) (gid : Nat) : State :=
  match s.findTeam gid with
  | none => s
  | some g =>
    let late := maskOf ((g.lent.filter fun x => x.reclaimed.any fun c => decide (c + 4096 ≤ s.cycle)).map Lent.helper)
    if late = 0 then s else s.stopHelpers gid (match g.role with | .drafted _ => g.live | _ => late)

def execRecruit (f : Fmt) (s : State) : Out := later (.recruit f) f recruitBody s
def execHnext (f : Fmt) (s : State) : Out := later (.hnext f) f hnextBody s
def execHred (f : Fmt) (s : State) : Out := later (.hred f) f hredBody s
def execHwait (f : Fmt) (s : State) : Out := later (.hwait f) f hwaitBody s
def execHrel (f : Fmt) (s : State) : Out := straight (.hrel f) f (.fixed 0) (fun _ v s => hrelBody f v s) s
def execHexit (f : Fmt) (s : State) : Out := straight (.hexit f) f (.fixed 0) (fun _ v s => hexitBody f v s) s

end Sys2Proof.Machine
end

