-- ==== Sys2Proof/Machine/Expand.lean ====
section
/-! DEFINITION. The expand unit (R149 to R157, R232). -/
namespace Sys2Proof.Machine

/-! ### Opening (R149 to R151) -/

/-- Expansions that the resident teams of a core have open, of the unit's 16. -/
def State.openExpansions (s : State) (c : Nat) : Nat :=
  (s.allTeams.filter fun t => t.core == c && !t.out && t.expand.isSome).length

/-- The owners with their offset bases, and the total. -/
def ownersOf : List (Nat × Word × Nat) → Nat → List SegOwner × Nat
  | [], n => ([], n)
  | (l, st, ln) :: r, n =>
    let (os, t) := ownersOf r (n + ln)
    (if ln = 0 then os else { lane := l, start := st, base := n, len := ln } :: os, t)

/-- A length: negative ones count as 0. -/
def lengthOf (w : Word) : Nat := w.toInt.toNat

/-- Whether the unit lets the executing team open an expansion now: a free place, and no earlier request (R149). -/
def State.mayOpen (s : State) : Bool :=
  decide (s.openExpansions s.team.core < 16) &&
    match (s.core s.team.core).expanders with
    | [] => true
    | w :: _ => w.team == s.team.id

/-- The executing team's request leaves the unit's list. -/
def State.unlist (s : State) : State :=
  s.modCore s.team.core fun c => { c with expanders := c.expanders.filter fun w => w.team != s.team.id }

/-- `xpand` and, with a body address, `xpand.n`. -/
def xpandBody (body : Option Addr) (f : Fmt) (v s : State) : Res :=
  let t := v.team
  let m := activeMask f v
  let ls := lanesOf t.n m
  let (os, total) := ownersOf (ls.map fun l => (l, rawA f v l, lengthOf (rawB f v l))) 0
  if !tagsOk v (varA f ++ varB f) [.i32, .raw] then .raise (wholeFlt .TAGMIS)
  else if t.expand.isSome then .raise (wholeFlt .ILLENC)
  else if 2 ^ 31 ≤ total then .raise (wholeFlt .AFFOVF)
  else if !v.mayOpen then
    let s := s.modSplit fun x => { x with park := .expandUnit, buffer := false }
    .stay (if (v.core t.core).expanders.any fun w => w.team == t.id then s
      else s.modCore t.core fun c => { c with expanders := c.expanders ++ [{ team := t.id, split := v.split.id }] })
  else
    let e : Expansion := { w := ls.length, workers := m, owners := os, total := total }
    let s := s.unlist.modTeam fun t => { t with expand := some e, own := [], xshort := false }
    match body with
    | none => .done s
    | some a =>
      let lanes := v.idleLanes true
      if v.refusal.isSome || lanes.length < e.w || v.freeSets t.core < e.w then .done s
      else
        let (g, s) := s.formGroup (.drafted t.id) (lanes.take e.w) a ((lowestLane t.n v.split.mask).getD 0)
        .done (s.modTeam fun t => { t with expand := some { e with group := some g } })

/-- Grants a freed place to the oldest request (R149): its team tries again. -/
def State.grantExpand (s : State) (c : Nat) : State :=
  match (s.core c).expanders with
  | [] => s
  | w :: _ =>
    if s.openExpansions c < 16 then
      match (s.findTeam w.team).bind fun t => t.every.find? fun x => x.id == w.split && x.park == .expandUnit with
      | some x => s.clearPark w.team x.id
      | none => s
    else s

/-! ### Waves (R152, R154) -/

/-- The expansion that the executing group works in. -/
def State.expansion (s : State) : Option Expansion :=
  match s.team.role with
  | .main => s.team.expand
  | .drafted r => (s.findTeam r).bind Team.expand
  | .helper _ => none

/-- Changes the owning team of the executing group. -/
def State.modOwner (s : State) (g : Team → Team) : State :=
  match s.team.role with
  | .main => s.modTeam g
  | .helper r | .drafted r => s.modTeamId r g

/-- One buffered result reaches its owner's register, unless the owner has left the live mask. -/
def applySegment (t : Team) (g : Segment) : Team :=
  if t.live.getLsbD g.owner then
    let k := 1024 * g.reg + g.owner
    { t with v := t.v.set 0 k (redStep g.op g.rnd (t.v.get 0 k) g.value) }
  else t

/-- Applies closed waves in ascending number, as far as they go. -/
def applyWaves : Nat → Team → Team
  | 0, t => t
  | fuel + 1, t =>
    match t.expand with
    | none => t
    | some e =>
      if e.closed.contains e.applied || e.empty.contains e.applied then
        let t := (e.segments.filter fun g => g.wave == e.applied).foldl applySegment t
        applyWaves fuel { t with expand := some { e with applied := e.applied + 1, closed := e.closed.filter (· != e.applied),
                                                         segments := e.segments.filter fun g => g.wave != e.applied } }
      else t

/-- Applies what closed waves of a team there are to apply: a wave that is not dealt again counts as closed (R155). -/
def settleWaves (t : Team) : Team :=
  match t.expand with
  | some e => applyWaves (e.next + 1) t
  | none => t

/-- Closes a wave and applies what may be applied. -/
def closeWave (k : Option Nat) (t : Team) : Team :=
  match k, t.expand with
  | some k, some e => applyWaves (e.next + 1) { t with expand := some { e with closed := e.closed ++ [k] } }
  | _, _ => t

/-- The current wave of the executing group. -/
def currentWave (v : State) (e : Expansion) : Option Nat := if v.inHelper then e.gcurrent else e.current

/-- Closes the executing group's current wave. -/
def State.closeCurrent (s : State) : State :=
  let helper := s.inHelper
  s.modOwner fun t =>
    match t.expand with
    | none => t
    | some e =>
      let k := if helper then e.gcurrent else e.current
      closeWave k { t with expand := some (if helper then { e with gcurrent := none } else { e with current := none }) }

/-- The next wave to deal, and the expansion after it (R152, R155, R157). -/
def nextWave (helper : Bool) (e : Expansion) : Option Nat × Expansion :=
  if helper && e.ending then (none, e)
  else match e.returned with
    | k :: r => (some k, { e with returned := r })
    | [] => (some e.next, { e with next := e.next + 1 })

/-- What a worker is dealt: the value, the offset and the owner of its iteration. -/
def dealt (e : Expansion) (k : Option Nat) (w : Nat) : Option (Word × Word × Word) :=
  k.bind fun k =>
    let n := k * e.w + w
    if n < e.total then
      (e.owners.find? fun o => decide (o.base ≤ n) && decide (n < o.base + o.len)).map fun o =>
        (o.start + BitVec.ofNat 32 (n - o.base), BitVec.ofNat 32 (n - o.base), BitVec.ofNat 32 o.lane)
    else none

/-- Deals a wave to the executing group. -/
def dealWave (f : Fmt) (fl : Nat) (pc : Addr) (s : State) (e : Expansion) : State :=
  let helper := s.inHelper
  let again := !helper && e.replay
  let (k, e') := if again then (e.current, { e with replay := false }) else nextWave helper e
  let e' := if helper then { e' with gcurrent := k }
    else { e' with current := k, opened := pc, first := s.nextId, link := s.split.link, depth := s.team.dflen, nested := s.team.handler.isSome }
  let s := s.modOwner fun t => { t with expand := some e' }
  let workers := if helper then s.team.live else e.workers
  let ls := lanesOf s.team.n workers
  let got := ls.mapIdx fun w l => (l, dealt e k w)
  let some1 := got.filterMap fun x => x.2.map fun d => (x.1, d.1)
  let some2 := got.filterMap fun x => x.2.map fun d => (x.1, d.2.1)
  let tag := if some1.isEmpty then none else some Tag.i32
  let s := s.modTeam fun t =>
    { t with own := got.foldl (fun (m : SMap Word) x => m.set 0 x.1 ((x.2.map fun d => d.2.2).getD 0xFFFFFFFF)) t.own }
  putLater fl [.lanes f.d.toNat tag some1, .lanes f.a.toNat tag some2, .preds f.b.toNat (got.map fun x => (x.1, x.2.isSome))] s

def xnextBody (f : Fmt) (fl : Nat) (v s : State) : Res :=
  match s.expansion with
  | none => .raise (wholeFlt .ILLENC)
  | some e =>
    let workers := if v.inHelper then v.team.live else e.workers
    if v.split.mask != workers then .raise (wholeFlt .UDIV)
    else
      let s' := if !v.inHelper && e.replay then s else s.closeCurrent
      if s'.expansion.any fun e => decide (64 < e.closed.length) then notYet s
      else if v.inHelper && leaving v.team != 0 then .done (s'.leave v.team.live)
      else match s'.expansion with
        | none => .done s'
        | some e => .done (dealWave f fl v.split.pc s' e)

/-! ### `segred` (R153) -/

/-- The segment of each owner: the values of its lanes folded from left to right. -/
def segmentsOf (q : Nat) (rnd : Rnd) : List (Nat × Word) → List (Nat × Word) := List.foldl (contribute q rnd) []

def segredBody (f : Fmt) (fl : Nat) (v s : State) : Res :=
  let q := f.x.qual.toNat
  let tag : Tag := if q = 6 then .f32 else .i32
  match s.expansion with
  | none => .raise (wholeFlt .ILLENC)
  | some e =>
    match currentWave v e with
    | none => .raise (wholeFlt .ILLENC)
    | some k =>
      if !redHeld f v then .raise (wholeFlt .ILLENC)
      else if !tagIn v f.a.toNat [tag] || v.owner.tags.get .raw (redReg f v) != tag then .raise (wholeFlt .TAGMIS)
      else
        let own := fun l => v.team.own.get 0 l
        let ls := (activeLanes f v).filter fun l => own l != 0xFFFFFFFF && (v.inHelper || e.workers.getLsbD l)
        let xs := segmentsOf q f.x.rnd (ls.map fun l => ((own l).toNat, v.readV f.a.toNat l))
        let segs := xs.map fun x => ({ wave := k, reg := redReg f v, op := q, rnd := f.x.rnd, owner := x.1, value := x.2 } : Segment)
        let mix := segs.map fun g => 1024 * g.reg + g.owner
        .done ((s.modOwner fun t => { t with expand := t.expand.map fun e => { e with segments := e.segments ++ segs, mixed := e.mixed ++ mix } }).modTeam
          fun t => endFlight t fl)

/-! ### `xend` (R155) -/

/-- Whether some wave below ceil(T / W) has contributed nothing. -/
def fellShort (e : Expansion) : Bool :=
  let n := (e.total + e.w - 1) / max 1 e.w
  e.empty.any (· < n) || e.returned.any (· < n) || decide (e.next < n)

/-- The expansion closes: waves left open or returned count as empty, the rest are applied, the drafted group's entries are older. -/
def State.closeExpansion (s : State) (e : Expansion) : State :=
  let s := s.closeCurrent.modTeam fun t => closeWave (t.expand.bind Expansion.gcurrent) t
  let s := s.modTeam fun t =>
    applyWaves (e.next + 1) { t with expand := t.expand.map fun e => { e with empty := e.empty ++ e.returned } }
  (s.afterGroup (.drafted s.team.id)).modTeam fun t => { t with expand := none, own := [], xshort := fellShort e }

def xendBody (_f : Fmt) (v s : State) : Res :=
  match v.team.expand with
  | none => .raise (wholeFlt .ILLENC)
  | some e =>
    if v.split.mask != e.workers then .raise (wholeFlt .UDIV)
    else
      let s := (if e.replay then s else s.closeCurrent).modTeam fun t => { t with expand := t.expand.map fun e => { e with ending := true } }
      if e.group.isSome then again s
      else
        match e.fault with
        | some x => .failing (fun s => (s.closeExpansion e).modTeam (helperRecord x true)) (helperFlt x)
        | none => .done (s.closeExpansion e)

def execXpand (f : Fmt) (s : State) : Out := straight (.xpand f) f (.fixed 0) (fun _ v s => xpandBody none f v s) s
def execXpandN (f : Fmt) (s : State) : Out :=
  straight (.xpandN f) f (.fixed 0) (fun _ v s => xpandBody (some (v.readD f.d.toNat)) f v s) s
def execXnext (f : Fmt) (s : State) : Out := later (.xnext f) f xnextBody s
def execSegred (f : Fmt) (s : State) : Out := later (.segred f) f segredBody s
def execXend (f : Fmt) (s : State) : Out := straight (.xend f) f (.fixed 0) (fun _ v s => xendBody f v s) s

end Sys2Proof.Machine
end

