-- ==== Sys2Proof/Machine/Formats.lean ====
section
/-! DEFINITION. Narrow formats, block codes and conversions as values (R65, R258 to R262, R267 to R270). -/
namespace Sys2Proof

/-! ### Numbers of any type -/

/-- The width of one element of a type (R258). -/
def Ty.elemBits : Ty → Nat
  | .i64 | .z64 => 64
  | .bf16 | .f16 | .i16 | .z16 => 16
  | .f8e4 | .f8e5 | .i8 | .z8 => 8
  | .i4 | .b4 => 4
  | _ => 32

/-- The float format of a type (R259). -/
def Ty.format : Ty → FFmt
  | .bf16 => .bf16
  | .f16 => .f16
  | .f8e4 => .f8e4
  | .f8e5 => .f8e5
  | _ => .f32

def Ty.isFloat (t : Ty) : Bool := t = .f32 || t.isNarrowFloat

/-- A source of a conversion: an exact integer or a float value. -/
inductive Num where
  | int (x : Int)
  | flt (x : FVal)
  deriving DecidableEq, Repr

/-- The value of an element after the modifiers of R32. -/
def numOf (t : Ty) (ab ng : Bool) (x : Nat) : Num :=
  if t.isFloat then .flt (t.format.decode (modFloat ab ng (BitVec.ofNat t.elemBits x)).toNat)
  else .int (valOf t.unsigned (modInt ab ng (BitVec.ofNat t.elemBits x)))

/-- `cvt` (R65, R267): the bits of the destination type. -/
def cvtBits (t : Ty) (x : XWord) (n : Num) : Nat :=
  match n with
  | .int i =>
    if t.isFloat then t.format.finish x.rnd x.clamp (scaleOf x) (intVal i)
    else (wrapsat t.elemBits t.unsigned (x.clamp = .sat) i).toNat
  | .flt v =>
    if t.isFloat then t.format.finish x.rnd x.clamp (scaleOf x) v
    else (BitVec.ofInt t.elemBits (floatToInt x.rnd (loOf t.elemBits t.unsigned) (hiOf t.elemBits t.unsigned) (v.scale (scaleOf x)))).toNat

/-- Element j of width w of a word (R258). -/
def elemOf (w j : Nat) (x : Word) : Nat := x.toNat / 2 ^ (w * j) % 2 ^ w

/-- A word with element j of width w replaced. -/
def setElem (w j : Nat) (x : Word) (e : Nat) : Word :=
  let mask : Word := BitVec.ofNat 32 ((2 ^ w - 1) * 2 ^ (w * j))
  (x &&& ~~~mask) ||| (BitVec.ofNat 32 (e % 2 ^ w * 2 ^ (w * j)) &&& mask)

/-! ### Block codes (R262, R268, R269) -/

/-- The magnitudes of a block type's codes 0 to 7, in units of 1/`blockUnit`. -/
def blockMags (t : Nat) : List Nat :=
  match t with
  | 0 => [0, 1, 2, 3, 4, 5, 6, 7]
  | 1 => [0, 1, 2, 3, 4, 6, 8, 12]
  | 2 => [0, 1, 2, 4, 8, 16, 32, 64]
  | _ => [0, 1, 2, 3, 5, 8, 12, 16]

/-- log2 of the unit: E2M1 in halves, powers of two in eighths. -/
def blockShift (t : Nat) : Nat :=
  match t with
  | 1 => 1
  | 2 => 3
  | _ => 0

/-- v(code) × 2^k exactly; type 00 reads two's complement. -/
def blockVal (t code : Nat) (k : Int) : FVal :=
  let neg := code / 8 % 2 == 1
  if t = 0 then .fin neg (if neg then 16 - code % 16 else code % 16) k
  else .fin neg ((blockMags t).getD (code % 8) 0) (k - blockShift t)

/-- The code of a sign and a magnitude's index; a zero result is code 0. -/
def blockCode (t : Nat) (neg : Bool) (i : Nat) : Nat :=
  if i = 0 then 0 else if t = 0 then (if neg then 16 - i else i) else if neg then 8 + i else i

/-- The index of the magnitude that |q| = m × 2^e rounds to (R268). -/
def blockRound (t : Nat) (rnd : Rnd) (neg : Bool) (m : Nat) (e : Int) : Nat :=
  let k := e + blockShift t
  let n := m * 2 ^ k.toNat
  let d := 2 ^ (-k).toNat
  let mags := blockMags t
  let i := ((List.range 8).filter fun j => decide (mags.getD j 0 * d ≤ n)).length - 1
  if i ≥ 7 then 7
  else
    let lo := mags.getD i 0 * d
    let hi := mags.getD (i + 1) 0 * d
    if n = lo then i
    else match rnd with
      | .rz => i
      | .rpi => if neg then i else i + 1
      | .rmi => if neg then i + 1 else i
      | .rne => if 2 * n < lo + hi then i else if lo + hi < 2 * n then i + 1 else if i % 2 = 0 then i else i + 1

/-- `pack4` on one value under a scale byte (R268). -/
def pack4 (y : Nat) (rnd : Rnd) (x : FVal) : Nat :=
  let t := y / 64 % 4
  let e := y % 64
  match x with
  | .nan => 0
  | .inf neg => if e = 63 then 0 else blockCode t neg 7
  | .fin neg m ex => if e = 63 then 0 else blockCode t neg (blockRound t rnd neg m (ex + 32 - e))

/-- `unpk4` of one code under a scale byte (R269). -/
def unpk4 (y code : Nat) : Word :=
  if y % 64 = 63 then 0x7FC00000
  else BitVec.ofNat 32 (FFmt.f32.round .rne false (blockVal (y / 64 % 4) code ((y % 64 : Nat) - 32 : Int)))

/-- The largest magnitude M of a block type. -/
def blockMax (t : Nat) : Nat :=
  match t with
  | 0 => 7
  | 1 => 6
  | 2 => 8
  | _ => 16

/-- The scale byte of `mksc` (R270). -/
def mkScale (t : Nat) (x : Word) : Nat :=
  let e :=
    match f32Of x with
    | .fin _ m ex =>
      ((List.range 63).find? fun e : Nat =>
        FVal.cmp (.fin false m ex) (.fin false (blockMax t) ((e : Int) - 32)) != .gt).getD 62
    | _ => 63
  t * 64 + e

end Sys2Proof
end

