-- ==== Sys2Proof/Machine/Engines.lean ====
section
/-! DEFINITION. Engine commands: counters, element moves, engine faults, completion (R189, R209, R213, R237 to R240, R242, R319,
R356), and the instructions `ldline`, `tshape`, `tcopy`, `waitcnt` and `cntrd` (R223, R238, R242). -/
namespace Sys2Proof.Machine

/-! ### Counters (R237) -/

/-- A team's engine counter of a class. -/
def State.counter (s : State) (tid cls : Nat) : Nat := (s.commands.filter fun c => c.cls == cls && c.counts.contains tid).length

/-- Complete commands stop counting once every older one of their class has; commands that count for no team are gone. -/
def sweepCounts : List Command → List Command → List Command
  | _, [] => []
  | before, c :: r =>
    let blocked := fun t => before.any fun d => d.cls == c.cls && d.counts.contains t
    let c' := if c.complete then { c with counts := c.counts.filter blocked } else c
    c' :: sweepCounts (before ++ [c']) r

def State.sweep (s : State) : State :=
  { s with commands := (sweepCounts [] s.commands).filter fun c => !(c.complete && c.counts.isEmpty) }

def State.modCommand (s : State) (id : Nat) (g : Command → Command) : State :=
  { s with commands := s.commands.map fun c => if c.id = id then g c else c }

/-! ### Engine faults (R240) -/

/-- Records a command's first failure; while one is undelivered, only `engst.more` is set. -/
def postFailure (cls : Nat) (code : Code) (a : Addr) (n : Nat) (t : Team) : Team :=
  let more := BitVec.ofNat 32 (2 ^ 18)
  if t.engst.extractLsb' 0 4 != 0 then { t with engst := t.engst ||| more }
  else
    { t with engst := BitVec.ofNat 32 (2 ^ cls + 2 ^ 8 * faultCode code + 2 ^ 16 * cls) ||| (if 1 < n then more else t.engst &&& more),
             engaddr := a }

/-- A command completes: its failure is posted, its flags fall, its counters may fall (R237, R240). -/
def State.completeCommand (s : State) (c : Command) : State :=
  let s := match c.fault with
    | some (code, a) => s.modTeamId c.team (postFailure c.cls code a c.failures)
    | none => s
  let s := c.flights.foldl (fun s x => s.modTeamId x.1 (landEffect x.2)) s
  (s.modCommand c.id fun c => { c with complete := true }).sweep

/-! ### The elements of a command (R223, R242, R280, R289) -/

/-- What an element reads and writes; `bytes` counts both. -/
structure Elem where
  read  : Option (Space × Addr) := none
  write : Option (Space × Addr) := none
  bytes : Nat
  deriving DecidableEq, Repr

/-- The byte size of a drained element (R289). -/
def drainSize (t : Ty) : Nat :=
  match t with
  | .bf16 | .f16 => 2
  | .f8e4 | .f8e5 => 1
  | _ => 4

/-- The fields of `mdrain`'s control word: first row, count, columns, pitch in bytes (R277). -/
def drainRow (ctl : Word) : Nat := ctl.toNat % 16
def drainCount (ctl : Word) : Nat := ctl.toNat / 16 % 32
def drainCols (ctl : Word) : Nat := if ctl.getLsbD 9 then 256 else 512
def drainPitch (ctl : Word) : Nat := ctl.toNat / 65536 * 16

/-- Element n of a command. -/
def elementOf (c : Command) (n : Nat) : Elem :=
  match c.kind with
  | .copy r ss src ds dst _ _ =>
    { read := some (ss, src + strideSum r shapeSource (shapeDims r) 0 n), write := some (ds, dst + strideSum r shapeDest (shapeDims r) 0 n),
      bytes := shapeElem r }
  | .line spc _ _ _ _ _ ranks => { read := some (spc, (ranks.getD n (0, [])).1), bytes := 128 }
  | .loadMacro _ _ spc base => { read := some (spc, base + BitVec.ofNat 64 (128 * n)), bytes := 128 }
  | .drain _ spc base ctl f =>
    let w := drainSize f.x.ty
    let k := drainCols ctl
    { write := some (spc, base + BitVec.ofNat 64 (n / k * drainPitch ctl + n % k * w)), bytes := w }
  | _ => { bytes := 0 }

/-- Whether the shadow of a macro that a load writes is not yet there: an exchange queued before the load is to come (R281). -/
def State.swapAhead (s : State) (c : Command) : Bool :=
  match c.kind with
  | .loadMacro m .. => (s.core c.core).matrix.queue.any fun u => match u with
    | .swap id mask _ => decide (id < c.id) && mask.testBit m
    | _ => false
  | _ => false

/-- Whether a command may move: its older entries are performed, and a drain's turn has come (R209, R291). -/
def State.started (s : State) (c : Command) : Bool := c.ready && c.older.all s.entryGone && !s.swapAhead c

/-! ### Reaching memory (R161, R189, R240, R242, R343) -/

/-- What an element's access comes to; a stop names the first byte of the part that it stops (R173). -/
inductive Reach where
  | ok (keys : List Nat) (kid : Nat)
  | peer (pa : Nat)
  | driver (va : Addr)
  | page (n : Nat) (va : Addr)
  | fail (c : Code) (va : Addr)
  | refused (v : Viol)
  | wait
  deriving DecidableEq, Repr

/-- An entry of the violation log for an element. -/
def State.violOfElement (s : State) (c : Command) (va : Addr) (write : Bool) (r : Refused) : Viol :=
  { part := c.part, addr := r.addr, va := va, who := c.core, unit := 0x80 + c.cls, kind := if write then 5 else 4, key := r.key,
    cause := r.cause, die := s.dieOf c.core }

/-- Whether a byte of an element has a colour that the command does not carry (R189). -/
def State.strangeColour (s : State) (c : Command) (va : Addr) (n : Nat) : Bool :=
  (List.range n).any fun i => let k := s.colourOf c.ctx (va + BitVec.ofNat 64 i); k != 0 && !c.held.contains k

/-- Whether a link to a peer device is up. -/
def State.peerUp (s : State) (device : Nat) : Bool := s.peers.any fun p => p.2 == device + 1

/-- The launch of a command's block. -/
def State.launchOf (s : State) (c : Command) : Nat := ((s.findBlock c.block).map Block.launch).getD 0

/-- Whether a half-moved element of a command passed its check under a key identifier that is being retired (R338); `moving` is then that
element's alone. -/
def Command.graced (c : Command) (s : State) : Bool := c.moving.any fun x => x.2.any fun y => s.retiring.contains y.1

/-- Checks the part of an element that lies in one page; `peer` says whether the command's base lies in a peer aperture. -/
def State.reachPart (s : State) (c : Command) (write peer : Bool) (x : Addr × Nat) : Reach :=
  let va := x.1
  if !canonical va then .fail .XLATE va
  else match s.translated (!c.graced s) c.ctx (s.launchOf c) c.part c.core (if write then .engineWrite else .engineRead) va with
  | .driver => .driver va
  | .wait => .wait
  | .fault k => .fail k va
  | .refused r => .refused (s.violOfElement c va write r)
  | .ok p =>
    let far := decide (2 ^ 51 ≤ p.key) && decide (p.key < 2 ^ 52)
    if far != peer || (far && !s.peerUp (p.key / 2 ^ 46 % 32)) || (!far && s.hardwareArea c.ctx va x.2) then .fail .PERM va
    else match p.host.bind fun h => if s.owns h then none else some h with
    | some h => .page h va
    | none =>
      if s.strangeColour c va x.2 then .fail .CENGINE va
      else if far then .peer p.key else .ok ((List.range x.2).map (p.key + ·)) p.kid

/-- The answer for several parts: the first that stops, else every location. -/
def joinReach : List Reach → Reach
  | [] => .ok [] 0
  | [r] => r
  | .ok ks kid :: r =>
    match joinReach r with
    | .ok l _ => .ok (ks ++ l) kid
    | x => x
  | .peer pa :: r =>
    match joinReach r with
    | .peer _ => .peer pa
    | x => x
  | x :: _ => x

/-- Checks an element's access; `peer` says whether its base lies in a peer aperture. -/
def State.reach (s : State) (c : Command) (x : Space × Addr) (n : Nat) (write peer : Bool) : Reach :=
  let va := x.2
  match x.1 with
  | .sp =>
    let size := ((s.findBlock c.block).map Block.spsize).getD 0
    if va.toNat + n > size then .fail .PERM va else .ok ((List.range n).map fun i => padKey c.block (va.toNat + i)) 0
  | .vn | .va =>
    let t : Team := { core := c.core, part := c.part, slot := c.slot, vwin := (s.descOf c.ctx (s.launchOf c)).vwin }
    match vaultAt s t x.1 va n with
    | .ok (k, off) => .ok ((List.range n).map fun i => vaultKey k (off + i)) 0
    | .error (.refused v) => .refused { v with kind := if write then 5 else 4, unit := 0x80 + c.cls }
    | .error _ => .fail .PERM va
  | .pv => .fail .PERM va
  | .g => joinReach ((splitPage va n).map (s.reachPart c write peer))

/-! ### Performing an element (R209, R213, R319, R356) -/

/-- The pieces of an element: what lies in one aligned block of 16 bytes is read and written at once, an element of a size and place that
makes it single-copy atomic whole (R78, R223, R242). -/
def piecesOf (va : Addr) (n : Nat) : Nat → List (Nat × Nat)
  | 0 => []
  | fuel + 1 =>
    let room := 16 - va.toNat % 16
    if n ≤ room then [(0, n)] else (0, room) :: (piecesOf (va + BitVec.ofNat 64 room) (n - room) fuel).map fun p => (p.1 + room, p.2)

/-- The piece of an access that starts at an offset. -/
def pieceAt (va : Addr) (n off : Nat) : Nat := ((piecesOf va n (n / 16 + 2)).find? fun p => p.1 == off).elim (n - off) Prod.snd

/-- A piece of an element as the order machine's entry: its domain, home and key identifier are those of its own page (R173). -/
def State.asEntry (s : State) (c : Command) (x : Space × Addr) (keys : List Nat) (kid : Nat) : Entry :=
  let dom := if x.1 = .g then domainOf (s.part c.part) x.2 (keys.any fun k => decide (2 ^ 54 ≤ k)) else .package
  { id := 0, team := c.team, core := c.core, kind := .load, locs := keys, va := x.2, dom := dom, key := kid,
    inside := dom != .die || s.homeFor (s.dieOf c.core) (keys.headD 0) == s.dieOf c.core }

/-- The region entry that keeps an element's unit where it is (R178). -/
def State.elemPins (s : State) (c : Command) (x : Space × Addr) : Option (Nat × Nat) := if x.1 = .g then s.pins c.part x.2 else none

/-- Reads a byte of an element; one that the command itself has written is any of the values that R242 allows. -/
def State.elemByte (s : State) (c : Command) (e : Entry) (i k : Nat) : Byte :=
  let now := s.homeByte e i k
  match c.olds.get [] k with
  | [] => now
  | l => pick (s.free * 64 + i) now (now :: l)

/-- The messages of an access by an engine of a core: to the home and back (R327). -/
def State.elemTravel (s : State) (c : Command) (k : Nat) : State :=
  s.roundTrip (s.dieOf c.core) k

/-- Reads the bytes of a piece; a peer's memory is another device's, so its bytes are free. -/
def State.elemRead (s : State) (c : Command) (x : Space × Addr) (n : Nat) : Reach → List Byte × State
  | .ok ks kid =>
    let k := ks.headD (2 ^ 60)
    let e := s.asEntry c x ks kid
    let bs := ks.mapIdx (s.elemByte c e)
    (bs, (({ s with free := s.free + 1 }.noteRead e (ks.mapIdx (s.homeByte e))).touch k (s.dieOf c.core) (s.elemPins c x)).elemTravel c k)
  | .peer _ => (((List.range n).map fun i => BitVec.ofNat 8 (Config.freeNat (s.free * 64 + i))), { s with free := s.free + 1 })
  | _ => (List.replicate n 0, s)

/-- How many bytes of an element have been written. -/
def ElemState.written (n : Nat) : ElemState → Nat
  | .done => n
  | .out k _ => k
  | _ => 0

/-- A byte that a later element of the command has written already keeps that element's value (R242). -/
def supersededBy (c : Command) (n : Nat) (write : Space × Addr) (i : Nat) : Bool :=
  c.elems.any fun e => n < e.1 &&
    match (elementOf c e.1).write with
    | some (spc, a) => spc == write.1 && decide (a.toNat ≤ write.2.toNat + i) &&
        decide (write.2.toNat + i < a.toNat + e.2.written (elementOf c e.1).bytes)
    | none => false

/-- A piece of an element's write commits at its home (R204, R207). -/
def State.elemCommit (s : State) (c : Command) (x : Space × Addr) (kid : Nat) (bs : List (Nat × Byte)) : State :=
  let e := s.asEntry c x (bs.map Prod.fst) kid
  let k := (bs.head?.map Prod.fst).getD (2 ^ 60)
  let s := ((s.touch k (s.dieOf c.core) (s.elemPins c x)).elemTravel c k).sealLines kid (bs.map Prod.fst)
  let s := if e.dom = .core && e.locs.all cached then s.holdOwn c.core kid bs else s
  if !e.inside || !(e.locs.all cached) then (s.putBytes bs).standsOver e.locs
  else
    let (id, s) := s.fresh
    (s.commitWrite { die := some (s.dieOf c.core), since := s.cycle } id bs).modCommand c.id fun c => { c with writes := c.writes ++ [id] }

/-- Watchpoints: reports, and for the first match of each the hold and a pending WATCHPT, at the element's first watched byte (R319). -/
def State.elemWatch (s : State) (c : Command) (write : Space × Addr) (n : Nat) : State :=
  if write.1 != .g then s
  else
    let hits := watched (s.part c.part) c.ctx ((List.range n).map (write.2.toNat + ·))
    let s := s.reportWrites c.part c.ctx ((List.range n).map (write.2.toNat + ·)) 0 c.core (0x80 + c.cls) 1 (s.dieOf c.core)
    match hits.filter fun h => !c.seen.contains h.1 with
    | [] => s
    | h :: r =>
      let first := (h :: r).foldl (fun m y => if y.2.toNat < m.toNat then y.2 else m) h.2
      let s := s.modCommand c.id fun c => { c with hold := some (write.2.toNat / 256), seen := c.seen ++ (h :: r).map Prod.fst }
      s.modTeamId c.team fun t => { t with watchHits := t.watchHits ++ [(c.cls, first)] }

/-- The elements of a command that write a byte of a granule. -/
def writersOf (c : Command) (spc : Space) (g : Nat) : List Nat :=
  (List.range c.total).filter fun n =>
    match (elementOf c n).write with
    | some (sp', a) => sp' == spc && decide (a.toNat / 16 ≤ g) && decide (g ≤ (a.toNat + (elementOf c n).bytes - 1) / 16)
    | none => false

/-- A granule becomes full at the commit of the last of its elements, if none of them has failed (R213). -/
def State.elemFill (s : State) (id : Nat) (write : Space × Addr) (n : Nat) (keys : List Nat) : State :=
  match s.commands.find? fun c => c.id == id with
  | none => s
  | some c =>
    if write.1 = .g then s
    else
      let gs := ((List.range n).map fun i => ((write.2.toNat + i) / 16, keys.getD i 0)).foldl
        (fun (acc : List (Nat × Nat)) x => if acc.any fun y => y.1 == x.1 then acc else acc ++ [x]) []
      gs.foldl (fun s g => if (writersOf c write.1 g.1).all fun k => c.elems.get .todo k == .done then s.setFull g.2 true else s) s

/-- What an element's read delivers to: lanes of a register, or cells of a shadow copy (R223, R280). -/
def State.elemDeliver (s : State) (c : Command) (n : Nat) (bs : List Byte) : State :=
  match c.kind with
  | .line _ tid sid run reg tag ranks =>
    let lanes := (ranks.getD n (0, [])).2
    s.landFor tid sid run ((c.flights.head?.map Prod.snd).getD 0) [.lanes reg (some tag) (lanes.map fun l => (l, BitVec.ofNat 32 (field bs (4 * (l % 32)) 4)))]
  | .loadMacro m _ _ _ =>
    s.modCore c.core fun k =>
      let mac := k.matrix.macros.get {} m
      let sh := if n < 128 then { mac.shadow with cells := mac.shadow.cells.setList 0 (128 * n) bs }
                else { mac.shadow with scales := mac.shadow.scales.setList 0 (128 * (n - 128)) bs }
      { k with matrix := { k.matrix with macros := k.matrix.macros.set {} m { mac with shadow := sh } } }
  | _ => s

/-- An element fails; the first failure is kept for the completion (R240). -/
def failElement (n : Nat) (code : Code) (a : Addr) (c : Command) : Command :=
  { c with elems := c.elems.set .todo n .failed, moving := c.moving.set none n none, failures := c.failures + 1, fault := c.fault.or (some (code, a)) }

/-- An element's access that does not go through: it waits, or fails. A report of the driver names the element's first byte (R356). -/
def State.elemStop (s : State) (c : Command) (n : Nat) (write : Bool) : Reach → State
  | .driver va =>
    let first := ((if write then (elementOf c n).write else (elementOf c n).read).map Prod.snd).getD va
    let s := s.report c.ctx (s.launchOf c) first c.pc c.core c.slot (if write then 6 else 5) 0xFFFFFFFF 0 0xFFFFFFFF
    s.modCommand c.id fun c => { c with elems := c.elems.set .todo n .driver }
  | .page h _ => (s.askPage h).modCommand c.id fun c => { c with elems := c.elems.set .todo n (.page h) }
  | .fail code va => s.modCommand c.id (failElement n code va)
  | .refused v => (s.logViol v).modCommand c.id (failElement n .VIOL v.va)
  | _ => s

/-- Whether the access of an element goes through. -/
def Reach.open : Reach → Bool
  | .ok .. | .peer _ => true
  | _ => false

/-- Whether a peer turns an element away: its windows are the peer's (R344). -/
def State.peerRefuses (s : State) : Reach → Bool
  | .peer _ => Config.freeBit (s.free * 65536 + 49152)
  | _ => false

/-- What a copy's written locations have held, with one more element's bytes. -/
def State.noteOlds (s : State) (kid : Nat) (ks : List Nat) (bs : List Byte) (c : Command) : Command :=
  match c.kind with
  | .copy .. =>
    let one := fun (m : SMap (List Byte)) (b : Nat × Byte) =>
      m.set [] b.1 (match m.get [] b.1 with | [] => [s.byteAs kid b.1, b.2] | l => l ++ [b.2])
    { c with olds := (ks.zip bs).foldl one c.olds }
  | _ => c

/-- Sets how an element stands; one that is performed is no longer half moved. -/
def State.setElem (s : State) (c : Command) (n : Nat) (x : ElemState) : State :=
  s.modCommand c.id fun c => { c with elems := c.elems.set .todo n x, moving := if x = .done then c.moving.set none n none else c.moving }

/-- An element is half moved: the locations of its piece join those that it meets (R177, R338). -/
def State.noteMoving (s : State) (c : Command) (n : Nat) : Reach → State
  | .ok ks kid => s.modCommand c.id fun c =>
      { c with moving := c.moving.set none n (some (kid, ((c.moving.get none n).map Prod.snd).getD [] ++ ks)) }
  | _ => s

/-- Writes the piece of an element that starts at an offset; with the last one the element is performed, and granules become full (R213). -/
def State.elemWrite (s : State) (c : Command) (n : Nat) (x : Space × Addr) (peer : Bool) (off : Nat) (bs : List Byte) : State :=
  let m := pieceAt x.2 bs.length off
  let y := (x.1, x.2 + BitVec.ofNat 64 off)
  let piece := (bs.drop off).take m
  let last := decide (bs.length ≤ off + m)
  let r := s.reach c y m true peer
  let go := fun (s : State) => if last then s.setElem c n .done else (s.setElem c n (.out (off + m) bs)).noteMoving c n r
  match r with
  | .ok ks kid =>
    let out := ((ks.zip piece).mapIdx fun i b => (i, b)).filter fun b => !supersededBy c n y b.1
    let note := s.noteOlds kid ks piece
    let s := go ((if out.isEmpty then s else s.elemCommit c y kid (out.map Prod.snd)).modCommand c.id note)
    if !last then s
    else
      let s := match s.reach c x bs.length true peer with
        | .ok all _ => s.elemFill c.id x bs.length all
        | _ => s
      s.elemWatch c x bs.length
  | .peer pa =>
    let s := go { s with peerBytes := s.peerBytes.setList 0 pa piece }
    if last then s.elemWatch c x bs.length else s
  | r => s.elemStop c n true r

/-- What an element has read so far. -/
def ElemState.got : ElemState → Option (List Byte)
  | .todo => some []
  | .part l => some l
  | _ => none

/-- Whether element n may be performed now. -/
def State.mayMove (s : State) (c : Command) (n : Nat) : Bool :=
  let under := match c.elems.get .todo n with | .todo | .part _ | .out .. => true | _ => false
  !c.complete && decide (n < c.total) && under && s.started c &&
    match c.hold, (elementOf c n).write with
    | none, _ => true
    | some b, some (.g, a) => a.toNat / 256 == b
    | some _, _ => false

/-- Whether a side of a copy lies in a peer aperture. -/
def peerSides (c : Command) : Bool × Bool :=
  match c.kind with
  | .copy _ _ _ _ _ a b => (a, b)
  | _ => (false, false)

/-- Whether the way from a command's core to the home of an access is open, and its translation (R329). -/
def State.wayOpen (s : State) (c : Command) : Option Reach → Bool
  | some (.ok ks _) => !(ks.any cached) || ks.all (s.wayBetween (s.dieOf c.core))
  | some .wait => false
  | _ => true

/-- The translations that an element uses stay in the TLBs and the walk cache (R297). -/
def State.noteElem (s : State) (c : Command) : Option (Space × Addr) → State
  | some (.g, va) => s.noteTlb c.ctx (s.launchOf c) c.core va
  | _ => s

/-- ENGINE_ELEMENT (R209): one element access of a command is performed, or the next piece of one that is not single-copy atomic. -/
def State.moveElement (s : State) (id n : Nat) : State :=
  match s.commands.find? fun c => c.id == id with
  | none => s
  | some c =>
    if !s.mayMove c n then s
    else
      let e := elementOf c n
      let c := { c with moving := c.moving.filter fun x => x.1 == n }
      let (far, wfar) := peerSides c
      let rr := e.read.map fun x => s.reach c x e.bytes false far
      let wr := e.write.map fun x => s.reach c x e.bytes true wfar
      if !s.wayOpen c rr || !s.wayOpen c wr then s
      else
        let noted := ((s.noteElem c e.read).noteElem c e.write).tlb
        let moved : State := match rr.filter (!·.open), wr.filter (!·.open) with
        | some r, _ => s.elemStop c n false r
        | none, some r => s.elemStop c n true r
        | none, none =>
          match (rr.filter s.peerRefuses).bind fun _ => e.read, (wr.filter s.peerRefuses).bind fun _ => e.write with
          | some x, _ | none, some x => { (s.modCommand c.id (failElement n .VIOL x.2)) with free := s.free + 1 }
          | none, none =>
            match e.read, (c.elems.get .todo n).got, e.write with
            | some x, some got, w =>
              let off := got.length
              let m := pieceAt x.2 e.bytes off
              let y := (x.1, x.2 + BitVec.ofNat 64 off)
              let r := s.reach c y m false far
              let (bs, s) := s.elemRead c y m r
              let all := got ++ bs
              if off + m < e.bytes then (s.setElem c n (.part all)).noteMoving c n r
              else match w with
                | some z => s.elemWrite c n z wfar 0 all
                | none => (s.elemDeliver c n all).setElem c n .done
            | none, some _, some z => s.elemWrite c n z wfar 0 ((c.data.drop (n * e.bytes)).take e.bytes)
            | _, none, some z =>
              match c.elems.get .todo n with
              | .out off bs => s.elemWrite c n z wfar off bs
              | _ => s
            | _, _, _ => s
        { moved with tlb := noted }

/-! ### Completion of element commands -/

/-- Whether every element stands performed or failed, and every write is performed. -/
def State.allMoved (s : State) (c : Command) : Bool :=
  !c.complete && s.started c && (match c.kind with | .swap _ | .zero _ | .mul _ | .release _ => false | _ => true) &&
  decide ((c.elems.filter fun e => e.2 == .done || e.2 == .failed).length = c.total) &&
  c.writes.all fun w => !(s.unperf.any fun u => u.store == w)

/-- A load of a macro sets the shadow's format, none where an element failed (R280). -/
def State.finishLoad (s : State) (c : Command) : State :=
  match c.kind with
  | .loadMacro m ty _ _ =>
    s.modCore c.core fun k =>
      let mac := k.matrix.macros.get {} m
      let sh := { mac.shadow with format := if c.failures = 0 then ty else .dflt }
      { k with matrix := { k.matrix with macros := k.matrix.macros.set {} m { mac with shadow := sh } } }
  | _ => s

/-- Completes the element commands that are done. -/
def State.finishCommands (s : State) : State :=
  (s.commands.filter s.allMoved).foldl (fun s c => (s.finishLoad c).completeCommand c) s

/-! ### Issuing a command -/

/-- Whether a command accesses `.vn`. -/
def CmdKind.usesVn : CmdKind → Bool
  | .copy _ ss _ ds .. => ss = .vn || ds = .vn
  | .line spc .. | .loadMacro _ _ spc _ | .drain _ spc .. => spc = .vn
  | _ => false

/-- A command of the executing team, with its flight and what precedes it in team order. -/
def newCommand (v s : State) (fl cls : Nat) (kind : CmdKind) (total : Nat) (ready : Bool := true) : Nat × State :=
  let (id, s) := s.fresh
  let o := v.owner
  let c : Command :=
    { id := id, team := o.id, core := v.team.core, slot := v.team.slot, ctx := v.team.ctx, part := v.team.part, block := v.team.block,
      cls := cls, kind := kind, flights := [(v.team.id, fl)], counts := [o.id], pc := v.split.pc, held := o.held.map Prod.fst,
      older := s.split.older.filter fun e => !s.entryGone e, total := total, ready := ready }
  let s := s.noteVn kind.usesVn
  (id, { s with commands := s.commands ++ [c], team := holdFlight s.team fl 1 })

/-- An issuing instruction waits while its counter holds 63 (R237). -/
def counted (v s : State) (cls : Nat) (r : Res) : Res := if 63 ≤ v.counter v.owner.id cls then notYet s else r

/-- What stops an `ldline` at issue: the first fault of a rank's line, the lowest rank first. A line that meets the driver, a host page or an
error response of `.g` is an element that waits or fails (R242, R301, R356). -/
def lineStop (v s : State) (spc : Space) (ranks : List (Nat × Addr × List Nat)) : Option Res :=
  ranks.findSome? fun x =>
    match v.checkLane spc .load 128 false x.1 x.2.1 with
    | .error (.fault c) => some (.raise (laneFlt c x.2.1 x.1))
    | .error (.refused r) => if spc = .g then none else some (.refuse (laneFlt .VIOL x.2.1 x.1) r)
    | .error .wait => some (notYet s)
    | .error .driver | .ok _ => none

/-- `ldline` (R223, R224). -/
def ldlineBody (f : Fmt) (fl : Nat) (v s : State) : Res :=
  let ls := activeLanes f v
  let ranks := (List.range 32).filterMap fun j =>
    match ls.filter fun l => l / 32 == j with
    | [] => none
    | l :: r => some (l, memAddr f v l &&& ~~~127, l :: r)
  if !addrTags f v then .raise (wholeFlt .TAGMIS)
  else counted v s 2
    (match lineStop v s (spaceOf f) ranks with
      | some r => r
      | none =>
        let s := putUnknown fl [.v f.d.toNat] (s.setTag f.d.toNat (memTag f.x.ty))
        .done (newCommand v s fl 2 (.line (spaceOf f) v.team.id v.split.id v.split.begun f.d.toNat (memTag f.x.ty) (ranks.map Prod.snd)) ranks.length).2)

/-- The parts of a card or shape record, each under its own page (R173): the first stop, at the first byte of its part, or the parts. -/
def recordParts (v : State) : Nat → List (Addr × Nat) → State → Except Res (State × List Loc)
  | _, [], s => .ok (s, [])
  | i, p :: r, s =>
    match State.gate v s .g .load p.2 false false false [(0, p.1)] with
    | .res x => .error x
    | .go s ls =>
      match recordParts v (i + 1) r s with
      | .ok (s, more) => .ok (s, (ls.map fun (x : Loc) => { x with lane := i }) ++ more)
      | .error e => .error e

/-- An access of a card or shape record: 64-byte aligned, checked under R161, every colour held (R242, R249). -/
def recordGate (v s : State) (va : Addr) (n : Nat) : Entry? :=
  if !canonical va then .res (.raise (laneFlt .XLATE va 0))
  else if va.toNat % 64 != 0 then .res (.raise (laneFlt .ALIGN va 0))
  else match recordParts v 0 (splitPage va n) s with
  | .error r => .res r
  | .ok (s, ls) =>
    let held := v.team.held.map Prod.fst
    match (List.range n).find? fun i => let c := v.colourOf v.team.ctx (va + BitVec.ofNat 64 i); c != 0 && !held.contains c with
    | some i => .res (.raise (laneFlt .PERM (va + BitVec.ofNat 64 i) 0))
    | none => .go s ls

/-- `tshape` (R242). -/
def tshapeBody (f : Fmt) (fl : Nat) (v s : State) : Res :=
  let pool := f.len = .l128
  let va := if pool then pcRel v.split.pc f.imm else baseAddr f v
  if v.diverged then .raise (wholeFlt .UDIV)
  else if pool && va.toNat % 64 = 0 && !inPool v.team va 256 then .raise (laneFlt .PERM va 0)
  else match recordGate v s va 256 with
    | .res r => r
    | .go s ls =>
      .done (putUnknown fl (Fmt.qReg f.d.toNat)
        (enterAll { kind := fun _ => .shape f.x.qual.toNat f.d.toNat, flight := fl } ls s))

/-- Whether a base address lies in a peer aperture (R242, R343). -/
def State.inAperture (s : State) (cx launch : Nat) (spc : Space) (va : Addr) : Bool :=
  spc = .g && canonical va && match walk s va.toNat ((s.descOf cx launch).ptroot.toNat) levels with
    | .leaf e sh => decide (2 ^ 51 ≤ frameOf e + va.toNat % 2 ^ sh)
    | _ => false

/-- The memory space of a two-bit code of `tcopy`. -/
def spaceCode (n : Nat) : Space :=
  match n % 4 with
  | 0 => .g
  | 1 => .sp
  | 2 => .vn
  | _ => .va

/-- `tcopy` (R242). -/
def tcopyBody (f : Fmt) (fl : Nat) (v s : State) : Res :=
  let r := v.block.shapes.get [] f.b.toNat
  let ds := spaceCode f.x.qual.toNat
  let ss := spaceCode (f.x.qual.toNat / 4)
  let dst := v.readD f.d.toNat
  let src := v.readD f.a.toNat
  let sp := v.inAperture v.team.ctx v.team.launch ss src
  let dp := v.inAperture v.team.ctx v.team.launch ds dst
  if r.isEmpty then .raise (wholeFlt .PERM)
  else
    let cls := if sp || dp then 3 else 0
    counted v s cls (.done (newCommand v s fl cls (.copy r ss src ds dst sp dp) (shapeTotal r)).2)

/-- `waitcnt` (R238, R240): it issues again until its counter is low enough, and takes a pending engine fault of its class. -/
def waitcntBody (f : Fmt) (v s : State) : Res :=
  let k := f.a.toNat
  let clear := fun (t : Team) => { t with engst := t.engst &&& ~~~15 }
  if f.b.toNat < v.counter v.team.id k then .stay (s.modSplit fun x => { x with park := .counter k f.b.toNat })
  else if v.team.engst.getLsbD k then .failing (fun s => s.modTeam clear) (wholeFlt .CENGINE v.team.engaddr)
  else match v.team.watchHits.find? fun h => h.1 == k with
    | some h => .failing (fun s => s.modTeam fun t => { t with watchHits := t.watchHits.erase h }) (wholeFlt .WATCHPT h.2)
    | none => .done s

def cntrdBody (f : Fmt) (fl : Nat) (v s : State) : Res :=
  let k := f.a.toNat
  let x := v.counter v.team.id k + (if v.team.engst.getLsbD k then 256 else 0)
  if v.diverged then .raise (wholeFlt .UDIV)
  else .done (putLater fl [.word f.d.toNat (BitVec.ofNat 32 x)] s)

def execLdline (f : Fmt) (s : State) : Out := later (.ldline f) f ldlineBody s
def execTshape (f : Fmt) (s : State) : Out := later (.tshape f) f tshapeBody s
def execTcopy (f : Fmt) (s : State) : Out := later (.tcopy f) f tcopyBody s
def execWaitcnt (f : Fmt) (s : State) : Out := straight (.waitcnt f) f (.fixed 0) (fun _ v s => waitcntBody f v s) s
def execCntrd (f : Fmt) (s : State) : Out := later (.cntrd f) f cntrdBody s

end Sys2Proof.Machine
end

