-- ==== Sys2Proof/Machine/Post.lean ====
section
/-! DEFINITION. The instructions that post work and pass data between teams: `card`, `spawn`, `eput`, `eget`, `qstat` (R249, R251 to
R253). -/
namespace Sys2Proof.Machine

/-! ### Cards (R249) -/

/-- Parks the executing split in a queue's list of waiters; it issues again when its turn comes. -/
def waitInQueue (s : State) : State := s.modSplit fun x => { x with park := .queue, buffer := false }

/-- `card` and, with a predicate, `card.try`. A core of the partition past the live count takes cards, and never a block (log entry 89). -/
def cardBody (try? : Bool) (f : Fmt) (fl : Nat) (v s : State) : Res :=
  let t := v.team
  let va := baseAddr f v
  let target := v.readS f.x.c.toNat
  let die := s.dieOf t.core
  let room := v.queueRoom target die t.part && v.myTurn (v.postersOf target die t.part)
  let known := target == partitionTarget || (decide (target.toNat < 256) && (v.part t.part).entry.cores.getLsbD target.toNat)
  if try? && v.diverged then .raise (wholeFlt .UDIV)
  else match recordGate v s va 128 with
    | .res r => r
    | .go s ls =>
      if !known then .raise (laneFlt .PERM (target.zeroExtend 64) 0)
      else if room then
        let s := s.modPosters target die fun ws => dropWaiter ws t.id v.split.id
        let q := if try? then some f.d.toNat else none
        let s := if try? then putUnknown fl (Fmt.qReg f.d.toNat) s else s
        .done (enterAll { kind := fun _ => .card target q, rel := true, flight := fl } ls s)
      else if try? then .done (putLater fl [.bit f.d.toNat false] s)
      else .stay (waitInQueue (s.modPosters target die fun ws => addWaiter ws { team := t.id, split := v.split.id }))

/-! ### Spawn (R253) -/

/-- The 16 bytes of a quad at a lane. -/
def quadBytes (v : State) (reg l : Nat) : List Byte := (List.range 4).flatMap fun i => leBytes 4 (v.readV (reg + i) l).toNat

def spawnBody (f : Fmt) (fl : Nat) (v s : State) : Res :=
  let child := pcRel v.split.pc f.imm
  if v.card.csize = 0 || !canonical child then .raise (wholeFlt .PERM)
  else
    let ls := (activeLanes f v).map fun l => ({ lane := l, va := 0, keys := [] } : Loc)
    .done (enterAll { kind := fun _ => .item child, rel := true, flight := fl, data := fun l => quadBytes v f.a.toNat l } ls s)

/-! ### Graph edges (R251, R252) -/

/-- The slot of an edge as a location, checked under R161. -/
def slotGate (v s : State) (acc : Access) (x : Edge) (i : Nat) (watch : List Loc → Option Res := fun _ => none) : Entry? :=
  State.gate v s .g acc 16 false false false [(0, slotAddr x i)] watch

/-- The bytes of a quad of uniform registers. -/
def uniBytes (v : State) (reg : Nat) : List Byte := (List.range 4).flatMap fun i => leBytes 4 (v.readS (reg + i)).toNat

/-- `eput` and, with a predicate, `eput.try`; the slot store counts as a core store (R318). -/
def eputBody (try? : Bool) (f : Fmt) (fl : Nat) (v s : State) : Res :=
  let t := v.team
  let e := f.b.toNat
  let x := v.edge t.ctx e
  if try? && v.diverged then .raise (wholeFlt .UDIV)
  else if !x.entry.valid then .raise (wholeFlt .PERM)
  else if edgeRoom x && v.myTurn x.producers then
    match slotGate v s .store x x.tail (watchStore v .g 16) with
    | .res r => r
    | .go s ls =>
      let s := s.modEdge t.ctx e fun y => { y with tail := y.tail + 1, producers := dropWaiter y.producers t.id v.split.id }
      let q := if try? then some f.d.toNat else none
      let s := if try? then putUnknown fl (Fmt.qReg f.d.toNat) s else s
      .done (enterAll { kind := fun _ => .put e x.tail q, rel := true, flight := fl, data := fun _ => uniBytes v f.a.toNat } ls s)
  else if try? then .done (putLater fl [.bit f.d.toNat false] s)
  else .stay (waitInQueue (s.modEdge t.ctx e fun y => { y with producers := addWaiter y.producers { team := t.id, split := v.split.id } }))

def egetBody (f : Fmt) (fl : Nat) (v s : State) : Res :=
  let t := v.team
  let e := f.b.toNat
  let x := v.edge t.ctx e
  if v.diverged then .raise (wholeFlt .UDIV)
  else if !x.entry.valid then .raise (wholeFlt .PERM)
  else if edgeReady x && v.myTurn x.consumers then
    match slotGate v s .load x x.head with
    | .res r => r
    | .go s ls =>
      let s := s.modEdge t.ctx e fun y =>
        { y with head := y.head + 1, filled := y.filled.filter (· != y.head), consumers := dropWaiter y.consumers t.id v.split.id }
      let s := putUnknown fl (Fmt.uniQuad f.d.toNat) s
      .done (enterAll { kind := fun _ => .take e x.head, acq := true, flight := fl, dest := fun _ => some { reg := f.d.toNat } } ls s)
  else .stay (waitInQueue (s.modEdge t.ctx e fun y => { y with consumers := addWaiter y.consumers { team := t.id, split := v.split.id } }))

def qstatBody (f : Fmt) (fl : Nat) (v s : State) : Res :=
  let x := v.edge v.team.ctx f.b.toNat
  if v.diverged then .raise (wholeFlt .UDIV)
  else if !x.entry.valid then .raise (wholeFlt .PERM)
  else .done (putLater fl [.word f.d.toNat (edgeCounts x)] s)

/-! ### Grants -/

/-- The first waiter of a list that is here goes on, if it is parked in a queue: it issues again. -/
def State.wake (s : State) (ws : List Waiter) : State :=
  match s.firstHere ws with
  | none => s
  | some w =>
    match (s.findTeam w.team).bind fun t => t.every.find? fun x => x.id == w.split && x.park == .queue with
    | some _ => s.clearPark w.team w.split
    | none => s

/-- Wakes the first producer and consumer of every edge of a context that can go on. -/
def State.grantEdges (s : State) (cx : Nat) : State :=
  (s.ctx cx).edges.foldl (fun s e =>
    let s := if edgeRoom e.2 then s.wake e.2.producers else s
    if edgeReady e.2 then s.wake e.2.consumers else s) s

/-- Wakes the first poster of every queue that has a free place. -/
def State.grantPosters (s : State) : State :=
  let s := s.cores.foldl (fun s c =>
    if !c.2.posters.isEmpty && s.queueRoom (BitVec.ofNat 32 c.1) 0 0 then s.wake c.2.posters else s) s
  s.dies.foldl (fun s d =>
    let parts := (d.2.posters.filterMap fun w => (s.findTeam w.team).map Team.part).eraseDups
    parts.foldl (fun s p => if s.queueRoom partitionTarget d.1 p then s.wake (s.postersOf partitionTarget d.1 p) else s) s) s

def execCard (f : Fmt) (s : State) : Out := later (.card f) f (cardBody false) s
def execCardTry (f : Fmt) (s : State) : Out := later (.cardTry f) f (cardBody true) s
def execSpawn (f : Fmt) (s : State) : Out := later (.spawn f) f spawnBody s
def execEput (f : Fmt) (s : State) : Out := later (.eput f) f (eputBody false) s
def execEputTry (f : Fmt) (s : State) : Out := later (.eputTry f) f (eputBody true) s
def execEget (f : Fmt) (s : State) : Out := later (.eget f) f egetBody s
def execQstat (f : Fmt) (s : State) : Out := later (.qstat f) f qstatBody s

end Sys2Proof.Machine
end

