-- ==== Sys2Proof/Machine/Matrix.lean ====
section
/-! DEFINITION. The matrix unit (R262 to R265, R272 to R293, R358): gangs, tokens, the latches, the unit queue, chains and drains,
and the instructions at opcodes 0x340 to 0x34C. -/
namespace Sys2Proof.Machine

def State.matrix (s : State) (core : Nat) : Matrix := (s.core core).matrix

def State.modMatrix (s : State) (core : Nat) (g : Matrix → Matrix) : State :=
  s.modCore core fun c => { c with matrix := g c.matrix }

/-! ### Gangs (R275, R278) -/

/-- The teams of a gang register, in gang order. -/
def gangOf (w : Word) : List Nat := (List.range (w.toNat / 2 ^ 24 % 8)).map fun j => w.toNat / 2 ^ (4 * j) % 16

/-- Whether a value is valid for a team of a number in a block of `n` teams (R275). -/
def gangValid (w : Word) (number n : Nat) : Bool :=
  let g := gangOf w
  decide (2 ≤ g.length) && decide (g.length ≤ 6) && g.Nodup && g.all (fun t => decide (t < n)) && g.contains number &&
    w.toNat % 2 ^ 24 / 2 ^ (4 * g.length) == 0 && w.toNat / 2 ^ 27 == 0

/-- The gang as a set: its teams, ascending. -/
def gangSet (w : Word) : List Nat := sortNats (gangOf w)

/-- Whether the executing team has a gang. -/
def hasGang (v : State) : Bool := gangValid v.team.gang v.team.number v.block.nteams

def gangBody (f : Fmt) (v s : State) : Res :=
  let w := v.readS f.a.toNat
  if v.diverged then .raise (wholeFlt .UDIV)
  else if !gangValid w v.team.number v.block.nteams then .raise (wholeFlt .MGANG)
  else .done (s.modTeam fun t => { t with gang := w })

/-! ### Binding and tokens (R274, R276, R279) -/

/-- The unit as a block finds it at binding: every cell 0, no format, every tile zeroed, every token with the unit. -/
def bindUnit (block : Nat) (m : Matrix) : Matrix := { waits := m.waits, bound := some block }

/-- The first waiter for the unit or a tile that satisfies a test and is not switched out. -/
def State.firstWait (s : State) (ws : List UnitWait) (p : UnitWait → Bool) : Option UnitWait :=
  ws.find? fun w => p w && match s.findTeam w.team with | some t => !t.out && t.live != 0 | none => false

/-- Whether a team may go on to a bound or free unit: it is bound to its block, or free with no earlier request. -/
def State.unitOpen (s : State) (core block team : Nat) : Bool :=
  let m := s.matrix core
  match m.bound with
  | some b => b == block
  | none => match s.firstWait m.waits (fun _ => true) with
    | none => true
    | some w => w.team == team

/-- Whether the executing team's `macq` of a tile has its way: the token is its gang's, or the unit's with no earlier request. -/
def State.tokenOpen (s : State) (core tile team : Nat) (gang : List Nat) : Bool :=
  let m := s.matrix core
  match m.tokens.get .unit tile with
  | .gang g => g == gang
  | .releasing _ => false
  | .unit => match s.firstWait m.waits (fun w => w.tile == some tile && m.bound == some w.block) with
    | none => true
    | some w => w.team == team

/-- Whether the executing team holds a tile (R276). -/
def State.holdsTile (s : State) (tile : Nat) : Bool :=
  let m := s.matrix s.team.core
  m.bound == some s.team.block && hasGang s && m.tokens.get .unit tile == .gang (gangSet s.team.gang)

/-- Parks the executing split in the unit's list; it issues again when its turn comes. -/
def waitForUnit (v s : State) (tile : Option Nat) (p : Park) : Res :=
  let w : UnitWait := { team := v.team.id, split := v.split.id, block := v.team.block, tile := tile }
  let s := s.modMatrix v.team.core fun m =>
    { m with waits := if m.waits.any fun x => x.team == w.team && x.split == w.split then m.waits else m.waits ++ [w] }
  .stay (s.modSplit fun x => { x with park := p, buffer := false })

/-- A request goes through: it leaves the list, and a free unit is bound. -/
def takeUnit (v s : State) : State :=
  s.modMatrix v.team.core fun m =>
    let m := { m with waits := m.waits.filter fun w => !(w.team == v.team.id && w.split == v.split.id) }
    if m.bound.isNone then bindUnit v.team.block m else m

def macqBody (try? : Bool) (f : Fmt) (fl : Nat) (v s : State) : Res :=
  let t := v.team
  let n := f.d.toNat
  let answer := fun (b : Bool) (s : State) => if try? then putLater fl [.bit f.b.toNat b] s else s.modTeam fun t => endFlight t fl
  if try? && v.diverged then .raise (wholeFlt .UDIV)
  else if !hasGang v then .raise (wholeFlt .MGANG)
  else if !v.unitOpen t.core t.block t.id then
    if try? then .done (answer false s) else waitForUnit v s (some n) .unit
  else
    let open? := (v.matrix t.core).bound.isNone || v.tokenOpen t.core n t.id (gangSet t.gang)
    if open? then
      .done (answer true ((takeUnit v s).modMatrix t.core fun m => { m with tokens := m.tokens.set .unit n (.gang (gangSet t.gang)) }))
    else if try? then .done (answer false s)
    else waitForUnit v s (some n) (.token n)

/-- Puts a command at the end of the unit queue, under its counter and flag (R291, R292). -/
def queueUnit (fl : Nat) (v s : State) (kind : CmdKind) (total : Nat) (u : Nat → UnitOp) (ready : Bool := true) : Nat × State :=
  let (id, s) := newCommand v s fl 1 kind total ready
  (id, s.modMatrix v.team.core fun m => { m with queue := m.queue ++ [u id] })

def mrelBody (f : Fmt) (fl : Nat) (v s : State) : Res :=
  let n := f.d.toNat
  if !v.holdsTile n then .raise (wholeFlt .MTOKEN)
  else counted v s 1 <|
    let (_, s) := queueUnit fl v s (.release n) 0 (.release · n)
    .done (s.modMatrix v.team.core fun m => { m with tokens := m.tokens.set .unit n (.releasing (gangSet v.team.gang)) })

/-! ### Loads and swaps of macros (R280, R281) -/

/-- The bytes of a macro's image. -/
def imageBytes (ty : Ty) (m : Nat) : Nat := if ty = .b4 && m % 2 = 0 then 16640 else 16384

/-- A checked access of an engine at issue (R161): a precise fault, or nothing to say. -/
def engineCheck (v s : State) (spc : Space) (acc : Access) (n : Nat) (lanes : List (Nat × Addr)) : Option Res :=
  match v.checkLanes spc acc n false false lanes with
  | .error (.fault c, l, va) => some (.raise (laneFlt c va l))
  | .error (.refused x, l, va) => some (.refuse (laneFlt .VIOL va l) x)
  | .error (.driver, l, va) => some (.stay (v.driverPark s acc (laneFlt .XLATE va l)))
  | .error (.wait, _, _) => some (notYet s)
  | .ok _ => none

/-- A request that faults leaves the unit's list (R274). -/
def leavingList (v : State) (r : Res) : Res :=
  let leave := fun (s : State) => s.modMatrix v.team.core fun m =>
    { m with waits := m.waits.filter fun w => !(w.team == v.team.id && w.split == v.split.id) }
  match r with
  | .raise f => .failing leave f
  | .refuse f x => .failing (fun s => (leave s).logViol x) f
  | r => r

def mldbBody (f : Fmt) (fl : Nat) (v s : State) : Res :=
  let t := v.team
  let m := f.d.toNat
  let va := baseAddr f v
  let n := imageBytes f.x.ty m
  if !v.unitOpen t.core t.block t.id then waitForUnit v s none .unit
  else if va.toNat % 128 != 0 then leavingList v (.raise (laneFlt .ALIGN va 0))
  else match engineCheck v s (spaceOf f) .load n [(0, va)] with
    | some r => leavingList v r
    | none => counted v s 1 (.done (newCommand v (takeUnit v s) fl 1 (.loadMacro m f.x.ty (spaceOf f) va) (n / 128)).2)

/-- The incomplete loads of the macros of a mask. -/
def State.loadsOf (s : State) (core mask : Nat) : List Nat :=
  (s.commands.filter fun c => !c.complete && c.core == core && match c.kind with | .loadMacro m .. => mask.testBit m | _ => false).map Command.id

def mswapBody (f : Fmt) (fl : Nat) (v s : State) : Res :=
  let mask := f.imm.toNat % 256
  if (v.matrix v.team.core).bound != some v.team.block then .raise (wholeFlt .MTOKEN)
  else counted v s 1 (.done (queueUnit fl v s (.swap mask) 0 (.swap · mask (v.loadsOf v.team.core mask))).2)

/-- Exchanges the copies of the macros of a mask. -/
def swapCopies (mask : Nat) (m : SMap CimMacro) : SMap CimMacro :=
  (List.range 8).foldl (fun m i =>
    if mask.testBit i then let x := m.get {} i; m.set {} i { active := x.shadow, shadow := x.active } else m) m

def mzeroBody (f : Fmt) (fl : Nat) (v s : State) : Res :=
  let n := f.d.toNat
  if !v.holdsTile n then .raise (wholeFlt .MTOKEN)
  else counted v s 1 (.done (queueUnit fl v s (.zero n) 0 (.zero · n)).2)

/-! ### The logical B tile (R273) -/

/-- The columns of a B type. -/
def bColumns (ty : Ty) : Nat :=
  match ty with
  | .i4 | .b4 => 1024
  | .bf16 | .f16 => 256
  | _ => 512

/-- The bits of element (k, n) of the active copies. -/
def bCode (m : SMap CimMacro) (ty : Ty) (k n : Nat) : Nat :=
  let cell := fun g c => ((m.get {} (2 * g + k / 128)).active.cells.get 0 (128 * (k % 128) + c)).toNat
  match ty with
  | .i4 | .b4 => cell (n / 256) (n % 256 / 2) / 16 ^ (n % 2) % 16
  | .bf16 | .f16 => cell (n / 64) (2 * (n % 64)) + 256 * cell (n / 64) (2 * (n % 64) + 1)
  | _ => cell (n / 128) (n % 128)

/-- The column record of column n: a scale byte for b4, none otherwise. -/
def bScale (m : SMap CimMacro) (ty : Ty) (n : Nat) : Option Byte :=
  if ty = .b4 then some ((m.get {} (2 * (n / 256))).active.scales.get 0 (n % 256)) else none

/-- The format that the eight active copies agree on; `dflt` where they differ or have none. -/
def bFormat (m : SMap CimMacro) : Ty :=
  let t := (m.get {} 0).active.format
  if (List.range 8).all fun i => (m.get {} i).active.format == t then t else .dflt

/-- The accepted pairs (R283). -/
def pairOk (a b : Ty) : Bool :=
  let small := fun t : Ty => [Ty.f8e4, .f8e5, .i8, .i4, .b4].contains t
  let half := fun t : Ty => [Ty.bf16, .f16].contains t
  (small a && small b) || (half a && half b)

/-! ### Rows of A (R283, R285, R287) -/

/-- The tag of an A type (R258). -/
def quadTag (ty : Ty) : Tag :=
  match ty with
  | .bf16 => .bf16x2
  | .f16 => .f16x2
  | .f8e4 => .f8e4x4
  | .f8e5 => .f8e5x4
  | .i8 => .i8x4
  | .i4 => .i4x8
  | _ => .b4x8

/-- Rows that one member supplies. -/
def rowsPer (sparse : Bool) (ty : Ty) : Nat :=
  let n := match ty with
    | .i4 | .b4 => 4
    | .bf16 | .f16 => 1
    | _ => 2
  if sparse then 2 * n else n

/-- Byte b of a member's quad. -/
def quadByte (v : State) (reg rank b : Nat) : Nat :=
  (v.readV (reg + b / 128) (32 * rank + b % 128 / 4)).toNat / 256 ^ (b % 4) % 256

/-- Element i of row j of a quad whose rows hold `len` elements. -/
def aCode (v : State) (reg rank : Nat) (ty : Ty) (len j i : Nat) : Nat :=
  let byte := quadByte v reg rank
  match ty with
  | .i4 | .b4 => byte (len / 2 * j + i / 2) / 16 ^ (i % 2) % 16
  | .bf16 | .f16 => byte (2 * len * j + 2 * i) + 256 * byte (2 * len * j + 2 * i + 1)
  | _ => byte (len * j + i)

/-- Reads a row's code stream: which stored element stands at which K, or nothing while a granule that it needs is not full. -/
def scanMeta (s : State) (block off : Nat) : Nat → Nat → Nat → Nat → List (Nat × Nat) → Option (List (Nat × Nat))
  | 0, _, _, _, acc => some acc
  | fuel + 1, pos, i, c, acc =>
    if 256 ≤ pos || 128 ≤ i || 256 ≤ c then some acc
    else
      let k := padKey block (off + c / 2)
      if !s.isFull k then none
      else
        let x := (s.byte k).toNat / 16 ^ (c % 2) % 16
        if x = 15 then scanMeta s block off fuel (pos + 15) i (c + 1) acc
        else if 256 ≤ pos + x then some acc
        else scanMeta s block off fuel (pos + x + 1) (i + 1) (c + 1) (acc ++ [(pos + x, i)])

/-- The scratchpad offset of the metadata of a member's row. -/
def metaOffset (ctl : Word) (j : Nat) : Nat := 16 * (ctl.toNat / 65536 % 32768) + 128 * j

/-- Row j of a member, as the row buffer keeps it: `place` says which element of A stands at each K, for `mmas`. -/
def captureRow (v : State) (f : Fmt) (sparse : Bool) (ctl : Word) (row j : Nat) (place : List (Nat × Nat)) : OpRow :=
  let reg := f.a.toNat
  let rank := ctl.toNat / 4096 % 16
  let group := fun k : Nat => ctl.toNat.testBit (k / 32)
  let scale := if f.x.ty = .b4 then some (BitVec.ofNat 8 ((v.readS f.x.c.toNat).toNat / 256 ^ (if sparse then j / 2 else j))) else none
  if sparse then
    let at? := fun k : Nat => (place.find? fun p => p.1 == k).map Prod.snd
    { row := row, scale := scale, codes := (List.range 256).map fun k => ((at? k).map (aCode v reg rank f.x.ty 128 j)).getD 0,
      mask := (List.range 256).map fun k => group k && (at? k).isSome }
  else
    { row := row, scale := scale, codes := (List.range 256).map (aCode v reg rank f.x.ty 256 j), mask := (List.range 256).map group }

/-! ### Kinds and records (R286) -/

/-- Whether an element type, with its scale byte, is an integer type (R264). -/
def isInteger (ty : Ty) (scale : Option Byte) : Bool :=
  match ty with
  | .i8 | .i4 => true
  | .b4 => (scale.getD 0).toNat / 64 == 0
  | _ => false

/-- The tiles of an operation with the first B column of each and its count. -/
def tileSpans (tile : Nat) (bty : Ty) : List (Nat × Nat × Nat) :=
  match bColumns bty with
  | 1024 => [(tile, 0, 512), (tile + 1, 512, 512)]
  | n => [(tile, 0, n)]

/-- The kind of an operation. -/
def opKind (m : SMap CimMacro) (bty ty : Ty) (rows : List OpRow) : ChainKind :=
  if rows.all (fun r => isInteger ty r.scale) && (List.range (bColumns bty)).all (fun n => isInteger bty (bScale m bty n)) then .int
  else .float

/-- The 512 column records that an operation gives a tile. -/
def colRecords (m : SMap CimMacro) (bty : Ty) (first n : Nat) : SMap (Option Byte) :=
  (List.range n).foldl (fun (c : SMap (Option Byte)) j => c.set none j (bScale m bty (first + j))) []

/-- Whether a tile accepts an operation's kind, column records and rows. -/
def accepts (t : Tile) (k : ChainKind) (cols : SMap (Option Byte)) (rows : List OpRow) : Bool :=
  (!t.set || (t.kind == k && t.cols == cols)) &&
    rows.all fun r => match t.rows.get none r.row with | none => true | some x => x == r.scale

/-- Records an operation in a tile. -/
def recordOp (k : ChainKind) (cols : SMap (Option Byte)) (rows : List OpRow) (t : Tile) : Tile :=
  { t with kind := k, cols := cols, set := true,
           rows := rows.foldl (fun m r => match m.get none r.row with | none => m.set none r.row (some r.scale) | some _ => m) t.rows }

/-- The records of every tile of an operation. -/
def recordAll (tile : Nat) (ty : Ty) (rows : List OpRow) (m : Matrix) : Matrix :=
  let bty := bFormat m.macros
  let k := opKind m.macros bty ty rows
  let one := fun (ts : SMap Tile) (x : Nat × Nat × Nat) =>
    ts.set {} x.1 (recordOp k (colRecords m.macros bty x.2.1 x.2.2) rows (ts.get {} x.1))
  { m with tiles := (tileSpans tile bty).foldl one m.tiles }

/-- What a queued command does to the projected state (R358). -/
def projectOp (m : Matrix) : UnitOp → Matrix
  | .op _ tile ty rows => recordAll tile ty rows m
  | .swap _ mask _ => { m with macros := swapCopies mask m.macros }
  | .zero _ tile => { m with tiles := m.tiles.set {} tile {} }
  | _ => m

/-- The state that a new command will meet at the head of the queue (R358). -/
def projected (m : Matrix) : Matrix := m.queue.foldl projectOp m

/-! ### Chains (R263, R264) -/

/-- An element's value in a float chain. -/
def elemFloat (ty : Ty) (scale : Option Byte) (x : Nat) : FVal :=
  match ty with
  | .b4 => blockVal ((scale.getD 0).toNat / 64) x 0
  | .i8 => intVal (BitVec.ofNat 8 x).toInt
  | .i4 => intVal (BitVec.ofNat 4 x).toInt
  | t => t.format.decode x

/-- An element's value in an integer chain. -/
def elemInt (ty : Ty) (x : Nat) : Int := if ty = .i8 then (BitVec.ofNat 8 x).toInt else (BitVec.ofNat 4 x).toInt

/-- One group of `chain_step` in a float chain: the exact sum, one rounding. -/
def floatGroup (ps : List FVal) (c : Chain) : Chain :=
  let sum := ps.foldl (fun a p => a.add .rne p) (.fin false 0 0)
  { c with touched := true, acc := BitVec.ofNat 48 (FFmt.f48.round .rne false ((FFmt.f48.decode c.acc.toNat).add .rne sum)) }

/-- One group in an integer chain: the exact sum, saturated. -/
def intGroup (ps : List Int) (c : Chain) : Chain :=
  let x := c.acc.toInt + ps.foldl (· + ·) 0
  let y := clampInt (-(2 ^ 47)) (2 ^ 47 - 1) x
  { touched := true, acc := BitVec.ofInt 48 y, sticky := c.sticky || x != y }

/-- `chain_step` (R264) of one row and one B column. -/
def chainStep (k : ChainKind) (ty bty : Ty) (r : OpRow) (b : Nat → Nat) (bs : Option Byte) (c : Chain) : Chain :=
  (List.range 8).foldl (fun c g =>
    match ((List.range 32).map (32 * g + ·)).filter fun k => r.mask.getD k false with
    | [] => c
    | k0 :: ks =>
      if k = .int then intGroup ((k0 :: ks).map fun k => elemInt ty (r.codes.getD k 0) * elemInt bty (b k)) c
      else floatGroup ((k0 :: ks).map fun k => (elemFloat ty r.scale (r.codes.getD k 0)).mul (elemFloat bty bs (b k))) c) c

/-- One row of an operation over the columns of one tile. -/
def rowStep (m : SMap CimMacro) (k : ChainKind) (ty bty : Ty) (first n : Nat) (cs : SMap Chain) (r : OpRow) : SMap Chain :=
  (List.range n).foldl (fun cs j =>
    let key := 512 * r.row + j
    cs.set {} key (chainStep k ty bty r (fun k => bCode m bty k (first + j)) (bScale m bty (first + j)) (cs.get {} key))) cs

/-- An operation takes effect (R285). -/
def applyOp (tile : Nat) (ty : Ty) (rows : List OpRow) (m : Matrix) : Matrix :=
  let bty := bFormat m.macros
  let k := opKind m.macros bty ty rows
  let m' := recordAll tile ty rows m
  let one := fun (ts : SMap Tile) (x : Nat × Nat × Nat) =>
    let t := ts.get {} x.1
    ts.set {} x.1 { t with chains := rows.foldl (rowStep m.macros k ty bty x.2.1 x.2.2) t.chains }
  { m' with tiles := (tileSpans tile bty).foldl one m'.tiles }

/-! ### Drains (R265, R289) -/

/-- The exponent that a record stands for. -/
def scaleExp : Option Byte → Nat
  | some b => b.toNat % 64
  | none => 32

/-- `drain_value` of a chain. -/
def drainValue (k : ChainKind) (c : Chain) (ty : Ty) (x : XWord) (row col : Option Byte) : Nat :=
  let ea := scaleExp row
  let eb := scaleExp col
  let val := match k with
    | .int => intVal c.acc.toInt
    | _ => FFmt.f48.decode c.acc.toNat
  let v := val.scale ((ea : Int) + eb - 64 + scaleOf x)
  if !c.touched then 0
  else if ea = 63 || eb = 63 then (if ty = .i32 then 0 else ty.format.nan)
  else if ty = .i32 then (BitVec.ofInt 32 (floatToInt x.rnd (-(2 ^ 31)) (2 ^ 31 - 1) v)).toNat
  else ty.format.finish x.rnd x.clamp 0 v

/-- The bytes of a drain, row by row. -/
def drainBytes (t : Tile) (f : Fmt) (ctl : Word) : List Byte :=
  (List.range (drainCount ctl)).flatMap fun i =>
    let r := drainRow ctl + i
    (List.range (drainCols ctl)).flatMap fun j =>
      leBytes (drainSize f.x.ty)
        (drainValue t.kind (t.chains.get {} (512 * r + j)) f.x.ty f.x ((t.rows.get none r).getD none) (t.cols.get none j))

def mdrainBody (f : Fmt) (fl : Nat) (v s : State) : Res :=
  let n := f.d.toNat
  let ctl := v.readS f.x.c.toNat
  let va := baseAddr f v
  let rows := (List.range (drainCount ctl)).map fun i => (0, va + BitVec.ofNat 64 (i * drainPitch ctl))
  if !v.holdsTile n then .raise (wholeFlt .MTOKEN)
  else if drainCount ctl = 0 || 16 < drainRow ctl + drainCount ctl then .raise (wholeFlt .MROWS)
  else if f.x.ty = .i32 && ((projected (v.matrix v.team.core)).tiles.get {} n).kind = .float then .raise (wholeFlt .MSCALE)
  else if va.toNat % 16 != 0 then .raise (laneFlt .ALIGN va 0)
  else match engineCheck v s (spaceOf f) .store (drainCols ctl * drainSize f.x.ty) rows with
    | some r => r
    | none => counted v s 1 <|
      .done (queueUnit fl v s (.drain n (spaceOf f) va ctl f) (drainCount ctl * drainCols ctl) (.drain · n) false).2

/-! ### The rendezvous latches (R284) -/

/-- Every waiting member of a latch raises a fault at its own instruction, and the latch empties. A member whose split is held
by its team's handler stands at its instruction again and raises nothing now. -/
def State.failLatch (s : State) (core tile : Nat) (code : Code) : State :=
  match (s.matrix core).latches.get none tile with
  | none => s
  | some l =>
    let s := s.modMatrix core fun m => { m with latches := m.latches.set none tile none }
    l.members.foldl (fun s m =>
      let s := (s.withdrawMember m).focus m.team m.split
      if s.team.id = 0 then s else (s.takeFault (wholeFlt code)).unfocus) s

/-- The control word of `mma` and `mmas`. -/
def mmaCtl (f : Fmt) (v : State) : Word := if f.len = .l128 then f.imm else v.readS f.b.toNat

/-- A member arrives (R284). -/
def joinLatch (sparse : Bool) (f : Fmt) (fl : Nat) (ctl : Word) (v s : State) : State :=
  let t := v.team
  let old : Latch := (((v.matrix t.core).latches.get none f.d.toNat)).getD
    { sparse := sparse, ty := f.x.ty, ctl := ctl.toNat % 4096, gang := gangOf t.gang, opened := v.cycle }
  let (id, s) := newCommand v s fl 1 (.mul [f.d.toNat]) 0 false
  let x : MemberRows := { team := t.id, split := v.split.id, flight := fl, fmt := f, ctl := ctl, cmd := id,
                          older := s.split.older.filter fun e => !s.entryGone e }
  let l := { old with members := old.members ++ [x],
                      full := if old.members.length + 1 = old.gang.length then some v.cycle else none }
  (s.modMatrix t.core fun m => { m with latches := m.latches.set none f.d.toNat (some l) }).modSplit fun x => { x with park := .latch f.d.toNat }

def mmaBody (sparse : Bool) (f : Fmt) (fl : Nat) (v s : State) : Res :=
  let t := v.team
  let n := f.d.toNat
  let ctl := mmaCtl f v
  let rows := rowsPer sparse f.x.ty
  let latch := (v.matrix t.core).latches.get none n
  let differs := fun (l : Latch) => l.sparse != sparse || l.ty != f.x.ty || l.ctl != ctl.toNat % 4096
  let quadOk := (List.range 4).all fun i => tagIn v (f.a.toNat + i) [quadTag f.x.ty, .raw]
  if !hasGang v then .raise (wholeFlt .MGANG)
  else if !v.holdsTile n then .raise (wholeFlt .MTOKEN)
  else if 16 < ctl.toNat / 256 % 16 + (gangOf t.gang).length * rows || ranksOf t.n ≤ ctl.toNat / 4096 % 16 then .raise (wholeFlt .MROWS)
  else if !quadOk then .raise (wholeFlt .TAGMIS)
  else if sparse && decide (v.block.spsize < metaOffset ctl rows) then
    .raise (laneFlt .PERM (BitVec.ofNat 64 (metaOffset ctl 0)) 0)
  else if (latch.map fun l => l.members.any fun m => m.team == t.id).getD false then notYet s
  else if (latch.map differs).getD false then
    .failing (fun s => (s.unfocus.failLatch t.core n .MGANG).focus t.id v.split.id) (wholeFlt .MGANG)
  else counted v s 1 (.done (joinLatch sparse f fl ctl v s))

/-- The rows that a latch's members supply, in gang order; none while metadata is missing (R283, R285, R287). -/
def captureAll (s : State) (l : Latch) : Option (List OpRow) :=
  let per := rowsPer l.sparse l.ty
  let member := fun j => l.members.find? fun m => ((s.findTeam m.team).map Team.number) == some (l.gang.getD j 0)
  let rows := (List.range l.gang.length).map fun j =>
    match member j with
    | none => some []
    | some m =>
      let t := (s.findTeam m.team).getD {}
      let v := { s with team := t, split := (t.every.find? fun x => x.id == m.split).getD {} }
      let one := fun i =>
        if l.sparse then
          if !(m.older.all s.entryGone) then none
          else (scanMeta s t.block (metaOffset m.ctl i) 257 0 0 0 []).map
            (captureRow v m.fmt true m.ctl (l.ctl / 256 + j * per + i) i)
        else some (captureRow v m.fmt false m.ctl (l.ctl / 256 + j * per + i) i [])
      let rs := (List.range per).map one
      if rs.all Option.isSome then some (rs.filterMap id) else none
  if rows.all Option.isSome then some (rows.filterMap id).flatten else none

/-- The rows of a latch without their elements: what the checks of kind and scale need. -/
def scaleRows (s : State) (l : Latch) : List OpRow :=
  let per := rowsPer l.sparse l.ty
  (List.range l.gang.length).flatMap fun j =>
    match l.members.find? fun m => ((s.findTeam m.team).map Team.number) == some (l.gang.getD j 0) with
    | none => []
    | some m =>
      let v := { s with team := (s.findTeam m.team).getD {} }
      (List.range per).map fun i =>
        { row := l.ctl / 256 + j * per + i, codes := [], mask := [],
          scale := if l.ty = .b4 then some (BitVec.ofNat 8 ((v.readS m.fmt.x.c.toNat).toNat / 256 ^ (if l.sparse then i / 2 else i))) else none }

/-- Whether a queued exchange waits for a load (R358). -/
def State.swapWaits (s : State) (m : Matrix) : Bool :=
  m.queue.any fun u => match u with
    | .swap _ _ loads => s.commands.any fun c => !c.complete && loads.contains c.id
    | _ => false

/-- The first fault of latch completion (R283, R285, R286, R293). -/
def completionFault (m : Matrix) (tile : Nat) (l : Latch) (rows : List OpRow) : Option Code :=
  let p := projected m
  let bty := bFormat p.macros
  let k := opKind p.macros bty l.ty rows
  let wide := bColumns bty == 1024
  if !pairOk l.ty bty then some .TAGMIS
  else if wide && tile % 2 = 1 then some .ILLENC
  else if wide && m.tokens.get .unit (tile + 1) != .gang (sortNats l.gang) then some .MTOKEN
  else if !((tileSpans tile bty).all fun x => accepts (p.tiles.get {} x.1) k (colRecords p.macros bty x.2.1 x.2.2) rows) then some .MSCALE
  else none

/-- The operation enters the unit queue and every member is released. -/
def State.enterOp (s : State) (core tile : Nat) (l : Latch) (rows : List OpRow) : State :=
  let cmds := l.members.map MemberRows.cmd
  let tiles := (tileSpans tile (bFormat (projected (s.matrix core)).macros)).map Prod.fst
  let s := cmds.foldl (fun s id => s.modCommand id fun c => { c with kind := .mul tiles }) s
  let s := s.modMatrix core fun m => { m with queue := m.queue ++ [.op cmds tile l.ty rows], latches := m.latches.set none tile none }
  l.members.foldl (fun s m => s.unparkSplit m.team m.split) s

/-- Looks at a latch: a broken one fails, a full one is checked and completes when nothing that it waits for is missing. On an
unfocused state. -/
def State.tryLatch (s : State) (core tile : Nat) : State :=
  let m := s.matrix core
  match m.latches.get none tile with
  | none => s
  | some l =>
    if l.broken then s.failLatch core tile .MGANG
    else if l.full.isNone || s.swapWaits m then s
    else match completionFault m tile l (scaleRows s l) with
      | some code => s.failLatch core tile code
      | none => match captureAll s l with
        | some rows => s.enterOp core tile l rows
        | none => s

/-- The clocks of R284 and R288. -/
def latchCycles : Nat := 2 ^ 20

/-- Whether the clock of a latch has run out: that of its opening, until the last member arrives (R284); then that of the last arrival, while
its checks are passed and some metadata is missing (R288). -/
def State.latchLate (s : State) (core : Nat) (l : Latch) : Bool :=
  match l.full with
  | none => decide (l.opened + latchCycles ≤ s.cycle)
  | some c => l.sparse && decide (c + latchCycles ≤ s.cycle) && !s.swapWaits (s.matrix core) && (captureAll s l).isNone

/-- The latch fails with a code once its clock has run out, before or after the last arrival. -/
def State.timeoutLatch (s : State) (core tile : Nat) (full : Bool) (code : Code) : State :=
  match (s.matrix core).latches.get none tile with
  | some l => if l.full.isSome = full && s.latchLate core l then s.failLatch core tile code else s
  | none => s

/-- LATCH_TIMEOUT (R284). -/
def State.latchTimeout (s : State) (core tile : Nat) : State := s.timeoutLatch core tile false .MGANG

/-- METADATA_TIMEOUT (R288). -/
def State.metadataTimeout (s : State) (core tile : Nat) : State := s.timeoutLatch core tile true .MMETA

/-! ### The unit queue (R281, R285, R291, R292) -/

/-- Completes the commands of a queue's head, which leaves the queue. -/
def State.popUnit (s : State) (core : Nat) (ids : List Nat) : State :=
  let s := s.modMatrix core fun m => { m with queue := m.queue.drop 1 }
  ids.foldl (fun s id => match s.commands.find? fun c => c.id == id with
    | some c => s.completeCommand c
    | none => s) s

/-- Whether a drain of a tile is under way. -/
def State.draining (s : State) (core tile : Nat) : Bool :=
  s.commands.any fun c => !c.complete && c.ready && c.core == core && match c.kind with | .drain t .. => t == tile | _ => false

/-- MATRIX_OP_COMPLETE: the head of the unit queue takes effect. -/
def State.matrixOpComplete (s : State) (core : Nat) : State :=
  let m := s.matrix core
  match m.queue with
  | .op ids tile ty rows :: _ => (s.modMatrix core (applyOp tile ty rows)).popUnit core ids
  | .zero id tile :: _ => (s.modMatrix core fun m => { m with tiles := m.tiles.set {} tile {} }).popUnit core [id]
  | .drain id tile :: _ =>
    let s := s.modMatrix core fun m => { m with queue := m.queue.drop 1 }
    s.modCommand id fun c => match c.kind with
      | .drain _ _ _ ctl f => { c with ready := true, data := drainBytes (m.tiles.get {} tile) f ctl }
      | _ => c
  | .release id tile :: _ =>
    if s.draining core tile then s
    else (s.modMatrix core fun m => { m with tokens := m.tokens.set .unit tile .unit }).popUnit core [id]
  | _ => s

/-- MSWAP_EXCHANGE (R281). -/
def State.mswapExchange (s : State) (core : Nat) : State :=
  match (s.matrix core).queue with
  | .swap id mask loads :: _ =>
    if s.commands.any fun c => !c.complete && loads.contains c.id then s
    else (s.modMatrix core fun m => { m with macros := swapCopies mask m.macros }).popUnit core [id]
  | _ => s

/-! ### What the unit grants (R274, R276, R279) -/

/-- A waiter whose request can go through now issues again. -/
def State.wakeUnit (s : State) (core : Nat) (w : UnitWait) : State :=
  match s.findTeam w.team with
  | none => s
  | some t =>
    let m := s.matrix core
    let go := s.unitOpen core w.block w.team &&
      match w.tile with
      | none => true
      | some n => m.bound.isNone || s.tokenOpen core n w.team (gangSet t.gang)
    match t.every.find? fun x => x.id == w.split with
    | some x => match x.park with
      | .unit | .token _ => if go && !t.out then s.clearPark t.id x.id else s
      | _ => s
    | none => s

/-- Whether a command works on a tile. -/
def CmdKind.onTile (tile : Nat) : CmdKind → Bool
  | .drain t .. | .zero t | .release t => t == tile
  | .mul ts => ts.contains tile
  | _ => false

/-- The token of a tile returns when every team of its set has ended and none of their commands on the tile is outstanding; so does one
whose `mrel` a kill has taken off the queue. -/
def State.returnToken (s : State) (core tile : Nat) : State :=
  let m := s.matrix core
  match m.tokens.get .unit tile with
  | .gang g | .releasing g =>
    let lives := s.allTeams.any fun t => m.bound == some t.block && t.role == .main && g.contains t.number && !t.ended
    let busy := s.commands.any fun c => !c.complete && c.core == core && c.kind.onTile tile
    if m.bound.isNone || lives || busy then s else s.modMatrix core fun m => { m with tokens := m.tokens.set .unit tile .unit }
  | .unit => s

/-- Everything that the unit of a core does of itself as time moves on. On an unfocused state. -/
def State.tickMatrix (s : State) (core : Nat) : State :=
  let s := (List.range 4).foldl (fun s n => (s.returnToken core n).tryLatch core n) s
  (s.matrix core).waits.foldl (fun s w => s.wakeUnit core w) s

/-- The unit frees: its block has left the core (R274). -/
def freeUnit (m : Matrix) : Matrix := { waits := m.waits }

/-! ### `mstat` (R290) -/

def mstatValue (v : State) (sel : Nat) : Nat :=
  let m := v.matrix v.team.core
  let bit := fun (b : Bool) (n : Nat) => if b then 2 ^ n else 0
  let sum := fun (g : Nat → Nat) => ((List.range 4).map g).foldl (· + ·) 0
  if sel = 0 then
    bit (m.bound == some v.team.block) 0 + sum (fun t => bit (v.holdsTile t) (1 + t)) +
      sum (fun t => bit (match m.tokens.get .unit t with | .gang _ => true | _ => false) (5 + t))
  else if sel ≤ 4 then
    let t := m.tiles.get {} (sel - 1)
    bit (t.chains.any fun e => e.2.touched) 0 + bit (t.chains.any fun e => e.2.sticky) 1 +
      (match t.kind with | .none => 0 | .float => 4 | .int => 8)
  else if 8 ≤ sel ∧ sel ≤ 15 then
    let x := m.macros.get {} (sel - 8)
    x.active.format.code + 16 * x.shadow.format.code + bit (!(v.loadsOf v.team.core (2 ^ (sel - 8))).isEmpty) 8
  else 0

def mstatBody (f : Fmt) (fl : Nat) (v s : State) : Res :=
  let sel := (if f.len = .l128 then f.imm else v.readS f.b.toNat).toNat
  if v.diverged then .raise (wholeFlt .UDIV)
  else .done (putLater fl [.word f.d.toNat (BitVec.ofNat 32 (mstatValue v sel))] s)

/-! ### The instructions -/

def execGang (f : Fmt) (s : State) : Out := straight (.gang f) f (.fixed 0) (fun _ v s => gangBody f v s) s
def execMacq (f : Fmt) (s : State) : Out := later (.macq f) f (macqBody false) s
def execMacqTry (f : Fmt) (s : State) : Out := later (.macqTry f) f (macqBody true) s
def execMrel (f : Fmt) (s : State) : Out := later (.mrel f) f mrelBody s
def execMldb (f : Fmt) (s : State) : Out := later (.mldb f) f mldbBody s
def execMswap (f : Fmt) (s : State) : Out := later (.mswap f) f mswapBody s
def execMzero (f : Fmt) (s : State) : Out := later (.mzero f) f mzeroBody s
def execMma (f : Fmt) (s : State) : Out := later (.mma f) f (mmaBody false) s
def execMmas (f : Fmt) (s : State) : Out := later (.mmas f) f (mmaBody true) s
def execMdrain (f : Fmt) (s : State) : Out := later (.mdrain f) f mdrainBody s
def execMstat (f : Fmt) (s : State) : Out := later (.mstat f) f mstatBody s

end Sys2Proof.Machine
end

