-- ==== Sys2Proof/Machine/Pages.lean ====
section
/-! DEFINITION. What the driver and the host decide about pages: hand-overs (R176, R177), answers to driver faults (R298, R356,
R357), invalidation (R299), the placement of homes (R178). -/
namespace Sys2Proof.Machine

/-! ### Events in general -/

/-- Whether a split tries again once the machine has moved: at an `hwait` when the group of its team's recruitment is empty (R143). -/
def triesAgain (t : Team) (x : Split) : Bool :=
  match x.park with
  | .stalled | .paused => true
  | .helpers => t.recruit.group.isNone
  | _ => false

/-- Splits that try again once the machine has moved. -/
def State.unstall (s : State) : State :=
  (s.allTeams.filter fun t => !((s.findBlock t.block).any fun b => b.preempt == .saving)).foldl
    (fun s t => (t.every.filter (triesAgain t)).foldl (fun s x => s.unparkSplit t.id x.id) s) s

/-- The outcome of a move of the device: nothing executes while it happens. -/
def moved (g : State → State) (s : State) : Out := .next (g s.unfocus).unstall

/-- Every parked split of the device whose park satisfies a test, with its team. -/
def State.parked (s : State) (p : Park → Bool) : List (Nat × Split) :=
  s.allTeams.flatMap fun t => (t.every.filter fun x => p x.park).map fun x => (t.id, x)

/-- A parked split takes a precise fault at its instruction (R176, R298). -/
def State.faultParked (s : State) (tid sid : Nat) (f : Flt) : State :=
  let s := ((s.unparkSplit tid sid).modTeamId tid fun t => { t with fetchOff := none }).focus tid sid
  if s.team.id = 0 then s else (s.takeFault f).unfocus

/-! ### Waiting elements (R242, R356) -/

/-- The address of the access for which an element waits: of the first part that its read, or its write, stops at. -/
def State.waitingAddr (s : State) (c : Command) (n : Nat) : Addr :=
  let e := elementOf c n
  let at? := fun (r : Reach) => match r with | .driver va | .page _ va | .fail _ va => some va | _ => none
  let r := (e.read.map fun x => (s.reach c x e.bytes false (peerSides c).1)).bind at?
  let w := (e.write.map fun x => (s.reach c x e.bytes true (peerSides c).2)).bind at?
  (r.or w).getD (((e.read.or e.write).map Prod.snd).getD 0)

/-- Changes every element of a command in some state. -/
def State.eachElement (s : State) (c : Command) (p : ElemState → Bool) (g : Nat → Command → Command) : State :=
  (c.elems.filter fun e => p e.2).foldl (fun s e => s.modCommand c.id (g e.1)) s

/-- The elements go on, or fail with a cause (R240). -/
def State.answerElements (s : State) (mine : Command → Bool) (p : ElemState → Bool) (refuse : Option Code) : State :=
  (s.commands.filter mine).foldl (fun s c =>
    s.eachElement c p fun n =>
      match refuse with
      | none => fun c => { c with elems := c.elems.set .todo n .todo }
      | some code => failElement n code (s.waitingAddr c n)) s

/-! ### Host pages (R176, R177) -/

def forPage (n : Nat) : Park → Bool
  | .page m _ => m == n
  | _ => false

/-- HOST_PAGE_GRANT: the device acquires the page, and every instruction and element that waits for it goes on. -/
def State.grantPage (s : State) (n : Nat) : State :=
  let p := s.pages.get {} n
  if !p.asked then s
  else
    let s := { s with pages := s.pages.set {} n { p with device := true, asked := false, refused := false, since := s.cycle } }
    let s := (s.parked (forPage n)).foldl (fun s x =>
      let s := match x.2.park with
        | .page _ none => s.modSplitId x.1 x.2.id fun x => { x with answer := some true }
        | _ => s
      s.unparkSplit x.1 x.2.id) s
    s.answerElements (fun _ => true) (· == .page n) none

/-- HOST_PAGE_REFUSE: the instructions raise MIGRATE; `pgown` answers false; elements fail. -/
def State.refusePage (s : State) (n : Nat) : State :=
  let p := s.pages.get {} n
  if !p.asked then s
  else
    let s := { s with pages := s.pages.set {} n { p with asked := false, refused := true } }
    let s := (s.parked (forPage n)).foldl (fun s x =>
      match x.2.park with
      | .page _ (some f) => s.faultParked x.1 x.2.id f
      | _ => (s.modSplitId x.1 x.2.id fun x => { x with answer := some false }).unparkSplit x.1 x.2.id) s
    s.answerElements (fun _ => true) (· == .page n) (some .MIGRATE)

/-- HOST_PAGE_RECALL. -/
def State.recallPage (s : State) (n : Nat) : State :=
  let p := s.pages.get {} n
  if p.device then { s with pages := s.pages.set {} n { p with recalled := true } } else s

/-- A recalled page may go once every issued access to it is performed and 20 µs have passed. -/
def State.mayHandBack (s : State) (n : Nat) : Bool :=
  let p := s.pages.get {} n
  p.device && p.recalled && decide (p.since + cyclesOf 20000 ≤ s.cycle) &&
    !pageBusy s n

/-- HOST_PAGE_HANDBACK: the lines of the page leave the caches, and the host owns it. -/
def State.handBack (s : State) (n : Nat) : State :=
  if s.mayHandBack n then s.dropPage n else s

/-! ### The driver's answers (R298, R356, R357) -/

/-- Whether a split of a team waits for the driver of a core and slot: the team, or a helper group of it. -/
def State.driverTeam (s : State) (cx core slot : Nat) (tid : Nat) : Bool :=
  match s.findTeam tid with
  | none => false
  | some t =>
    let o := match t.role with
      | .main => t
      | .helper r | .drafted r => (s.findTeam r).getD t
    o.ctx == cx && o.core == core && o.slot == slot && !o.out

def State.driverParks (s : State) (cx core slot : Nat) : List (Nat × Split) :=
  (s.parked fun p => match p with | .driver _ => true | _ => false).filter fun x => s.driverTeam cx core slot x.1

def commandOf (cx core slot : Nat) (c : Command) : Bool := c.ctx == cx && c.core == core && c.slot == slot && !c.complete

/-- DRIVER_RESUME. -/
def State.resumeDriver (s : State) (cx core slot : Nat) : State :=
  let s := (s.driverParks cx core slot).foldl (fun s x => s.unparkSplit x.1 x.2.id) s
  s.answerElements (commandOf cx core slot) (· == .driver) none

/-- DRIVER_REFUSE. -/
def State.refuseDriver (s : State) (cx core slot : Nat) : State :=
  let s := (s.driverParks cx core slot).foldl (fun s x =>
    match x.2.park with
    | .driver f => s.faultParked x.1 x.2.id f
    | _ => s) s
  s.answerElements (commandOf cx core slot) (· == .driver) (some .XLATE)

/-! ### Invalidation (R299) -/

/-- Whether an address lies in a range of 64 KB units. -/
def inUnits (base : Addr) (n : Nat) (va : Addr) : Bool :=
  decide (base.toNat ≤ va.toNat) && decide (va.toNat < base.toNat + 65536 * n)

/-- Whether a held entry serves some address of a range. -/
def Cached.within (x : Cached) (cx : Nat) (base : Addr) (units : Nat) : Bool :=
  x.ctx == cx && decide (x.page < base.toNat + 65536 * units) && decide (base.toNat < x.page + 2 ^ x.shift)

/-- INVALIDATE: an invalidation is open from now on, and the done bit falls. -/
def State.invalidate (s : State) (cx : Nat) (base : Addr) (units : Nat) : State :=
  { s with invals := s.invals ++ [(cx, base, units)] }

/-- Whether an access that a range's translations may have served is not performed: an entry of a team of the context whose bytes meet the
range, a saved block's among them, an access that waits for its colours, or an engine write of the context. -/
def State.rangeBusy (s : State) (cx : Nat) (base : Addr) (units : Nat) : Bool :=
  let meets := fun a : Addr × Nat => decide (a.1.toNat < base.toNat + 65536 * units) && decide (base.toNat < a.1.toNat + a.2)
  ((s.entries ++ s.blocks.flatMap Block.kept).any fun e => ((s.findTeam e.team).map Team.ctx) == some cx && e.spans.any meets) ||
  (s.allTeams.any fun t => t.ctx == cx && t.every.any fun x => (x.gated.getD []).any fun l => l.spans.any meets) ||
  s.commands.any fun c => c.ctx == cx && c.writes.any fun w => s.unperf.any fun u => u.store == w

/-- INVALIDATE_DONE: the oldest invalidation of the context completes when every access of its range is performed; what the TLBs and walk
caches hold of the range is removed. -/
def State.invalidateDone (s : State) (cx : Nat) : State :=
  match s.invals.find? fun i => i.1 == cx with
  | none => s
  | some i =>
    if s.rangeBusy cx i.2.1 i.2.2 then s
    else { s with tlb := s.tlb.filter fun x => !x.within cx i.2.1 i.2.2, invals := s.invals.erase i }

/-! ### Placement (R178) -/

/-- One unit at the end of a period of 100 µs: it moves to a die whose count has passed four times the home's in this period and the one
before, to the one of the greatest count; while an update of it is queued it stays (R207). -/
def placeUnit (now : Nat) (queued : Bool) (h : Home) : Home :=
  let hot := (List.range 4).filter fun d => d != h.die && decide (4 * h.counts.get 0 h.die < h.counts.get 0 d)
  let both := hot.filter h.hot.contains
  let most := both.foldl (fun m d => if h.counts.get 0 m < h.counts.get 0 d then d else m) (both.headD h.die)
  let rested := match h.moved with | none => true | some c => decide (c + cyclesOf 10000000 ≤ now)
  if !both.isEmpty && rested && h.fixed.isEmpty && !queued then { h with die := most, counts := [], hot := [], moved := some now }
  else { h with counts := [], hot := hot }

/-- PLACEMENT_PERIOD. -/
def State.placementPeriod (s : State) : State :=
  let s := { s with placement := s.placement + 1 }
  let queued := fun u : Nat => s.updates.any fun q => 128 * q.line / 2 ^ 21 == u
  if s.frozen != .no then s
  else { s with homes := s.homes.map fun (e : Nat × Option Home) => (e.1, e.2.map (placeUnit s.cycle (queued e.1))) }

/-! ### The moves of the order machine, the engines and the matrix unit -/

/-- RESULT_WRITEBACK (R46): a pending result with known values is written; its flag falls. -/
def State.writeback (s : State) (tid id : Nat) : State :=
  match s.findTeam tid with
  | none => s
  | some t =>
    match t.pending.find? fun p => p.id == id with
    | none => s
    | some p =>
      match p.value with
      | none => s
      | some ls =>
        let s := s.landFor tid p.split p.run p.flight ls
        s.modTeamId tid fun t => landEffect p.flight { t with pending := t.pending.filter fun q => q.id != id }

def execResultWriteback (team result : Nat) (s : State) : Out := moved (·.writeback team result) s
def execWaveSplitMerge (team split : Nat) (s : State) : Out := moved (·.mergeWave team split) s
def execHostPageGrant (page : Nat) (s : State) : Out := moved (·.grantPage page) s
def execHostPageRefuse (page : Nat) (s : State) : Out := moved (·.refusePage page) s
def execHostPageRecall (page : Nat) (s : State) : Out := moved (·.recallPage page) s
def execHostPageHandback (page : Nat) (s : State) : Out := moved (·.handBack page) s
def execPlacementPeriod (s : State) : Out := moved State.placementPeriod s
def execCommit (entry : Nat) (s : State) : Out := moved (·.commit entry) s
def execPropagate (home sharer : Nat) (s : State) : Out := moved (·.propagate home sharer) s
def execFenceRetirement (entry : Nat) (s : State) : Out := moved (·.retireFence entry) s
def execEngineElement (command element : Nat) (s : State) : Out := moved (·.moveElement command element) s
def execInvalidateDone (ctx : Nat) (s : State) : Out := moved (·.invalidateDone ctx) s
def execLatchTimeout (core tile : Nat) (s : State) : Out := moved (·.latchTimeout core tile) s
def execMetadataTimeout (core tile : Nat) (s : State) : Out := moved (·.metadataTimeout core tile) s
def execMatrixOpComplete (core : Nat) (s : State) : Out := moved (·.matrixOpComplete core) s
def execMswapExchange (core : Nat) (s : State) : Out := moved (·.mswapExchange core) s

end Sys2Proof.Machine
end

