-- ==== Sys2Proof/Machine/Launches.lean ====
section
/-! DEFINITION. Host rings, cards, dispatch, launches, the packing unit's blocks, arbitration (R43, R45, R80, R82, R83, R93, R163,
R166, R179, R243 to R249, R254 to R257, R334). -/
namespace Sys2Proof.Machine

/-! ### What the device reads for itself -/

/-- The bytes at a virtual address of a context, read by the device; none where the translation gives no access. -/
def State.deviceRead (s : State) (cx part : Nat) (va : Addr) (n : Nat) : Option (List Byte) :=
  let piece := fun (p : Addr × Nat) =>
    match s.translate cx 0 part 0 .load p.1 with
    | .ok x => some (s.bytesAs x.kid ((List.range p.2).map (x.key + ·)))
    | _ => none
  let ps := (splitPage va n).map piece
  if canonical va && ps.all Option.isSome then some (ps.filterMap id).flatten else none

/-! ### Code objects (R43, R45) -/

/-- Whether 256 bytes are a valid header (R45). DESIGN CHOICE (log entry 91): a pool whose base lies past its limit makes it invalid. -/
def headerValid (h : List Byte) : Bool :=
  let f := field h
  let zero := fun lo n => ((h.drop lo).take n).all (· == 0)
  let csize := f 16 8
  let np := f 48 1
  f 0 4 == 1 && f 4 4 == 256 && zero 49 3 && zero 128 128 && decide (np ≤ 4) &&
    (List.range 4).all fun i =>
      let a := f (64 + 16 * i) 8
      let b := f (72 + 16 * i) 8
      if i < np then decide (f 8 8 ≤ a) && decide (a ≤ b) && decide (b ≤ f 8 8 + csize) else a == 0 && b == 0

/-- The pool ranges that a header gives. -/
def headerPools (base : Addr) (h : List Byte) : List (Addr × Addr) :=
  (List.range (field h 48 1)).map fun i =>
    (base + BitVec.ofNat 64 (field h (64 + 16 * i) 8), base + BitVec.ofNat 64 (field h (72 + 16 * i) 8))

/-! ### Private regions (R166, R341) -/

/-- Bytes of a team's region. -/
def regionSize (n : Nat) : Nat := (hardwareBytes + 16384 * n + 65535) / 65536 * 65536

def arenaBase (d : CtxDesc) : Addr := d.pvarena &&& ~~~65535
def arenaSize (d : CtxDesc) : Nat := d.pvarena.toNat % 65536 * 2 ^ 26

/-- The lowest free 64 KB-aligned address of an arena that holds a region; what is allocated elsewhere, under an earlier descriptor, takes
nothing from it. -/
def regionAt (base size : Nat) (used : List (Nat × Nat)) (n : Nat) : Option Nat :=
  let free := fun o => decide (base ≤ o) && decide (o + n ≤ base + size) && used.all fun u => decide (o + n ≤ u.1) || decide (u.1 + u.2 ≤ o)
  let fits := (base :: used.map fun u => u.1 + u.2).filter free
  match fits with
  | [] => none
  | o :: r => some (r.foldl min o)

/-- Takes `k` regions of one size. -/
def takeRegions (base size n : Nat) : Nat → List (Nat × Nat) → Option (List Nat × List (Nat × Nat))
  | 0, used => some ([], used)
  | k + 1, used =>
    match regionAt base size used n with
    | none => none
    | some o => (takeRegions base size n k (used ++ [(o, n)])).map fun r => (o :: r.1, r.2)

/-- Takes the regions of a block's teams in the arena of a descriptor. -/
def arenaTakes (d : CtxDesc) (n k : Nat) (used : List (Nat × Nat)) : Option (List Nat × List (Nat × Nat)) :=
  takeRegions (arenaBase d).toNat (arenaSize d) (regionSize n) k used

/-! ### Room on a core (R82, R93, R163, R256) -/

/-- The slots that teams of a core hold. -/
def State.slotsUsed (s : State) (c : Nat) : List Nat :=
  (s.allTeams.filter fun t => t.core == c && t.role == .main && !t.out).map Team.slot

/-- The slots that are free. -/
def State.slotsFree (s : State) (c : Nat) : List Nat := (List.range 64).filter fun n => !(s.slotsUsed c).contains n

/-- Kilobytes of a core's scratchpad that its resident blocks hold. -/
def State.padUsed (s : State) (c : Nat) : Nat :=
  ((s.blocks.filter fun b => b.core == c && match b.preempt with | .saved _ => false | _ => true).map fun b => (b.spsize + 1023) / 1024).foldl (· + ·) 0

/-- Whether a block of `k` teams of `n` lanes, `m` register blocks and `pad` scratchpad bytes has room on a core now. -/
def State.roomFor (s : State) (c k n m pad : Nat) : Bool :=
  decide (k ≤ (s.slotsFree c).length) && decide (s.rankBlocks c + k * m * ranksOf n ≤ 512) &&
    decide (s.padUsed c + (pad + 1023) / 1024 ≤ 384)

/-- The cores that leave a partition with a write. -/
def coresLeaving (old new : PartEntry) : BitVec 256 :=
  if old.valid then (if new.valid then old.cores &&& ~~~new.cores else old.cores) else 0

/-- Whether a core takes no block of a partition now: it is being cleared, or it leaves with a write under way (R305, R336). -/
def State.coreClosed (s : State) (part c : Nat) : Bool :=
  (s.core c).asked || (s.part part).busy.any fun e => (coresLeaving (s.part part).entry e).getLsbD c

/-- The cores of a partition that may take a new block of a context. -/
def State.coresFor (s : State) (part cx k n m pad : Nat) : List Nat :=
  let p := (s.part part).entry
  (List.range s.grade.cores).filter fun c =>
    p.cores.getLsbD c && !s.coreClosed part c && s.roomFor c k n m pad &&
      (p.edf || ((s.core c).budgets.get {} cx).refill != 0)

/-- The latency class from a die to another die's core (R334). -/
def latencyClass (a b : Nat) : Nat := if a = b then 1 else if a + b = 3 then 3 else 2

/-- The cores of least class from a die, the lowest number first. -/
def State.nearest (s : State) (die : Nat) (cs : List Nat) : Option Nat :=
  let near := fun k => cs.find? fun c => latencyClass die (s.dieOf c) == k
  (near 1).or ((near 2).or (near 3))

/-- Any of the listed cores: the manual lets the device choose. -/
def State.anyOf (s : State) (cs : List Nat) : Option Nat := cs[Config.freeNat (s.free * 64) % max 1 cs.length]?

/-- A free core of a die, or else the nearest (R179). -/
def State.coreNear (s : State) (die : Nat) (cs : List Nat) : Option Nat :=
  match cs.filter fun c => s.dieOf c == die with
  | [] => s.nearest die cs
  | here => s.anyOf here

/-- The die that an affinity pointer prefers (R179). -/
def State.preferred (s : State) (cx launch part : Nat) (va : Addr) : Option Nat :=
  if va = 0 || !canonical va then none
  else match s.translate cx launch part 0 .other va with
    | .ok p => if p.host.isSome then none else (s.homes.get none (p.key / 2 ^ 21)).map Home.die
    | _ => none

/-! ### Creating teams and blocks (R16, R80, R82, R166) -/

/-- The scheduler with the fewest resident teams, the lowest-numbered among equals (R80). -/
def State.schedFor (s : State) (c : Nat) : Nat :=
  let n := fun k => ((s.allTeams.filter fun t => t.core == c && t.role == .main && !t.out && !t.ended).filter fun t => t.sched == k).length
  (List.range 4).foldl (fun m k => if n k < n m then k else m) 0

/-- What a block is dispatched with. -/
structure BlockPlan where
  launch : Nat
  card   : Card
  pools  : List (Addr × Addr)
  start  : Start
  deriving DecidableEq, Repr

/-- The entry, the number of teams, lanes, register blocks and scratchpad bytes of a block: the card's, or for a bin the card's
child fields (R243, R254). -/
def BlockPlan.entry (p : BlockPlan) : Addr := if p.start.child then p.start.entry else p.card.entry
def BlockPlan.teams (p : BlockPlan) : Nat := if p.start.child then 1 else p.card.teams
def BlockPlan.n (p : BlockPlan) : Nat := if p.start.child then p.start.items.length else p.card.size
def BlockPlan.m (p : BlockPlan) : Nat := if p.start.child then p.card.cblocks else p.card.blocks
def BlockPlan.pad (p : BlockPlan) : Nat := if p.start.child then p.card.cspad else p.card.spad

/-- The registers v0 to v3 of a child team (R254). -/
def itemRegs (items : List (List Byte)) : SMap Word :=
  (List.range 4).foldl (fun m r =>
    (items.mapIdx fun l it => (l, BitVec.ofNat 32 (field it (4 * r) 4))).foldl (fun (m : SMap Word) x => m.set 0 (1024 * r + x.1) x.2) m) []

/-- One team of a new block, in the state of R16. -/
def State.addTeam (s : State) (p : BlockPlan) (block core number off : Nat) : State :=
  let (id, s) := s.fresh
  let (sid, s) := s.fresh
  let (rq, s) := s.fresh
  let d := s.descOf p.card.ctx p.launch
  let free := s.slotsFree core
  let slot := free.getD (Config.freeNat (s.free * 64 + number) % max 1 free.length) 0
  let x : Split := { id := sid, pc := p.entry, mask := fullMask p.n, request := some rq, last := s.cycle }
  let t : Team :=
    { id := id, launch := p.launch, block := block, core := core, slot := slot, sched := s.schedFor core, ctx := p.card.ctx,
      part := p.card.part, number := number, n := p.n, live := fullMask p.n, splits := [x], blocks := p.m,
      s := SMap.setList [] 0 0 [p.card.param.extractLsb' 0 32, p.card.param.extractLsb' 32 32],
      v := itemRegs p.start.items, fsbase := BitVec.ofNat 64 off, region := some (off, regionSize p.n), trapvec := d.trapvec,
      enumbase := d.enumbase, vwin := d.vwin,
      plbase := SMap.setList [] 0 0 (p.pools.map Prod.fst), pllim := SMap.setList [] 0 0 (p.pools.map Prod.snd) }
  { s with others := insertTeam t s.others }

def addTeams (p : BlockPlan) (block core : Nat) : Nat → List Nat → State → State
  | _, [], s => s
  | k, o :: r, s => addTeams p block core (k + 1) r (s.addTeam p block core k o)

/-- Puts a block on a core, with a private region for each team (R82, R166). -/
def State.addBlock (s : State) (p : BlockPlan) (core : Nat) : State :=
  let c := s.ctx p.card.ctx
  match arenaTakes (s.descOf p.card.ctx p.launch) p.n p.teams c.arena with
  | none => s
  | some (offs, used) =>
    let (id, s) := s.fresh
    let s := s.modCtx p.card.ctx fun c => { c with arena := used }
    let first := s.nextId
    let s := addTeams p id core 0 offs s
    let mine := (s.others.filter fun t => decide (first ≤ t.id) && t.block == id).map Team.id
    let gx := p.card.gx
    let gy := p.card.gy
    let n := if p.start.child then 0 else p.start.linear
    let b : Block :=
      { id := id, launch := p.launch, core := core, x := n % gx, y := n / gx % gy, z := n / (gx * gy), linear := n, teams := mine,
        nteams := p.teams, spsize := p.pad, child := p.start.child, began := s.cycle, start := p.start }
    let s := { s with blocks := s.blocks ++ [b], free := s.free + 1 }
    s.modLaunch p.launch fun l => { l with live := l.live + 1 }

/-- Whether the context's arena has room for a block's regions now. -/
def State.regionsFit (s : State) (cx launch k n : Nat) : Bool :=
  (arenaTakes (s.descOf cx launch) n k (s.ctx cx).arena).isSome

/-! ### Completion records (R245) -/

/-- Whether the way from a die to where a record of `n` bytes at a context's address lies is open, and back: a record waits for it (R329);
address 0 stands for no record. -/
def State.recordOpen (s : State) (cx launch part : Nat) (va : Addr) (n die : Nat) : Bool :=
  va == 0 || (splitPage va n).all fun p => match s.translate cx launch part (die * s.grade.coresPerDie) .store p.1 with
    | .ok x => s.routeOpen die (s.homeFor die x.key) && s.routeOpen (s.homeFor die x.key) die
    | .wait => false
    | _ => true

/-- Writes a record on the device's own account under a context, from a die; a record that cannot be written is dropped and
reported, or logged. -/
def State.writeRecord (s : State) (cx launch part : Nat) (va entry : Addr) (die : Nat) (bs : List Byte) : State :=
  let drop := fun (s : State) => s.report cx launch va entry 0xFFFF 0xFF 4 0xFFFFFFFF 0 0xFFFFFFFF
  let one : Addr × Nat → Except (Option Refused) (Nat × List Nat) := fun p =>
    match s.translate cx launch part (die * s.grade.coresPerDie) .store p.1 with
    | .ok x => if x.host.any fun h => !s.owns h then .error none else .ok (x.kid, (List.range p.2).map (x.key + ·))
    | .refused r => .error (some r)
    | _ => .error none
  let write := fun (ps : List (Nat × List Nat)) =>
    let ks := ps.flatMap Prod.snd
    let s := ps.foldl (fun s p => s.sealLines p.1 p.2) s
    let (id, s) := ((s.touch (ks.headD 0) die (s.pins part va)).roundTrip die (ks.headD 0)).fresh
    let h := s.homeDie (ks.headD 0)
    (s.commitWrite { die := some die, since := s.cycle } id (ks.zip bs)).reportKeys ks 0xFFFE 4 h
  let log := fun (r : Refused) =>
    s.logViol { part := part, addr := r.addr, va := va, who := 0xFFFE, unit := 0, kind := 1, key := r.key, cause := r.cause, die := die }
  if !canonical va then drop s
  else
    match (splitPage va bs.length).map one with
    | [.ok p] => write [p]
    | [.ok p, .ok q] => write [p, q]
    | .error (some r) :: _ => log r
    | [_, .error (some r)] => log r
    | _ => drop s

/-- The 32 bytes of a completion record. -/
def recordBytes (seq status nfault : Nat) (place stamp : Addr) : List Byte :=
  leBytes 8 seq ++ leBytes 4 status ++ leBytes 4 nfault ++ leBytes 8 place.toNat ++ leBytes 8 stamp.toNat

/-- Writes a launch's or a refused card's completion record; address 0 writes none. -/
def State.writeCompletion (s : State) (c : Card) (launch status nfault : Nat) (place : Addr) (die : Nat) : State :=
  if c.done = 0 then s
  else
    let (h, s) := s.stamp die
    s.writeRecord c.ctx launch c.part c.done c.entry die (recordBytes c.seq.toNat status nfault place h)

/-- Whether device time has passed a launch's deadline; deadline 0 never expires (R243, R257). -/
def State.pastDeadline (s : State) (deadline : Nat) : Bool := deadline != 0 && decide (deadline < s.deviceTime)

/-- Whether every block of a launch and every child has ended (R245). -/
def State.launchDone (s : State) (l : Launch) : Bool :=
  decide (l.card.gx * l.card.gy * l.card.gz ≤ l.next) && l.live == 0 && l.redo.isEmpty && s.dies.all fun d => d.2.bins.all fun b => b.launch != l.id

/-- LAUNCH_COMPLETION. -/
def State.completeLaunch (s : State) (id : Nat) : State :=
  match s.findLaunch id with
  | none => s
  | some l =>
    if !s.launchDone l || !s.recordOpen l.card.ctx l.id l.card.part l.card.done 32 l.die then s
    else
      let status := l.code % 256 + (if l.missed || s.pastDeadline l.card.deadline then 256 else 0) + (if l.engine then 1024 else 0)
      let s := s.writeCompletion l.card l.id status l.nfault l.place l.die
      { s with launches := s.launches.filter fun x => x.id != id }

/-! ### Dispatch (R179, R244, R249, R256, R257) -/

/-- The code object of a card: its header, if it is valid and the entry lies in its code section. -/
def State.codeOf (s : State) (c : Card) : Option (List Byte) :=
  match s.deviceRead c.ctx c.part c.code 256 with
  | none => none
  | some h =>
    let lo := c.code.toNat + field h 8 8
    if headerValid h && decide (lo ≤ c.entry.toNat) && decide (c.entry.toNat < lo + field h 16 8) then some h else none

/-- Whether the device can read a card's header now: over a die link that is being retrained the read waits (R329). -/
def State.headerOpen (s : State) (c : Card) : Bool :=
  (splitPage c.code 256).all fun p => match s.translate c.ctx 0 c.part 0 .load p.1 with
    | .wait => false
    | .ok x => s.wayBetween 0 x.key
    | _ => true

/-- Whether a card is refused (R244). -/
def State.cardRefused (s : State) (c : Card) : Bool :=
  let d := (s.ctx c.ctx).desc
  !c.valid || !d.valid || d.part.toNat != c.part ||
  decide (2 ^ 32 ≤ c.gx * c.gy * c.gz) || decide (512 < c.teams * ranksOf c.size * c.blocks) ||
  decide (arenaSize d < c.teams * regionSize c.size) ||
  match s.codeOf c with
  | none => true
  | some h => field h 40 2 != c.size || field h 42 1 != c.blocks || field h 43 1 != c.stage || field h 44 4 != c.spad

/-- The core on which the next block of a card can be placed now. -/
def State.placeFor (s : State) (c : Card) (launch : Nat) (target : Option Nat) : Option Nat :=
  let cs := s.coresFor c.part c.ctx c.teams c.size c.blocks c.spad
  if !s.regionsFit c.ctx launch c.teams c.size then none
  else match target with
    | some k => if cs.contains k then some k else none
    | none => match s.preferred c.ctx launch c.part c.affinity with
      | some d => s.coreNear d cs
      | none => s.anyOf cs

/-- The queues of a partition in the round of R249, each with its number in the round, its head card and its target core. -/
def State.heads (s : State) (part : Nat) : List (Nat × Posted × Option Nat) :=
  let p := s.part part
  let rings := (List.range 8).filterMap fun i =>
    let r := p.rings.get {} i
    if r.ovr then none else r.cards.head?.map fun c => (i, c, none)
  let dies := (List.range 4).filterMap fun d => ((s.die d).cards.get [] part).head?.map fun c => (8 + d, c, none)
  let cores := ((List.range 256).filter p.entry.cores.getLsbD).filterMap fun k => (s.core k).cards.head?.map fun c => (12 + k, c, some k)
  rings ++ dies ++ cores

/-- Takes the head card off a queue of the round. -/
def State.popHead (s : State) (part n : Nat) : State :=
  if n < 8 then s.modPart part fun p =>
    { p with rings := p.rings.set {} n { p.rings.get {} n with cards := (p.rings.get {} n).cards.drop 1 } }
  else if n < 12 then s.modDie (n - 8) fun d => { d with cards := d.cards.set [] part ((d.cards.get [] part).drop 1) }
  else s.modCore (n - 12) fun c => { c with cards := c.cards.drop 1 }

/-- The key of R257: expired last, then the earlier deadline, then the earlier posting. -/
def State.edfKey (s : State) (deadline order : Nat) : Nat :=
  let d := if deadline = 0 then 2 ^ 64 - 1 else deadline
  (if s.pastDeadline deadline then 2 ^ 192 else 0) + d * 2 ^ 128 + order

/-- The launch that a card has started, or 0. -/
def State.launchAt (s : State) (x : Posted) : Nat := ((s.launches.find? fun l => l.order == x.order).map Launch.id).getD 0

/-- The head card that a dispatch decision takes, with its core where it is not refused; once a launch has begun its card is not judged
again. -/
def State.decide? (s : State) (part : Nat) : Option (Nat × Posted × Option Nat) :=
  let p := s.part part
  let all := s.heads part
  let ordered := all.filter (fun h => decide (p.round ≤ h.1)) ++ all.filter fun h => decide (h.1 < p.round)
  let ready := ordered.filterMap fun h =>
    let begun := s.launchAt h.2.1 != 0
    if !begun && !s.headerOpen h.2.1.card then none
    else if !begun && s.cardRefused h.2.1.card then some (h.1, h.2.1, none)
    else (s.placeFor h.2.1.card (s.launchAt h.2.1) h.2.2).map fun c => (h.1, h.2.1, some c)
  if p.entry.edf then
    ready.foldl (fun best h =>
      match best with
      | none => some h
      | some b => if s.edfKey h.2.1.card.deadline h.2.1.order < s.edfKey b.2.1.card.deadline b.2.1.order then some h else best) none
  else ready.head?

/-- Starts a card's launch, once. -/
def State.openLaunch (s : State) (x : Posted) : Nat × State :=
  match s.launches.find? fun l => l.order == x.order with
  | some l => (l.id, s)
  | none =>
    let (id, s) := s.fresh
    let pools := ((s.codeOf x.card).map (headerPools x.card.code)).getD []
    let l : Launch := { id := id, card := x.card, pools := pools, order := x.order }
    (id, { s with launches := s.launches ++ [l] })

/-- What a block of a launch is dispatched with. -/
def planOf (l : Launch) (x : Start) : BlockPlan := { launch := l.id, card := l.card, pools := l.pools, start := x }

/-- The core on which a block of a launch can be placed now: a bin's near its spawning core, another's by R179. -/
def State.placeStart (s : State) (l : Launch) (x : Start) : Option Nat :=
  let p := planOf l x
  let cs := s.coresFor l.card.part l.card.ctx p.teams p.n p.m p.pad
  if !s.regionsFit l.card.ctx l.id p.teams p.n then none
  else if x.child then s.coreNear (s.dieOf x.core) cs
  else match s.preferred l.card.ctx l.id l.card.part l.card.affinity with
    | some d => s.coreNear d cs
    | none => s.anyOf cs

/-- DISPATCH: one decision of a partition's dispatcher: a refused card's record, or one more block of a launch. -/
def State.dispatch (s : State) (part : Nat) : State :=
  if s.frozen != .no || s.phase != 5 || !(s.part part).entry.valid then s
  else match s.decide? part with
  | none => s
  | some (n, x, none) =>
    if !s.recordOpen x.card.ctx 0 x.card.part x.card.done 32 0 then s
    else ((s.popHead part n).modPart part fun p => { p with round := n + 1 }).writeCompletion x.card 0 512 0 0 0
  | some (n, x, some core) =>
    let (id, s) := s.openLaunch x
    match s.findLaunch id with
    | none => s
    | some l =>
      let s := (s.addBlock (planOf l { linear := l.next }) core).modLaunch id fun l => { l with next := l.next + 1 }
      let s := s.modPart part fun p => { p with round := n + 1 }
      if l.card.gx * l.card.gy * l.card.gz ≤ l.next + 1 then s.popHead part n else s

/-! ### The packing unit's blocks (R254) -/

/-- Places a closed bin as a block of one team, where there is room. -/
def State.placeBin (s : State) (die : Nat) (b : Bin) : State :=
  let gone := fun (s : State) => s.modDie die fun d => { d with bins := d.bins.filter fun x => x.id != b.id }
  match s.findLaunch b.launch with
  | none => gone s
  | some l =>
    let x : Start := { child := true, entry := b.entry, items := b.items, core := b.core }
    match s.placeStart l x with
    | none => s
    | some core => (gone s).addBlock (planOf l x) core

/-- Places every closed bin that has room. -/
def State.placeBins (s : State) : State :=
  if s.frozen != .no then s
  else s.dies.foldl (fun s d => (d.2.bins.filter Bin.closed).foldl (fun s b => s.placeBin d.1 b) s) s

/-- Dispatches again, in order, the blocks that a flush-and-restart has taken off their cores (R306). -/
def State.placeRedos (s : State) : State :=
  if s.frozen != .no then s
  else s.launches.foldl (fun s l =>
    match l.redo with
    | [] => s
    | x :: r => match s.placeStart l x with
      | none => s
      | some core => (s.addBlock (planOf l x) core).modLaunch l.id fun l => { l with redo := r }) s

/-- PACKING_BIN_TIMEOUT: 4,096 cycles after a bin's first item. -/
def State.binTimeout (s : State) (id : Nat) : State :=
  s.dies.foldl (fun s d =>
    if d.2.bins.any fun b => b.id == id && b.late s.cycle then s.modDie d.1 (closeBin id) else s) s

/-! ### Arbitration (R256, R257) -/

/-- The start of a period: repayment of the debt, the new balance. -/
def Budget.period (b : Budget) : Budget :=
  let f := b.refill.toNat
  let repay := min b.debt (f / 2)
  { b with debt := b.debt - repay, balance := f - repay }

/-- EQUINOX_PERIOD. -/
def State.equinoxPeriod (s : State) : State :=
  { s with equinox := s.equinox + 1, cores := s.cores.map fun (e : Nat × Core) =>
      (e.1, { e.2 with budgets := e.2.budgets.map fun (b : Nat × Budget) => (b.1, b.2.period) }) }

/-- DEADLINE_EXPIRY. -/
def State.deadlineExpiry (s : State) (id : Nat) : State :=
  s.modLaunch id fun l => if s.pastDeadline l.card.deadline then { l with missed := true, expired := true } else l

/-! ### Host rings (R246 to R248) -/

def State.ring (s : State) (part n : Nat) : Ring := (s.part part).rings.get {} n

def State.modRing (s : State) (part n : Nat) (g : Ring → Ring) : State :=
  s.modPart part fun p => { p with rings := p.rings.set {} n (g (p.rings.get {} n)) }

/-- The address of the slot of a count; a ring's addresses are physical (log entry 23). -/
def slotOf (r : Ring) (n : Nat) : Addr := r.base + BitVec.ofNat 64 (128 * (n % 2 ^ r.lsize))

/-- Stores a ring's count of free slots. -/
def State.storeFree (s : State) (part n : Nat) (v : Nat) : State := s.record (s.ring part n).free.toNat (leBytes 8 v)

/-- RQ_DOOR: the cards up to a count are posted; those are in order of posting from now on (R246, R257). -/
def State.doorbell (s : State) (part n : Nat) (v : Addr) : State :=
  let r := s.ring part n
  if r.door < v.toNat then
    { (s.modRing part n fun r => { r with door := v.toNat, posts := r.posts ++ [(r.door, s.nextId)] }) with nextId := s.nextId + (v.toNat - r.door) }
  else s

/-- The order of posting of the card of a count. -/
def Ring.orderOf (r : Ring) (n : Nat) : Nat :=
  match (r.posts.filter fun p => decide (p.1 ≤ n)).getLast? with
  | some p => p.2 + (n - p.1)
  | none => 0

/-- The doorbells that speak of cards from a count on. -/
def Ring.postsFrom (r : Ring) (n : Nat) : List (Nat × Nat) :=
  r.posts.filter fun p => decide (n ≤ p.1) || (r.posts.filter fun q => decide (q.1 ≤ n)).getLast? == some p

/-- A ring enters the overrun state (R248). -/
def State.overrun (s : State) (part n : Nat) : State :=
  let r := s.ring part n
  let slot := slotOf r r.read
  let s := s.modRing part n fun r => { r with ovr := true, log := slot, stale := 0 }
  let (h, s) := s.stamp 0
  s.record r.err.toNat (recordBytes r.read 0x3F 0 slot h)

/-- Reads the next slot (R247); `again` says that this is a re-read. -/
def State.readSlot (s : State) (part n : Nat) : State :=
  let r := s.ring part n
  let size := 2 ^ r.lsize
  if s.frozen != .no || !r.en || r.ovr || r.door ≤ r.read then s
  else if size < r.door - r.read then s.overrun part n
  else
    let va := slotOf r r.read
    let bs := s.bytes ((List.range 128).map (va.toNat + ·))
    let seq := field bs 48 8
    if seq = r.read then
      let c := { parseCard bs with valid := cardInRange bs && field bs 72 2 == r.ctx && field bs 74 1 == part }
      let s := s.modRing part n fun r =>
        { r with read := r.read + 1, stale := 0, posts := r.postsFrom (r.read + 1),
                 cards := r.cards ++ [{ card := c, addr := va, ring := some (part, n), order := r.orderOf r.read }] }
      s.storeFree part n (size - (r.door - (r.read + 1)))
    else if seq < r.read && seq % size = r.read % size then
      if 16 ≤ r.stale then s.overrun part n else s.modRing part n fun r => { r with stale := r.stale + 1, since := s.cycle }
    else s.overrun part n

/-- CARD_READ: the first read of a slot. -/
def State.cardRead (s : State) (part n : Nat) : State := if (s.ring part n).stale = 0 then s.readSlot part n else s

/-- Whether a stale slot is to be read again: 1 µs after its last read. -/
def Ring.rereads (r : Ring) (now : Nat) : Bool := r.stale != 0 && decide (r.since + cyclesOf 1000 ≤ now)

/-- SLOT_REREAD: a stale slot is read again. -/
def State.slotReread (s : State) (part n : Nat) : State := if (s.ring part n).rereads s.cycle then s.readSlot part n else s

/-- RING_RESET (R248). -/
def State.ringReset (s : State) (part n : Nat) : State :=
  let s := s.modRing part n fun r => { r with read := r.door, ovr := false, stale := 0, posts := [] }
  s.storeFree part n (2 ^ (s.ring part n).lsize)

/-- A write to the device's register space: ignored before the device is ready (R351). -/
def hosted (g : State → State) (s : State) : Out := moved (fun s => if s.phase = 5 then g s else s) s

/-- The command status of the status block (R339): 0 done, 1 busy, 2 refused. -/
def State.answer (s : State) (n : Nat) : State := { s with status := n }

/-- A command of the hypervisor: refused while the device is frozen, but for those that R345 names. -/
def commanded (g : State → State) (s : State) : Out := hosted (fun s => if s.frozen = .no then g s else s.answer 2) s

/-- What the hypervisor or a driver has the device do: a command of the hypervisor's (R345), or a driver's write. -/
def askedBy (o : Owner) (g : State → State) (s : State) : Out := if o = .hypervisor then commanded g s else hosted g s

/-- Whether a writer reaches the blocks of a partition: the hypervisor all, a driver its own partition's (R339). -/
def mayReach : Owner → Nat → Bool
  | .hypervisor, _ => true
  | .driver p, q => p == q

/-- A write to a block of a partition: another driver's is ignored (R339). -/
def ownedBy (o : Owner) (part : State → Nat) (g : State → State) (s : State) : Out :=
  hosted (fun s => if mayReach o (part s) then g s else s) s

/-- The same of a write that is a command where the hypervisor makes it (R345). -/
def orderedBy (o : Owner) (part : State → Nat) (g : State → State) (s : State) : Out :=
  if o = .hypervisor then commanded g s else ownedBy o part g s

def execRqDoor (part ring : Nat) (value : By Addr) (s : State) : Out := ownedBy value.owner (fun _ => part) (·.doorbell part ring value.value) s
def execCardRead (part ring : Nat) (s : State) : Out := moved (·.cardRead part ring) s
def execSlotReread (part ring : Nat) (s : State) : Out := moved (·.slotReread part ring) s
def execRingReset (part : Nat) (ring : By Nat) (s : State) : Out := ownedBy ring.owner (fun _ => part) (·.ringReset part ring.value) s
/-- The partition that a context belongs to (R339, R341). -/
def State.partOf (cx : Nat) (s : State) : Nat := (s.ctx cx).desc.part.toNat

def execDriverResume (ctx : By Nat) (core slot : Nat) (s : State) : Out :=
  ownedBy ctx.owner (State.partOf ctx.value) (·.resumeDriver ctx.value core slot) s
def execDriverRefuse (ctx : By Nat) (core slot : Nat) (s : State) : Out :=
  ownedBy ctx.owner (State.partOf ctx.value) (·.refuseDriver ctx.value core slot) s
def execInvalidate (ctx : By Nat) (base : Addr) (size : Nat) (s : State) : Out :=
  ownedBy ctx.owner (State.partOf ctx.value) (·.invalidate ctx.value base size) s
def execDispatch (part : Nat) (s : State) : Out := moved (·.dispatch part) s
def execLaunchCompletion (launch : Nat) (s : State) : Out := moved (·.completeLaunch launch) s
def execPackingBinTimeout (bin : Nat) (s : State) : Out := moved (·.binTimeout bin) s
def execEquinoxPeriod (s : State) : Out := moved State.equinoxPeriod s
def execDeadlineExpiry (launch : Nat) (s : State) : Out := moved (·.deadlineExpiry launch) s

end Sys2Proof.Machine
end

