-- ==== Sys2Proof/Machine/Sfu.lean ====
section
/-! DEFINITION. The special functions of R64. `rcp` and `sqrt` are exact. For `rsqrt`, `exp2`, `log2`, `sin` and `cos` the manual
fixes the special cases, the exact cases and an error bound, and leaves the bits open: the result is a constant of Config
without a body wherever that constant meets the bound, and a value within the bound otherwise (log entry 7). -/
namespace Sys2Proof

/-- An exact result known to lie between lo × 2^g and hi × 2^g. -/
structure Encl where
  lo : Int
  hi : Int
  g  : Int
  deriving DecidableEq, Repr

/-- Whether a finite value lies within 2^u of every number of the enclosure, and so of the exact result. -/
def Encl.near (b : Encl) (u : Int) : FVal → Bool
  | .fin neg m e =>
    let q := min (min e b.g) u
    let c := FVal.units neg m e q
    let t : Int := ((2 : Nat) ^ (u - q).toNat : Nat)
    let s : Int := ((2 : Nat) ^ (b.g - q).toNat : Nat)
    decide (c - t ≤ b.lo * s) && decide (b.hi * s ≤ c + t)
  | _ => false

/-- The value in the middle of an enclosure, rounded to binary32. -/
def Encl.reference (b : Encl) : Word :=
  let x := b.lo + b.hi
  BitVec.ofNat 32 (FFmt.f32.round .rne false (.fin (decide (x < 0)) x.natAbs (b.g - 1)))

/-- The exponent of the unit in the last place of binary32 at the enclosure (R64). -/
def Encl.ulp (b : Encl) : Int :=
  let m := max b.lo.natAbs b.hi.natAbs
  max (b.g + m.log2 - 23) (-149)

/-- The open bits where they meet the bound 2^u, else the reference (R64). -/
def Encl.pick (b : Encl) (u : Int) (cand : Word) : Word :=
  if b.near u (f32Of cand) then cand else b.reference

/-- 2^128 × ln 2, rounded down. -/
def ln2Fixed : Nat := 0xb17217f7d1cf79abc9e3b39803f2f6af

/-- 2^256 × π, rounded down. -/
def piFixed : Nat := 0x3243f6a8885a308d313198a2e03707344a4093822299f31d0082efa98ec4e6c89

/-- One in the 128-bit fixed point of the series below. -/
def fixOne : Nat := 2 ^ 128

/-- The sum of the exponential series from term `k` on, at `y` in fixed point. -/
def expSeries (y : Nat) : Nat → Nat → Nat → Nat
  | 0, _, _ => 0
  | n + 1, k, term => term + expSeries y n (k + 1) (term * y / fixOne / (k + 1))

/-- The sum of z^(2i+1)/(2i+1) from i on. -/
def atanhSeries (z2 : Nat) : Nat → Nat → Nat → Nat
  | 0, _, _ => 0
  | n + 1, i, power => power / (2 * i + 1) + atanhSeries z2 n (i + 1) (power * z2 / fixOne)

/-- The alternating series of sine (from k = 1) and cosine (from k = 0), the terms divided by (k+1)(k+2). -/
def trigSeries (r2 : Int) : Nat → Nat → Int → Int
  | 0, _, _ => 0
  | n + 1, k, term => term + trigSeries r2 n (k + 2) (-(term * r2 / (fixOne : Int)) / (((k + 1) * (k + 2) : Nat) : Int))

/-- 1/√(m × 2^e). -/
def rsqrtEncl (m : Nat) (e : Int) : Encl :=
  let odd := e % 2 = 1
  let m' := if odd then 2 * m else m
  let e' := if odd then e - 1 else e
  let r := isqrt (2 ^ 192 / m') 97 0
  { lo := r, hi := if r * r * m' = 2 ^ 192 then r else r + 1, g := -(e' / 2) - 96 }

/-- 2^x for x = X / 2^128 and −200 ≤ x. -/
def exp2Encl (x : Int) : Encl :=
  let k := x / (fixOne : Int)
  let f := (x - k * (fixOne : Int)).toNat
  let s : Int := (expSeries (f * ln2Fixed / fixOne) 48 0 fixOne : Nat)
  { lo := s - 65536, hi := s + 65536, g := k - 128 }

/-- log2 of m × 2^e. -/
def log2Encl (m : Nat) (e : Int) : Encl :=
  let l := m.log2
  let z := (m - 2 ^ l) * fixOne / (m + 2 ^ l)
  let s := 2 * atanhSeries (z * z / fixOne) 48 0 z
  let t : Int := (s * fixOne / ln2Fixed : Nat)
  let x := (e + l) * (fixOne : Int) + t
  { lo := x - 65536, hi := x + 65536, g := -128 }

/-- sin x or cos x for x = ±m × 2^e, −149 ≤ e. -/
def trigEncl (cosine neg : Bool) (m : Nat) (e : Int) : Encl :=
  let x := m * 2 ^ (256 + e).toNat
  let half := piFixed / 2
  let n := (x + half / 2) / half
  let r : Int := ((x : Int) - (n * half : Nat)) / (fixOne : Int)
  let r2 := r * r / (fixOne : Int)
  let s := trigSeries r2 28 1 r
  let c := trigSeries r2 28 0 (fixOne : Int)
  let q := if cosine then (n + 1) % 4 else n % 4
  let v := if q = 0 then s else if q = 1 then c else if q = 2 then -s else -c
  let v := if neg && !cosine then -v else v
  { lo := v - 65536, hi := v + 65536, g := -128 }

/-- The seven functions of R64. -/
inductive SfuOp where
  | rcp | rsqrt | sqrt | exp2 | log2 | sin | cos
  deriving DecidableEq, Repr

/-- What a special function comes to before scale and clamp: a value known exactly, or an enclosure of the exact result with
the bound of R64, as a power of two; none stands for one unit in the last place. -/
inductive Approx where
  | exact (v : FVal)
  | near (b : Encl) (bound : Option Int)
  deriving DecidableEq, Repr

/-- `rsqrt` before scale and clamp. -/
def rsqrtVal (x : Word) : Approx :=
  match f32Of x with
  | .nan => .exact .nan
  | .inf n => .exact (if n then .nan else .fin false 0 0)
  | .fin n m e =>
    if m = 0 then .exact (.inf n)
    else if n then .exact .nan
    else .near (rsqrtEncl m e) none

/-- `exp2` before scale and clamp: exact at an integer. Beyond ±200 every scale of R31 leaves an overflow or an underflow. -/
def exp2Val (x : Word) : Approx :=
  match f32Of x with
  | .nan => .exact .nan
  | .inf n => .exact (if n then .fin false 0 0 else .inf false)
  | .fin n m e =>
    let fixed := FVal.units n m (max (e + 128) 0) 0
    let whole := decide (0 ≤ e) || decide (m % 2 ^ (-e).toNat = 0)
    if whole || m = 0 then
      let k := if 0 ≤ e then (m * 2 ^ e.toNat : Nat) else m / 2 ^ (-e).toNat
      let k : Int := if n then -(k : Int) else k
      .exact (.fin false 1 (clampInt (-1000) 1000 k))
    else if e + 128 < 0 then
      -- |x| < 2^-105: 2^x is within 2^-105 of 1, and on the side of x
      .near { lo := if n then (fixOne : Int) - 2 ^ 30 else fixOne, hi := if n then fixOne else (fixOne : Int) + 2 ^ 30, g := -128 }
        (some (if n then -24 else -23))
    else if fixed ≥ 200 * (fixOne : Int) then .exact (.fin false 1 200)
    else if fixed < -200 * (fixOne : Int) then .near { lo := 0, hi := 1, g := -200 } none
    else .near (exp2Encl fixed) none

/-- `log2` before scale and clamp: exact at a power of two. -/
def log2Val (x : Word) : Approx :=
  match f32Of x with
  | .nan => .exact .nan
  | .inf n => .exact (if n then .nan else .inf false)
  | .fin n m e =>
    if m = 0 then .exact (.inf true)
    else if n then .exact .nan
    else if m = 2 ^ m.log2 then .exact (intVal (e + m.log2))
    else .near (log2Encl m e) none

/-- sin x or cos x for |x| < 2^−40: sin x lies between x − x³/6 and x, cos x between 1 − x²/2 and 1. -/
def tinyEncl (cosine neg : Bool) (m : Nat) (e : Int) : Encl :=
  if cosine then { lo := 2 ^ 81 - 1, hi := 2 ^ 81, g := -81 }
  else
    let a : Int := (m * 2 ^ 80 : Nat)
    if neg then { lo := -a, hi := (m : Int) - a, g := e - 80 } else { lo := a - m, hi := a, g := e - 80 }

/-- `sin` and `cos` before scale and clamp: within 2^−21. -/
def trigVal (cosine : Bool) (x : Word) : Approx :=
  match f32Of x with
  | .nan | .inf _ => .exact .nan
  | .fin n m e =>
    if m = 0 then .exact (if cosine then .fin false 1 0 else .fin n 0 0)
    else .near (if e + m.log2 < -40 then tinyEncl cosine n m e else trigEncl cosine n m e) (some (-21))

/-- Scale, one rounding and the clamp (R33): an approximate result is the open bits where they meet the bound after the scale. -/
def Approx.finish (x : XWord) (cand : Word) : Approx → Word
  | .exact v => finishF32 x v
  | .near b u =>
    let b := { b with g := b.g + scaleOf x }
    finishF32 { x with scale := 0 } (f32Of (b.pick ((u.map (· + scaleOf x)).getD b.ulp) cand))

/-- A special function with its scale, rounding and clamp (R33, R64). -/
def sfu (op : SfuOp) (x : XWord) (a : Word) : Word :=
  match op with
  | .rcp => finishF32 x (fRcp (f32Of a))
  | .sqrt => finishF32 x (fSqrt (f32Of a))
  | .rsqrt => (rsqrtVal a).finish x (Config.rsqrtBits a x.scale)
  | .exp2 => (exp2Val a).finish x (Config.exp2Bits a x.scale)
  | .log2 => (log2Val a).finish x (Config.log2Bits a x.scale)
  | .sin => (trigVal false a).finish x (Config.sinBits a x.scale)
  | .cos => (trigVal true a).finish x (Config.cosBits a x.scale)

end Sys2Proof
end

