-- ==== Sys2Proof/Machine/FloatOps.lean ====
section
/-! DEFINITION. The float and format instructions (R60 to R65, R103, R104, R266 to R271). -/
namespace Sys2Proof.Machine

/-! ### Float operations (R61 to R64) -/

/-- An instruction of four cycles of latency (R46). -/
def four (i : Instr) (f : Fmt) (body : Fmt → State → State → Res) (s : State) : Out :=
  straight i f (.fixed 4) (fun _ v s => body f v s) s

def fltOp (op : FloatOp) (f : Fmt) (v s : State) : Res :=
  tagged (tagsOk v (varA f ++ varB f) [.f32]) (put 4 f .f32 (fun l => floatBin op f.x (fltA f v l) (fltB f v l)) v s)

def fcmpOp (c : FCond) (f : Fmt) (v s : State) : Res :=
  tagged (tagsOk v (varA f ++ varB f) [.f32]) (putPred 4 f (fun l => c.holds (fltA f v l) (fltB f v l)) v s)

def sfuOp (op : SfuOp) (f : Fmt) (v s : State) : Res :=
  tagged (tagsOk v (varA f) [.f32]) (put 4 f .f32 (fun l => sfu op f.x (fltA f v l)) v s)

def execFadd (f : Fmt) (s : State) : Out := four (.fadd f) f (fltOp .add) s
def execFsub (f : Fmt) (s : State) : Out := four (.fsub f) f (fltOp .sub) s
def execFmul (f : Fmt) (s : State) : Out := four (.fmul f) f (fltOp .mul) s
def execFfma (f : Fmt) (s : State) : Out :=
  four (.ffma f) f (fun f v => fun s =>
    tagged (tagsOk v (varA f ++ varB f ++ varC f) [.f32])
      (put 4 f .f32 (fun l => floatFma f.x (fltA f v l) (fltB f v l) (fltC f v l)) v s)) s
def execFmin (f : Fmt) (s : State) : Out := four (.fmin f) f (fltOp .min) s
def execFmax (f : Fmt) (s : State) : Out := four (.fmax f) f (fltOp .max) s
def execFcmpEq (f : Fmt) (s : State) : Out := four (.fcmpEq f) f (fcmpOp .eq) s
def execFcmpNe (f : Fmt) (s : State) : Out := four (.fcmpNe f) f (fcmpOp .ne) s
def execFcmpLt (f : Fmt) (s : State) : Out := four (.fcmpLt f) f (fcmpOp .lt) s
def execFcmpLe (f : Fmt) (s : State) : Out := four (.fcmpLe f) f (fcmpOp .le) s
def execFcmpGt (f : Fmt) (s : State) : Out := four (.fcmpGt f) f (fcmpOp .gt) s
def execFcmpGe (f : Fmt) (s : State) : Out := four (.fcmpGe f) f (fcmpOp .ge) s
def execFcmpUn (f : Fmt) (s : State) : Out := four (.fcmpUn f) f (fcmpOp .un) s
def execRcp (f : Fmt) (s : State) : Out := four (.rcp f) f (sfuOp .rcp) s
def execRsqrt (f : Fmt) (s : State) : Out := four (.rsqrt f) f (sfuOp .rsqrt) s
def execSqrt (f : Fmt) (s : State) : Out := four (.sqrt f) f (sfuOp .sqrt) s
def execExp2 (f : Fmt) (s : State) : Out := four (.exp2 f) f (sfuOp .exp2) s
def execLog2 (f : Fmt) (s : State) : Out := four (.log2 f) f (sfuOp .log2) s
def execSin (f : Fmt) (s : State) : Out := four (.sin f) f (sfuOp .sin) s
def execCos (f : Fmt) (s : State) : Out := four (.cos f) f (sfuOp .cos) s

/-! ### Conversion (R65, R88, R267) -/

/-- The tag of a packed type (R258). -/
def packTag : Ty → Tag
  | .bf16 => .bf16x2
  | .f16 => .f16x2
  | .f8e4 => .f8e4x4
  | .f8e5 => .f8e5x4
  | .i8 | .z8 => .i8x4
  | .i4 => .i4x8
  | .b4 => .b4x8
  | .f32 => .f32
  | _ => .i32

/-- The tags that source A may carry. -/
def cvtSrcTags (dt st : Ty) : List Tag := if dt.isScalar && st.isScalar then [packTag st] else [packTag st, .raw]

/-- The result at a lane: a whole word, or the destination with element j replaced. -/
def cvtLane (f : Fmt) (v : State) (l : Nat) : Word :=
  let (dt, st) := f.cvtTypes
  let src := if st.isScalar then (rawA f v l).toNat else elemOf st.elemBits f.b.toNat (rawA f v l)
  let r := cvtBits dt f.x (numOf st f.x.absA f.x.negA src)
  if dt.isScalar then BitVec.ofNat 32 r else setElem dt.elemBits f.b.toNat (v.readV f.d.toNat l) r

/-- The uniform result as 64 bits; a 32-bit one stands in the low word. -/
def cvtUniform (f : Fmt) (v : State) : Addr :=
  let (dt, st) := f.cvtTypes
  let src := if st.is64 then (rawA64 f v).toNat else (rawA f v 0).toNat
  BitVec.ofNat 64 (cvtBits dt f.x (numOf st f.x.absA f.x.negA src))

def cvtBody (f : Fmt) (v s : State) : Res :=
  let (dt, st) := f.cvtTypes
  match f.cls with
  | .var =>
    let dOk := dt.isScalar || tagIn v f.d.toNat [packTag dt, .raw]
    tagged (tagsOk v (varA f) (cvtSrcTags dt st) && dOk) (put 4 f (packTag dt) (cvtLane f v) v s)
  | _ => if dt.is64 then putWide 4 f (cvtUniform f v) v s else put 4 f .i32 (fun _ => (cvtUniform f v).extractLsb' 0 32) v s

def execCvt (f : Fmt) (s : State) : Out := four (.cvt f) f cvtBody s

/-! ### Block codes, scale bytes and tags (R268 to R271) -/

/-- The scale byte: bits 7:0 of source C. -/
def scaleByte (f : Fmt) (v : State) (l : Nat) : Nat := (rawC f v l).toNat % 256

def scaleTags (f : Fmt) (v : State) : Bool := tagsOk v (varC f) [.i32, .raw, .sc8x4]

def pack4Body (f : Fmt) (v s : State) : Res :=
  tagged (tagIn v f.a.toNat [.f32, .raw] && tagIn v f.d.toNat [.b4x8, .raw] && scaleTags f v)
    (put 4 f .b4x8 (fun l => setElem 4 ((rawB f v l).toNat % 8) (v.readV f.d.toNat l)
      (pack4 (scaleByte f v l) f.x.rnd (f32Of (fltA f v l)))) v s)

def unpk4Body (f : Fmt) (v s : State) : Res :=
  tagged (tagIn v f.a.toNat [.b4x8, .raw] && scaleTags f v)
    (put 4 f .f32 (fun l => unpk4 (scaleByte f v l) (elemOf 4 ((rawB f v l).toNat % 8) (rawA f v l))) v s)

def mkscBody (f : Fmt) (v s : State) : Res :=
  tagged (tagIn v f.a.toNat [.f32, .raw] && tagIn v f.d.toNat [.sc8x4, .raw])
    (put 4 f .sc8x4 (fun l => setElem 8 ((rawB f v l).toNat % 4) (v.readV f.d.toNat l) (mkScale f.x.qual.toNat (rawA f v l))) v s)

/-- The code of a tag, and the tag of a code (R87). -/
def tagCode : Tag → Nat
  | .raw => 0 | .i32 => 1 | .f32 => 2 | .bf16x2 => 3 | .f16x2 => 4 | .f8e4x4 => 5 | .f8e5x4 => 6 | .i8x4 => 7 | .i4x8 => 8
  | .b4x8 => 9 | .sc8x4 => 10

def codeTag (n : Nat) : Tag :=
  match n with
  | 0 => .raw | 1 => .i32 | 2 => .f32 | 3 => .bf16x2 | 4 => .f16x2 | 5 => .f8e4x4 | 6 => .f8e5x4 | 7 => .i8x4 | 8 => .i4x8
  | 9 => .b4x8 | _ => .sc8x4

def execPack4 (f : Fmt) (s : State) : Out := four (.pack4 f) f pack4Body s
def execUnpk4 (f : Fmt) (s : State) : Out := four (.unpk4 f) f unpk4Body s
def execMksc (f : Fmt) (s : State) : Out := four (.mksc f) f mkscBody s
def execTagrd (f : Fmt) (s : State) : Out :=
  four (.tagrd f) f (fun f v => put 4 f .i32 (fun _ => BitVec.ofNat 32 (tagCode (v.tagOf f.a.toNat))) v) s
def execTagset (f : Fmt) (s : State) : Out :=
  four (.tagset f) f (fun f v => put 4 f (codeTag f.b.toNat) (fun l => v.readV f.a.toNat l) v) s

end Sys2Proof.Machine
end

