-- ==== Sys2Proof/Machine/Records.lean ====
section
/-! DEFINITION. The block record and the team records that a save writes to the context's save area (R307 to R310). Where the spec lists
the contents of a section and not their bytes, the bytes are an open function of the contents (log entry 53). -/
namespace Sys2Proof.Machine

/-- `n` free bytes of the number `seed`. -/
def freeBytes (seed n : Nat) : List Byte := (List.range n).map fun i => BitVec.ofNat 8 (Config.freeNat (seed * 2 ^ 64 + i))

/-- The wait kinds of R310. A split that waits for nothing that R310 lists has kind 0; one stopped for the debugger too (R316). -/
def waitKind : Park → Nat
  | .colour _ => 1
  | .mwait .. => 2
  | .watch .. => 3
  | .ldfe => 4
  | .barrier _ => 5
  | .rendezvous .. => 6
  | .queue => 7
  | .acquire _ | .expandUnit | .token _ | .unit => 8
  | .driver _ | .page .. => 9
  | .helpers => 10
  | .none | .stalled | .paused | .latch _ | .reclaim | .counter .. | .stop | .withTeam => 0

/-- Whether a team is stopped for the debugger (R316). -/
def debugStopped (t : Team) : Bool := t.every.any fun x => x.park == .stop

/-- Byte 7 of the header: 0 runnable, 1 parked, 2 in handler; a stopped team is parked. -/
def recordState (t : Team) : Nat :=
  if debugStopped t then 1
  else if t.handler.isSome then 2
  else if t.every.all fun x => x.park != .none then 1 else 0

/-- The wait that the header names, with the split that waits: the first of the team's splits that does; none of a stopped team. -/
def recordWait (t : Team) : Option (Nat × Split) :=
  if debugStopped t then none
  else (t.every.map fun x => (waitKind x.park, x)).find? fun p => p.1 != 0

/-- A space, as a number of the wait record. -/
def spaceNo : Space → Nat
  | .g => 0
  | .sp => 1
  | .vn => 2
  | .va => 3
  | .pv => 4

/-- What the wait record holds beside the kind: what R310 needs of the wait. -/
def parkContents : Park → List Nat
  | .colour l => l
  | .mwait c d _ => [c, d]
  | .watch spc a w => [spaceNo spc, a.toNat, w.toNat]
  | .barrier b => [b]
  | .rendezvous k send => [k, if send then 1 else 0]
  | .acquire k => [k]
  | .token k => [k]
  | _ => []

/-- A pending acquisition: the instruction's address and the colours still sought (R184). -/
def recordSought (t : Team) : Addr × List Nat :=
  (t.every.findSome? fun x => match x.park with | .colour l => some (x.pc, sortNats l) | _ => none).getD (0, [])

/-- Bytes cut or filled with zeros to a length. -/
def fitted (n : Nat) (bs : List Byte) : List Byte := bs.take n ++ List.replicate (n - bs.length) 0

/-- A list of numbers with its length before it. -/
def counting (l : List Nat) : List Nat := l.length :: l

/-- The splits of a team's table: those that run and those that a handler holds. The faulting split of a handler shares the entry of the
handler's own (log entry 69). -/
def tabled (t : Team) : List Split := t.splits ++ t.heldSplits

/-- The masks section: the live mask, 16 split masks, the E and A sets of 16 join records. -/
def maskSection (t : Team) : List Byte :=
  let sets := (List.range 16).map fun i => ((t.joins.get none i).map fun j => (j.expects, j.arrived)).getD (0, 0)
  (t.live :: (List.range 16).map (fun i => (((tabled t)[i]?).map Split.mask).getD 0) ++ sets.flatMap fun x => [x.1, x.2]).flatMap
    fun m => leBytes 128 m.toNat

/-- The varying section: v0 to v(8m−1), register-major, then 248 tags of 4 bits. -/
def varyingSection (t : Team) : List Byte :=
  ((List.range (8 * t.blocks)).flatMap fun r => (List.range t.n).flatMap fun l => leBytes 4 (t.v.get 0 (1024 * r + l)).toNat) ++
    (List.range 124).flatMap fun i => leBytes 1 (tagCode (t.tags.get .raw (2 * i)) + 16 * tagCode (t.tags.get .raw (2 * i + 1)))

/-- A split's entry: pc, record link, in-run bit, run instruction count, request order. -/
def splitContents (x : Split) : List Nat :=
  [x.entry, x.pc.toNat, (x.link.map (· + 1)).getD 0, if x.run.active then 1 else 0, x.run.count, (x.request.map (· + 1)).getD 0]

/-- The faulting split that a handler keeps, with its mask (R42). -/
def keptContents (t : Team) : List Nat := (t.handler.map fun h => h.fault.mask.toNat :: splitContents h.fault).getD []

/-- A join record: its address and its enclosing link. -/
def joinContents (t : Team) (i : Nat) : List Nat :=
  ((t.joins.get none i).map fun j => [j.addr.toNat, (j.outer.map (· + 1)).getD 0]).getD [0, 0]

/-- The run of a split: t0 to t7, register-major, then the written bits and eight tags of 4 bits. -/
def runBytes (n : Nat) (r : Run) : List Byte :=
  ((List.range 8).flatMap fun k => (List.range n).flatMap fun l => leBytes 4 (r.temps.get 0 (1024 * k + l)).toNat) ++
    leBytes 1 r.written.toNat ++ leBytes 4 ((List.range 8).foldl (fun m k => m + tagCode (r.tags.get .raw k) * 16 ^ k) 0)

/-- A fault of a helper, recorded with the recruitment or expansion (R147). -/
def faultContents : Option (Nat × Code × Nat × Addr) → List Nat
  | some (h, c, k, a) => [1, h, faultCode c, k, a.toNat]
  | none => [0]

/-- The state of a recruitment (R148). -/
def harvestContents (x : Recruit) : List Nat :=
  [match x.state with | .none => 0 | .active => 1 | .released => 2 | .cancelled => 3, x.l0, x.total, x.next] ++ counting x.returned ++
    [x.targets.length] ++ (x.targets.flatMap fun g =>
      [g.reg, g.op, g.rnd.bits.toNat] ++ counting (g.parts.flatMap fun p => [p.1, p.2.toNat])) ++ faultContents x.fault

/-- The state of an expansion (R149). -/
def expandContents : Option Expansion → List Nat
  | none => [0]
  | some e => [1, e.w, e.workers.toNat, e.total, e.next, e.applied, e.opened.toNat, if e.ending then 1 else 0,
        (e.current.map (· + 1)).getD 0, (e.gcurrent.map (· + 1)).getD 0] ++
      counting (e.owners.flatMap fun o => [o.lane, o.start.toNat, o.base, o.len]) ++ counting e.returned ++
      counting (e.segments.flatMap fun g => [g.wave, g.reg, g.op, g.rnd.bits.toNat, g.owner, g.value.toNat]) ++ counting e.closed ++
      counting e.empty ++ faultContents e.fault

/-- The lanes of a team whose `ldfe` is pending (R168). -/
def State.ldfeContents (s : State) (t : Team) : List Nat :=
  (s.entries.filter fun e => e.team == t.id && !e.committed && match e.kind with | .ldfe _ => true | _ => false).flatMap fun e =>
    [e.lane, e.va.toNat, (e.dest.map Dest.reg).getD 0]

/-- The sections of a team record, in the order of R308. -/
def State.recordSections (s : State) (t : Team) : List (List Byte) :=
  [maskSection t, fitted 512 (Config.recordBytes 1 ((tabled t).flatMap splitContents ++ keptContents t)),
   fitted 256 (Config.recordBytes 2 ((List.range 16).flatMap (joinContents t))), varyingSection t,
   (List.range 7).flatMap fun i => leBytes 128 (t.p.get 0 i).toNat,
   (t.every.filter fun x => x.run.active).flatMap fun x => runBytes t.n x.run,
   Config.recordBytes 3 (harvestContents t.recruit), Config.recordBytes 4 (expandContents t.expand),
   Config.recordBytes 5 (s.ldfeContents t),
   (List.range 16).flatMap fun i => leBytes 2 ((recordSought t).2.getD i 0)]

/-- Bytes up to the next multiple of 64. -/
def padded (bs : List Byte) : List Byte := bs ++ List.replicate ((64 - bs.length % 64) % 64) 0

/-- Where the sections stand in a record: each one's offset and length. -/
def sectionPlaces : Nat → List (List Byte) → List (Nat × Nat)
  | _, [] => []
  | at', x :: xs => (at', x.length) :: sectionPlaces (at' + (padded x).length) xs

/-- The first 744 bytes of the header of a team record. -/
def State.recordFields (s : State) (t : Team) : List Byte :=
  let wait := recordWait t
  leBytes 4 1 ++ leBytes 2 t.n ++ leBytes 1 t.blocks ++ leBytes 1 (recordState t) ++ leBytes 2 ((wait.map Prod.fst).getD 0) ++
  leBytes 2 t.fdepth ++ leBytes 2 t.dflen ++ leBytes 2 (tabled t).length ++
  leBytes 8 t.frpc.toNat ++ leBytes 8 t.fraddr.toNat ++ leBytes 8 t.trapvec.toNat ++
  leBytes 4 t.frcode.toNat ++ leBytes 4 t.frlane.toNat ++
  leBytes 4 t.tctl.toNat ++ leBytes 4 t.tile.toNat ++ leBytes 4 t.gang.toNat ++
  leBytes 4 (t.progv.toNat + (if t.progset then 65536 else 0)) ++
  leBytes 8 ((List.range 12).foldl (fun k i => k + (t.c.get 0 i % 16) * 16 ^ i) 0) ++
  leBytes 4 0 ++ leBytes 4 t.engst.toNat ++ leBytes 8 t.engaddr.toNat ++
  ((List.range 16).flatMap fun i => let h := t.held.getD i (0, 0); leBytes 4 (h.1 + 65536 * h.2)) ++
  leBytes 4 t.hfrec.toNat ++ leBytes 4 t.hfiter.toNat ++ leBytes 4 t.xfown.toNat ++ leBytes 4 t.xfoff.toNat ++
  ((List.range 64).flatMap fun i => leBytes 4 (t.s.get 0 i).toNat) ++
  ((List.range 32).flatMap fun i => let x := t.a.get {} i; leBytes 4 x.base.toNat ++ leBytes 4 x.stride.toNat) ++
  leBytes 1 ((List.range 8).foldl (fun k i => k + if i = 7 || t.q.get false i then 2 ^ i else 0) 0) ++ freeBytes s.free 7 ++
  leBytes 8 (recordSought t).1.toNat ++ leBytes 1 (recordSought t).2.length ++ leBytes 15 0 ++
  fitted 32 (Config.recordBytes 0 ((wait.map fun w => w.1 :: w.2.id :: parkContents w.2.park).getD [0]))

/-- Sections with the places that a header gives them from byte `at'` on, in a table of `n` pairs. -/
def sectionTable (at' n : Nat) (xs : List (List Byte)) : List Byte :=
  fitted (16 * n) ((sectionPlaces at' xs).flatMap fun x => leBytes 8 x.1 ++ leBytes 8 x.2)

/-- A team record (R308): its header of 1,024 bytes, then its sections, each 64-byte aligned. -/
def State.teamRecord (s : State) (t : Team) : List Byte :=
  let xs := s.recordSections t
  fitted 1024 (s.recordFields t ++ sectionTable 1024 17 xs) ++ xs.flatMap padded

/-! ### The block record (R309) -/

/-- Whether a bit is set, as a number. -/
def bitNat (b : Bool) : Nat := if b then 1 else 0

/-- Bits packed eight to a byte, the first lowest. -/
def packBits (n : Nat) (b : Nat → Bool) : List Byte :=
  (List.range ((n + 7) / 8)).map fun i =>
    BitVec.ofNat 8 ((List.range 8).foldl (fun m j => m + bitNat (decide (8 * i + j < n) && b (8 * i + j)) * 2 ^ j) 0)

/-- A barrier: bits 15:0 its arrived teams, bit 16 a `barx` arrival, its generation above. -/
def State.barrierBytes (s : State) (b : Block) (i : Nat) : List Byte :=
  let x := b.barriers.get {} i
  let here := fun k => x.arrived.any fun a => ((s.findTeam a.team).map Team.number) == some k
  leBytes 8 ((List.range 16).foldl (fun m k => m + bitNat (here k) * 2 ^ k) 0 + bitNat x.x * 2 ^ 16 + x.gen * 2 ^ 17)

/-- A rendezvous queue: team, split and register of each party, in order. -/
def State.queueContents (s : State) (l : List Party) : List Nat :=
  counting (l.flatMap fun p => [((s.findTeam p.team).map Team.number).getD 0, p.split, p.reg])

/-- A tile's chains, 6 bytes each. -/
def tileBytes (x : Tile) : List Byte :=
  (List.range (16 * 512)).flatMap fun k => leBytes 6 (x.chains.get {} k).acc.toNat

/-- What else stands of a tile: its chains' bits, its kind and records, its token. -/
def tileContents (x : Tile) (k : Token) : List Nat :=
  (x.chains.flatMap fun c => [c.1, bitNat c.2.touched, bitNat c.2.sticky]) ++
    [match x.kind with | .none => 0 | .float => 1 | .int => 2, bitNat x.set] ++
    counting (x.cols.flatMap fun c => [c.1, (c.2.map BitVec.toNat).getD 256]) ++
    counting (x.rows.flatMap fun c => [c.1, match c.2 with | some (some b) => b.toNat | some none => 256 | none => 257]) ++
    match k with | .unit => [0] | .gang l => 1 :: counting l | .releasing l => 2 :: counting l

/-- A copy of a macro: its cells, and its format and column scales. -/
def copyContents (x : MacroCopy) : List Nat :=
  x.format.code :: (x.cells.flatMap fun c => [c.1, c.2.toNat]) ++ counting (x.scales.flatMap fun c => [c.1, c.2.toNat])

/-- The matrix section of a block that holds the unit. -/
def matrixSection (m : Matrix) : List Byte :=
  ((List.range 4).flatMap fun k => tileBytes (m.tiles.get {} k)) ++
    Config.recordBytes 6 ((List.range 4).flatMap fun k => tileContents (m.tiles.get {} k) (m.tokens.get .unit k)) ++
    Config.recordBytes 7 ((List.range 8).flatMap fun k =>
      copyContents (m.macros.get {} k).active ++ copyContents (m.macros.get {} k).shadow)

/-- The sections of a block record, in the order of R309. -/
def State.blockSections (s : State) (b : Block) : List (List Byte) :=
  let m := (s.core b.core).matrix
  [(List.range 8).flatMap (s.barrierBytes b),
   Config.recordBytes 8 ((List.range 16).flatMap fun k =>
     s.queueContents (b.slots.get {} k).senders ++ s.queueContents (b.slots.get {} k).receivers),
   ((List.range 8).flatMap fun k => fitted 256 (b.shapes.get [] k)) ++ packBits 8 (fun k => !(b.shapes.get [] k).isEmpty),
   s.bytes ((List.range b.spsize).map (padKey b.id)) ++
     packBits (b.spsize / 16) (fun g => s.full.get false (padKey b.id 0 / 16 + g)),
   if m.bound = some b.id then matrixSection m else []]

/-- A block record (R309). -/
def State.blockRecord (s : State) (b : Block) : List Byte :=
  let xs := s.blockSections b
  padded (Config.recordBytes 9 ([1, b.teams.length, b.spsize, b.core, bitNat ((s.core b.core).matrix.bound == some b.id), bitNat b.usedVn] ++
    (sectionPlaces 0 xs).flatMap fun x => [x.1, x.2])) ++ xs.flatMap padded

/-! ### Writing them -/

/-- Writes records one behind the other from byte `at'` of an area of `size` bytes, with open gaps of whole 64-byte units that leave room
for the rest, cut off where the area ends. -/
def State.placeRecords (base size : Nat) : Nat → List (List Byte) → State → State
  | _, [], s => s
  | at', bs :: rest, s =>
    let need := ((bs :: rest).map fun r => (padded r).length).foldl (· + ·) 0
    let gap := Config.freeNat (s.free * 2 ^ 64 + 2 ^ 62) % ((size - at' - need) / 64 + 1) * 64
    let s := { s.record (base + at' + gap) (bs.take (size - (at' + gap))) with free := s.free + 1 }
    State.placeRecords base size (at' + gap + (padded bs).length) rest s

/-- Writes the records of a save to its context's save area, whose other bytes become free bytes (R307, R341). -/
def State.writeRecords (s : State) (b : Block) (ts : List Team) : State :=
  match ts with
  | [] => s
  | t :: _ =>
    let d := s.descOf t.ctx t.launch
    if d.savesize = 0 then s
    else
      let rs := s.blockRecord b :: ts.map s.teamRecord
      let s := { s.putAt d.savebase.toNat (freeBytes s.free d.savesize.toNat) with free := s.free + 1 }
      State.placeRecords d.savebase.toNat d.savesize.toNat 0 rs s

end Sys2Proof.Machine
end

