-- ==== Sys2Proof/Machine/Saves.lean ====
section
/-! DEFINITION. What leaves a core and comes back: teams and blocks that are over (R22, R82, R163, R187), kills (R101), and
pre-emption: the choice of a method, flush-and-restart, save and restore (R305 to R310, R148, R157, R171, R190, R216, R239). -/
namespace Sys2Proof.Machine

/-! ### Teams and blocks that are over -/

/-- Whether nothing of a team is under way: no entry, no command. -/
def State.quiet (s : State) (tid : Nat) : Bool :=
  !(s.entries.any fun e => e.team == tid) && !(s.commands.any fun c => c.counts.contains tid)

/-- The colours that an ended team still holds are released, ascending, once its stores and commands are done (R187). -/
def State.dropHeld (s : State) (t : Team) : State :=
  (sortNats (t.held.map Prod.fst)).foldl (fun s c => s.dropColour t.ctx c (s.dieOf t.core) false) s

/-- A team is over: its region returns to the arena, a pending engine fault of a team that exited marks its launch (R166, R240). -/
def State.reapTeam (s : State) (t : Team) : State :=
  let s := s.dropHeld t
  let s := match t.region with
    | some r => s.modCtx t.ctx fun c => { c with arena := c.arena.erase r }
    | none => s
  let s := if t.role = .main then s.modLaunch t.launch fun l =>
      { l with engine := l.engine || (t.exited && t.engst.extractLsb' 0 4 != 0) } else s
  { s with others := s.others.filter fun x => x.id != t.id }

/-- A block leaves its core for good: its unit frees, its scratchpad contents are lost (R82, R163, R274); after a
flush-and-restart it waits for its dispatch (R306). -/
def State.reapBlock (s : State) (b : Block) : State :=
  let pad := fun k => decide (padKey b.id 0 ≤ k) && decide (k < padKey (b.id + 1) 0)
  let s := s.modMatrix b.core fun m => if m.bound = some b.id then freeUnit m else m
  let s := { s with mem := s.mem.dropKeys pad, hist := s.hist.dropKeys pad, full := s.full.dropKeys fun g => pad (16 * g),
                    blocks := s.blocks.filter fun x => x.id != b.id }
  s.modLaunch b.launch fun l =>
    { l with live := l.live - 1, redo := if b.preempt = .restarting then l.redo ++ [b.start] else l.redo }

/-- Removes every team that is over, and every block whose last team is. On an unfocused state. -/
def State.reap (s : State) : State :=
  let s := (s.others.filter Team.ended).foldl (fun s t => s.dropEntries t.id false) s
  let s := (s.others.filter fun t => t.ended && s.quiet t.id).foldl State.reapTeam s
  let s := (s.blocks.filter fun b => !(s.others.any fun t => t.block == b.id && t.role == .main)).foldl State.reapBlock s
  { s with cores := s.cores.map fun (e : Nat × Core) =>
      (e.1, { e.2 with asked := e.2.asked && s.blocks.any fun b => b.core == e.1 && (match b.preempt with | .saved _ => false | _ => true) }) }

/-- KILL (R101). -/
def State.kill (s : State) (tid : Nat) : State :=
  match s.findTeam tid with
  | some t => if t.role = .main then s.endTeam tid .kill else s
  | none => s

/-! ### The choice of a method (R305) -/

/-- The teams of a block. -/
def State.teamsOf (s : State) (b : Block) : List Team := s.allTeams.filter fun t => t.block == b.id && t.role == .main

/-- Nanoseconds since a block's dispatch. -/
def State.residentTime (s : State) (b : Block) : Nat := (s.cycle - b.began) * 10 / 11

/-- The done fraction as a ratio, where it is known. -/
def State.fraction (s : State) (b : Block) (est : Nat) : Option (Nat × Nat) :=
  match ((s.teamsOf b).filter fun t => t.live != 0 && t.progset).map fun t => t.progv.toNat with
  | x :: r => some (r.foldl min x, 65536)
  | [] => if est = 0 then none else some (s.residentTime b, est * 1000)

/-- Whether less than 50 µs remain. -/
def nearlyDone (f : Option (Nat × Nat)) (est : Nat) : Bool :=
  match f with
  | some (a, b) => est != 0 && decide (est * 1000 * b < 50000 * b + est * 1000 * a)
  | none => false

/-- Whether the fraction is below a quarter. -/
def belowQuarter (f : Option (Nat × Nat)) : Bool :=
  match f with
  | some (a, b) => decide (4 * a < b)
  | none => false

/-! ### Save (R307) -/

/-- The records that enclose a link. -/
def enclosing (t : Team) : Nat → Option Nat → List Nat
  | 0, _ | _, none => []
  | fuel + 1, some k => k :: enclosing t fuel ((t.joins.get none k).bind Join.outer)

/-- A record without the lanes that go back: one that was formed in the wave is gone. -/
def rewindJoin (mine : Mask) (kept : List Nat) (k : Nat) (j : Join) : Option Join :=
  if !kept.contains k && j.expects &&& ~~~mine = 0 then none else some { j with arrived := j.arrived &&& ~~~mine }

/-- The splits of an unclosed wave as one, at the `xnext` that opened it; other lanes stay where they are (R157). -/
def gatherWave (e : Expansion) (mine : Mask) (xs : List Split) : List Split :=
  let inside := xs.filter fun x => x.mask &&& mine != 0
  match inside with
  | [] => xs
  | x :: _ =>
    let y : Split :=
      { x with pc := e.opened, mask := mine, link := e.link, run := {}, trailer := 0, wave := none, awaits := [], park := .none, gated := none, owed := 0,
               older := inside.foldl (fun l z => unionIds l z.older) [], barred := inside.foldl (fun l z => unionIds l z.barred) [] }
    insertSplit y ((xs.map fun z => { z with mask := z.mask &&& ~~~mine }).filter fun z => z.mask != 0 && z.id != y.id)

/-- A team's unclosed wave is given up and dealt again on resumption: its results are discarded, and its lanes, with the records and the
deferred entries that they have formed in it, go back to the `xnext` that opened it (R157). DEDUCED (log entry 54): where the wave was
opened before the handler that runs, the faulting split is one of those that go back, and `frpc` names the `xnext`. -/
def rewindTeam (t : Team) : Team :=
  match t.expand with
  | none => t
  | some e =>
    match e.current with
    | none => t
    | some k =>
      let mine := e.workers &&& t.live
      let kept := enclosing t 16 e.link
      let late := (t.deferred.drop e.depth).filter fun d => (d.mask ||| d.arrived) &&& ~~~mine != 0
      let t := { t with expand := some { e with segments := e.segments.filter fun g => g.wave != k, replay := true },
                        joins := t.joins.map fun (x : Nat × Option Join) => (x.1, x.2.bind (rewindJoin mine kept x.1)),
                        deferred := t.deferred.take e.depth ++ late }
      match t.handler with
      | none => { t with splits := gatherWave e mine t.splits }
      | some h =>
        if e.nested then { t with splits := gatherWave e mine t.splits }
        else
          match (gatherWave e mine (h.fault :: h.held)).partition fun x => x.id == h.fault.id with
          | ([x], held) => { t with handler := some { fault := x, held := held.foldr insertSplit [] }, frpc := if x.pc = h.fault.pc then t.frpc else x.pc }
          | (_, held) => { t with handler := some { fault := { h.fault with mask := 0 }, held := held.foldr insertSplit [] } }

/-- Whether an entry waits in a way that a save keeps (R216, R310). -/
def State.keptEntry (s : State) (e : Entry) : Bool :=
  s.waitsFull e || (!e.committed && match e.kind with | .watch _ => true | _ => false)

/-- The waiting entries that lanes of an unclosed wave have entered since it opened leave the queues, with what awaited them: the
instructions execute again (R157, R216). -/
def State.rewindEntries (s : State) (tid : Nat) : State :=
  match (s.findTeam tid).bind fun t => (t.expand.filter fun e => e.current.isSome).map fun e => (t, e) with
  | none => s
  | some (t, e) =>
    let gone := fun (x : Entry) => x.team == tid && s.keptEntry x && decide (e.first ≤ x.id) && (e.workers &&& t.live).getLsbD x.lane
    let out := s.entries.filter gone
    let s := { s with entries := s.entries.filter fun x => !gone x }
    out.foldl (fun s x => s.modTeamId tid fun t =>
      let t := landFlight t x.flight
      if t.flights.any fun y => y.id == x.flight then t
      else { t with pending := t.pending.filter fun p => p.flight != x.flight }) s

/-- The same of a team of the device, with its deferred list. -/
def State.rewindWave (s : State) (tid : Nat) : State :=
  let s := s.rewindEntries tid
  match (s.findTeam tid).bind fun t => if t.expand.any fun e => e.current.isSome then t.splits.head? else none with
  | none => s
  | some x =>
    let v := s.focus tid x.id
    match loadDeferred v v with
    | .ok (u, old) =>
      match storeDeferred v u ((u.modTeam fun t => { t with deferred := old }).unfocus.modTeamId tid rewindTeam) old with
      | .done u => u.unfocus
      | _ => s.modTeamId tid rewindTeam
    | .error _ => s.modTeamId tid rewindTeam

/-- Stops a block for a save: latches empty, helpers and borrowed lanes go back. -/
def State.beginSave (s : State) (b : Block) : State :=
  let s := s.modBlock b.id fun b => { b with preempt := .saving }
  (s.teamsOf b).foldl (fun s t => ((s.breakLatches t true).stopGroups t.id).stopLent t.id) s

/-- Flush-and-restart: the teams end; the block is dispatched again once nothing of it is under way (R306). -/
def State.beginRestart (s : State) (b : Block) : State :=
  let s := s.modBlock b.id fun b => { b with preempt := .restarting }
  (s.teamsOf b).foldl (fun s t => s.endTeam t.id .restart) s

/-- Chooses a block's method and starts it (R305). -/
def State.preemptBlock (s : State) (b : Block) (mayDrain : Bool) : State :=
  let card := ((s.findLaunch b.launch).map Launch.card).getD {}
  let f := s.fraction b card.est
  if mayDrain && nearlyDone f card.est then s.modBlock b.id fun b => { b with preempt := .draining s.cycle }
  else if card.idem && belowQuarter f && !b.posted then s.beginRestart b
  else s.beginSave b

/-- PREEMPT_REQUEST: every resident block of the cores is decided. -/
def State.preemptRequest (s : State) (cores : List Nat) : State :=
  let s := cores.foldl (fun s c => s.modCore c fun k => { k with asked := true }) s
  (s.blocks.filter fun b => cores.contains b.core && b.preempt == .resident).foldl (fun s b => s.preemptBlock b true) s

/-- DRAIN_TIMEOUT: 200 µs after a drain was chosen. -/
def State.drainTimeout (s : State) (id : Nat) : State :=
  match s.findBlock id with
  | none => s
  | some b =>
    match b.preempt with
    | .draining c => if c + cyclesOf 200000 ≤ s.cycle then s.preemptBlock b false else s
    | _ => s

/-- Whether a pending result belongs to a wait that a save keeps. -/
def State.keptPending (s : State) (b : Block) (t : Team) (p : Pending) : Bool :=
  p.value.isNone &&
    ((s.entries.any fun e => e.team == t.id && e.flight == p.flight && s.keptEntry e) ||
     b.slots.any fun x => x.2.receivers.any fun r => r.team == t.id && r.flight == p.flight)

/-- Whether a team of a block stands still, as a save needs (R307 step 2). -/
def State.savable (s : State) (b : Block) (t : Team) : Bool :=
  let groups := s.others.filter fun g => g.role == .helper t.id || g.role == .drafted t.id
  !(s.entries.any fun e => e.team == t.id && !s.keptEntry e) && groups.all (fun g => s.quiet g.id) &&
    !(s.commands.any fun c => c.counts.contains t.id && !c.complete) && t.pending.all (s.keptPending b t) &&
    t.every.all fun x => match x.wave with | some w => !s.lanesOut t.id w | none => true

/-- What a park becomes while its team is away: requests are made again, translations checked again (R310). -/
def savedPark : Park → Park
  | .expandUnit | .withTeam | .token _ | .unit | .driver _ | .page .. | .helpers | .stalled | .paused | .counter .. | .reclaim => .none
  | p => p

/-- A team goes out: its splits keep their runs and give up their instruction-buffer entries and run slots; fetch stays off while an
acquisition of colours is pending (R190, R295). -/
def switchOut (t : Team) : Team :=
  let seeks := t.every.any fun x => match x.park with | .colour _ => true | _ => false
  Team.mapEvery (fun x => { x with buffer := false, request := none, inSlot := false, park := savedPark x.park })
    { t with out := true, fetchOff := if seeks then t.fetchOff else none }

/-- The contexts of a list of teams. -/
def State.ctxsOf (s : State) (ids : List Nat) : List Nat :=
  ((s.allTeams.filter fun t => ids.contains t.id).map Team.ctx).eraseDups

/-- Stolen time begins when a context's last resident block has left its core (R326). -/
def State.beginStolen (s : State) (cx : Nat) : State :=
  let resident := s.allTeams.any fun t => t.ctx == cx && t.role == .main && !t.out && !t.ended
  s.modCtx cx fun c => if resident || c.away.isSome then c else { c with away := some s.deviceTime }

/-- It ends when the context has a team resident again, or no block that awaits resumption. -/
def State.endStolen (s : State) (cx : Nat) : State :=
  s.modCtx cx fun c => match c.away with
    | some a => { c with away := none, stolen := c.stolen + (s.deviceTime - a) }
    | none => c

/-- Stolen time that is over. -/
def State.settleStolen (s : State) : State :=
  (s.ctxs.filter fun c => c.2.away.isSome).foldl (fun s c =>
    let mine := fun (t : Team) => t.ctx == c.1 && t.role == .main && !t.ended
    let saved := fun (b : Block) => (match b.preempt with | .saved _ => true | _ => false) && (s.teamsOf b).any mine
    if (s.allTeams.any fun t => mine t && !t.out) || !s.blocks.any saved then s.endStolen c.1 else s) s

/-- Whether a save of a block may complete (R307 step 2). -/
def State.mayLeave (s : State) (b : Block) : Bool :=
  let m := s.matrix b.core
  b.preempt == .saving && (s.teamsOf b).all (s.savable b) && !(m.bound == some b.id && !m.queue.isEmpty)

/-- A saved block leaves its core; what its records hold stays with the block and its teams (R307 step 4). -/
def State.leaveCore (s : State) (b : Block) : State :=
  let ids := (s.teamsOf b).map Team.id
  let m := s.matrix b.core
  let mine := m.bound == some b.id
  let kept := s.entries.filter fun e => ids.contains e.team
  let reqs := (s.core b.core).acquirers.filter fun w => ids.contains w.team
  let away := fun (w : Waiter) => !ids.contains w.team
  let s := { s with entries := s.entries.filter fun e => !ids.contains e.team }
  let s := s.modCore b.core fun c =>
    { c with acquirers := c.acquirers.filter away, expanders := c.expanders.filter away,
             matrix := { (if mine then freeUnit m else m) with waits := m.waits.filter fun w => !ids.contains w.team } }
  let s := s.modBlock b.id fun b =>
    { b with preempt := .saved s.cycle, kept := kept, reqs := reqs,
             unit := if mine then some { m with latches := [], waits := [] } else none }
  let s := ids.foldl (fun s t => s.modTeamId t switchOut) s
  (s.ctxsOf ids).foldl State.beginStolen s

/-- SAVE_COMPLETE: the records are written, and the block leaves its core (R307 to R309). -/
def State.saveComplete (s : State) (id : Nat) : State :=
  match s.findBlock id with
  | some b =>
    if s.mayLeave b then
      let s := (s.teamsOf b).foldl (fun s t => s.rewindWave t.id) s
      (s.writeRecords b (s.teamsOf b)).leaveCore b
    else s
  | none => s

/-! ### Restore (R307, R310) -/

/-- Whether a saved block has room on a core. -/
def State.roomBack (s : State) (b : Block) (c : Nat) : Bool :=
  let ts := s.teamsOf b
  let part := (ts.head?.map Team.part).getD 0
  let cx := (ts.head?.map Team.ctx).getD 0
  let p := (s.part part).entry
  let ranks := (ts.map fun t => t.blocks * ranksOf t.n).foldl (· + ·) 0
  p.cores.getLsbD c && !s.coreClosed part c && (p.edf || ((s.core c).budgets.get {} cx).refill != 0) &&
    decide (ts.length ≤ (s.slotsFree c).length) && decide (s.rankBlocks c + ranks ≤ 512) &&
    decide (s.padUsed c + (b.spsize + 1023) / 1024 ≤ 384) && (b.unit.isNone || (s.matrix c).bound.isNone)

/-- The core on which a saved block resumes (R307). -/
def State.coreBack (s : State) (b : Block) : Option Nat :=
  if s.roomBack b b.core then some b.core
  else if b.usedVn then none
  else
    let cs := (List.range s.grade.cores).filter (s.roomBack b)
    s.nearest (s.dieOf b.core) cs

/-- A team comes back: a slot, a scheduler, requests for instruction-buffer entries, for the splits that its handler holds too; an
active recruitment is released (R148). -/
def State.switchIn (s : State) (core tid : Nat) : State :=
  let free := s.slotsFree core
  let slot := free.getD (Config.freeNat (s.free * 64 + tid) % max 1 free.length) 0
  let sched := s.schedFor core
  let s := s.modTeamId tid fun t =>
    { t with out := false, core := core, slot := slot, sched := sched,
             recruit := { t.recruit with state := if t.recruit.state = .active then .released else t.recruit.state } }
  match s.findTeam tid with
  | none => s
  | some t => ((t.splits ++ t.heldSplits).filter fun x => x.park == .none).foldl (fun s x => s.unparkSplit tid x.id) s

/-- A waiting `watch` or `ldfe` of a team that is back translates its address afresh (R190, R310). Where the tree gives it no byte, it
stands at the byte that it had. -/
def State.retarget (s : State) (e : Entry) : Entry :=
  match (s.findTeam e.team).bind fun t => t.every.head?, e.spans.head? with
  | some x, some (a, _) =>
    match (s.focus e.team x.id).checkLane (if a = e.va then .g else .pv) .load e.locs.length false e.lane e.va with
    | .ok l => { e with locs := l.keys, page := l.page, dom := l.dom, inside := l.inside, key := l.kid, spans := l.spans,
                        host := l.keys.any fun k => decide (2 ^ 54 ≤ k) }
    | .error _ => e
  | _, _ => e

/-- The locations of an access that waits for its colours, translated afresh from the core on which its team is back (R190, R310). -/
def State.renewGated (s : State) (tid : Nat) : State :=
  match s.findTeam tid with
  | none => s
  | some t =>
    (t.every.filter fun x => x.gated.isSome).foldl (fun s x =>
      let v := s.focus tid x.id
      let one := fun (l : Loc) =>
        if l.drop.isSome then l
        else match v.checkLane .g .load l.keys.length false l.lane l.va with
          | .ok l => l
          | .error _ => l
      s.modSplitId tid x.id fun x => { x with gated := x.gated.map fun ls => ls.map one }) s

/-- BLOCK_RESTORE. -/
def State.restoreBlock (s : State) (id : Nat) : State :=
  match s.findBlock id with
  | none => s
  | some b =>
    match b.preempt with
    | .saved since =>
      match (if s.frozen = .no then s.coreBack b else none) with
      | none => s
      | some core =>
        let ts := s.teamsOf b
        let s := s.modBlock id fun b =>
          { b with preempt := .resident, core := core, began := b.began + (s.cycle - since), kept := [], reqs := [], unit := none }
        let s := { s with entries := s.entries ++ b.kept.map fun (e : Entry) => { e with core := core } }
        let s := s.modCore core fun c =>
          { c with acquirers := c.acquirers ++ b.reqs,
                   matrix := match b.unit with | some m => { m with waits := c.matrix.waits } | none => c.matrix }
        let s := ts.foldl (fun s t => s.switchIn core t.id) { s with free := s.free + 1 }
        let s : State := { s with entries := s.entries.map fun (e : Entry) => if b.kept.any fun k => k.id == e.id then s.retarget e else e }
        let s := ts.foldl (fun s t => s.renewGated t.id) s
        let s := if s.dieOf b.core = s.dieOf core then s else s.message (s.dieOf b.core) (s.dieOf core)
        (s.ctxsOf (ts.map Team.id)).foldl State.endStolen s
    | _ => s

def execKill (team : Nat) (s : State) : Out := commanded (·.kill team) s
def execPreemptRequest (cores : List Nat) (s : State) : Out := commanded (·.preemptRequest cores) s
def execDrainTimeout (block : Nat) (s : State) : Out := moved (·.drainTimeout block) s
def execSaveComplete (block : Nat) (s : State) : Out := moved (·.saveComplete block) s
def execBlockRestore (block : Nat) (s : State) : Out := moved (·.restoreBlock block) s

/-- HELPER_ABANDON_TIMEOUT (R145). -/
def execHelperAbandonTimeout (group : Nat) (s : State) : Out := moved (·.abandonLate group) s

end Sys2Proof.Machine
end

