-- ==== Sys2Proof/Machine/System.lean ====
section
/-! DEFINITION. System registers, time, progress reports and breakpoints (R15, R74 to R76, R95, R147, R183, R240, R303, R311, R315,
R326, R328). -/
namespace Sys2Proof.Machine

/-! ### System registers -/

/-- `hstat` (R147). -/
def hstat (v : State) : Nat :=
  let t := v.team
  let st := match t.recruit.state with | .none => 0 | .active => 1 | .released => 2 | .cancelled => 3
  let helpers := ((v.others.filter fun g => g.role == .helper t.id || g.role == .drafted t.id).map fun g => laneCount g.n g.live).foldl (· + ·) 0
  st + 8 * helpers + (if t.expand.isSome then 2 ^ 14 else 0) + (if t.expand.any fun e => e.group.isSome then 2 ^ 15 else 0) +
    (if t.xshort then 2 ^ 16 else 0)

/-- The value of a system register of the executing team. -/
def sysReg (v : State) (n : Nat) : Nat :=
  let t := v.team
  match n with
  | 0x00 => t.tctl.toNat
  | 0x01 => t.fsbase.toNat
  | 0x02 => t.fdepth
  | 0x03 => t.trapvec.toNat
  | 0x04 => t.frcode.toNat
  | 0x05 => t.frpc.toNat
  | 0x06 => t.fraddr.toNat
  | 0x08 | 0x09 | 0x0A | 0x0B => (t.plbase.get 0 (n - 8)).toNat
  | 0x0C | 0x0D | 0x0E | 0x0F => (t.pllim.get 0 (n - 12)).toNat
  | 0x10 => t.tile.toNat
  | 0x11 => t.dflen
  | 0x12 => t.blocks
  | 0x13 => t.hfrec.toNat
  | 0x14 => t.hfiter.toNat
  | 0x15 => t.xfown.toNat
  | 0x16 => t.xfoff.toNat
  | 0x17 => hstat v
  | 0x18 => t.vwin.toNat
  | 0x19 => v.block.spsize
  | 0x1A => t.held.length + 32 * topColour t
  | 0x1B => t.engst.toNat
  | 0x1C => t.engaddr.toNat
  | 0x1D => t.gang.toNat
  | 0x1E => t.frlane.toNat
  | 0x1F => t.progv.toNat + (if t.progset then 65536 else 0)
  | 0x20 => t.enumbase.toNat
  | _ => 0

/-- Reading `engst` clears `engst.more` (R240). -/
def afterRead (n : Nat) (s : State) : State :=
  if n = 0x1B then s.modTeam fun t => { t with engst := t.engst &&& ~~~(BitVec.ofNat 32 (2 ^ 18)) } else s

def rdsrBody (f : Fmt) (v s : State) : Res :=
  let n := f.imm.toNat
  let x := sysReg v n
  if f.x.ty.is64 then putWide 1 f (BitVec.ofNat 64 x) v (afterRead n s)
  else put 1 f .i32 (fun _ => BitVec.ofNat 32 x) v (afterRead n s)

/-- `trapvec` and `frpc` hold canonical addresses with bits 1:0 zero (R75). -/
def writeAddr (x : Addr) (g : Addr → Team → Team) (s : State) : Res :=
  if canonical x then .done (s.modTeam (g (x &&& ~~~3))) else .raise (laneFlt .XLATE x 0)

def wrsrBody (f : Fmt) (v s : State) : Res :=
  let w := v.readS f.a.toNat
  let x := v.readD f.a.toNat
  match f.imm.toNat with
  | 0x00 => .done (s.modTeam fun t => { t with tctl := w &&& 15 })
  | 0x03 => writeAddr x (fun a t => { t with trapvec := a }) s
  | 0x04 => .done (s.modTeam fun t => { t with frcode := w.extractLsb' 0 8 })
  | 0x05 => writeAddr x (fun a t => { t with frpc := a }) s
  | 0x06 => .done (s.modTeam fun t => { t with fraddr := x })
  | 0x10 =>
    if w.toNat > 4 then .raise (laneFlt .ILLENC 0 0)
    else if v.diverged then .raise (wholeFlt .UDIV)
    else .done (s.modTeam fun t => { t with tile := w.extractLsb' 0 3 })
  | 0x1E => .done (s.modTeam fun t => { t with frlane := w })
  | _ => .raise (wholeFlt .PERM)

/-! ### Time (R76, R326, R328) -/

/-- The context's time in nanoseconds, never less than the last value it was given. -/
def guestTime (s : State) (cx : Nat) : Addr :=
  let c := s.ctx cx
  let d : Int := (s.deviceTime : Int) - c.tofs.toNat - (if c.tsteal then c.stolen else 0)
  let g : Addr := BitVec.ofInt 64 (d * c.tscale / 2 ^ 24)
  if g.toNat < c.last.toNat then c.last else g

/-- A 64-bit result of variable latency to a uniform pair. -/
def laterWide (fl : Nat) (f : Fmt) (x : Addr) (s : State) : State :=
  putLater fl [.word f.d.toNat (x.extractLsb' 0 32), .word (f.d.toNat + 1) (x.extractLsb' 32 32)] s

def rdtimeBody (f : Fmt) (fl : Nat) (v s : State) : Res :=
  if v.diverged then .raise (wholeFlt .UDIV)
  else
    let g := guestTime s v.team.ctx
    .done (laterWide fl f g (s.modCtx v.team.ctx fun c => { c with last := g }))

def rdhlcBody (f : Fmt) (fl : Nat) (v s : State) : Res :=
  if v.diverged then .raise (wholeFlt .UDIV)
  else
    let (h, s) := s.stamp (s.dieOf v.team.core)
    .done (laterWide fl f h s)

/-! ### Progress and breakpoints (R311, R315) -/

def progBody (f : Fmt) (v s : State) : Res :=
  .done (s.modTeam fun t => { t with progv := (v.readS f.a.toNat).extractLsb' 0 16, progset := true })

def execRdsr (f : Fmt) (s : State) : Out := one (.rdsr f) f rdsrBody s
def execWrsr (f : Fmt) (s : State) : Out := straight (.wrsr f) f (.fixed 0) (fun _ v s => wrsrBody f v s) s
def execRdtime (f : Fmt) (s : State) : Out := straight (.rdtime f) f .later (rdtimeBody f) s
def execRdhlc (f : Fmt) (s : State) : Out := straight (.rdhlc f) f .later (rdhlcBody f) s
def execProg (f : Fmt) (s : State) : Out := straight (.prog f) f (.fixed 1) (fun _ v s => progBody f v s) s

/-- `brk` raises BRK ahead of the checks of rank 3 (R300, R315). -/
def execBrk (f : Fmt) (s : State) : Out :=
  if guardOn f (viewAt (s.issueCycle f) (.brk f) f f.guardReg s) then .next (s.takeFault (wholeFlt .BRK (f.imm.zeroExtend 64)))
  else straight (.brk f) f (.fixed 0) (fun _ _ s => .done s) s

end Sys2Proof.Machine
end

