-- ==== Sys2Proof/Machine/Debug.lean ====
section
/-! DEFINITION. The debugger's resumption (R316, R319), sampling (R321, R322), checkpoints and stops by retired work (R323, R324),
claims of counter banks, trace units and sampling units (R325). -/
namespace Sys2Proof.Machine

/-! ### The debugger (R316, R319) -/

/-- DEBUG_RESUME: the team's held commands go on; the split that stopped goes on as `rfe` would have it, at `frpc` with its kept run state,
and the other stopped and frozen splits with it (R73, R316, R319). An `frpc` that is not canonical raises XLATE at the stopped split, as it
does at an `rfe` (R14; log entry 59). -/
def State.resumeStopped (s : State) (tid : Nat) : State :=
  match s.findTeam tid with
  | none => s
  | some t =>
    let s := { s with commands := s.commands.map fun (c : Command) => if c.team = tid then { c with hold := none } else c }
    let s := (t.every.filter fun x => x.park == .stop).foldl (fun s x => s.unparkSplit tid x.id) s
    let ok := canonical t.frpc
    let s := s.modTeamId tid fun t =>
      { Team.mapEvery (fun x => if ok && t.stopAt = some x.id then { x with pc := t.frpc &&& ~~~3 } else x) t with
        stopped := false, stopAt := none, resumed := t.stopAt.or t.resumed }
    match t.stopAt with
    | some x => if ok then s else s.faultParked tid x (laneFlt .XLATE t.frpc 0)
    | none => s

/-- Every split of a team stops at its instruction boundary, as under team-stop: it parks, and gives up its entry. -/
def freezeTeam (t : Team) : Team :=
  Team.mapEvery (fun x => if x.park = .none then { x with park := .stop, buffer := false, request := none } else x) { t with stopped := true }

/-- The space of a number of the wait record. -/
def numberedSpace (n : Nat) : Space := ([Space.g, .sp, .vn, .va, .pv].find? fun x => spaceNo x == n).getD .g

/-- The wait of a kind of R310 with what the wait record holds of it; kind 0 stops a split for the debugger and nothing else (R316). -/
def parkOf (kind : Nat) (l : List Nat) : Park :=
  let n := fun i => l.getD i 0
  match kind with
  | 1 => .colour l
  | 2 => .mwait (n 0) (n 1) 0
  | 3 => .watch (numberedSpace (n 0)) (BitVec.ofNat 64 (n 1)) (BitVec.ofNat 32 (n 2))
  | 4 => .ldfe
  | 5 => .barrier (n 0)
  | 6 => .rendezvous (n 0) (n 1 != 0)
  | 7 => .queue
  | 8 => .acquire (n 0)
  | 9 => .driver { code := .XLATE }
  | 10 => .helpers
  | _ => .stop

/-- A list with element `n` replaced, or put behind it where the list is shorter. -/
def putNth {α : Type} (l : List α) (n : Nat) (x : α) : List α := if n < l.length then l.set n x else l ++ [x]

/-- A rounding by its number. -/
def rndOf (n : Nat) : Rnd := ([Rnd.rne, .rz, .rpi, .rmi].find? fun r => r.bits.toNat == n).getD .rne

/-- A debugger's write into the record of a team (R308, R316). Bits 1:0 of a pc are always zero (R14). -/
def putField (w : TeamField) (t : Team) : Team :=
  let run := fun x (g : Run → Run) => Team.modEvery x (fun (x : Split) => { x with run := g x.run }) t
  let expand := fun (g : Expansion → Expansion) => { t with expand := t.expand.map g }
  match w with
  | .s n v => { t with s := t.s.set 0 n v }
  | .a n b st => { t with a := t.a.set {} n { base := b, stride := st } }
  | .q n v => if n = 7 then t else { t with q := t.q.set false n v }
  | .v r l v => { t with v := t.v.set 0 (1024 * r + l) v }
  | .tag r c => { t with tags := t.tags.set .raw r (codeTag c) }
  | .p n m => if n = 7 then t else { t with p := t.p.set 0 n m }
  | .temp x k l v => run x fun r => { r with temps := r.temps.set 0 (1024 * k + l) v }
  | .tempTag x k c => run x fun r => { r with tags := r.tags.set .raw k (codeTag c) }
  | .written x b => run x fun r => { r with written := b }
  | .splitPc x a => Team.modEvery x (fun x => { x with pc := a &&& ~~~3 }) t
  | .splitLink x l => Team.modEvery x (fun x => { x with link := l }) t
  | .splitRun x b n => run x fun r => { r with active := b, count := n }
  | .splitRequest x r => Team.modEvery x (fun x => { x with request := r }) t
  | .join k j =>
    let new := j.map fun (a, e, arr, o) => { (t.joins.get none k).getD { addr := a, expects := e, arrived := arr, outer := o } with
                                             addr := a, expects := e, arrived := arr, outer := o }
    { t with joins := t.joins.set none k new }
  | .size n => { t with n := n }
  | .rgcnt n => { t with blocks := n }
  | .dflen n => { t with dflen := n }
  | .splitMask x m => Team.modEvery x (fun x => { x with mask := m }) t
  | .live m => { t with live := m }
  | .flag k n => { t with c := t.c.set 0 k n }
  | .held l => { t with held := l }
  | .fdepth n => { t with fdepth := n }
  | .frpc a => { t with frpc := a &&& ~~~3 }
  | .fraddr a => { t with fraddr := a }
  | .trapvec a => { t with trapvec := a }
  | .frcode c => { t with frcode := c }
  | .frlane v => { t with frlane := v }
  | .tctl v => { t with tctl := v }
  | .tile v => { t with tile := v }
  | .gang v => { t with gang := v }
  | .progv v b => { t with progv := v, progset := b }
  | .engst v => { t with engst := v }
  | .engaddr a => { t with engaddr := a }
  | .hfrec v => { t with hfrec := v }
  | .hfiter v => { t with hfiter := v }
  | .xfown v => { t with xfown := v }
  | .xfoff v => { t with xfoff := v }
  | .wait x k l => Team.modEvery x (fun x => { x with park := parkOf k l }) t
  | .sought x l => Team.modEvery x (fun x => { x with park := .colour l }) t
  | .harvest st l0 total next ret =>
    { t with recruit := { t.recruit with
        state := match st with | 0 => .none | 1 => .active | 2 => .released | _ => .cancelled, l0 := l0, total := total, next := next, returned := ret } }
  | .target i r op k ps =>
    { t with recruit := { t.recruit with targets := putNth t.recruit.targets i { reg := r, op := op, rnd := rndOf k, parts := ps } } }
  | .expansion w m total next ret cur a =>
    let e : Expansion := t.expand.getD { w := w, workers := m, owners := [], total := total }
    { t with expand := some { e with w := w, workers := m, total := total, next := next, returned := ret, current := cur, opened := a } }
  | .owner i l st b n => expand fun e => { e with owners := putNth e.owners i { lane := l, start := st, base := b, len := n } }
  | .segment i k r op rd o v =>
    expand fun e => { e with segments := putNth e.segments i { wave := k, reg := r, op := op, rnd := rndOf rd, owner := o, value := v } }

/-- A team that stands stopped for the debugger takes the write. -/
def State.debugWrite (s : State) (tid : Nat) (w : TeamField) : State :=
  s.modTeamId tid fun t => if debugStopped t then putField w t else t

/-! ### Sampling (R321, R322) -/

/-- The count of issued instructions before the next tag, from [I/2, 3I/2): the manual fixes only the range (log entry 26). -/
def drawCount (interval free : Nat) : Nat := (interval + 1) / 2 + Config.freeNat free % max 1 interval

def State.unit (s : State) (core sched : Nat) : Sampling := (s.core core).sampling.get {} sched

def State.modUnit (s : State) (core sched : Nat) (g : Sampling → Sampling) : State :=
  s.modCore core fun c => { c with sampling := c.sampling.set {} sched (g (c.sampling.get {} sched)) }

/-- Whether a sampling unit counts the instructions of a partition's teams. -/
def Sampling.counts (u : Sampling) (part : Nat) : Bool :=
  u.interval != 0 && !u.claim.stopped &&
    match u.claim.owner with
    | none => false
    | some .hypervisor => true
    | some (.driver p) => p == part

/-- Whether a unit's count has run out: it counts from one record to the next tag (R321). -/
def Sampling.expired (u : Sampling) : Bool :=
  u.claim.owner.isSome && u.interval != 0 && u.left == 0 && !u.armed && u.tagged.isNone

/-- SAMPLE_COUNT_EXPIRY: the next eligible instruction is tagged. -/
def State.expireSample (s : State) (core sched : Nat) : State :=
  if (s.unit core sched).expired then s.modUnit core sched fun u => { u with armed := true } else s

/-- The address that a sample record gives: that of the lowest active lane of a memory instruction. -/
def sampleAddr (i : Instr) (s : State) : Addr :=
  match i with
  | .ld f | .st f | .ldfe f | .stfe f | .ldline f | .pref f | .cwb f | .cinv f | .pgrel f | .pgown f | .atom f | .red f =>
    ((accessLanes f s).head?.map Prod.snd).getD 0
  | .eput f | .eputTry f => slotAddr (s.edge s.team.ctx f.b.toNat) (s.edge s.team.ctx f.b.toNat).tail
  | .eget f => slotAddr (s.edge s.team.ctx f.b.toNat) (s.edge s.team.ctx f.b.toNat).head
  | .watch f | .card f | .cardTry f | .tcopy f => baseAddr f s
  | .tshape f => if f.len = .l128 then pcRel s.split.pc f.imm else baseAddr f s
  | .lit f => pcRel s.split.pc f.imm
  | _ => 0

/-- The space of a memory instruction, if it is one. -/
def sampleSpace : Instr → Option Space
  | .ld f | .st f | .ldfe f | .stfe f | .ldline f | .pref f | .cwb f | .cinv f | .atom f | .red f | .watch f => some (spaceOf f)
  | .lit _ | .call _ | .calli _ | .ret _ | .jtab _ | .tshape _ | .card _ | .cardTry _ | .eput _ | .eputTry _ | .eget _ => some .g
  | _ => none

/-- The global address by which a memory instruction reaches cached memory: its own, that of a lane's private word, or a frame record's. -/
def levelAddr (i : Instr) (s : State) : Addr :=
  match i with
  | .call _ | .calli _ => recordAddr s.team s.team.fdepth
  | .ret _ => recordAddr s.team (s.team.fdepth - 1)
  | .jtab f => pcRel s.split.pc f.imm
  | _ =>
    if sampleSpace i = some .pv then
      let l := ((i.fmt?.bind fun f => (accessLanes f s).head?).map Prod.fst).getD 0
      ((privatePieces s.team l (sampleAddr i s) 4).head?.map Prod.fst).getD 0
    else sampleAddr i s

/-- Whether an instruction is always performed at the home of its location: a write, an atomic, an acquire (R203, R204). -/
def atHome (i : Instr) : Bool :=
  match i with
  | .st _ | .stfe _ | .atom _ | .red _ | .eput _ | .eputTry _ | .eget _ | .watch _ | .card _ | .cardTry _ | .tshape _ | .call _ | .calli _ => true
  | .ld f => f.x.rnd = .rz
  | _ => false

/-- The levels that may answer an access of cached memory: the L1 but for what is performed at the home, the L2 of the home's die, and what
stands behind it: the device's memory, or the host's of a host page (R162, R175, R322). -/
def cachedLevels (i : Instr) (s : State) : List Nat :=
  let va := levelAddr i s
  match s.translate s.team.ctx s.team.launch s.team.part s.team.core .other va with
  | .ok p =>
    let core := domainOf (s.part s.team.part) va p.host.isSome = .core
    let l2 := if s.homeFor (s.dieOf s.team.core) p.key = s.dieOf s.team.core then 5 else 6
    (if atHome i && !core then [] else [2]) ++ [l2, if p.host.isSome then 8 else 7]
  | _ => [0]

/-- The level that answers (R322): none of an instruction that accesses no memory or faults, the scratchpad, the near or a lateral vault; of
the other spaces any of those that may hold the line, which the manual leaves to where it stands (log entry 26). -/
def sampleLevel (i : Instr) (faulted : Bool) (s : State) : Nat :=
  if faulted then 0 else
  match sampleSpace i with
  | none => 0
  | some .sp => 1
  | some .vn => 3
  | some .va => if (sampleAddr i s).toNat / 2 ^ 21 % 256 = s.team.core then 3 else 4
  | some _ => pick (s.free * 64 + 5) 0 (cachedLevels i s)

def clsCode : Cls → Nat
  | .uni => 0
  | .aff => 1
  | .var => 2
  | .sys => 3

def lenCode : Len → Nat
  | .l64 => 1
  | .l96 => 2
  | .l128 => 3

/-- Bytes 39:0 of a sample record. `s` is the state in which the instruction was issued; its latencies are not stated (log entry 26). -/
def sampleHead (i : Instr) (f : Fmt) (op : Nat) (faulted : Bool) (s : State) : List Byte :=
  let lat := fun k => leBytes 2 (Config.freeNat (s.free * 64 + k) % 65536)
  leBytes 8 s.split.pc.toNat ++ leBytes 2 s.team.ctx ++ leBytes 2 s.team.core ++ leBytes 1 s.team.slot ++ leBytes 1 (sweepLen f s) ++
    leBytes 2 (op + 1024 * clsCode f.cls + 4096 * lenCode f.len + (if faulted then 16384 else 0)) ++
    lat 0 ++ lat 1 ++ lat 2 ++ lat 3 ++ lat 4 ++ leBytes 1 (sampleLevel i faulted s) ++ leBytes 1 0 ++
    leBytes 4 (match f.cls with | .var => (activeLanes f s).length | _ => 1) ++ leBytes 8 (sampleAddr i s).toNat

/-- A tagged instruction has completed or faulted: its 64 bytes are written, or dropped where the buffer is full, and the unit counts
anew (R321, R322). -/
def State.writeSample (s : State) (c k : Nat) (x : Tagged) : State :=
  let u := s.unit c k
  let s := if u.written < u.slots then
      let (h, s) := s.stamp (s.dieOf c)
      let bs := x.head ++ leBytes 8 h.toNat ++ leBytes 16 0
      (s.record (u.buffer.toNat + 64 * u.written) bs).modUnit c k fun u => { u with written := u.written + 1 }
    else s.modUnit c k fun u => { u with drops := u.drops + 1 }
  { s.modUnit c k (fun u => { u with tagged := none, left := drawCount u.interval (s.free * 64 + 63) }) with free := s.free + 1 }

/-- The flight of an instruction that state `s0` has issued: the one that stands since. -/
def flightSince (s0 s : State) : Option Nat :=
  (s.findTeam s0.team.id).bind fun t => (t.flights.find? fun x => decide (s0.nextId ≤ x.id) && x.split == s0.split.id).map Flight.id

/-- What the sampling unit of the team's scheduler does with an instruction that state `s0` has issued and state `s` follows. -/
def State.sample (s0 s : State) (i : Instr) (f : Fmt) (op : Nat) (faulted : Bool) : State :=
  let c := s0.team.core
  let k := s0.team.sched
  let u := s0.unit c k
  if !u.counts s0.team.part || u.tagged.isSome then s
  else if !u.armed then s.modUnit c k fun u => { u with left := u.left - 1 }
  else
    let x : Tagged := { team := s0.team.id, flight := 0, head := sampleHead i f op faulted s0 }
    let s := { s.modUnit c k (fun u => { u with armed := false }) with free := s.free + 1 }
    match (if faulted then none else flightSince s0 s) with
    | some fl => s.modUnit c k fun u => { u with tagged := some { x with flight := fl } }
    | none => s.writeSample c k x

/-- Tagged instructions whose effects are complete. -/
def State.settleSamples (s : State) : State :=
  (s.cores.flatMap fun c => c.2.sampling.filterMap fun u => u.2.tagged.map fun x => (c.1, u.1, x)).foldl (fun s (c, k, x) =>
    if (s.findTeam x.team).any fun t => t.flights.any fun y => y.id == x.flight then s else s.writeSample c k x) s

/-! ### Counter banks (R325) -/

/-- Whether a bank counts what a partition's team or command does. -/
def bankCounts (b : Claim) (part : Nat) : Bool :=
  !b.stopped &&
    match b.owner with
    | none => false
    | some .hypervisor => true
    | some (.driver p) => p == part

/-- An instruction or an element's move of a partition counts in a core's bank: each of the 8 counters of 48 bits by its event. -/
def State.countEvents (s : State) (core part : Nat) : State :=
  if !bankCounts (s.core core).bank part then s
  else
    let up := fun (c : Core) (n : Nat) =>
      { c with counters := c.counters.set 0 n
                 ((c.counters.get 0 n + Config.eventCount (c.events.get 0 n).toNat (s.free * 64 + n)) % 2 ^ 48) }
    { s.modCore core (fun c => (List.range 8).foldl up c) with free := s.free + 1 }

/-! ### Trace units (R325) -/

/-- The event record that a trace unit writes, if it writes one: when it does, the record's length and its bytes are open (log entry 59). -/
def traceRecord (free n : Nat) : Option (List Byte) :=
  let x := free * 2 ^ 24 + 2 ^ 22 + n
  if Config.freeBit x then some (freeBytes x (Config.freeNat x)) else none

/-- What the four trace units of a die make of what a partition's team or command does there: a claimed unit that counts it may write an
event record to its buffer. -/
def State.traceEvents (s : State) (die part : Nat) : State :=
  let units := (List.range 4).filter fun n =>
    bankCounts ((s.die die).traces.get {} n).claim part && (traceRecord s.free n).isSome
  if !((List.range 4).any fun n => bankCounts ((s.die die).traces.get {} n).claim part) then s
  else
    let put := fun (d : Die) (n : Nat) =>
      let u := d.traces.get {} n
      { d with traces := d.traces.set {} n { u with buffer := u.buffer ++ (traceRecord s.free n).toList } }
    { s.modDie die (fun d => units.foldl put d) with free := s.free + 1 }

/-! ### Checkpoints and stops by retired work (R323, R324) -/

/-- Whether a partition records. -/
def State.recording (s : State) (p : Nat) : Bool := (s.part p).dbgctl.getLsbD 2

/-- The blocks of a partition. -/
def State.blocksOf (s : State) (p : Nat) : List Block :=
  s.blocks.filter fun b => ((s.findLaunch b.launch).map fun l => l.card.part) == some p

/-- Whether a byte is the partition's: its memory ranges, its vaults, its blocks' scratchpad, host pages that the device owns. -/
def State.ownKey (s : State) (p k : Nat) : Bool :=
  let e := (s.part p).entry
  if k < 2 ^ 52 then e.ranges.any fun r => decide (r.1.toNat ≤ k) && decide (k < r.2.toNat)
  else if k < 2 ^ 53 then e.cores.getLsbD ((k - 2 ^ 52) / 2 ^ 21)
  else if k < 2 ^ 54 then (s.blocksOf p).any fun b => decide (padKey b.id 0 ≤ k) && decide (k < padKey (b.id + 1) 0)
  else s.pages.any fun g => g.2.device && inHostPage g.1 k

/-- Takes the entries of a table whose keys satisfy a test. -/
def keepKeys {α : Type} (m : SMap α) (p : Nat → Bool) : SMap α := m.dropKeys fun k => !p k

/-- Puts every entry of a table into another. -/
def mergeKeys {α : Type} [DecidableEq α] (d : α) (m : SMap α) (new : SMap α) : SMap α :=
  new.foldl (fun m e => m.set d e.1 e.2) m

/-- Everything that belongs to a partition now. -/
def State.imageOf (s : State) (p : Nat) : PartImage :=
  let own := s.ownKey p
  let cores := (s.part p).entry.cores
  let teams := s.allTeams.filter fun t => t.part == p
  let ids := teams.map Team.id
  { part := p, count := (s.part p).retired, rings := (s.part p).rings, teams := teams, blocks := s.blocksOf p,
    launches := s.launches.filter fun (l : Launch) => l.card.part == p, mem := keepKeys s.mem own, seals := keepKeys s.seals fun l => own (128 * l),
    viols := (s.part p).viols, wqcount := (s.part p).wqcount, wqover := (s.part p).wqover, full := keepKeys s.full fun g => own (16 * g),
    hist := keepKeys s.hist own, l1 := s.l1.filter fun (x : Share) => cores.getLsbD x.core,
    floors := keepKeys s.floors fun k => cores.getLsbD (k / 2 ^ 56),
    entries := s.entries.filter fun (e : Entry) => ids.contains e.team, shares := s.shares.filter fun (x : Share) => cores.getLsbD x.core,
    updates := s.updates.filter fun (u : Update) => cores.getLsbD u.core, unperf := s.unperf.filter fun (u : Unperformed) => u.locs.any own,
    commands := s.commands.filter fun (c : Command) => c.part == p, cores := keepKeys s.cores fun c => cores.getLsbD c,
    ctxs := s.ctxs.filter fun (c : Nat × Ctx) => c.2.desc.part.toNat == p,
    cards := s.dies.map fun (d : Nat × Die) => (d.1, d.2.cards.get [] p),
    bins := s.dies.map fun (d : Nat × Die) => (d.1, d.2.bins.filter fun (b : Bin) => (s.ctx b.ctx).desc.part.toNat == p) }

/-- A die's queues with a partition's part of them replaced. -/
def restoreDie (s : State) (g : PartImage) (n : Nat) (d : Die) : Die :=
  { d with cards := d.cards.set [] g.part (g.cards.get [] n),
           bins := (d.bins.filter fun (b : Bin) => (s.ctx b.ctx).desc.part.toNat != g.part) ++ g.bins.get [] n }

/-- What is left of an undo log when it has been applied in reverse down to the count `n`. -/
def undoLeft (n : Nat) (l : List (Nat × Nat × Byte)) : List (Nat × Nat × Byte) := l.dropWhile fun x => n < x.1

/-- Puts a partition back as an image has it. On an unfocused state. -/
def State.restoreImage (s : State) (g : PartImage) : State :=
  let p := g.part
  let own := s.ownKey p
  let cores := (s.part p).entry.cores
  let gone := (s.allTeams.filter fun t => t.part == p).map Team.id
  let keep := fun (b : Block) => !((s.blocksOf p).contains b)
  let s' := { s with
    others := g.teams.foldl (fun (l : List Team) (t : Team) => insertTeam t l) (s.others.filter fun (t : Team) => t.part != p),
    blocks := s.blocks.filter keep ++ g.blocks, launches := (s.launches.filter fun (l : Launch) => l.card.part != p) ++ g.launches,
    mem := mergeKeys unlistedByte (s.mem.dropKeys own) g.mem, seals := mergeKeys none (s.seals.dropKeys fun l => own (128 * l)) g.seals,
    full := mergeKeys false (s.full.dropKeys fun k => own (16 * k)) g.full,
    hist := mergeKeys [] (s.hist.dropKeys own) g.hist,
    l1 := (s.l1.filter fun (x : Share) => !cores.getLsbD x.core) ++ g.l1,
    floors := mergeKeys none (s.floors.dropKeys fun k => cores.getLsbD (k / 2 ^ 56)) g.floors,
    entries := (s.entries.filter fun (e : Entry) => !gone.contains e.team) ++ g.entries,
    shares := (s.shares.filter fun (x : Share) => !cores.getLsbD x.core) ++ g.shares,
    updates := (s.updates.filter fun (u : Update) => !cores.getLsbD u.core) ++ g.updates,
    unperf := (s.unperf.filter fun (u : Unperformed) => !(u.locs.any own)) ++ g.unperf,
    commands := (s.commands.filter fun (c : Command) => c.part != p) ++ g.commands,
    cores := mergeKeys {} (s.cores.dropKeys fun c => cores.getLsbD c) g.cores,
    ctxs := mergeKeys {} s.ctxs g.ctxs,
    dies := s.dies.map fun (d : Nat × Die) => (d.1, restoreDie s g d.1 d.2) }
  s'.modPart p fun q => { q with rings := g.rings, retired := g.count, viols := g.viols, wqcount := g.wqcount, wqover := g.wqover,
                                 undo := undoLeft g.count q.undo }

/-- The teams and helper groups of a partition stop. -/
def State.stopPart (s : State) (p : Nat) : State :=
  { s with others := s.others.map fun (t : Team) => if t.part = p then freezeTeam t else t }

/-- An interval of record mode holds an image of each count of retired instructions: what the logs of R323 let the device
rebuild. -/
def State.noteRetired (s0 s : State) (p : Nat) : State :=
  let q := s.part p
  if q.interval.isSome && q.retired != (s0.part p).retired then
    { s with past := (s.past.filter fun g => !(g.part == p && g.count == q.retired)) ++ [s.imageOf p] }
  else s

/-- The bytes of a partition that differ between two states, as the first has them. -/
def oldBytes (own : Nat → Bool) (m0 m : SMap Byte) : List (Nat × Byte) :=
  (((m0 ++ m).map Prod.fst).eraseDups.filter fun k => own k && m0.get unlistedByte k != m.get unlistedByte k).map
    fun k => (k, m0.get unlistedByte k)

/-- In an interval of record mode the partition's log takes a move's items, and its undo log the old value of every byte that the move has
written of the partition (R323). -/
def State.logMove (s0 s : State) (p : Nat) (items : List LogItem) : State :=
  if ((s0.part p).interval.isNone || (s.part p).interval != (s0.part p).interval) || (s.part p).replayTo.isSome then s
  else
    let undo := (oldBytes (s.ownKey p) s0.mem s.mem).map fun x => ((s.part p).retired, x)
    s.modPart p fun q => { q with log := q.log ++ items, undo := undo ++ q.undo }

/-- The checkpoint that record mode takes next is due: the first one, or 2^32 instructions after the last, or with the reserved region
full; the logs' bytes have no stated size, so a free bit says when they fill it (R323; log entry 62). -/
def State.checkpointDue (s : State) (p : Nat) : Bool :=
  let q := s.part p
  s.recording p && !q.checking && q.replayTo.isNone &&
    match q.interval with
    | none => true
    | some n => decide (n + 2 ^ 32 ≤ q.retired) || (!(q.log.isEmpty && q.undo.isEmpty) && Config.freeBit (s.free * 2 ^ 24 + 2 ^ 23 + p))

/-- The blocks of a partition are saved into the region reserved for checkpoints, whose other bytes are open, and resumed at once (R323). -/
def State.saveAside (s : State) (p : Nat) (bs : List Block) : State :=
  let s := bs.foldl (fun s b => (s.teamsOf b).foldl (fun s t => s.rewindWave t.id) s) s
  let q := s.part p
  let records := bs.flatMap fun b => s.blockRecord b :: (s.teamsOf b).map s.teamRecord
  let s := if q.recSize = 0 then s
    else State.placeRecords q.recBase.toNat q.recSize.toNat 0 records
      { s.putAt q.recBase.toNat (freeBytes s.free q.recSize.toNat) with free := s.free + 1 }
  let s := bs.foldl State.leaveCore s
  bs.foldl (fun s b => s.restoreBlock b.id) s

/-- A checkpoint is complete once every block of the partition may leave its core; then an interval begins. -/
def State.endCheckpoint (s : State) (p : Nat) : State :=
  let mine := (s.blocksOf p).filter fun b => b.preempt == .saving
  if !mine.all s.mayLeave then s
  else
    let s := (s.saveAside p mine).modPart p fun q => { q with checking := false, interval := some q.retired, log := [], undo := [] }
    { s with past := (s.past.filter fun g => g.part != p) ++ [s.imageOf p] }

/-- CHECKPOINT. -/
def State.checkpoint (s : State) (p : Nat) : State :=
  if !s.recording p && !(s.part p).checking then s
  else
    let s := if (s.part p).checking then s
      else ((s.blocksOf p).filter fun b => match b.preempt with | .resident | .draining _ => true | _ => false).foldl State.beginSave
        (s.modPart p fun q => { q with checking := true })
    s.endCheckpoint p

/-- The image that a count of a partition names. -/
def State.imageAt (s : State) (p n : Nat) : Option PartImage := s.past.find? fun g => g.part == p && g.count == n

/-- REPLAY_STOP: every team stops and the partition goes back to its checkpoint; a count outside the interval changes nothing. -/
def State.replayStop (s : State) (p n : Nat) : State :=
  match (s.part p).interval with
  | none => s
  | some c =>
    match s.imageAt p c, s.imageAt p n with
    | some g, some _ =>
      if c ≤ n && n ≤ (s.part p).retired then
        ((s.restoreImage g).stopPart p).modPart p fun q => { q with replayTo := some n }
      else s
    | _, _ => s

/-- The re-execution of a replay goes on by one retired instruction: the logged orders and inputs lead to the state that the first execution
had at the next count (R324; log entry 62). -/
def State.replayStep (s : State) (p : Nat) : State :=
  match (s.part p).replayTo with
  | none => s
  | some n =>
    let next := s.past.filter fun g => g.part == p && decide ((s.part p).retired < g.count) && decide (g.count ≤ n)
    match next with
    | [] => s
    | g :: r =>
      let g := r.foldl (fun m x => if x.count < m.count then x else m) g
      ((s.restoreImage g).stopPart p).modPart p fun q => { q with replayTo := some n }

/-- Every replay goes on. -/
def State.replays (s : State) : State := ((s.parts.filter fun p => p.2.replayTo.isSome).map Prod.fst).foldl State.replayStep s

/-- Whether a replay has come to its count. -/
def State.replayed (s : State) (p : Nat) : Bool := (s.part p).replayTo.any fun n => n == (s.part p).retired

/-- REPLAY_COUNT_REACHED: the re-execution has come to the count, and every team stands stopped. -/
def State.replayReached (s : State) (p : Nat) : State :=
  match (s.part p).replayTo with
  | none => s
  | some n =>
    if !s.replayed p then s
    else
      let s := (s.stopPart p).modPart p fun q => { q with replayTo := none }
      { s with past := s.past.filter fun g => !(g.part == p && decide (n < g.count)) }

/-! ### Claims (R325) -/

/-- What a claimant's read returns: 0 granted, 1 busy, 2 revoked. -/
def Claim.statusOf (c : Claim) (o : Owner) : Nat := ((c.answers.find? fun x => x.1 == o).map Prod.snd).getD 0

/-- The answer to one claimant, the others' left. -/
def Claim.tell (c : Claim) (o : Owner) (n : Nat) : Claim := { c with answers := (o, n) :: c.answers.filter fun x => x.1 != o }

/-- A claim of a unit: granted where it is free, busy where it is held. -/
def Claim.ask (c : Claim) (o : Owner) : Claim :=
  match c.owner with
  | none => { c.tell o 0 with owner := some o }
  | some _ => c.tell o 1

/-- A forced claim of the hypervisor takes a unit that a guest holds; the guest's next read returns revoked, and the counts stop at their
last value. -/
def Claim.force (c : Claim) : Claim :=
  match c.owner with
  | some (.driver p) => { (c.tell (.driver p) 2).tell .hypervisor 0 with owner := some .hypervisor, stopped := true }
  | some .hypervisor => c.tell .hypervisor 0
  | none => { c.tell .hypervisor 0 with owner := some .hypervisor }

def State.modClaim (s : State) (u : ClaimUnit) (g : Claim → Claim) : State :=
  match u with
  | .counterBank core => s.modCore core fun c => { c with bank := g c.bank }
  | .traceUnit die n =>
    if 4 ≤ n then s
    else s.modDie die fun d => { d with traces := d.traces.set {} n { d.traces.get {} n with claim := g (d.traces.get {} n).claim } }
  | .sampling core sched => s.modUnit core sched fun x => { x with claim := g x.claim }

/-- A claim of a unit by the hypervisor or a partition's driver. -/
def State.claimBy (s : State) (u : ClaimUnit) (o : Owner) : State := s.modClaim u (·.ask o)

def execDebugResume (team : Nat) (s : State) : Out := hosted (·.resumeStopped team) s
def execCheckpoint (part : Nat) (s : State) : Out := moved (·.checkpoint part) s
def execReplayStop (part count : Nat) (s : State) : Out := hosted (·.replayStop part count) s
def execReplayCountReached (part : Nat) (s : State) : Out := moved (·.replayReached part) s
def execSampleCountExpiry (core sched : Nat) (s : State) : Out := moved (·.expireSample core sched) s
def execClaimWrite (unit : ClaimUnit) (owner : Owner) (s : State) : Out := askedBy owner (·.claimBy unit owner) s
def execForcedClaim (unit : ClaimUnit) (s : State) : Out := commanded (·.modClaim unit Claim.force) s

end Sys2Proof.Machine
end

