-- ==== Sys2Proof/Machine/Boot.lean ====
section
/-! DEFINITION. The configuration image and the enumeration table (R330 to R332, R334), bring-up (R349, R351), attestation (R350), the Frost
image (R346). -/
namespace Sys2Proof.Machine

/-! ### The enumeration table (R330 to R332, R334) -/

/-- An entry of the latency table: class, zero, cycles. -/
def latencyBytes (f t : Nat) : List Byte :=
  let e := if t = 5 then (5, 990) else if t = 4 then (4, 1760) else
    match latencyClass f t with
    | 1 => (1, 0)
    | 2 => (2, 140)
    | k => (k, 260)
  leBytes 1 e.1 ++ leBytes 1 0 ++ leBytes 2 e.2

/-- The `k`-th live slot of a die, in ascending order (R330). -/
def nthSlot (m : BitVec 64) (k : Nat) : Nat := ((List.range 64).filter m.getLsbD).getD k 0

/-- The 4,896 bytes of the enumeration table of a configuration image. -/
def enumBytes (c : ConfigImage) : List Byte :=
  let g := gradeOf c.grade.toNat
  let n := g.cores
  let per := g.coresPerDie
  let rows := fun (live total size per : Nat) (slot : Nat → Nat) => (List.range total).flatMap fun i =>
    if i < live then leBytes 2 i ++ leBytes 1 (i / per) ++ leBytes 1 (slot i) ++ leBytes 4 size else leBytes 8 0
  let coreSlot := fun i => nthSlot (c.slots.getD (i / per) 0) (i % per)
  let ends := fun i => match i with | 0 => (0, 1) | 1 => (2, 3) | 2 => (0, 2) | _ => (1, 3)
  let links := (List.range 4).flatMap fun i =>
    leBytes 1 i ++ leBytes 1 (ends i).1 ++ leBytes 1 (ends i).2 ++ leBytes 1 (bitNat (c.links.getLsbD i)) ++ leBytes 4 1600
  let peers := (List.range 12).flatMap fun i =>
    let p := c.peers.getD i (none, 0)
    leBytes 1 i ++ leBytes 1 (i / 3) ++ leBytes 1 (bitNat p.1.isSome) ++ leBytes 1 ((p.1.map BitVec.toNat).getD 255) ++ leBytes 1 p.2.toNat ++ leBytes 3 0
  leBytes 4 1 ++ leBytes 2 n ++ leBytes 2 64 ++ leBytes 2 n ++ leBytes 2 g.code ++ leBytes 4 g.stackGB ++ leBytes 8 c.serial.toNat ++
    leBytes 40 0 ++ rows n 256 4 per coreSlot ++ rows 64 64 4 16 (· % 16) ++ rows n 256 32 per coreSlot ++ links ++ peers ++
    (List.range 4).flatMap fun f => (List.range 6).flatMap fun t => latencyBytes f t

/-! ### Signed images (R349) -/

/-- The configuration image without its signature, and whole: the manual does not place its parts. -/
def unsignedConfig (c : ConfigImage) : List Byte :=
  Config.imageBytes [enumBytes c, c.training, c.helper, c.certificate, leBytes 4 c.minVersion.toNat, c.key]

def configBytes (c : ConfigImage) : List Byte := Config.imageBytes [unsignedConfig c, c.signature]

/-- Whether the boot ROM accepts a configuration image: its key is the one whose hash the ROM holds, and its signature verifies. -/
def configGood (c : ConfigImage) : Bool :=
  Config.shake256 c.key == Config.bootKey && Config.verifies c.key (Config.shake256 (unsignedConfig c)) c.signature

/-- Whether a firmware image is accepted: its version is not below the minimum, and its signature verifies. -/
def firmwareGood (c : ConfigImage) (f : Firmware) : Bool :=
  decide (c.minVersion.toNat ≤ f.version.toNat) && Config.verifies Config.firmwareKey (Config.shake256 f.bytes) f.signature

/-! ### Bring-up (R351) -/

/-- RESET_RELEASE: device time starts, and phase 1 begins. -/
def State.release (s : State) (c : ConfigImage) (identityOk : Bool) : State :=
  if s.phase != 0 then s else { s with cycle := 0, phase := 1, config := c, pufOk := identityOk }

/-- The end of phase 1, the check of the configuration image, which gives the grade; or of phase 2, the identity's seed and key pair. -/
def State.bootStep (s : State) : State :=
  if s.error != 0 then s
  else if s.phase = 1 then
    if configGood s.config then { s with phase := 2, grade := gradeOf s.config.grade.toNat } else { s with error := 0xE1 }
  else if s.phase = 2 then
    if s.pufOk then { s with phase := 3, seed := some (Config.seedOf s.config.helper) } else { s with error := 0xE2 }
  else s

/-- TRAINING_COMPLETE: phase 3. -/
def State.trained (s : State) (ok : Bool) : State :=
  if s.phase != 3 || s.error != 0 then s
  else if ok then { s with phase := 4, links := SMap.setList [] 0 0 [1, 1, 1, 1] } else { s with error := 0xE3 }

/-- FIRMWARE_SUPPLY: phase 4, and phase 5 after it: the enumeration copy stands, the peer links are trained. -/
def State.supplied (s : State) (f : Firmware) : State :=
  if s.phase != 4 || s.error != 0 then s
  else if !firmwareGood s.config f then { s with error := 0xE4 }
  else
    let s := { s with phase := 5, firmware := f, peers := SMap.setList [] 0 0 ((List.range 12).map Config.peerAt) }
    s.putAt Config.enumAddr (enumBytes s.config)

/-! ### Attestation (R350) -/

/-- The 256 bytes of a partition entry (R336). -/
def partBytes (e : PartEntry) : List Byte :=
  let ranges := (List.range 8).flatMap fun i => let r := e.ranges.getD i (0, 0); leBytes 8 r.1.toNat ++ leBytes 8 r.2.toNat
  let windows := (List.range 5).flatMap fun i =>
    match e.windows[i]? with
    | some w => leBytes 1 w.device.toNat ++ leBytes 1 w.part.toNat ++ leBytes 1 (if w.writes then 1 else 0) ++ leBytes 1 w.key.toNat ++
        leBytes 4 w.units.toNat ++ leBytes 8 w.base.toNat
    | none => leBytes 16 0
  leBytes 32 e.cores.toNat ++ leBytes 8 e.keys.toNat ++ leBytes 2 e.l2ways.toNat ++ leBytes 1 (if e.edf then 1 else 0) ++
    leBytes 1 (if e.valid then 1 else 0) ++ leBytes 4 0 ++ ranges ++ windows

/-- The 3,309 bytes of a signature by the identity key over the hash of some bytes. -/
def State.signed (s : State) (bs : List Byte) : List Byte := (List.range 3309).map (Config.sign (s.seed.getD 0) (Config.shake256 bs))

/-- ATTESTATION_REQUEST: a report for the device or a partition, signed. -/
def State.attest (s : State) (o : Owner) (nonce : BitVec 256) : State :=
  let (h, s) := s.stamp 0
  let part := match o with
    | .hypervisor => 0
    | .driver p => (Config.shake256 (partBytes (s.part p).entry)).toNat
  let keys := match o with
    | .hypervisor => s.keysLive
    | .driver p => (s.part p).entry.keys
  let bs := leBytes 32 nonce.toNat ++ leBytes 32 (Config.shake256 s.firmware.bytes).toNat ++ leBytes 32 (Config.shake256 (configBytes s.config)).toNat ++
    leBytes 32 part ++ leBytes 8 keys.toNat ++ leBytes 4 s.firmware.version.toNat ++ leBytes 4 0 ++ leBytes 8 h.toNat
  { s with reports := s.reports ++ [(o, bs ++ s.signed bs)] }

/-! ### The Frost image (R346) -/

/-- The hashes by which an image knows its device. -/
def State.identityHash (s : State) : BitVec 256 := Config.shake256 (Config.publicKey (s.seed.getD 0))
def State.enumHash (s : State) : BitVec 256 := Config.shake256 (enumBytes s.config)

/-- The image of the device. -/
def State.image (s : State) : DeviceImage :=
  { identity := s.identityHash, grade := s.grade, enum := s.enumHash,
    clocks := (List.range 4).map fun d => (s.die d).hlc, parts := s.parts, ctxs := s.ctxs, teams := s.allTeams, blocks := s.blocks,
    launches := s.launches, mem := s.mem.dropKeys (2 ^ 54 ≤ ·), seals := s.seals, full := s.full.dropKeys (2 ^ 50 ≤ ·), homes := s.homes,
    cards := s.dies, cores := s.cores, keysLive := s.keysLive, keyNo := s.keyNo }

/-- A byte of the stacks as it is stored: what keys have encrypted as ciphertext (R337, R342, R346). -/
def storedByte (mem : SMap Byte) (seals : SMap (Option (Nat × Nat))) (k : Nat) : Byte :=
  match seals.get none (lineOf k) with
  | some w => Config.stored (cipherCase k w w) ((List.range 16).map fun i => mem.get unlistedByte (k / 16 * 16 + i))
  | none => mem.get unlistedByte k

/-- The sections of an image: the tables and the saved work; each assigned range as stored; every vault; the live keys, wrapped. -/
def imageSections (seed : BitVec 256) (g : DeviceImage) : List (List Byte) :=
  let ranges := g.parts.flatMap fun p => if p.2.entry.valid then p.2.entry.ranges else []
  [Config.sectionBytes (g.parts, g.ctxs, g.teams, g.blocks, g.launches, g.cards, g.cores, g.homes)] ++
  (ranges.map fun r => (List.range (r.2.toNat - r.1.toNat)).map fun i => storedByte g.mem g.seals (r.1.toNat + i)) ++
  ((List.range g.grade.cores).map fun c => (List.range (2 ^ 21)).map fun i => g.mem.get unlistedByte (vaultKey c i)) ++
  (((List.range 64).filter g.keysLive.getLsbD).map fun k => Config.wrappedKey seed k (g.keyNo.get 0 k))

/-- An image's bytes before the signature: the header, with the place of each section, then the sections. -/
def imageBody (seed : BitVec 256) (g : DeviceImage) : List Byte :=
  let xs := imageSections seed g
  let header := fun (l : List Nat) => Config.imageBytes
    ([leBytes 4 1, leBytes 32 g.identity.toNat, leBytes 2 g.grade.code, leBytes 32 g.enum.toNat] ++ g.clocks.map (fun c => leBytes 8 c.toNat) ++ l.map (leBytes 8))
  let places := fun (at' : Nat) => (sectionPlaces at' xs).flatMap fun x => [x.1, x.2]
  header (places (header (places 0)).length) ++ xs.flatMap padded

/-- The bytes of an image. -/
def State.imageBytes (s : State) (g : DeviceImage) : List Byte :=
  let b := imageBody (s.seed.getD 0) g
  b ++ s.signed b

/-- The address that a target stands for: a host physical address, or one in a peer's aperture. -/
def frostAddr : FrostTarget → Addr
  | .cxlTier a => a
  | .peer d a => BitVec.ofNat 64 (2 ^ 51 + d.toNat % 32 * 2 ^ 46 + a.toNat % 2 ^ 46)

/-- Whether an image's address lies in a peer's aperture. -/
def inPeer (a : Addr) : Bool := decide (2 ^ 51 ≤ a.toNat) && decide (a.toNat < 2 ^ 52)

/-- Writes an image where it belongs: in the host's memory, or in a peer's. -/
def State.writeImage (s : State) (a : Addr) (bs : List Byte) : State :=
  if inPeer a then { s with peerBytes := s.peerBytes.setList 0 a.toNat bs } else s.record (hostKey a.toNat) bs

/-- What stands at an image's address. -/
def State.imageAtAddr (s : State) (a : Addr) (n : Nat) : List Byte :=
  if inPeer a then s.peerBytes.getList 0 a.toNat n else s.bytes ((List.range n).map (hostKey a.toNat + ·))

/-- Whether Thaw takes an image: it stands unchanged where this device has written and signed it, and names this device's identity, grade
and enumeration table (R347). -/
def State.imageGood (s : State) (a : Addr) (g : DeviceImage) : Bool :=
  let bs := s.imageBytes g
  s.imageAtAddr a bs.length == bs && g.identity == s.identityHash && g.grade == s.grade && g.enum == s.enumHash

/-- The image that stands at an address and that Thaw takes. -/
def State.goodImage (s : State) (a : Addr) : Option DeviceImage :=
  ((s.images.find? fun g => g.1 == a).map Prod.snd).filter (s.imageGood a)

end Sys2Proof.Machine
end

