-- ==== Sys2Proof/Machine/Hosting.lean ====
section
/-! DEFINITION. Partitions, contexts and keys (R165, R302, R336 to R338, R341), register writes (R339), the host's and the peers'
accesses (R340, R344), die links (R329), Frost and Thaw (R345, R347). -/
namespace Sys2Proof.Machine

/-- Kills every team of the contexts that satisfy a test (R101). -/
def State.killTeams (s : State) (p : Team → Bool) : State :=
  (((s.allTeams.filter fun t => t.role == .main && p t).map Team.id).foldl State.kill s).reap

/-! ### Partition entries (R336, R345) -/

/-- Whether two memory ranges share a byte. -/
def rangesMeet (a b : Addr × Addr) : Bool := decide (a.1.toNat < b.2.toNat) && decide (b.1.toNat < a.2.toNat) &&
  decide (a.1.toNat < a.2.toNat) && decide (b.1.toNat < b.2.toNat)

/-- Whether two valid partitions would share a core, a key identifier, a way bit or a byte of a memory range. -/
def entriesMeet (a b : PartEntry) : Bool :=
  a.valid && b.valid &&
    (a.cores &&& b.cores != 0 || a.keys &&& b.keys != 0 || a.l2ways &&& b.l2ways != 0 ||
     a.ranges.any fun x => b.ranges.any fun y => rangesMeet x y)

/-- Whether a block stands on one of the cores. -/
def State.occupied (s : State) (cores : BitVec 256) : Bool :=
  s.blocks.any fun b => cores.getLsbD b.core && match b.preempt with | .saved _ => false | _ => true

/-- Whether Frost has begun and the device stands or comes to stand still: then a write that clears `valid` alone is accepted (R345). -/
def Frozen.frosted : Frozen → Bool
  | .freezing _ | .frozen => true
  | .no | .thawing _ => false

/-- The write to a frozen device that clears a partition's `valid`: the saved blocks of its contexts are discarded as by a kill, its cores
are free, and nothing else changes (R345). -/
def State.emptyFrozen (s : State) (p : Nat) : State :=
  ((s.killTeams fun t => (s.ctx t.ctx).desc.part.toNat == p).modPart p fun q => { q with entry := { q.entry with valid := false } }).answer
    (if s.frozen = .frozen then 0 else s.status)

/-- Whether a write of a partition's entry would share something with another valid partition, or comes while one is in progress. -/
def State.entryClash (s : State) (p : Nat) (e : PartEntry) : Bool :=
  (s.part p).busy.isSome || (List.range 32).any fun n => n != p && (entriesMeet e (s.part n).entry || ((s.part n).busy.any (entriesMeet e)))

/-- PARTITION_ENTRY_WRITE. DESIGN CHOICE (log entry 89): a core's bit past the live count and a range past the end of the stacks are accepted;
a vault keeps its bytes and granule bits when its core joins. -/
def State.writePart (s : State) (p : Nat) (e : PartEntry) : State :=
  let q := s.part p
  if s.frozen != .no then
    if s.frozen.frosted && q.entry.valid && !e.valid then s.emptyFrozen p else s.answer 2
  else if s.entryClash p e then s.answer 2
  else
    let out := coresLeaving q.entry e
    if s.occupied out then
      ((s.preemptRequest ((List.range 256).filter out.getLsbD)).modPart p fun q => { q with busy := some e }).answer 1
    else (s.modPart p fun q => { q with entry := e }).answer 0

/-- PARTITION_WRITE_DONE: the leaving cores are empty. -/
def State.partDone (s : State) (p : Nat) : State :=
  match (s.part p).busy with
  | none => s
  | some e =>
    if s.occupied (coresLeaving (s.part p).entry e) then s
    else (s.modPart p fun q => { q with entry := e, busy := none }).answer 0

/-! ### Contexts (R165, R341) -/

def windowBase (w : Word) : Nat := w.toNat % 32
def windowSize (w : Word) : Nat := w.toNat / 32 % 64

/-- Whether two windows of the vaults share a unit; one of size 0 is no window. -/
def windowsMeet (a b : Word) : Bool :=
  windowSize a != 0 && windowSize b != 0 &&
  decide (windowBase a < windowBase b + windowSize b) && decide (windowBase b < windowBase a + windowSize a)

/-- Whether a descriptor's window breaks R165. -/
def State.windowBad (s : State) (cx part : Nat) (w : Word) : Bool :=
  decide (32 < windowBase w + windowSize w) ||
    s.ctxs.any fun c => c.1 != cx && c.2.desc.valid && c.2.desc.part.toNat == part && windowsMeet w c.2.desc.vwin

/-- A newly assigned window reads zero, and its granules are empty, in every vault of the partition. -/
def State.clearWindow (s : State) (part : Nat) (w : Word) : State :=
  let cores := (s.part part).entry.cores
  let mine := fun k => decide (2 ^ 52 ≤ k) && decide (k < 2 ^ 53) && cores.getLsbD ((k - 2 ^ 52) / 2 ^ 21) &&
    decide (65536 * windowBase w ≤ k % 2 ^ 21) && decide (k % 2 ^ 21 < 65536 * (windowBase w + windowSize w))
  { s with mem := s.mem.dropKeys mine, hist := s.hist.dropKeys mine, full := s.full.dropKeys fun g => mine (16 * g) }

/-- A launch dispatched under a valid descriptor keeps it when the descriptor is written (R341). -/
def State.keepDesc (s : State) (cx : Nat) (old : CtxDesc) : State :=
  { s with launches := s.launches.map fun (l : Launch) => if old.valid && l.card.ctx == cx then { l with desc := l.desc.or (some old) } else l }

/-- CONTEXT_DESCRIPTOR_WRITE: `part` changes only while `valid` is 0; clearing `valid` kills the context's teams. -/
def State.writeDesc (s : State) (cx : Nat) (d : CtxDesc) : State :=
  let old := (s.ctx cx).desc
  let d := { d with part := if old.valid then old.part else d.part, vwin := d.vwin &&& 0x7FF }
  if s.windowBad cx d.part.toNat d.vwin then s.answer 2
  else
    let s := (s.keepDesc cx old).modCtx cx fun c => { c with desc := d }
    let s := if d.vwin != old.vwin || d.part != old.part then s.clearWindow d.part.toNat d.vwin else s
    if old.valid && !d.valid then s.killTeams fun t => t.ctx == cx else s

/-- EDGE_TABLE_WRITE: both counts start at 0 (R250). -/
def State.writeEdge (s : State) (cx n : Nat) (e : EdgeEntry) : State :=
  s.modCtx cx fun c =>
    let x := c.edges.get {} n
    { c with edges := c.edges.set {} n { entry := e, producers := x.producers, consumers := x.consumers } }

/-! ### Registers (R339) -/

/-- Who may write a register: of a claimed unit its holder; of the others the hypervisor, and a driver where its rule gives the register of
its own partition to it. -/
def State.mayWrite (s : State) (o : Owner) (r : HostReg) : Bool :=
  match o, r with
  | _, .sampleInterval core sched .. => (s.unit core sched).claim.owner == some o
  | _, .counterEvent core .. => (s.core core).bank.owner == some o
  | .hypervisor, _ => true
  | .driver p, r =>
    match r with
    | .region q .. | .rqBase q .. | .rqCtl q .. | .rqFree q .. | .rqErr q .. | .dbgctl q _ | .wpBase q .. | .wpCtl q .. | .watchQueue q _ => q == p
    | .faultTail cx _ => s.partOf cx == p
    | .teamState t _ => (s.findTeam t).any fun t => t.part == p
    | _ => false

/-- REGISTER_WRITE. -/
def State.writeReg (s : State) (r : HostReg) : State :=
  match r with
  | .region p i v =>
    if i < 64 && v != (s.part p).regions.get 0 i then
      let loose := fun (h : Home) => { h with fixed := h.fixed.filter (· != (p, i)) }
      { (s.modPart p fun q => { q with regions := q.regions.set 0 i v }) with homes := s.homes.map fun (e : Nat × Option Home) => (e.1, e.2.map loose) }
    else s
  | .rqBase p n v => s.modRing p n fun r => { r with base := v &&& ~~~127 }
  | .rqCtl p n en l cx =>
    s.modRing p n fun r => { r with en := en, lsize := if 2 ≤ l.toNat && l.toNat ≤ 16 then l.toNat else r.lsize, ctx := cx.toNat }
  | .rqFree p n v => s.modRing p n fun r => { r with free := v &&& ~~~7 }
  | .rqErr p n v => s.modRing p n fun r => { r with err := v }
  | .l2ways p v => s.writePart p { (s.part p).entry with l2ways := v }
  | .arbmode p e => s.modPart p fun q => { q with entry := { q.entry with edf := e } }
  | .refill cx core v => s.modCore core fun c => { c with budgets := c.budgets.set {} cx { c.budgets.get {} cx with refill := v } }
  | .dbgctl p v => s.modPart p fun q => { q with dbgctl := v &&& 7 }
  | .wpBase p i v => s.modPart p fun q => { q with wps := q.wps.set {} i { q.wps.get {} i with base := v } }
  | .wpCtl p i v =>
    s.modPart p fun q =>
      let w : Watchpoint := q.wps.get {} i
      let w : Watchpoint := { w with mask := v.extractLsb' 0 16, ctx := (v.extractLsb' 16 10).toNat, en := v.getLsbD 26 }
      { q with wps := q.wps.set {} i w }
  | .watchQueue p v => s.modPart p fun q => { q with wqaddr := v, wqcount := 0, wqover := 0 }
  | .violationLog p v => s.modPart p fun q => { q with violaddr := v }
  | .tofs cx v => s.modCtx cx fun c => { c with tofs := v }
  | .tscale cx v => s.modCtx cx fun c => { c with tscale := (v.extractLsb' 0 25).toNat, tsteal := v.getLsbD 25 }
  | .faultTail cx v =>
    let s := s.modCtx cx fun c => { c with fqtail := v.toNat }
    flushReports cx (s.ctx cx).reports s
  | .sampleInterval core sched v buf n =>
    if 2 ^ 10 ≤ v.toNat && v.toNat ≤ 2 ^ 24 then
      { s.modUnit core sched (fun u => { u with interval := v.toNat, left := drawCount v.toNat (s.free * 64 + 63), armed := false,
                                                buffer := buf, slots := n, written := 0, claim := { u.claim with stopped := false } }) with free := s.free + 1 }
    else s
  | .counterEvent core n e => s.modCore core fun c => { c with events := c.events.set 0 n e, bank := { c.bank with stopped := false } }
  | .replayRegion p b n => s.modPart p fun q => { q with recBase := b, recSize := n }
  | .teamState t w => s.debugWrite t w
  | .deviceNumber v => { s with devno := v.toNat }
  | .other .. => s

/-! ### Keys (R337, R338) -/

def keyBit (k : Nat) : BitVec 64 := BitVec.ofNat 64 (2 ^ k)

/-- KEY_CREATE: the identifier stands for new keys; refused while the device is frozen or the identifier is live. -/
def State.createKey (s : State) (k : Nat) : State :=
  if s.frozen != .no || s.keysLive.getLsbD k then s.answer 2
  else { s with keysLive := s.keysLive ||| keyBit k, keyNo := s.keyNo.set 0 k s.nextId, nextId := s.nextId + 1, status := 0 }

/-- What an access keeps that passed its check before its key identifier was retired: an entry, or one that waits for its colours (R338). -/
def State.graceKey (s : State) (k : Nat) : State :=
  let gate := fun (x : Split) => { x with gated := x.gated.map fun ls => ls.map fun (l : Loc) => if l.kid = k then { l with grace := true } else l }
  { s with entries := s.entries.map fun (e : Entry) => if e.key = k then { e with grace := true } else e,
           team := Team.mapEvery gate s.team, split := gate s.split, others := s.others.map (Team.mapEvery gate) }

/-- KEY_RETIRE: the identifier leaves every key set. -/
def State.retireKey (s : State) (k : Nat) : State :=
  if s.frozen != .no || !s.keysLive.getLsbD k || s.retiring.contains k then s.answer 2
  else
    { s.graceKey k with
             parts := s.parts.map fun (e : Nat × Part) => (e.1, { e.2 with entry := { e.2.entry with keys := e.2.entry.keys &&& ~~~keyBit k } }),
             retiring := s.retiring ++ [k], status := 1 }

/-- No cache holds a line under a key identifier any more (R338 step 3). -/
def State.dropKey (s : State) (k : Nat) : State :=
  let gone := s.shares.filter fun x => x.key == k
  { s with shares := s.shares.filter fun x => x.key != k,
           updates := s.updates.filter fun u => !(gone.any fun x => x.core == u.core && x.line == u.line),
           l1 := s.l1.filter fun x => x.key != k }

/-- Whether an access or element that passed its check under a key identifier is not performed. -/
def State.keyBusy (s : State) (k : Nat) : Bool :=
  (s.entries.any fun e => e.key == k && e.locs.any cached) || !s.unperf.isEmpty ||
  (s.commands.any fun c => c.moving.any fun x => x.2.any fun y => y.1 == k) ||
  s.allTeams.any fun t => t.every.any fun x => (x.gated.getD []).any fun l => l.grace && l.kid == k

/-- KEY_RETIRE_COMPLETE: once every access and element that passed its check is performed. -/
def State.keyGone (s : State) (k : Nat) : State :=
  if !s.retiring.contains k || s.keyBusy k then s
  else { s.dropKey k with keysLive := s.keysLive &&& ~~~keyBit k, retiring := s.retiring.filter (· != k), status := 0 }

/-! ### Accesses from outside (R340, R344) -/

/-- The valid partition whose memory ranges hold a physical byte. -/
def State.holderOf (s : State) (pa : Nat) : Option Nat :=
  (List.range 32).find? fun p => (s.part p).entry.valid && (s.part p).entry.ranges.any fun r => decide (r.1.toNat ≤ pa) && decide (pa < r.2.toNat)

/-- A write from outside commits at its home, and is reported with originator 0xFFFF (R319): inside its address's domain it goes to the
sharers as a core's does, within the bound of the die or peer that it comes from; outside it sends no updates (R204, R208, R344). -/
def State.outsideWrite (s : State) (die : Option Nat) (inside : Bool) (k : Nat) (bs : List Byte) : State :=
  let ks := bs.mapIdx fun i b => (k + i, b)
  let (id, s) := s.fresh
  let s := if inside then s.commitWrite { die := die, since := s.cycle } id ks else s.putBytes ks
  s.reportKeys (ks.map Prod.fst) 0xFFFF 3 (s.homeDie k)

/-- The entry of the violation log for an access from outside. -/
def State.outsideViol (s : State) (part pa cause : Nat) : State :=
  s.logViol { part := part, addr := pa, va := 0, who := 0xFFFF, unit := 0, kind := 6, key := 0, cause := cause, die := s.homeDie pa }

/-- Notes what a read from outside has returned. -/
def State.noteOutside (s : State) (bs : List Byte) : State := { s with outReads := s.outReads ++ [bs] }

/-- The domain of a host access to device memory. DESIGN CHOICE (log entry 90): the region table's ranges are compared with the physical
address, the only one that the access has. -/
def State.hostDomain (s : State) (p k : Nat) : Domain := (regionDomain (s.part p) (BitVec.ofNat 64 k)).getD .package

/-- A host access of device memory at its home. In the system domain it takes part in the order machine as an access of one more team whose
every access is SO: the next one awaits what it awaits. In the other domains R208 holds. -/
def State.hostAtHome (s : State) (a : HostAccess) (p k : Nat) : State :=
  let s := ((s.receive 0 a.stamp).touch k 0 (s.pins p (BitVec.ofNat 64 k))).roundTrip 0 k
  let system := s.hostDomain p k == .system
  let ks := a.bytes.mapIdx fun i _ => k + i
  if a.write then
    let id := s.nextId
    let s := s.outsideWrite (some 0) system k a.bytes
    if system then { s with hostNeeds := [id] } else s
  else if system then
    let needs := s.readNeeds { id := 0, team := 0, core := 0, kind := .load, acq := true, locs := ks }
    { s.noteOutside (s.bytes ks) with hostNeeds := needs }
  else { s.noteOutside (ks.mapIdx fun i k => pick (s.free * 64 + i) (s.byte k) (s.byte k :: s.hist.get [] k)) with free := s.free + 1 }

/-- A host access whose turn has come: an address from 2^54 on stands for the host's own memory; one below for device memory through the
decoder of the partition that holds it. The host link leaves die 0 (R340). -/
def State.hostAccess (s : State) (a : HostAccess) : State :=
  let k := a.addr.toNat
  if 2 ^ 54 ≤ k then
    if a.write && !(s.pages.any fun g => g.2.device && inHostPage g.1 k) then s.outsideWrite (some 0) true k a.bytes else s
  else match s.holderOf k with
    | none => s
    | some p => if a.write && s.frozen != .no then (s.receive 0 a.stamp).outsideViol p k 3 else s.hostAtHome a p k

/-- The window of a partition that admits a peer's element. -/
def admits (e : PeerElement) (w : PeerWindow) : Bool :=
  w.device == e.device && w.part == e.part && decide (w.base.toNat ≤ e.addr.toNat) &&
    decide (e.addr.toNat + e.bytes.length ≤ w.base.toNat + 2 ^ 21 * w.units.toNat) && (!e.write || w.writes)

/-- The window that admits an element: the first of the valid partitions' that does. -/
def State.windowFor (s : State) (e : PeerElement) : Option PeerWindow :=
  (List.range 32).findSome? fun p => if (s.part p).entry.valid then (s.part p).entry.windows.find? (admits e) else none

/-- The die from which the link that carries a peer's element leaves: one of those that are joined to the sender (R331). -/
def State.arrivalDie (s : State) (e : PeerElement) : Nat :=
  let ls := (List.range 12).filter fun i => s.peers.get 0 i == e.device.toNat + 1
  ls.getD (Config.freeNat (s.free * 64 + 3) % max 1 ls.length) 0 / 3

/-- A peer's element whose turn has come: an accepted one commits at its home under the window's key identifier (R344). -/
def State.peerElement (s : State) (e : PeerElement) : State :=
  let k := e.addr.toNat
  let d := s.arrivalDie e
  let s := { s with free := s.free + 1 }.receive d e.stamp
  match s.windowFor e with
  | none => s.outsideViol ((s.holderOf k).getD 0) k 1
  | some w =>
    let ks := e.bytes.mapIdx fun i _ => k + i
    let s := (s.touch k d none).roundTrip d k
    if e.write then (s.sealLines w.key.toNat ks).outsideWrite none true k e.bytes else s.noteOutside (s.bytesAs w.key.toNat ks)

/-- An access from outside that is served. -/
def State.outside (s : State) : OutsideAccess → State
  | .host a => s.hostAccess a
  | .peer e => s.peerElement e

/-- Whether an access from outside is the host's to a range of the system domain. -/
def State.systemAccess (s : State) : OutsideAccess → Bool
  | .host a => decide (a.addr.toNat < 2 ^ 54) && (s.holderOf a.addr.toNat).any fun p => s.hostDomain p a.addr.toNat == .system
  | .peer _ => false

/-- Whether an access from outside may be served: its way is open, and of the host's system-domain accesses the one before it is performed
(R329, R340). -/
def State.outsideGoes (s : State) : OutsideAccess → Bool
  | .host a =>
    let k := a.addr.toNat
    decide (2 ^ 54 ≤ k) || (s.holderOf k).isNone || (a.write && s.frozen != .no) ||
      (s.wayBetween 0 k && (!s.systemAccess (.host a) || s.hostNeeds.all fun n => !(s.unperf.any fun u => u.store == n)))
  | .peer e => (s.windowFor e).isNone || s.wayBetween (s.arrivalDie e) e.addr.toNat

/-- Serves the accesses of a list that may be, in their order; the host's accesses to the system domain keep theirs. -/
def serveFrom : List OutsideAccess → State → State
  | [], s => s
  | x :: r, s =>
    if s.outsideGoes x && !(s.systemAccess x && s.arrived.any s.systemAccess) then serveFrom r (s.outside x)
    else serveFrom r { s with arrived := s.arrived ++ [x] }

/-- Serves what has arrived from outside and may be served. -/
def State.serveOutside (s : State) : State := serveFrom s.arrived { s with arrived := [] }

/-- HOST_MEM_ACCESS and PEER_ELEMENT_RECEIVE: an access arrives, behind those that wait. -/
def State.arrive (s : State) (x : OutsideAccess) : State := { s with arrived := s.arrived ++ [x] }.serveOutside

/-! ### Die links (R329) -/

/-- LINK_FAILURE: a link that cannot be retrained stops the device. -/
def State.linkFails (s : State) (l : Nat) (again : Bool) : State :=
  if again then { s with links := s.links.set 0 l 2 } else { s with links := s.links.set 0 l 0, stopped := true }

/-- LINK_RETRAINED: what has waited for the link goes on. -/
def State.linkBack (s : State) (l : Nat) : State :=
  if s.links.get 0 l = 2 then { s with links := s.links.set 0 l 1 }.serveOutside else s

/-! ### Frost and Thaw (R345 to R347) -/

/-- Whether a Frost target can be written: a peer is there, and its windows admit the range (log entry 55). -/
def State.frostOpen (s : State) : FrostTarget → Bool
  | .cxlTier _ => true
  | .peer d a => ((List.range 12).any fun i => s.peers.get 0 i == d.toNat + 1) && Config.peerAdmits d.toNat a.toNat

/-- FROST: rings, dispatch and placement stop, every block is pre-empted, host pages are recalled. -/
def State.frost (s : State) (t : FrostTarget) : State :=
  if s.frozen != .no || !s.frostOpen t then s.answer 2
  else
    let s := { s with frozen := .freezing t, status := 1,
                      pages := s.pages.map fun (g : Nat × HostPage) => (g.1, { g.2 with recalled := g.2.recalled || g.2.device }) }
    s.preemptRequest ((s.blocks.map Block.core).eraseDups)

/-- Whether the device stands still: every block is saved, nothing is under way, the host has its pages. -/
def State.still (s : State) : Bool :=
  (s.blocks.all fun b => match b.preempt with | .saved _ => true | _ => false) && s.entries.isEmpty && s.commands.isEmpty &&
    s.updates.isEmpty && s.pages.all fun g => !g.2.device

/-- FROST_COMPLETE: the caches are empty, and the image is written. -/
def State.frostDone (s : State) : State :=
  match s.frozen with
  | .freezing t =>
    if !s.still then s
    else
      let g := s.image
      let a := frostAddr t
      let s := { s with shares := [], unperf := [], l1 := [], floors := [], frozen := .frozen, status := 0 }
      { s.writeImage a (s.imageBytes g) with images := (s.images.filter fun x => x.1 != a) ++ [(a, g)] }
  | _ => s

/-- CONTINUE_FROST: the saved blocks wait for cores again, and the rings are read. -/
def State.continueFrost (s : State) : State := if s.frozen = .frozen then { s with frozen := .no, status := 0 } else s.answer 2

/-- THAW: refused while a partition is valid, or where no image stands that this device has signed and that names its identity, grade and
enumeration table. -/
def State.thaw (s : State) (a : Addr) : State :=
  if (s.parts.any fun p => p.2.entry.valid) || (s.goodImage a).isNone || (s.frozen != .no && s.frozen != .frozen) then s.answer 2
  else { s with frozen := .thawing a, status := 1 }

/-- A die after Thaw: its clock is the greater of its own and the stamp plus 1. -/
def thawDie (s : State) (g : DeviceImage) (n : Nat) : Die :=
  let d := s.die n
  let c : Addr := g.clocks.getD n 0 + 1
  { d with hlc := if d.hlc.toNat < c.toNat then c else d.hlc, cards := (g.cards.get {} n).cards, bins := (g.cards.get {} n).bins }

/-- THAW_COMPLETE: every section is restored; what the device held before is gone. -/
def State.thawDone (s : State) : State :=
  match s.frozen with
  | .thawing a =>
    match s.images.find? fun g => g.1 == a with
    | none => s
    | some (_, g) =>
      { s with parts := g.parts, ctxs := g.ctxs, team := {}, split := {}, others := g.teams, blocks := g.blocks, launches := g.launches,
               mem := mergeKeys unlistedByte (s.mem.dropKeys (· < 2 ^ 54)) g.mem, seals := g.seals, backed := [],
               full := mergeKeys false (s.full.dropKeys (· < 2 ^ 50)) g.full,
               hist := [], shares := [], updates := [], unperf := [], entries := [], commands := [], l1 := [], floors := [], tlb := [], invals := [],
               hostNeeds := [], past := [], retiring := [],
               homes := g.homes, cores := g.cores, keysLive := g.keysLive, keyNo := g.keyNo, pages := [],
               dies := SMap.setList [] {} 0 ((List.range 4).map (thawDie s g)), frozen := .no, status := 0 }
  | _ => s

/-! ### The events -/

def execViolationLogClear (part : Nat) (s : State) : Out := commanded (·.modPart part fun p => { p with viols := 0 }) s
def execPartitionEntryWrite (part : Nat) (entry : PartEntry) (s : State) : Out := hosted (·.writePart part entry) s
def execPartitionWriteDone (part : Nat) (s : State) : Out := moved (·.partDone part) s
def execContextDescriptorWrite (ctx : Nat) (desc : By CtxDesc) (s : State) : Out :=
  orderedBy desc.owner (State.partOf ctx) (·.writeDesc ctx desc.value) s
def execEdgeTableWrite (ctx edge : Nat) (entry : By EdgeEntry) (s : State) : Out :=
  orderedBy entry.owner (State.partOf ctx) (·.writeEdge ctx edge entry.value) s
def execRegisterWrite (owner : Owner) (reg : HostReg) (s : State) : Out :=
  askedBy owner (fun s => if s.mayWrite owner reg then s.writeReg reg else s) s
def execKeyCreate (key : Nat) (s : State) : Out := hosted (·.createKey key) s
def execKeyRetire (key : Nat) (s : State) : Out := hosted (·.retireKey key) s
def execKeyRetireComplete (key : Nat) (s : State) : Out := moved (·.keyGone key) s
def execHostMemAccess (access : HostAccess) (s : State) : Out := moved (·.arrive (.host access)) s
def execPeerElementReceive (element : PeerElement) (s : State) : Out := moved (·.arrive (.peer element)) s
def execLinkFailure (link : Nat) (retrainable : Bool) (s : State) : Out := moved (·.linkFails link retrainable) s
def execLinkRetrained (link : Nat) (s : State) : Out := moved (·.linkBack link) s
def execFrost (target : FrostTarget) (s : State) : Out := hosted (·.frost target) s
def execFrostComplete (s : State) : Out := moved State.frostDone s
def execContinueFrost (s : State) : Out := hosted State.continueFrost s
def execThaw (image : Addr) (s : State) : Out := hosted (·.thaw image) s
def execThawComplete (s : State) : Out := moved State.thawDone s
def execAttestationRequest (owner : Owner) (nonce : BitVec 256) (s : State) : Out := askedBy owner (·.attest owner nonce) s
def execResetRelease (image : ConfigImage) (identityOk : Bool) (s : State) : Out := moved (·.release image identityOk) s
def execTrainingComplete (ok : Bool) (s : State) : Out := moved (·.trained ok) s
def execFirmwareSupply (image : Firmware) (s : State) : Out := moved (·.supplied image) s

end Sys2Proof.Machine
end

