-- ==== Sys2Proof/Machine/Runs.lean ====
section
/-! DEFINITION. Beginning a run (R40, R46 to R48, R77, R96, R100, R102, R240, R301, R319), and an encoding that is no instruction
(R38, R39). -/
namespace Sys2Proof.Machine

/-! ### Run slots (R48) -/

/-- Whether the team of a split executes at all: it is on its core, and nothing stops all of it. -/
def State.teamRuns (s : State) (t : Team) : Bool :=
  !t.out && !t.ended && !t.stopped &&
    match s.findBlock t.block with
    | some b => b.preempt != .saving
    | none => true

/-- Whether a split holds a run slot. -/
def Split.holdsSlot (x : Split) : Bool := x.inSlot && x.run.active && x.park.keepsSlot

/-- The teams of a scheduler that execute. -/
def State.teamsOn (s : State) (core sched : Nat) : List Team :=
  s.allTeams.filter fun t => t.core == core && t.sched == sched && s.teamRuns t

/-- The splits that hold a run slot of a scheduler, the run that began earliest first: each with its team. -/
def State.slotsOf (s : State) (core sched : Nat) : List (Team × Split) :=
  sortBy (fun p => p.2.begun) ((s.teamsOn core sched).flatMap fun t => (t.splits.filter Split.holdsSlot).map fun x => (t, x))

/-- Free slots of a scheduler go to runs that have left a park, the earliest begun first; a split that has parked has left its slot (R42). -/
def State.settleSlots (s : State) (core sched : Nat) : State :=
  let s := (s.teamsOn core sched).foldl (fun s t =>
    (t.splits.filter fun x => x.inSlot && !x.holdsSlot).foldl (fun s x => s.modSplitId t.id x.id fun x => { x with inSlot := false }) s) s
  let back := (s.teamsOn core sched).flatMap fun t =>
    (t.splits.filter fun x => x.run.active && !x.inSlot && x.park.keepsSlot).map fun x => (x.begun, t.id, x.id)
  ((sortBy Prod.fst back).take (4 - (s.slotsOf core sched).length)).foldl
    (fun s p => s.modSplitId p.2.1 p.2.2 fun x => { x with inSlot := true }) s

/-- Whether every flag that a mask names is zero (R46). -/
def flagsClear (t : Team) (mask : BitVec 12) : Bool :=
  (List.range 12).all fun k => !mask.getLsbD k || t.c.get 0 k == 0

/-- Whether a split may begin a run as soon as a slot is free (R46, R48, R100). -/
def State.readyToStart (s : State) (t : Team) (x : Split) : Bool :=
  !x.run.active && x.buffer && x.park == .none && x.mask != 0 && x.owed == 0 && s.teamRuns t && t.fetchOff.isNone && flagsClear t x.trailer &&
    !(t.flights.any fun f => x.awaits.contains f.id)

/-- Whether a split may begin a run (R48). -/
def State.mayStart (s : State) (t : Team) (x : Split) : Bool :=
  s.readyToStart t x && decide ((s.slotsOf t.core t.sched).length < 4)

/-- Another run of the scheduler and tenant has begun: the splits that may begin one have waited through one more (R102), and none comes
behind this one any longer (R77). -/
def State.countWaits (s : State) (t0 : Team) (sid : Nat) : State :=
  let wait := fun (t : Team) (x : Split) => if (t.id != t0.id || x.id != sid) && s.readyToStart t x then { x with waits := x.waits + 1 } else x
  let pass := fun (t : Team) =>
    if t.core = t0.core && t.sched = t0.sched && t.ctx = t0.ctx then
      { t with splits := t.splits.map fun x => { wait t x with behind := x.behind.filter (· != sid) } }
    else t
  { s with others := s.others.map pass }

/-- The splits of a scheduler and tenant that may begin a run as soon as a slot is free. -/
def State.readySplits (s : State) (core sched cx : Nat) : List (Team × Split) :=
  (s.others.filter fun t => t.core == core && t.sched == sched && t.ctx == cx).flatMap fun t =>
    (t.splits.filter (s.readyToStart t)).map fun x => (t, x)

/-- A split that does not stand ready has waited through no run (R102); one that has yielded and come to its trailer comes behind every
other split of its scheduler and tenant that may begin a run now (R77). -/
def State.settleReady (s : State) : State :=
  let one := fun (t : Team) (x : Split) =>
    let x := if s.readyToStart t x then x else { x with waits := 0 }
    if x.yielded && !x.run.active then
      { x with yielded := false, behind := ((s.readySplits t.core t.sched t.ctx).map fun p => p.2.id).filter (· != x.id) }
    else x
  { s with others := s.others.map fun t => { t with splits := t.splits.map (one t) } }

/-- Whether, once another run has begun, each of these splits can still begin one before it has waited through 64 (R102): of those that
have waited longest, the `i`th is at most `i` runs from its own. -/
def withinBound (ws : List Nat) : Bool :=
  ((sortNats ws).reverse.mapIdx fun i w => decide (w + 1 + i ≤ 63)).all id

/-- Whether a split may be the next of the ready ones to begin a run: it comes behind none of them (R77), and the others stay within
their bound (R102). Which of several begins first is free (log entry 74). -/
def mayBeNext (mine : List (Team × Split)) (p : Team × Split) : Bool :=
  let rest := mine.filter fun q => q.2.id != p.2.id
  !(rest.any fun q => p.2.behind.contains q.2.id && decide (p.2.waits ≤ q.2.waits)) &&
    (withinBound (rest.map fun q => q.2.waits) || rest.all fun q => decide (q.2.waits ≤ p.2.waits))

/-! ### What a run's start delivers (R240, R301, R319) -/

/-- A pending fault that the start of a run delivers to the executing team, with what its delivery clears: in a handler too, where it
ends the team (R240, R304). -/
def State.pendingFault (s : State) : Option ((Team → Team) × Flt) :=
  let t := s.team
  match t.late with
  | some a => some (fun t => { t with late := none }, wholeFlt .VIOL a)
  | none =>
    if t.engst.extractLsb' 0 4 != 0 then some (fun t => { t with engst := t.engst &&& ~~~15 }, wholeFlt .CENGINE t.engaddr)
    else match t.watchHits with
      | (_, a) :: r => some (fun t => { t with watchHits := r }, wholeFlt .WATCHPT a)
      | [] => none

/-- RUN_START: the run begins, or a pending fault is taken at its first instruction. -/
def State.runStart (s : State) (tid sid : Nat) : State :=
  match s.findTeam tid with
  | none => s
  | some t =>
    match t.splits.find? fun x => x.id == sid with
    | none => s
    | some x =>
      if !s.mayStart t x then s
      else
        let s := s.focus tid sid
        match s.pendingFault with
        | some (g, f) => ((s.modTeam g).takeFault f).unfocus
        | none =>
          let (n, s) := s.fresh
          (s.modSplit fun x => { x with run := { active := true }, begun := n, inSlot := true, waits := 0, yielded := false, behind := [],
                                        awaits := [] }).unfocus.countWaits t sid

def execRunStart (team split : Nat) (s : State) : Out := moved (·.runStart team split) s

/-- An encoding that is no instruction raises its fault precisely at its address (R38, R39). -/
def execEncodingNotAnInstruction (fate : Fate) (s : State) : Out := .next (s.takeFault (wholeFlt fate.code fate.addr))

end Sys2Proof.Machine
end

