-- ==== Sys2Proof/Machine/Dispatch.lean ====
section
/-! DEFINITION. What each instruction and event does: one direct call of its meaning. -/
namespace Sys2Proof.Machine

def exec (i : Instr) (s : State) : Host.Outcome State Fault Refusal :=
  match i with
  | .add f => Sys2Proof.Machine.execAdd f s
  | .sub f => Sys2Proof.Machine.execSub f s
  | .mul f => Sys2Proof.Machine.execMul f s
  | .mulhi f => Sys2Proof.Machine.execMulhi f s
  | .mad f => Sys2Proof.Machine.execMad f s
  | .and f => Sys2Proof.Machine.execAnd f s
  | .or f => Sys2Proof.Machine.execOr f s
  | .xor f => Sys2Proof.Machine.execXor f s
  | .not f => Sys2Proof.Machine.execNot f s
  | .shl f => Sys2Proof.Machine.execShl f s
  | .shr f => Sys2Proof.Machine.execShr f s
  | .sar f => Sys2Proof.Machine.execSar f s
  | .popc f => Sys2Proof.Machine.execPopc f s
  | .clz f => Sys2Proof.Machine.execClz f s
  | .brev f => Sys2Proof.Machine.execBrev f s
  | .bfe f => Sys2Proof.Machine.execBfe f s
  | .bfi f => Sys2Proof.Machine.execBfi f s
  | .sel f => Sys2Proof.Machine.execSel f s
  | .min f => Sys2Proof.Machine.execMin f s
  | .max f => Sys2Proof.Machine.execMax f s
  | .cmpEq f => Sys2Proof.Machine.execCmpEq f s
  | .cmpNe f => Sys2Proof.Machine.execCmpNe f s
  | .cmpLt f => Sys2Proof.Machine.execCmpLt f s
  | .cmpLe f => Sys2Proof.Machine.execCmpLe f s
  | .cmpGt f => Sys2Proof.Machine.execCmpGt f s
  | .cmpGe f => Sys2Proof.Machine.execCmpGe f s
  | .mov f => Sys2Proof.Machine.execMov f s
  | .movi f => Sys2Proof.Machine.execMovi f s
  | .lit f => Sys2Proof.Machine.execLit f s
  | .idiv f => Sys2Proof.Machine.execIdiv f s
  | .irem f => Sys2Proof.Machine.execIrem f s
  | .fadd f => Sys2Proof.Machine.execFadd f s
  | .fsub f => Sys2Proof.Machine.execFsub f s
  | .fmul f => Sys2Proof.Machine.execFmul f s
  | .ffma f => Sys2Proof.Machine.execFfma f s
  | .fmin f => Sys2Proof.Machine.execFmin f s
  | .fmax f => Sys2Proof.Machine.execFmax f s
  | .fcmpEq f => Sys2Proof.Machine.execFcmpEq f s
  | .fcmpNe f => Sys2Proof.Machine.execFcmpNe f s
  | .fcmpLt f => Sys2Proof.Machine.execFcmpLt f s
  | .fcmpLe f => Sys2Proof.Machine.execFcmpLe f s
  | .fcmpGt f => Sys2Proof.Machine.execFcmpGt f s
  | .fcmpGe f => Sys2Proof.Machine.execFcmpGe f s
  | .fcmpUn f => Sys2Proof.Machine.execFcmpUn f s
  | .rcp f => Sys2Proof.Machine.execRcp f s
  | .rsqrt f => Sys2Proof.Machine.execRsqrt f s
  | .sqrt f => Sys2Proof.Machine.execSqrt f s
  | .exp2 f => Sys2Proof.Machine.execExp2 f s
  | .log2 f => Sys2Proof.Machine.execLog2 f s
  | .sin f => Sys2Proof.Machine.execSin f s
  | .cos f => Sys2Proof.Machine.execCos f s
  | .cvt f => Sys2Proof.Machine.execCvt f s
  | .pack4 f => Sys2Proof.Machine.execPack4 f s
  | .unpk4 f => Sys2Proof.Machine.execUnpk4 f s
  | .mksc f => Sys2Proof.Machine.execMksc f s
  | .tagrd f => Sys2Proof.Machine.execTagrd f s
  | .tagset f => Sys2Proof.Machine.execTagset f s
  | .bra f => Sys2Proof.Machine.execBra f s
  | .brc f => Sys2Proof.Machine.execBrc f s
  | .call f => Sys2Proof.Machine.execCall f s
  | .calli f => Sys2Proof.Machine.execCalli f s
  | .ret f => Sys2Proof.Machine.execRet f s
  | .exit f => Sys2Proof.Machine.execExit f s
  | .trap f => Sys2Proof.Machine.execTrap f s
  | .nop f => Sys2Proof.Machine.execNop f s
  | .runend f => Sys2Proof.Machine.execRunend f s
  | .rfe f => Sys2Proof.Machine.execRfe f s
  | .brv f => Sys2Proof.Machine.execBrv f s
  | .join f => Sys2Proof.Machine.execJoin f s
  | .jtab f => Sys2Proof.Machine.execJtab f s
  | .exitl f => Sys2Proof.Machine.execExitl f s
  | .ld f => Sys2Proof.Machine.execLd f s
  | .st f => Sys2Proof.Machine.execSt f s
  | .ldfe f => Sys2Proof.Machine.execLdfe f s
  | .stfe f => Sys2Proof.Machine.execStfe f s
  | .ldline f => Sys2Proof.Machine.execLdline f s
  | .pref f => Sys2Proof.Machine.execPref f s
  | .cwb f => Sys2Proof.Machine.execCwb f s
  | .cinv f => Sys2Proof.Machine.execCinv f s
  | .pgrel f => Sys2Proof.Machine.execPgrel f s
  | .pgown f => Sys2Proof.Machine.execPgown f s
  | .atom f => Sys2Proof.Machine.execAtom f s
  | .red f => Sys2Proof.Machine.execRed f s
  | .fence f => Sys2Proof.Machine.execFence f s
  | .bar f => Sys2Proof.Machine.execBar f s
  | .barx f => Sys2Proof.Machine.execBarx f s
  | .bcast f => Sys2Proof.Machine.execBcast f s
  | .mata f => Sys2Proof.Machine.execMata f s
  | .vfirst f => Sys2Proof.Machine.execVfirst f s
  | .vuni f => Sys2Proof.Machine.execVuni f s
  | .vuniTry f => Sys2Proof.Machine.execVuniTry f s
  | .vaff f => Sys2Proof.Machine.execVaff f s
  | .mkaff f => Sys2Proof.Machine.execMkaff f s
  | .shfl f => Sys2Proof.Machine.execShfl f s
  | .vote f => Sys2Proof.Machine.execVote f s
  | .vred f => Sys2Proof.Machine.execVred f s
  | .scan f => Sys2Proof.Machine.execScan f s
  | .ishuf f => Sys2Proof.Machine.execIshuf f s
  | .pand f => Sys2Proof.Machine.execPand f s
  | .por f => Sys2Proof.Machine.execPor f s
  | .pxor f => Sys2Proof.Machine.execPxor f s
  | .pnot f => Sys2Proof.Machine.execPnot f s
  | .pmov f => Sys2Proof.Machine.execPmov f s
  | .setpart f => Sys2Proof.Machine.execSetpart f s
  | .rgacq f => Sys2Proof.Machine.execRgacq f s
  | .rgacqTry f => Sys2Proof.Machine.execRgacqTry f s
  | .rgrel f => Sys2Proof.Machine.execRgrel f s
  | .rvsend f => Sys2Proof.Machine.execRvsend f s
  | .rvrecv f => Sys2Proof.Machine.execRvrecv f s
  | .recruit f => Sys2Proof.Machine.execRecruit f s
  | .hnext f => Sys2Proof.Machine.execHnext f s
  | .hred f => Sys2Proof.Machine.execHred f s
  | .hwait f => Sys2Proof.Machine.execHwait f s
  | .hrel f => Sys2Proof.Machine.execHrel f s
  | .hexit f => Sys2Proof.Machine.execHexit f s
  | .xpand f => Sys2Proof.Machine.execXpand f s
  | .xpandN f => Sys2Proof.Machine.execXpandN f s
  | .xnext f => Sys2Proof.Machine.execXnext f s
  | .segred f => Sys2Proof.Machine.execSegred f s
  | .xend f => Sys2Proof.Machine.execXend f s
  | .tint f => Sys2Proof.Machine.execTint f s
  | .untint f => Sys2Proof.Machine.execUntint f s
  | .tintq f => Sys2Proof.Machine.execTintq f s
  | .tintqClr f => Sys2Proof.Machine.execTintqClr f s
  | .mtry f => Sys2Proof.Machine.execMtry f s
  | .mwait f => Sys2Proof.Machine.execMwait f s
  | .mnote f => Sys2Proof.Machine.execMnote f s
  | .mnall f => Sys2Proof.Machine.execMnall f s
  | .watch f => Sys2Proof.Machine.execWatch f s
  | .tshape f => Sys2Proof.Machine.execTshape f s
  | .tcopy f => Sys2Proof.Machine.execTcopy f s
  | .waitcnt f => Sys2Proof.Machine.execWaitcnt f s
  | .cntrd f => Sys2Proof.Machine.execCntrd f s
  | .card f => Sys2Proof.Machine.execCard f s
  | .cardTry f => Sys2Proof.Machine.execCardTry f s
  | .spawn f => Sys2Proof.Machine.execSpawn f s
  | .eput f => Sys2Proof.Machine.execEput f s
  | .eputTry f => Sys2Proof.Machine.execEputTry f s
  | .eget f => Sys2Proof.Machine.execEget f s
  | .qstat f => Sys2Proof.Machine.execQstat f s
  | .gang f => Sys2Proof.Machine.execGang f s
  | .macq f => Sys2Proof.Machine.execMacq f s
  | .macqTry f => Sys2Proof.Machine.execMacqTry f s
  | .mrel f => Sys2Proof.Machine.execMrel f s
  | .mldb f => Sys2Proof.Machine.execMldb f s
  | .mswap f => Sys2Proof.Machine.execMswap f s
  | .mzero f => Sys2Proof.Machine.execMzero f s
  | .mma f => Sys2Proof.Machine.execMma f s
  | .mmas f => Sys2Proof.Machine.execMmas f s
  | .mdrain f => Sys2Proof.Machine.execMdrain f s
  | .mstat f => Sys2Proof.Machine.execMstat f s
  | .rdsr f => Sys2Proof.Machine.execRdsr f s
  | .wrsr f => Sys2Proof.Machine.execWrsr f s
  | .rdtime f => Sys2Proof.Machine.execRdtime f s
  | .yield f => Sys2Proof.Machine.execYield f s
  | .prog f => Sys2Proof.Machine.execProg f s
  | .brk f => Sys2Proof.Machine.execBrk f s
  | .rdhlc f => Sys2Proof.Machine.execRdhlc f s
  | .runStart team split => Sys2Proof.Machine.execRunStart team split s
  | .resultWriteback team result => Sys2Proof.Machine.execResultWriteback team result s
  | .waveSplitMerge team split => Sys2Proof.Machine.execWaveSplitMerge team split s
  | .helperAbandonTimeout group => Sys2Proof.Machine.execHelperAbandonTimeout group s
  | .hostPageGrant page => Sys2Proof.Machine.execHostPageGrant page s
  | .hostPageRefuse page => Sys2Proof.Machine.execHostPageRefuse page s
  | .hostPageRecall page => Sys2Proof.Machine.execHostPageRecall page s
  | .hostPageHandback page => Sys2Proof.Machine.execHostPageHandback page s
  | .placementPeriod => Sys2Proof.Machine.execPlacementPeriod s
  | .commit entry => Sys2Proof.Machine.execCommit entry s
  | .propagate home sharer => Sys2Proof.Machine.execPropagate home sharer s
  | .fenceRetirement entry => Sys2Proof.Machine.execFenceRetirement entry s
  | .engineElement command element => Sys2Proof.Machine.execEngineElement command element s
  | .driverResume ctx core slot => Sys2Proof.Machine.execDriverResume ctx core slot s
  | .driverRefuse ctx core slot => Sys2Proof.Machine.execDriverRefuse ctx core slot s
  | .invalidate ctx base size => Sys2Proof.Machine.execInvalidate ctx base size s
  | .invalidateDone ctx => Sys2Proof.Machine.execInvalidateDone ctx s
  | .rqDoor part ring value => Sys2Proof.Machine.execRqDoor part ring value s
  | .cardRead part ring => Sys2Proof.Machine.execCardRead part ring s
  | .slotReread part ring => Sys2Proof.Machine.execSlotReread part ring s
  | .ringReset part ring => Sys2Proof.Machine.execRingReset part ring s
  | .dispatch part => Sys2Proof.Machine.execDispatch part s
  | .launchCompletion launch => Sys2Proof.Machine.execLaunchCompletion launch s
  | .packingBinTimeout bin => Sys2Proof.Machine.execPackingBinTimeout bin s
  | .equinoxPeriod => Sys2Proof.Machine.execEquinoxPeriod s
  | .deadlineExpiry launch => Sys2Proof.Machine.execDeadlineExpiry launch s
  | .latchTimeout core tile => Sys2Proof.Machine.execLatchTimeout core tile s
  | .metadataTimeout core tile => Sys2Proof.Machine.execMetadataTimeout core tile s
  | .matrixOpComplete core => Sys2Proof.Machine.execMatrixOpComplete core s
  | .mswapExchange core => Sys2Proof.Machine.execMswapExchange core s
  | .kill team => Sys2Proof.Machine.execKill team s
  | .preemptRequest cores => Sys2Proof.Machine.execPreemptRequest cores s
  | .drainTimeout block => Sys2Proof.Machine.execDrainTimeout block s
  | .saveComplete block => Sys2Proof.Machine.execSaveComplete block s
  | .blockRestore block => Sys2Proof.Machine.execBlockRestore block s
  | .debugResume team => Sys2Proof.Machine.execDebugResume team s
  | .checkpoint part => Sys2Proof.Machine.execCheckpoint part s
  | .replayStop part count => Sys2Proof.Machine.execReplayStop part count s
  | .replayCountReached part => Sys2Proof.Machine.execReplayCountReached part s
  | .sampleCountExpiry core sched => Sys2Proof.Machine.execSampleCountExpiry core sched s
  | .claimWrite unit owner => Sys2Proof.Machine.execClaimWrite unit owner s
  | .forcedClaim unit => Sys2Proof.Machine.execForcedClaim unit s
  | .violationLogClear part => Sys2Proof.Machine.execViolationLogClear part s
  | .partitionEntryWrite part entry => Sys2Proof.Machine.execPartitionEntryWrite part entry s
  | .partitionWriteDone part => Sys2Proof.Machine.execPartitionWriteDone part s
  | .contextDescriptorWrite ctx desc => Sys2Proof.Machine.execContextDescriptorWrite ctx desc s
  | .edgeTableWrite ctx edge entry => Sys2Proof.Machine.execEdgeTableWrite ctx edge entry s
  | .registerWrite owner reg => Sys2Proof.Machine.execRegisterWrite owner reg s
  | .keyCreate key => Sys2Proof.Machine.execKeyCreate key s
  | .keyRetire key => Sys2Proof.Machine.execKeyRetire key s
  | .keyRetireComplete key => Sys2Proof.Machine.execKeyRetireComplete key s
  | .hostMemAccess access => Sys2Proof.Machine.execHostMemAccess access s
  | .peerElementReceive element => Sys2Proof.Machine.execPeerElementReceive element s
  | .linkFailure link retrainable => Sys2Proof.Machine.execLinkFailure link retrainable s
  | .linkRetrained link => Sys2Proof.Machine.execLinkRetrained link s
  | .frost target => Sys2Proof.Machine.execFrost target s
  | .frostComplete => Sys2Proof.Machine.execFrostComplete s
  | .continueFrost => Sys2Proof.Machine.execContinueFrost s
  | .thaw image => Sys2Proof.Machine.execThaw image s
  | .attestationRequest owner nonce => Sys2Proof.Machine.execAttestationRequest owner nonce s
  | .resetRelease image identityOk => Sys2Proof.Machine.execResetRelease image identityOk s
  | .trainingComplete ok => Sys2Proof.Machine.execTrainingComplete ok s
  | .firmwareSupply image => Sys2Proof.Machine.execFirmwareSupply image s
  | .encodingNotAnInstruction fate => Sys2Proof.Machine.execEncodingNotAnInstruction fate s
  | .thawComplete => Sys2Proof.Machine.execThawComplete s

end Sys2Proof.Machine
end

