-- ==== Sys2Proof/Machine/Fetch.lean ====
section
/-! DEFINITION. What one step of the device is: what its units do of themselves, which moves are open, which one happens, and the
issue of one instruction (R40, R46 to R48, R100, R102, R202, R215, R255 to R257, R295, R297, R321, R323; log entries 3 to 5). -/
namespace Sys2Proof.Machine

/-! ### What the units do of themselves -/

/-- Instruction-buffer entries are granted in request order, across all the teams of a core (R100). -/
def State.grantBuffers (s : State) (core : Nat) : State :=
  let asks := (s.others.filter fun t => t.core == core && !t.out && !t.stopped).flatMap fun t =>
    t.every.filterMap fun x => if x.park == .none then x.request.map fun r => (r, t.id, x.id) else none
  ((sortBy Prod.fst asks).take (64 - s.buffersUsed core)).foldl
    (fun s q => s.modSplitId q.2.1 q.2.2 fun x => { x with buffer := true, request := none }) s

/-- Splits that wait for an engine counter and find it low enough issue again (R238). -/
def State.wakeCounters (s : State) : State :=
  (s.parked fun p => match p with | .counter .. => true | _ => false).foldl (fun s x =>
    match x.2.park with
    | .counter k n => if s.counter x.1 k ≤ n then s.unparkSplit x.1 x.2.id else s
    | _ => s) s

/-- A donor whose lanes are wanted again waits for them, and they are reclaimed (R145). -/
def State.wantLanes (s : State) : State :=
  (s.others.flatMap fun t => t.lent.map fun x => x.team).eraseDups.foldl (fun s donor =>
    let lent := maskOf ((s.lentOut donor).map Lent.lane)
    match s.findTeam donor with
    | none => s
    | some t => (t.splits.filter fun x => x.park == .none && x.mask &&& lent != 0).foldl (fun s x => s.clearPark donor x.id) s) s

/-- The ranks of a set behind its first `k`. -/
def ranksFrom (ranks : BitVec 32) (k : Nat) : BitVec 32 :=
  BitVec.ofNat 32 (((List.range 32).filter fun r => ranks.getLsbD r && decide (k ≤ rankOrd ranks r)).foldl (fun n r => n + 2 ^ r) 0)

/-- A landing's lanes of some ranks. -/
def Landing.onRanks (m : BitVec 32) : Landing → Landing
  | .lanes n t vals => .lanes n t (vals.filter fun x => m.getLsbD (x.1 / 32))
  | .preds n vals => .preds n (vals.filter fun x => m.getLsbD (x.1 / 32))
  | x => x

/-- An unreadable result of the last instruction of a split that owes ranks, whose ranks to issue come `d` cycles later (R46, R256). -/
def delayResult (x : Split) (d : Nat) (y : Fresh) : List Fresh :=
  let n := popcount y.ranks.toNat 32
  if y.split = x.id && y.readyAt + n = x.last + x.owed + 5 then
    let rest := ranksFrom y.ranks (n - x.owed)
    let gone := y.ranks &&& ~~~rest
    [{ y with old := y.old.onRanks gone, ranks := gone },
     { y with old := y.old.onRanks rest, ranks := rest, readyAt := y.readyAt + (n - x.owed) + d }]
  else [y]

/-- Ranks that a budget has not let issue come later, and with them their results and their flag (R256). -/
def delayOwed (now : Nat) (t : Team) (x : Split) : Team :=
  let d := now - (x.last + 1)
  if x.owed = 0 || d = 0 then t
  else
    let later := fun (y : Flight) => if y.owing && y.split = x.id then { y with due := y.due.map (· + d) } else y
    Team.mapEvery (fun y => if y.id = x.id then { y with last := y.last + d } else y)
      { t with fresh := t.fresh.flatMap (delayResult x d), flights := t.flights.map later }

/-- Results that are readable from now on, and flights whose cycle has come (R46, R47). -/
def settleTeam (now : Nat) (t : Team) : Team :=
  let t := dueFlights now (t.every.foldl (delayOwed now) t)
  { t with fresh := t.fresh.filter fun x => decide (now < x.readyAt + 32) }

/-- The cores on which teams stand. -/
def State.coresInUse (s : State) : List Nat := (s.others.map Team.core).eraseDups

/-- Everything that happens of itself before the next move. On an unfocused state. -/
def State.tick (s : State) : State :=
  let s := { s with others := s.others.map fun t => settleWaves (settleTeam s.cycle t) }.bootStep.replays.serveOutside
  let s := s.finishCommands.sweep.reap.regrant.settleStolen
  let s := s.coresInUse.foldl (fun s c => (grantBlocks c (s.core c).acquirers s).grantExpand c) s
  let s := (s.cores.map Prod.fst).foldl State.tickMatrix s
  let s := ((s.ctxs.map Prod.fst).foldl State.grantEdges s).grantPosters
  let s := (s.blocks.map Block.id).foldl State.checkBarriers s
  let s := s.placeRedos.placeBins.wakeCounters.wantLanes.settleParks
  let s := s.coresInUse.foldl (fun s c => (List.range 4).foldl (fun s k => s.settleSlots c k) s) s
  (s.coresInUse.foldl State.grantBuffers s).noteReady.settleReady.settleSamples

/-! ### Issue (R39, R40, R47, R48) -/

/-- What the executing split does next. -/
inductive Act where
  | run (i : Instr)
  | fate (f : Fate)
  | driver
  | page (n : Nat)
  | refused (v : Viol)
  | wait
  deriving DecidableEq, Repr

/-- Whether a helper group executes an instruction that a helper body may not, with its guard on: ILLCLASS, which comes before ILLENC and
RUNLEN (R30, R39, R138). -/
def State.forbidden (s : State) (i : Instr) : Bool :=
  s.inHelper && i.fmt?.any fun f =>
    !helperMay i f && guardOn f (viewAt (s.issueCycle f) i f ((usesOf i).reads ++ f.guardReg) s)

/-- The instruction that the word at the executing split's pc names, whether or not its fields keep their rules. -/
def State.namedHere (s : State) : Option Instr :=
  match s.translate s.team.ctx s.team.launch s.team.part s.team.core .fetch s.split.pc with
  | .ok p =>
    let bs := s.codeBytes p 16
    let w := BitVec.ofNat 64 (leNat 8 bs)
    (Fmt.ofWords w (BitVec.ofNat 32 (leNat 4 (bs.drop 8))) (BitVec.ofNat 32 (leNat 4 (bs.drop 12)))).bind (Instr.ofOpcode (opcodeOf w).toNat)
  | _ => none

/-- The instruction at the executing split's pc, or what its fetch meets; the 25th instruction of a run raises RUNLEN. -/
def State.act (s : State) : Act :=
  match s.fetch s.split.pc with
  | .ok i => if 24 ≤ s.split.run.count && !s.forbidden i then .fate { code := .RUNLEN } else .run i
  | .fate f => .fate (if f.code = .ILLENC && s.inHelper && s.namedHere.any s.forbidden then { f with code := .ILLCLASS } else f)
  | .driver => .driver
  | .page n => .page n
  | .refused v => .refused v
  | .wait => .wait

/-- How many instructions a flag counts for the executing split: half of a wave split does not wait for the lanes of the other
half (R170). -/
def State.flagCount (s : State) (k : Nat) : Nat :=
  let n := s.team.c.get 0 k
  match s.split.wave with
  | some w => if !s.lanesOut s.team.id w && s.team.flights.any (fun x => x.id == w.flight && x.sig == some k) then n - 1 else n
  | none => n

/-- Whether the control fields of an instruction let it issue: its wait mask, but for `runend`'s, and its flag's limit. -/
def State.fieldsOpen (s : State) (i : Instr) : Bool :=
  match i.fmt? with
  | none => true
  | some f =>
    ((match i with | .runend _ => true | _ => false) || (List.range 12).all fun k => !f.wait.getLsbD k || s.flagCount k == 0) &&
      (f.sig == 15 || decide (s.team.c.get 0 f.sig.toNat < 15))

/-- Whether a half of a wave split stands still: its lanes are not written, or it has come to the trailer (R170). -/
def State.waveHeld (s : State) : Bool :=
  match s.split.wave with
  | some w => s.split.pc == w.stop || (!w.hit && s.lanesOut s.team.id w)
  | none => false

/-- Whether the stall distance of an instruction has elapsed (R47, R48). -/
def State.stallPast (s : State) (i : Instr) : Bool :=
  match i.fmt? with
  | some f => decide (s.split.last + 1 + f.stall.toNat ≤ s.cycle)
  | none => true

/-- Whether the executing split may issue its next instruction (R48): not while ranks of its last one are to issue (R256), nor while its
fetch waits for a die link (R329). -/
def State.mayIssue (s : State) : Bool :=
  s.split.run.active && s.split.inSlot && s.split.buffer && s.split.park == .none && s.split.mask != 0 &&
    s.split.owed == 0 && (s.team.fetchOff.isNone || s.team.fetchOff == some s.split.id) && !s.waveHeld &&
    match s.act with
    | .run i => s.fieldsOpen i && s.stallPast i
    | .wait => false
    | _ => true

/-- A driver fault of a fetch: its report and the park (R298, R357). No lane's address caused it. -/
def State.fetchDriver (s : State) : State := State.driverPark s s .fetch (wholeFlt .XLATE s.split.pc)

/-- A fetch counts as an access to its bytes, and the TLB holds its translation (R178, R297). -/
def State.touchFetch (s : State) : State :=
  match s.translate s.team.ctx s.team.launch s.team.part s.team.core .fetch s.split.pc with
  | .ok p =>
    ((s.noteTlb s.team.ctx s.team.launch s.team.core s.split.pc).touch p.key (s.dieOf s.team.core) (s.pins s.team.part s.split.pc)).roundTrip
      (s.dieOf s.team.core) p.key
  | _ => s

/-- Issues the executing split's next instruction. -/
def State.issueNext (s : State) : Out :=
  match s.act with
  | .run i => exec i (s.touchFetch)
  | .fate f => exec (.encodingNotAnInstruction f) s
  | .driver => .next s.fetchDriver
  | .page n => .next ((s.askPage n).parkHere (.page n (some (wholeFlt .MIGRATE s.split.pc))))
  | .refused v => .next ((s.takeFault (wholeFlt .PERM s.split.pc)).logViol v)
  | .wait => .next s

/-! ### Measurement (R321, R323, R325) -/

/-- The opcode of an encoded instruction, for a sample record. -/
def State.opAt (s : State) : Nat :=
  match s.translate s.team.ctx s.team.launch s.team.part s.team.core .fetch s.split.pc with
  | .ok p => leNat 2 (s.codeBytes p 2) / 16 % 1024
  | _ => 0

/-- What sampling, the counter bank and record mode make of an instruction that state `s0` has issued. -/
def State.measure (s0 s : State) : State :=
  let tid := s0.team.id
  let before := s0.team.retired
  let after := ((s.findTeam tid).map Team.retired).getD before
  let s := match s0.act with
    | .run i =>
      match i.fmt? with
      | some f =>
        if after != before then State.sample s0 s i f s0.opAt false
        else if s.cycle = s0.cycle then State.sample s0 s i f s0.opAt true
        else s
      | none => s
    | _ => s
  State.noteRetired s0 ((s.countEvents s0.team.core s0.team.part).traceEvents (s.dieOf s0.team.core) s0.team.part) s0.team.part

/-- A step that issues: the instruction, which disables fetch anew where its checks are not passed (R295), then what measures it. -/
def State.issueStep (s : State) : Out :=
  let s := s.modTeam fun t => { t with fetchOff := none }
  match s.issueNext with
  | .next s' => .next (State.measure s s')
  | .fault f => .fault f
  | .refused r => .refused r

/-! ### Choosing what issues (R48, R255 to R257) -/

/-- The splits of a scheduler that may issue an instruction, or the ranks that remain of their last one (R256), the run that began
earliest first. -/
def State.issuers (s : State) (core sched : Nat) : List (Team × Split) :=
  let owing := (s.teamsOn core sched).flatMap fun t =>
    (t.splits.filter fun x => x.owed != 0 && decide (x.last < s.cycle)).map fun x => (t, x)
  sortBy (fun p => p.2.begun) (((s.slotsOf core sched).filter fun p => (s.focus p.1.id p.2.id).mayIssue) ++ owing)

/-- Issues ranks that remain of the executing split's last instruction, as many as the budget lets issue in a row (R256). -/
def State.payRanks (s : State) : State :=
  let k := s.ranksNow s.split.owed
  let s := (s.modSplit fun x => { x with last := x.last + k, owed := x.owed - k }).chargeBudget k
  let s := { s with cycle := s.cycle + k }
  if s.split.owed = 0 then
    s.modTeam fun t => { t with flights := t.flights.map fun y => if y.split = s.split.id then { y with owing := false } else y }
  else s

/-- The first of the least by a measure. -/
def leastBy {α : Type} (g : α → Nat) : List α → Option α
  | [] => none
  | x :: r => match leastBy g r with
    | some y => if g x ≤ g y then some x else some y
    | none => some x

/-- The launch key of a team under earliest-deadline-first (R257). -/
def State.teamKey (s : State) (t : Team) : Nat :=
  match s.findLaunch t.launch with
  | some l => s.edfKey l.card.deadline l.order
  | none => 0

/-- The split that a scheduler issues from. -/
def State.pickIssuer (s : State) (core sched : Nat) : Option (Nat × Nat) :=
  let all := s.issuers core sched
  let part := (all.head?.map fun p => p.1.part).getD 0
  let budget := fun (t : Team) => (s.core core).budgets.get {} t.ctx
  let best :=
    if (s.part part).entry.edf then leastBy (fun p => s.teamKey p.1) all
    else match all.filter fun p => decide (0 < (budget p.1).balance) with
      | p :: _ => some p
      | [] => leastBy (fun p => (budget p.1).debt) (all.filter fun p => decide ((budget p.1).debt < 4 * (budget p.1).refill.toNat))
  best.map fun p => (p.1.id, p.2.id)

/-! ### The open moves -/

/-- One move of the device. -/
inductive Step where
  | issue (team split : Nat)
  | event (i : Instr)
  deriving DecidableEq, Repr

/-- The issues that are open, one for each scheduler. -/
def State.openIssues (s : State) : List Step :=
  s.coresInUse.flatMap fun c => (List.range 4).filterMap fun k => (s.pickIssuer c k).map fun p => .issue p.1 p.2

/-- The runs that may begin: on each scheduler, of each tenant (R48, R77, R102). -/
def State.openStarts (s : State) : List Step :=
  s.coresInUse.flatMap fun c => (List.range 4).flatMap fun k =>
    if 4 ≤ (s.slotsOf c k).length then []
    else
      ((s.others.filter fun t => t.core == c && t.sched == k).map Team.ctx).eraseDups.flatMap fun cx =>
        let mine := s.readySplits c k cx
        (mine.filter (mayBeNext mine)).map fun p => .event (.runStart p.1.id p.2.id)

/-- The moves of the order machine, results and wave splits that are open (R46, R170, R202, R204, R206). -/
def State.openMemory (s : State) : List Step :=
  (s.others.flatMap fun t => (t.pending.filter fun p => p.value.isSome).map fun p => Step.event (.resultWriteback t.id p.id)) ++
  (s.others.flatMap fun t => (t.splits.filter fun x => x.wave.any fun w => x.pc == w.stop).map fun x => Step.event (.waveSplitMerge t.id x.id)) ++
  ((s.entries.filter s.canCommit).map fun e => .event (.commit e.id)) ++
  ((s.updates.map fun q => (s.homeOf q.line, q.core)).eraseDups.map fun p => .event (.propagate p.1 p.2)) ++
  ((s.entries.filter s.canRetire).map fun e => .event (.fenceRetirement e.id))

/-- The moves of the engines and the matrix units (R209, R281, R284, R285, R288). -/
def State.openEngines (s : State) : List Step :=
  (s.commands.flatMap fun c => ((List.range c.total).filter (s.mayMove c)).map fun n => Step.event (.engineElement c.id n)) ++
  (s.cores.flatMap fun c =>
    (match c.2.matrix.queue with
      | .swap .. :: _ => [Step.event (.mswapExchange c.1)]
      | _ :: _ => [Step.event (.matrixOpComplete c.1)]
      | [] => []))

/-- What the device does of itself for launches, pre-emption and the host (R145, R177, R245 to R249, R254, R257, R299, R305 to
R310, R323, R324, R336, R338, R345, R347). -/
def State.openDevice (s : State) : List Step :=
  let ev := fun (i : Instr) => Step.event i
  ((s.pages.filter fun g => s.mayHandBack g.1).map fun g => ev (.hostPageHandback g.1)) ++
  (s.invals.map fun i => ev (.invalidateDone i.1)) ++
  (s.parts.flatMap fun p =>
    ((List.range 8).filterMap fun n =>
      let r := p.2.rings.get {} n
      if s.frozen != .no || !r.en || r.ovr || r.door ≤ r.read then none
      else if r.stale = 0 then some (ev (.cardRead p.1 n))
      else if r.rereads s.cycle then some (ev (.slotReread p.1 n)) else none) ++
    (if s.frozen = .no && (s.decide? p.1).isSome then [ev (.dispatch p.1)] else []) ++
    (if p.2.checking || s.checkpointDue p.1 then [ev (.checkpoint p.1)] else []) ++
    (if s.replayed p.1 then [ev (.replayCountReached p.1)] else []) ++
    (if p.2.busy.isSome then [ev (.partitionWriteDone p.1)] else [])) ++
  ((s.launches.filter s.launchDone).map fun l => ev (.launchCompletion l.id)) ++
  ((s.launches.filter fun l => s.pastDeadline l.card.deadline && !l.expired).map fun l => ev (.deadlineExpiry l.id)) ++
  (s.blocks.filterMap fun b =>
    match b.preempt with
    | .draining c => if c + cyclesOf 200000 ≤ s.cycle then some (ev (.drainTimeout b.id)) else none
    | .saving => some (ev (.saveComplete b.id))
    | .saved _ => if s.frozen = .no && (s.coreBack b).isSome then some (ev (.blockRestore b.id)) else none
    | _ => none) ++
  (s.retiring.map fun k => ev (.keyRetireComplete k)) ++
  (match s.frozen with
    | .freezing _ => [ev .frostComplete]
    | .thawing _ => [ev .thawComplete]
    | _ => [])

/-- The moves that are open now. -/
def State.openMoves (s : State) : List Step := s.openIssues ++ s.openStarts ++ s.openMemory ++ s.openEngines ++ s.openDevice

/-- One of several: the manual lets any be next (log entry 4). -/
def State.choose (s : State) : List Step → Option Step
  | [] => none
  | [x] => some x
  | x :: y :: r => some ((x :: y :: r).getD (Config.freeNat (s.free * 64 + 62) % (r.length + 2)) x)

/-! ### The step -/

/-- A sampling unit whose count has run out. -/
def State.expiredUnit (s : State) : Option (Nat × Nat) :=
  (s.cores.flatMap fun c => (c.2.sampling.filter fun u => u.2.expired).map fun u => (c.1, u.1)).head?

/-- A latch, a helper or a bin whose time is up (R145, R254, R284, R288). -/
def State.lateWait (s : State) : Option Step :=
  let latch := (s.cores.flatMap fun c => c.2.matrix.latches.filterMap fun l => l.2.bind fun x =>
    if s.latchLate c.1 x then some (Step.event (if x.full.isSome then .metadataTimeout c.1 l.1 else .latchTimeout c.1 l.1)) else none).head?
  let helper := (s.others.find? fun g => g.lent.any fun x => x.reclaimed.any fun c => decide (c + 4096 ≤ s.cycle)).map
    fun g => Step.event (.helperAbandonTimeout g.id)
  let bin := (s.dies.flatMap fun d => (d.2.bins.filter fun b => b.late s.cycle).map fun b => Step.event (.packingBinTimeout b.id)).head?
  (latch.or helper).or bin

/-- What must happen before anything else: a count that has run out, a wait or a move at its bound, a period of 100 µs (R145, R178, R215,
R254, R256, R284, R288, R321). -/
def State.forced (s : State) : Option Step :=
  match s.expiredUnit with
  | some (c, k) => some (.event (.sampleCountExpiry c k))
  | none => match s.lateWait with
    | some m => some m
    | none => match s.overdue with
      | some (.commit e) => some (.event (.commit e))
      | some (.update h c) => some (.event (.propagate h c))
      | none =>
        if 110000 * (s.equinox + 1) ≤ s.cycle then some (.event .equinoxPeriod)
        else if 110000 * (s.placement + 1) ≤ s.cycle then some (.event .placementPeriod)
        else none

/-- What a move is in the log of record mode: the partition, and the items (R323). -/
def State.logged (s0 s : State) : Step → List (Nat × List LogItem)
  | .issue t x =>
    let v := s0.focus t x
    [(v.team.part, match v.act with
      | .run (.rdtime _) => [.input (leBytes 8 (s.ctx v.team.ctx).last.toNat)]
      | .run (.rdhlc _) => [.input (leBytes 8 (s.die (s0.dieOf v.team.core)).hlc.toNat)]
      | _ => [])]
  | .event (.runStart t x) => ((s0.findTeam t).map fun u => (u.part, [LogItem.run u.core u.sched t x])).toList
  | .event (.commit n) =>
    ((s0.entries.find? fun e => e.id == n).map fun e =>
      ((s0.teamOf e).part, [LogItem.commit (s0.homeDie (e.locs.headD 0)) n])).toList
  | .event (.engineElement n k) => ((s0.commands.find? fun c => c.id == n).map fun c => (c.part, [LogItem.element n k])).toList
  | .event (.hostMemAccess a) => ((s0.holderOf a.addr.toNat).map fun p => (p, if a.write then [LogItem.input a.bytes] else [])).toList
  | .event (.peerElementReceive e) => ((s0.holderOf e.addr.toNat).map fun p => (p, if e.write then [LogItem.input e.bytes] else [])).toList
  | _ => []

/-- Every partition's logs after a move. -/
def State.logAll (s0 s : State) (m : Step) : State :=
  let items := State.logged s0 s m
  (s.parts.filter fun p => p.2.interval.isSome).foldl (fun s p =>
    State.logMove s0 s p.1 ((items.filter fun x => x.1 == p.1).flatMap Prod.snd)) s

/-- Performs a move, and notes it. An event takes a cycle; an element's move counts in the counter bank (R325). -/
def State.perform (s : State) (m : Step) : Out :=
  let out := match m with
    | .issue t x =>
      let v := s.focus t x
      if v.split.owed = 0 then v.issueStep else .next v.payRanks
    | .event i => exec i { s with cycle := s.cycle + 1 }
  match out with
  | .next t =>
    let t := match m with
      | .event (.engineElement n _) => ((s.commands.find? fun c => c.id == n).map fun c =>
          (t.countEvents c.core c.part).traceEvents (t.dieOf c.core) c.part).getD t
      | _ => t
    .next (State.logAll s t m)
  | o => o

/-- Nothing is open: a cycle passes, and splits that wait for a movement try again. -/
def State.idle (s : State) : State := ({ s with cycle := s.cycle + 1 } : State).unstall

/-- Whether an instruction of the table is an event, which the agenda may name. -/
def fromOutside (i : Instr) : Bool :=
  match i with
  | .encodingNotAnInstruction _ => false
  | _ => i.isEvent

/-- A step on a settled state: what is forced, then what the agenda names, then one of the open moves. -/
def State.advance (s : State) : Out :=
  match s.forced with
  | some m => s.perform m
  | none =>
    match s.agenda with
    | i :: r =>
      let s := { s with agenda := r }
      if fromOutside i then s.perform (.event i) else .next s.idle
    | [] =>
      match s.choose s.openMoves with
      | some m => { s with free := s.free + 1 }.perform m
      | none => .next s.idle

end Sys2Proof.Machine
end

