-- ==== Sys2Proof/Machine/Step.lean ====
section
/-! DEFINITION. One step of the device, and a state that is about to issue a given instruction. -/
namespace Sys2Proof.Machine

/-- One step: what happens of itself, then one move. A device that a die link has stopped goes no further (R329). -/
def step (s : State) : Host.Outcome State Fault Refusal :=
  if s.stopped then .fault .deviceStopped else s.unfocus.tick.advance

/-- Where the bytes of `withFetchWord` stand. -/
def fetchBase : Nat := 0x100000

/-- A translation tree that maps the first 1 GB to itself, with every permission: a root at 0x10000. -/
def fetchTree (m : SMap Byte) : SMap Byte :=
  ((m.setList unlistedByte 0x10000 (leBytes 8 0x20001)).setList unlistedByte 0x20000 (leBytes 8 0x30001)).setList unlistedByte 0x30000 (leBytes 8 0x3B)

/-- A team of one lane, in a run, at the bytes. -/
def fetchTeam : Team :=
  { id := 3, launch := 1, block := 2, n := 1, live := 1, blocks := 31, fsbase := 0x200000,
    splits := [{ id := 4, pc := BitVec.ofNat 64 fetchBase, mask := 1, run := { active := true }, begun := 5, inSlot := true, buffer := true }] }

/-- The state in which the next step issues the instruction whose bits are `w`: a ready device whose one team, of partition 0
and context 0, has come to these bytes (log entry 8). -/
def State.withFetchWord (s : State) (nbits w : Nat) : State :=
  let part : Part := { entry := { cores := 1, keys := 1, valid := true, ranges := [(0, 0x40000000)] } }
  let ctx : Ctx := { desc := { ptroot := 0x10000, valid := true, pvarena := 0x200001 } }
  { s with
    phase := 5, stopped := false, frozen := .no, agenda := [], nextId := max s.nextId 16,
    cycle := max s.cycle 64, equinox := max s.cycle 64 / 110000, placement := max s.cycle 64 / 110000, links := [], arrived := [],
    team := {}, split := {}, others := [fetchTeam],
    blocks := [{ id := 2, launch := 1, core := 0, teams := [3] }],
    launches := [{ id := 1, card := {}, next := 1, live := 1 }],
    mem := (fetchTree s.mem).setList unlistedByte fetchBase (leBytes 16 (w % 2 ^ nbits)), seals := [],
    entries := [], updates := [], commands := [], tlb := [], invals := [], retiring := [], pages := [],
    cores := [], dies := [], ctxs := SMap.set [] {} 0 ctx, parts := SMap.set [] {} 0 part }

end Sys2Proof.Machine
end

