-- ==== Sys2Proof/Machine/Bar.lean ====
section
/-! DEFINITION. What reads of the device's register space return (R339 and the rules of its blocks), and reads of the uncached window
(R342). A read changes nothing, so that none is a row of the table of instructions and events. -/
namespace Sys2Proof.Machine

/-- What the host reads in BAR0, by name; `other` is any other place of a number of bytes. -/
inductive HostRead where
  | phase | error | status | enumCopy | time                             -- the status block
  | enumeration (offset n : Nat)
  | partEntry (part : Nat)
  | descriptor (ctx : Nat)
  | region (part i : Nat)
  | rqBase (part ring : Nat) | rqCtl (part ring : Nat) | rqRead (part ring : Nat) | rqFree (part ring : Nat) | rqErr (part ring : Nat)
  | rqLog (part ring : Nat)
  | l2ways (part : Nat) | arbmode (part : Nat)
  | dbgctl (part : Nat) | wpBase (part i : Nat) | wpCtl (part i : Nat) | watchQueue (part : Nat) | watchDropped (part : Nat)
  | retired (part : Nat)                                                 -- R323
  | claim (unit : ClaimUnit)
  | counter (core n : Nat) | counterEvent (core n : Nat)                 -- R325
  | sampleInterval (core sched : Nat) | sampleDrops (core sched : Nat)   -- R321
  | teamRecord (team : Nat)                                              -- of a stopped team (R316)
  | violationLog (part : Nat) | violations (part : Nat)
  | faultHead (ctx : Nat) | faultTail (ctx : Nat) | invalidationDone (ctx : Nat)
  | report                                                               -- the reader's last attestation report
  | edge (ctx n : Nat)
  | refill (ctx core : Nat)
  | tofs (ctx : Nat) | tscale (ctx : Nat)
  | other (offset n : Nat)
  deriving DecidableEq, Repr

/-- The claim register of a unit. -/
def State.claimOf (s : State) : ClaimUnit → Claim
  | .counterBank c => (s.core c).bank
  | .traceUnit d n => ((s.die d).traces.get {} n).claim
  | .sampling c k => (s.unit c k).claim

/-- Who may read: the hypervisor all, a driver what R339 and the register's own rule give it. -/
def State.mayRead (s : State) : Owner → HostRead → Bool
  | .hypervisor, _ => true
  | .driver p, r =>
    match r with
    | .phase | .error | .status | .enumCopy | .time | .enumeration .. | .claim _ | .report => true
    | .partEntry q | .region q _ | .rqBase q _ | .rqCtl q _ | .rqRead q _ | .rqFree q _ | .rqErr q _ | .rqLog q _ | .l2ways q | .dbgctl q
    | .wpBase q _ | .wpCtl q _ | .watchQueue q | .watchDropped q | .retired q | .violations q => q == p
    | .descriptor cx | .faultHead cx | .faultTail cx | .invalidationDone cx | .edge cx _ => s.partOf cx == p
    | .counter c _ | .counterEvent c _ => (s.core c).bank.owner == some (.driver p)
    | .sampleInterval c k | .sampleDrops c k => (s.unit c k).claim.owner == some (.driver p)
    | .teamRecord t => (s.findTeam t).any fun t => t.part == p
    | .arbmode _ | .violationLog _ | .refill .. | .tofs _ | .tscale _ | .other .. => false

/-- The 64 bytes of a context descriptor (R341). -/
def descBytes (d : CtxDesc) : List Byte :=
  leBytes 8 d.ptroot.toNat ++ leBytes 8 d.fqbase.toNat ++ leBytes 1 d.fqlsize.toNat ++ leBytes 1 (bitNat d.valid) ++ leBytes 1 d.part.toNat ++
    leBytes 1 0 ++ leBytes 4 d.vwin.toNat ++ leBytes 8 d.savebase.toNat ++ leBytes 8 d.savesize.toNat ++ leBytes 8 d.trapvec.toNat ++
    leBytes 8 d.enumbase.toNat ++ leBytes 8 d.pvarena.toNat

/-- The bytes that a read gives where it is allowed. -/
def State.readBytes (s : State) (o : Owner) : HostRead → List Byte
  | .phase => leBytes 4 s.phase
  | .error => leBytes 4 s.error
  | .status => leBytes 4 s.status
  | .enumCopy => leBytes 8 Config.enumAddr
  | .time => leBytes 8 s.deviceTime
  | .enumeration at' n => (List.range n).map fun i => (enumBytes s.config).getD (at' + i) 0
  | .partEntry p => partBytes (s.part p).entry
  | .descriptor cx => descBytes (s.ctx cx).desc
  | .region p i => leBytes 16 ((s.part p).regions.get 0 i).toNat
  | .rqBase p n => leBytes 8 (s.ring p n).base.toNat
  | .rqCtl p n => let r := s.ring p n; leBytes 4 (bitNat r.en + 2 * bitNat r.ovr + 16 * r.lsize + 65536 * r.ctx)
  | .rqRead p n => leBytes 8 (s.ring p n).read
  | .rqFree p n => leBytes 8 (s.ring p n).free.toNat
  | .rqErr p n => leBytes 8 (s.ring p n).err.toNat
  | .rqLog p n => leBytes 8 (s.ring p n).log.toNat
  | .l2ways p => leBytes 4 (s.part p).entry.l2ways.toNat
  | .arbmode p => leBytes 4 (bitNat (s.part p).entry.edf)
  | .dbgctl p => leBytes 4 (s.part p).dbgctl.toNat
  | .wpBase p i => leBytes 8 ((s.part p).wps.get {} i).base.toNat
  | .wpCtl p i => let w := (s.part p).wps.get {} i; leBytes 4 (w.mask.toNat + 2 ^ 16 * w.ctx + 2 ^ 26 * bitNat w.en)
  | .watchQueue p => leBytes 8 (s.part p).wqaddr.toNat
  | .watchDropped p => leBytes 8 (s.part p).wqover
  | .retired p => leBytes 8 (s.part p).retired
  | .claim u => leBytes 4 ((s.claimOf u).statusOf o)
  | .counter c n => leBytes 8 ((s.core c).counters.get 0 n)
  | .counterEvent c n => leBytes 4 ((s.core c).events.get 0 n).toNat
  | .sampleInterval c k => leBytes 4 (s.unit c k).interval
  | .sampleDrops c k => leBytes 8 (s.unit c k).drops
  | .teamRecord t => ((s.findTeam t).filter debugStopped).elim [] s.teamRecord
  | .violationLog p => leBytes 8 (s.part p).violaddr.toNat
  | .violations p => leBytes 8 (s.part p).viols
  | .faultHead cx => leBytes 8 (s.ctx cx).fqhead
  | .faultTail cx => leBytes 8 (s.ctx cx).fqtail
  | .invalidationDone cx => leBytes 4 (bitNat !(s.invals.any fun i => i.1 == cx))
  | .report => ((s.reports.filter fun r => r.1 == o).getLast?.map Prod.snd).getD []
  | .edge cx n => let e := (s.edge cx n).entry; leBytes 8 e.base.toNat ++ leBytes 4 e.cap.toNat ++ leBytes 1 (bitNat e.valid) ++ leBytes 19 0
  | .refill cx c => leBytes 4 ((s.core c).budgets.get {} cx).refill.toNat
  | .tofs cx => leBytes 8 (s.ctx cx).tofs.toNat
  | .tscale cx => leBytes 4 ((s.ctx cx).tscale + 2 ^ 25 * bitNat (s.ctx cx).tsteal)
  | .other _ n => leBytes n 0

/-- Whether a read is of the status block, which alone stands before the device is ready (R351). -/
def HostRead.early : HostRead → Bool
  | .phase | .error | .status | .enumCopy | .time => true
  | _ => false

/-- What a function of BAR0 reads: zeros outside its own blocks, and before phase 5 outside the status block (R339, R351). -/
def State.readReg (s : State) (o : Owner) (r : HostRead) : List Byte :=
  if (r.early || s.phase == 5) && s.mayRead o r then s.readBytes o r else leBytes (s.readBytes o r).length 0

/-- A byte that the physical function reads in BAR2: as the stacks store it. Data still held in L2 it sees once `cwb` has written it back;
before that an earlier value may stand there, and of an encrypted line any byte (R226, R342). `n` is the free choice. -/
def State.readWindow (s : State) (n k : Nat) : Byte :=
  let old := s.hist.get [] k
  if s.backed.get none k = some old.length || old.isEmpty then storedByte s.mem s.seals k
  else if (s.seals.get none (lineOf k)).isSome then BitVec.ofNat 8 (Config.freeNat n)
  else
    let earlier := match s.backed.get none k with
      | some m => old.take (old.length - m)
      | none => old
    pick n (s.byte k) (s.byte k :: earlier)

end Sys2Proof.Machine
end

