-- ==== Sys2Proof/Safety.lean ====
section
/-! DEFINITION. The terms in which claims about the machine are stated: when an instruction acts, what the issue of one
instruction changes in any case, and what a result leaves in the registers. -/
namespace Sys2Proof.Machine

/-! ### When an instruction acts -/

/-- What an instruction of the executing split reads its registers from (R49). -/
def State.seen (s : State) (i : Instr) (f : Fmt) : State :=
  viewAt (s.issueCycle f) i f ((usesOf i).reads ++ f.guardReg) s

/-- The instruction meets none of the faults that come before its own effect: STALLCHK, TMPDEAD, a register outside the held
blocks, an instruction or a register that a helper body may not use (R41, R49, R93, R137, R138). -/
structure Passes (i : Instr) (f : Fmt) (s : State) : Prop where
  fields : i.fmt? = some f
  checks : preCheck (s.issueCycle f) i f (usesOf i) true s = none

/-- The instruction passes those checks and its guard lets it act (R29, R30). -/
structure Acts (i : Instr) (f : Fmt) (s : State) : Prop extends Passes i f s where
  guard : guardOn f (s.seen i f) = true

/-! ### What stays -/

/-- The registers of the executing team's own files: uniform, uniform predicate, affine, varying predicate; a varying
register or temporary at a lane, and its format tag (R7, R13, R41, R87). -/
def State.regS (s : State) (n : Nat) : Word := s.team.s.get 0 n
def State.regQ (s : State) (n : Nat) : Bool := s.team.q.get false n
def State.regA (s : State) (n : Nat) : Affine := s.team.a.get {} n
def State.regP (s : State) (n : Nat) : Mask := s.team.p.get 0 n
def State.regV (s : State) (n l : Nat) : Word :=
  if 248 ≤ n then s.split.run.temps.get 0 (1024 * (n - 248) + l) else s.team.v.get 0 (1024 * n + l)
def State.regTag (s : State) (n : Nat) : Tag :=
  if 248 ≤ n then s.split.run.tags.get .raw (n - 248) else s.split.tagSeen n (s.team.tags.get .raw n)

/-- Every register outside `ws` holds in `t` what it holds in `s`. -/
structure RegistersKept (ws : List Reg) (s t : State) : Prop where
  uniform : ∀ n, Reg.s n ∉ ws → t.regS n = s.regS n
  bit     : ∀ n, Reg.q n ∉ ws → t.regQ n = s.regQ n
  affine  : ∀ n, Reg.a n ∉ ws → t.regA n = s.regA n
  mask    : ∀ n, Reg.p n ∉ ws → t.regP n = s.regP n
  lane    : ∀ n l, l < 1024 → Reg.v n ∉ ws → t.regV n l = s.regV n l
  tag     : ∀ n, Reg.v n ∉ ws → t.regTag n = s.regTag n
  own     : ∀ n, n < 248 → Reg.v n ∉ ws → t.team.tags.get .raw n = s.team.tags.get .raw n      -- the team's own tag, in a wave split too

/-- Every register of the team's own files outside `ws` holds in `t` what it holds in `s`; temporaries apart, which do not
outlive their run (R41). -/
structure FilesKept (ws : List Reg) (s t : State) : Prop where
  uniform : ∀ n, Reg.s n ∉ ws → t.regS n = s.regS n
  bit     : ∀ n, Reg.q n ∉ ws → t.regQ n = s.regQ n
  affine  : ∀ n, Reg.a n ∉ ws → t.regA n = s.regA n
  mask    : ∀ n, Reg.p n ∉ ws → t.regP n = s.regP n
  lane    : ∀ n l, n < 248 → l < 1024 → Reg.v n ∉ ws → t.regV n l = s.regV n l
  tag     : ∀ n, n < 248 → Reg.v n ∉ ws → t.team.tags.get .raw n = s.team.tags.get .raw n

/-- The fields of a team that the issue of an instruction with a register result may change; all others are as before. -/
def Team.sameBut (t u : Team) : Prop :=
  u = { t with s := u.s, q := u.q, a := u.a, v := u.v, tags := u.tags, p := u.p, c := u.c, fresh := u.fresh,
               pending := u.pending, flights := u.flights, tctl := u.tctl, retired := u.retired }

/-- One instruction has issued (R14, R47, R256, R318, R323): of the registers only `ws` may have changed, and nothing else of
the machine but its counts and clocks: no memory, no system register, no other team. -/
structure Charged (f : Fmt) (ws : List Reg) (s t : State) : Prop where
  rest  : t = { s with team := t.team, split := t.split, cycle := t.cycle, nextId := t.nextId, free := t.free,
                       parts := t.parts, cores := t.cores }
  bytes : ∀ k, t.byte k = s.byte k
  team  : s.team.sameBut t.team
  count : t.team.retired = s.team.retired + 1
  tctl  : t.team.tctl = if s.atResumed then s.team.tctl &&& ~~~8 else s.team.tctl
  flags : ∀ k, k ≠ f.sig.toNat → t.team.c.get 0 k = s.team.c.get 0 k
  files : FilesKept ws s t
  parts : ∀ p, t.part p = if p = s.team.part then { s.part p with retired := (s.part p).retired + 1 } else s.part p
  cores : ∀ c, t.core c = { s.core c with budgets := (t.core c).budgets }

/-- The ranks that an instruction sweeps, of which `ranksNow` issue in a row and the rest as the budget lets them (R81, R256). -/
def ranksSwept (f : Fmt) (s : State) : Nat := max 1 (sweepLen f s)

/-- An instruction that ends no run has issued: its split stands past it, in the same run, one instruction longer (R40). -/
structure Stepped (f : Fmt) (ws : List Reg) (s t : State) : Prop extends Charged f ws s t where
  regs  : RegistersKept ws s t
  split : t.split = { s.split with pc := s.split.pc + BitVec.ofNat 64 f.len.bytes, run := t.split.run,
                                   last := s.issueCycle f + s.ranksNow (ranksSwept f s) - 1,
                                   owed := ranksSwept f s - s.ranksNow (ranksSwept f s), awaits := t.split.awaits }
  run   : t.split.run = { s.split.run with count := s.split.run.count + 1, temps := t.split.run.temps,
                                           tags := t.split.run.tags, files := t.split.run.files,
                                           written := t.split.run.written }

/-- A control transfer has issued: its run has ended, and its split stands at `pc` (R40). -/
structure Moved (f : Fmt) (ws : List Reg) (pc : Addr) (s t : State) : Prop extends Charged f ws s t where
  split : t.split = { s.split with pc := pc, run := {}, trailer := 0,
                                   last := s.issueCycle f + s.ranksNow (ranksSwept f s) - 1,
                                   owed := ranksSwept f s - s.ranksNow (ranksSwept f s), awaits := t.split.awaits }

/-! ### Results -/

/-- The active lanes of varying register `d` hold `val` and every other lane what it held (R51, R103). -/
def LanesHold (f : Fmt) (v s t : State) (val : Nat → Word) : Prop :=
  ∀ l, l < 1024 → t.regV f.d.toNat l = if l ∈ activeLanes f v then val l else s.regV f.d.toNat l

/-- The active lanes of varying predicate `d` hold `val` and every other lane what it held; p7 is no register (R7, R104). -/
def PredsHold (f : Fmt) (v s t : State) (val : Nat → Bool) : Prop :=
  f.d.toNat ≠ 7 → ∀ l, l < 1024 → (t.regP f.d.toNat).getLsbD l = if l ∈ activeLanes f v then val l else (s.regP f.d.toNat).getLsbD l

/-! ### Results on their way (R46, R49) -/

/-- The instruction has issued, and its result `xs` is on its way: one RESULT_WRITEBACK lands it. -/
structure Awaits (f : Fmt) (xs : List Landing) (s t : State) : Prop extends Stepped f [] s t where
  result : ∃ p, t.team.pending = s.team.pending ++ [p] ∧ p.value = some xs ∧ p.regs = xs.map regOf ∧ p.split = s.split.id ∧
    p.run = s.split.begun

/-- The instruction has issued, and registers `rs` await values that are not known yet. -/
structure Expects (f : Fmt) (rs : List Reg) (s t : State) : Prop extends Stepped f [] s t where
  result : ∃ p, t.team.pending = s.team.pending ++ [p] ∧ p.value = none ∧ p.regs = rs ∧ p.split = s.split.id ∧ p.run = s.split.begun

/-! ### Lanes (R108 to R114, R121 to R125) -/

/-- The result of a cross-lane instruction of variable latency, where it has one. -/
def laneResult (i : Instr) (f : Fmt) (v : State) : Option (List Landing) :=
  let d := f.d.toNat
  let act := activeLanes f v
  let lanes := fun (tag : Tag) (val : Nat → Word) => some [Landing.lanes d (some tag) (act.map fun l => (l, val l))]
  let first := match lowestLane v.team.n (v.split.mask &&& v.readP f.b.toNat) with | some l => v.readV f.a.toNat l | none => 0
  match i with
  | .vfirst _ => some [.word d first]
  | .vuni _ => match agree f v with | .ok x => some [.word d x] | .error _ => none
  | .vuniTry _ => match agree f v with | .ok x => some [.word d x, .bit f.b.toNat true] | .error _ => some [.bit f.b.toNat false]
  | .vaff _ => match progression f v with | some p => some [.pair d p, .bit f.b.toNat true] | none => some [.bit f.b.toNat false]
  | .shfl _ => lanes (copyTag f v) fun l => rawA f v (shflLane f v l)
  | .ishuf _ => lanes (copyTag f v) (gathered f v)
  | .vred _ => lanes (redTag f v f.x.qual.toNat) (reduceTile f v)
  | .scan _ => lanes (redTag f v f.x.qual.toNat) (scanLane f v)
  | .vote _ =>
    let p := v.readP f.a.toNat
    let mode := f.x.qual.toNat
    if f.cls = .var then
      (if mode = 3 then lanes .i32 fun l => ballot p (participants f v l)
       else some [.preds d (act.map fun l => (l, voteOf mode p (participants f v l)))])
    else
      let all := lanesOf v.team.n v.split.mask
      (if mode = 3 then some [.word d (ballot p (all.filter fun l => l / 32 == (rawB f v 0).toNat))] else some [.bit d (voteOf mode p all)])
  | _ => none

/-- Whether it writes registers of the whole team (R91). -/
def laneTeamWide (i : Instr) (f : Fmt) : Bool :=
  match i with
  | .vfirst _ | .vuni _ | .vuniTry _ | .vaff _ => true
  | .vote _ => f.cls != .var
  | _ => false

/-- The tags that its source must carry. -/
def laneSourceFits (i : Instr) (f : Fmt) (v : State) : Bool :=
  match i with
  | .vaff _ => tagIn v f.a.toNat [.i32, .raw]
  | .vred _ | .scan _ => tagsOk v (varA f) (redTags f.x.qual.toNat)
  | _ => true

/-- What a predicate instruction does to its sources A and B (R114). -/
def predicateOp : Instr → Option (Bool → Bool → Bool)
  | .pand _ => some fun a b => a && b
  | .por _ => some fun a b => a || b
  | .pxor _ => some fun a b => a != b
  | .pnot _ => some fun a _ => !a
  | .pmov _ => some fun a _ => a
  | _ => none

/-! ### Entries of the lane queues (R199, R200, R220) -/

/-- What an entry asks for, apart from its number and its place in team order. -/
structure Asks where
  team : Nat
  kind : EntryKind
  locs : List Nat
  data : List Byte := []
  va   : Addr
  lane : Nat
  dest : Option Dest := none
  acq  : Bool := false
  rel  : Bool := false
  sp   : Bool := false
  deriving DecidableEq, Repr

def Entry.asks (e : Entry) : Asks :=
  { team := e.team, kind := e.kind, locs := e.locs, data := e.data, va := e.va, lane := e.lane, dest := e.dest, acq := e.acq, rel := e.rel,
    sp := e.sp }

/-- The instruction has issued, and the entries `es` have joined the queues, in this order; no register and no byte of memory has
changed yet. -/
structure Entered (f : Fmt) (es : List Asks) (s t : State) : Prop where
  rest    : t = { s with team := t.team, split := t.split, cycle := t.cycle, nextId := t.nextId, free := t.free, parts := t.parts,
                         cores := t.cores, entries := t.entries, homes := t.homes, tlb := t.tlb, blocks := t.blocks }
  bytes   : ∀ k, t.byte k = s.byte k
  regs    : RegistersKept [] s t
  team    : t.team = { s.team with c := t.team.c, pending := t.team.pending, flights := t.team.flights, tctl := t.team.tctl,
                                   retired := t.team.retired, splits := t.team.splits }
  pc      : t.split.pc = s.split.pc + BitVec.ofNat 64 f.len.bytes
  count   : t.split.run.count = s.split.run.count + 1
  entries : t.entries.map Entry.asks = s.entries.map Entry.asks ++ es

/-- Nothing holds the access back: every location is in device memory or in a page that the device owns, and of the colours that
it meets the team holds every one (R176, R184, R301). -/
def Unhindered (f : Fmt) (v : State) (ls : List Loc) : Prop :=
  (∀ x ∈ ls, x.hosts = [] ∧ x.drop = none) ∧ (spaceOf f = .g → v.newColours ls = [])

/-- The split stands at its instruction, parked, with the run that it had; no register and no counted instruction has changed. -/
structure ParkedAt (p : Park) (s t : State) : Prop where
  park    : t.split.park = p
  pc      : t.split.pc = s.split.pc
  run     : t.split.run = s.split.run
  regs    : RegistersKept [] s t
  retired : t.team.retired = s.team.retired

/-- The instruction has issued, and the machine has done `op` from there: `exec` answers that next state, the counter of free values
apart. -/
def Performs (i : Instr) (f : Fmt) (s : State) (op : State → State) : Prop :=
  ∃ u n, Stepped f [] s u ∧ exec i s = .next { op u with free := n }

/-- The same with a result on its way. -/
def PerformsAwaiting (i : Instr) (f : Fmt) (s : State) (xs : List Landing) (op : State → State) : Prop :=
  ∃ u n, Awaits f xs s u ∧ exec i s = .next { op u with free := n }

/-- The forms of the memory instructions: what each asks of its page, its bytes, and whether an error response drops a lane and
whether it meets colours (R220 to R222, R229, R230). -/
structure AccessForm where
  acc     : Access
  size    : Nat
  quiet   : Bool
  colours : Bool
  lanes   : List (Nat × Addr)

/-- The access of a memory instruction, once its own first checks have passed: FEWAIT, UDIV, TAGMIS. -/
def accessForm (i : Instr) (f : Fmt) (v : State) : Option AccessForm :=
  let n := memSize f.x.ty
  let local? := spaceOf f != .g && spaceOf f != .pv
  match i with
  | .ld _ => if !teamWide f v && addrTags f v then some ⟨.load, n, false, true, accessLanes f v⟩ else none
  | .st _ => if addrTags f v && dataTags f v then some ⟨.store, n, true, true, accessLanes f v⟩ else none
  | .ldfe _ => if local? && !teamWide f v && addrTags f v then some ⟨.load, n, false, false, accessLanes f v⟩ else none
  | .stfe _ => if local? && addrTags f v && dataTags f v then some ⟨.store, n, true, false, accessLanes f v⟩ else none
  | .atom _ =>
    if !teamWide f v && addrTags f v && atomTags f v then
      some ⟨.atomic, memSize (atomTy f), false, true, accessLanes f.registerOffset v⟩ else none
  | .red _ =>
    if addrTags f v && atomTags f v then some ⟨.atomic, memSize (atomTy f), true, true, accessLanes f.registerOffset v⟩ else none
  | _ => none

/-- What each lane of the access, or each word of a private one, asks of the order machine. -/
def accessAsks (i : Instr) (f : Fmt) (v : State) (x : Loc) : Asks :=
  let n := memSize f.x.ty
  let ty := atomTy f
  let op := f.imm.toNat % 16
  let base : Asks := { team := v.team.id, kind := .load, locs := x.keys, va := x.va, lane := x.lane, sp := spaceOf f = .sp }
  match i with
  | .ld _ => { base with acq := f.x.rnd = .rz, dest := some (x.destOf (destOf f x.lane)) }
  | .ldfe _ => { base with kind := .ldfe (f.x.rnd = .rz), acq := true, dest := some (destOf f x.lane) }
  | .st _ => { base with kind := .store, rel := f.x.rnd = .rpi, data := x.bytesOf (leBytes n (dataBits f v f.d x.lane)) }
  | .stfe _ => { base with kind := .stfe, rel := true, data := leBytes n (dataBits f v f.d x.lane) }
  | .atom _ =>
    { base with kind := .atomic op ty (atomData f v x.lane) true, acq := f.x.rnd = .rz ∨ f.x.rnd = .rmi, rel := f.x.rnd = .rpi ∨ f.x.rnd = .rmi,
                data := if op = 7 then leBytes (memSize ty) (dataBits f v f.d x.lane) else [],
                dest := some { destOf f x.lane with bits := 8 * memSize ty, tag := some (if ty = .f32 then .f32 else .i32) } }
  | _ =>
    { base with kind := .atomic op ty (atomData f v x.lane) false, rel := f.x.rnd = .rpi ∨ f.x.rnd = .rmi,
                data := if op = 7 then leBytes (memSize ty) (dataBits f v f.d x.lane) else [] }

/-! ### Commands and records (R237, R242, R249, R292) -/

/-- The parts of a record, numbered from `i`: nothing stops any of them, no page with the host, and their locations are `ls` (R173). -/
def PartsReady (v : State) : Nat → List (Addr × Nat) → List Loc → Prop
  | _, [], ls => ls = []
  | i, p :: r, ls =>
    ∃ xs more, v.checkLanes .g .load p.2 false false [(0, p.1)] = .ok xs ∧ (∀ x ∈ xs, x.hosts = []) ∧ PartsReady v (i + 1) r more ∧
      ls = (xs.map fun (x : Loc) => { x with lane := i }) ++ more

/-- An access of a card or shape record that nothing stops: canonical, aligned to 64 bytes, each part of it checked, no page with the
host, every colour that it meets held. -/
structure RecordReady (v : State) (va : Addr) (n : Nat) (ls : List Loc) : Prop where
  canon   : canonical va = true
  aligned : va.toNat % 64 = 0
  fresh   : v.split.gated = none
  parts   : PartsReady v 0 (splitPage va n) ls
  colours : ∀ i, i < n → v.colourOf v.team.ctx (va + BitVec.ofNat 64 i) = 0 ∨
    v.colourOf v.team.ctx (va + BitVec.ofNat 64 i) ∈ v.team.held.map Prod.fst

/-- The instruction has issued, and its command `c` stands at the end of the device's commands, in its counter and under its flag; of the
registers only `ws` may have changed, and no byte of memory. -/
structure Queued (f : Fmt) (ws : List Reg) (c : Command) (s t : State) : Prop where
  rest     : t = { s with team := t.team, split := t.split, cycle := t.cycle, nextId := t.nextId, free := t.free, parts := t.parts,
                          cores := t.cores, commands := t.commands, blocks := t.blocks }
  bytes    : ∀ k, t.byte k = s.byte k
  regs     : RegistersKept ws s t
  pc       : t.split.pc = s.split.pc + BitVec.ofNat 64 f.len.bytes
  count    : t.split.run.count = s.split.run.count + 1
  commands : t.commands = s.commands ++ [c]
  counts   : c.counts = [s.owner.id]
  flights  : c.flights = [(s.team.id, s.nextId)]
  issued   : c.team = s.owner.id ∧ c.core = s.team.core ∧ c.block = s.team.block ∧ c.complete = false ∧ c.elems = [] ∧ c.olds = [] ∧
    c.held = s.owner.held.map Prod.fst

/-- The split's own number is no other split's of its team. -/
def Sole (s : State) : Prop := s.split.id ≠ 0 ∧ ∀ x ∈ s.team.splits, x.id ≠ s.split.id

/-! ### The host (R325, R339, R351) -/

/-- The writes to the device's register space and the commands to it, which the device ignores before it is ready. -/
def isHostCommand : Instr → Bool
  | .registerWrite .. | .violationLogClear _ | .rqDoor .. | .ringReset .. | .edgeTableWrite .. | .contextDescriptorWrite .. | .claimWrite ..
  | .forcedClaim _ | .partitionEntryWrite .. | .keyCreate _ | .keyRetire _ | .frost _ | .continueFrost | .thaw _
  | .attestationRequest .. | .invalidate .. | .driverResume .. | .driverRefuse .. | .kill _ | .preemptRequest _ | .debugResume _
  | .replayStop .. => true
  | _ => false

/-- A write that is a command where the hypervisor makes it takes effect: the hypervisor's unless the device is frozen, a driver's on its own
partition (R339, R345). -/
def obeyed (o : Owner) (part : Nat) (s : State) : Prop :=
  match o with
  | .hypervisor => s.frozen = .no
  | .driver _ => mayReach o part = true

/-- What such a write leaves that does not: status 2 for the hypervisor's, nothing for a driver's. -/
def turnedAway (o : Owner) (s : State) : State :=
  match o with
  | .hypervisor => (s.unfocus.answer 2).unstall
  | .driver _ => s.unfocus.unstall

/-- No watchpoint is enabled. -/
def Unwatched (s : State) : Prop := ∀ e ∈ s.parts, ∀ i, (e.2.wps.get {} i).en = false

/-- What a register of the host interface holds in `t` after a write of it in `s`. -/
def RegisterHolds (s t : State) : HostReg → Prop
  | .region p i v => i < 64 → (t.part p).regions.get 0 i = v
  | .rqBase p n v => (t.ring p n).base = v &&& ~~~127
  | .rqCtl p n en l cx => (t.ring p n).en = en ∧ (t.ring p n).ctx = cx.toNat ∧
      (t.ring p n).lsize = if 2 ≤ l.toNat ∧ l.toNat ≤ 16 then l.toNat else (s.ring p n).lsize
  | .rqFree p n v => (t.ring p n).free = v &&& ~~~7
  | .rqErr p n v => (t.ring p n).err = v
  | .l2ways p v =>
    let new := { (s.part p).entry with l2ways := v }
    if s.unfocus.entryClash p new then t.status = 2 ∧ t.part p = s.part p else t.status = 0 ∧ (t.part p).entry = new
  | .arbmode p e => (t.part p).entry.edf = e
  | .refill cx core v => ((t.core core).budgets.get {} cx) = { ((s.core core).budgets.get {} cx) with refill := v }
  | .dbgctl p v => (t.part p).dbgctl = v &&& 7
  | .wpBase p i v => (t.part p).wps.get {} i = { (s.part p).wps.get {} i with base := v }
  | .wpCtl p i v => (t.part p).wps.get {} i =
      { base := ((s.part p).wps.get {} i).base, mask := v.extractLsb' 0 16, ctx := (v.extractLsb' 16 10).toNat, en := v.getLsbD 26 }
  | .watchQueue p v => (t.part p).wqaddr = v ∧ (t.part p).wqcount = 0 ∧ (t.part p).wqover = 0
  | .violationLog p v => (t.part p).violaddr = v ∧ (t.part p).viols = (s.part p).viols
  | .tofs cx v => (t.ctx cx).tofs = v
  | .tscale cx v => (t.ctx cx).tscale = v.toNat % 2 ^ 25 ∧ (t.ctx cx).tsteal = v.getLsbD 25
  | .faultTail cx v => (t.ctx cx).fqtail = v.toNat
  | .sampleInterval core sched v buf n => 2 ^ 10 ≤ v.toNat → v.toNat ≤ 2 ^ 24 → (t.unit core sched).interval = v.toNat ∧
      (t.unit core sched).buffer = buf ∧ (t.unit core sched).slots = n
  | .counterEvent core n e => (t.core core).events.get 0 n = e
  | .replayRegion p b n => (t.part p).recBase = b ∧ (t.part p).recSize = n
  | .teamState x w => ∀ u, s.unfocus.unstall.findTeam x = some u → debugStopped u = true → t.findTeam x = some (putField w u)
  | .deviceNumber v => t.devno = v.toNat
  | .other .. => t = s.unfocus.unstall

/-! ### Integer results (R51 to R59) -/

/-- The result of R51: the exact value modulo 2^w, or with clamp 11 confined to the type's range. -/
def confined {w : Nat} (f : Fmt) (exact : Int) (wrapped : BitVec w) : BitVec w :=
  let u := f.x.ty.unsigned
  if f.x.clamp = .sat then
    (if exact < loOf w u then BitVec.ofInt w (loOf w u) else if hiOf w u < exact then BitVec.ofInt w (hiOf w u) else wrapped)
  else wrapped

/-- The results that have a 32-bit and a 64-bit width (R52, R53, R55, R57), from sources A and B. -/
def plainValue {w : Nat} (i : Instr) (a b : BitVec w) (count : Word) : Option (BitVec w) :=
  match i with
  | .add f => some (confined f (valOf f.x.ty.unsigned a + valOf f.x.ty.unsigned b) (a + b))
  | .sub f => some (confined f (valOf f.x.ty.unsigned a - valOf f.x.ty.unsigned b) (a - b))
  | .min f => some (if valOf f.x.ty.unsigned a ≤ valOf f.x.ty.unsigned b then a else b)
  | .max f => some (if valOf f.x.ty.unsigned a ≤ valOf f.x.ty.unsigned b then b else a)
  | .and _ => some (a &&& b)
  | .or _ => some (a ||| b)
  | .xor _ => some (a ^^^ b)
  | .not _ => some (~~~a)
  | .shl _ => some (a <<< count.toNat)
  | .shr _ => some (a >>> count.toNat)
  | .sar _ => some (a.sshiftRight count.toNat)
  | .mov _ => some a
  | _ => none

/-- The length m of the bit field at position p (R54): 0 from position 32 on, and never past bit 31. -/
def fieldWidth (b : Word) : Nat := min (b.extractLsb' 8 8).toNat (32 - (b.extractLsb' 0 8).toNat)

/-- The results of the instructions of 32 bits only (R52, R54, R59), from sources A, B and C. -/
def wordValue (i : Instr) (a b c : Word) : Option Word :=
  let p := (b.extractLsb' 0 8).toNat
  let m := fieldWidth b
  match i with
  | .mul f => some (confined f (valOf f.x.ty.unsigned a * valOf f.x.ty.unsigned b) (a * b))
  | .mad f => some (confined f (valOf f.x.ty.unsigned a * valOf f.x.ty.unsigned b + valOf f.x.ty.unsigned c) (a * b + c))
  | .mulhi f =>
    some (if f.x.ty.unsigned then (a.zeroExtend 64 * b.zeroExtend 64).extractLsb' 32 32
          else (a.signExtend 64 * b.signExtend 64).extractLsb' 32 32)
  | .popc _ => some (BitVec.ofNat 32 ((List.range 32).countP a.getLsbD))
  | .clz _ => some a.clz
  | .brev _ => some a.reverse
  | .bfe f =>
    some (if m = 0 then 0
          else if f.x.ty.unsigned then (a <<< (32 - p - m)) >>> (32 - m) else (a <<< (32 - p - m)).sshiftRight (32 - m))
  | .bfi _ =>
    let mask : Word := ((1 <<< m) - 1) <<< p
    some ((c &&& ~~~mask) ||| ((a <<< p) &&& mask))
  | .idiv f => some (if b = 0 then BitVec.allOnes 32 else if f.x.ty.unsigned then a / b else a.sdiv b)
  | .irem f => some (if b = 0 then a else if f.x.ty.unsigned then a % b else a.srem b)
  | _ => none

/-- Whether an integer instruction takes the modifiers of R32 on its sources; the bitwise, shift, bit-field, `sel` and `mov`
instructions read them as they stand. -/
def takesModifiers : Instr → Bool
  | .add _ | .sub _ | .mul _ | .mulhi _ | .mad _ | .min _ | .max _ | .idiv _ | .irem _ => true
  | _ => false

/-- The predicate that `sel` selects by, at a lane (R55, R103). -/
def selects (f : Fmt) (v : State) (l : Nat) : Bool :=
  if f.cls = .var then (v.readP (f.x.c.toNat % 8)).getLsbD l else v.readQ (f.x.c.toNat % 8)

/-- The 32-bit result of an integer instruction at a lane (R52 to R55, R57, R59). -/
def integerResult (i : Instr) (f : Fmt) (v : State) (l : Nat) : Option Word :=
  let m := takesModifiers i
  let a := if m then intA f v l else rawA f v l
  let b := if m then intB f v l else rawB f v l
  let c := if m then intC f v l else rawC f v l
  match i with
  | .sel _ => some (if selects f v l then a else b)
  | .movi _ => some f.imm
  | _ => (plainValue i a b (rawB f v l)).or (wordValue i a b c)

/-- The 64-bit result of an integer instruction of the uniform class (R52, R53, R55, R57): an immediate source is sign-extended
for i64 and zero-extended for z64 (R35). -/
def wideResult (i : Instr) (f : Fmt) (v : State) : Option Addr :=
  let m := takesModifiers i
  match i with
  | .sel _ => some (if selects f v 0 then rawA64 f v else rawB64 f v)
  | .movi _ => some (if f.x.ty.unsigned then f.imm.zeroExtend 64 else f.imm.signExtend 64)
  | _ => plainValue i (if m then intA64 f v else rawA64 f v) (if m then intB64 f v else rawB64 f v) (rawB f v 0)

/-- The tags that the varying sources of an integer instruction must carry (R88): any for the bitwise instructions and `mov`,
else `i32`; `bfi` and `mad` have a source C. -/
def integerSourcesFit (i : Instr) (f : Fmt) (v : State) : Bool :=
  match i with
  | .and _ | .or _ | .xor _ | .not _ | .mov _ | .movi _ => true
  | .popc _ | .clz _ | .brev _ => tagsOk v (varA f) [.i32]
  | .mad _ | .bfi _ => tagsOk v (varA f ++ varB f ++ varC f) [.i32]
  | _ => tagsOk v (varA f ++ varB f) [.i32]

/-- The tag that an integer instruction writes (R53, R57, R88): a copy keeps its source's tag, the bitwise instructions write
`i32` only where every varying source carries it, and `movi.f32` writes `f32`. -/
def integerTag (i : Instr) (f : Fmt) (v : State) : Tag :=
  match i with
  | .and _ | .or _ | .xor _ => if (varA f ++ varB f).all fun r => v.tagOf r == .i32 then .i32 else .raw
  | .not _ => if (varA f).all fun r => v.tagOf r == .i32 then .i32 else .raw
  | .mov _ => if f.ka then .i32 else v.tagOf f.a.toNat
  | .movi _ => if f.x.ty = .f32 then .f32 else .i32
  | _ => .i32

/-- The condition of an integer compare (R56). -/
def integerCond : Instr → Option (Int → Int → Bool)
  | .cmpEq _ => some fun a b => a = b
  | .cmpNe _ => some fun a b => a ≠ b
  | .cmpLt _ => some fun a b => a < b
  | .cmpLe _ => some fun a b => a ≤ b
  | .cmpGt _ => some fun a b => a > b
  | .cmpGe _ => some fun a b => a ≥ b
  | _ => none

/-! ### Affine results (R89, R90) -/

/-- What an affine instruction does to a lane's values. -/
def affineOp : Instr → Option (Word → Word → Word)
  | .add _ => some fun a b => a + b
  | .sub _ => some fun a b => a - b
  | .mul _ => some fun a b => a * b
  | .shl _ => some fun a b => a <<< b.toNat
  | _ => none

/-- Whether source B of the affine form is uniform or an immediate: a pair of stride 0. -/
def takesUniformB : Instr → Bool
  | .mul _ | .shl _ => true
  | _ => false

/-- The exact result from the signed lane values lies in the signed range (R90). -/
def affineFits (i : Instr) (a b : Word) : Prop :=
  match i with
  | .add _ => -2 ^ 31 ≤ a.toInt + b.toInt ∧ a.toInt + b.toInt < 2 ^ 31
  | .sub _ => -2 ^ 31 ≤ a.toInt - b.toInt ∧ a.toInt - b.toInt < 2 ^ 31
  | .mul _ => -2 ^ 31 ≤ a.toInt * b.toInt ∧ a.toInt * b.toInt < 2 ^ 31
  | .shl _ => -2 ^ 31 ≤ a.toInt * 2 ^ b.toNat ∧ a.toInt * 2 ^ b.toNat < 2 ^ 31
  | _ => True

/-! ### Float and format results (R61 to R65, R266 to R271) -/

/-- The exact value of a float operation before scale, rounding and clamp (R61, R62). -/
def exactFloat (i : Instr) (f : Fmt) (a b c : FVal) : Option FVal :=
  match i with
  | .fadd _ => some (a.add f.x.rnd b)
  | .fsub _ => some (a.add f.x.rnd b.neg)
  | .fmul _ => some (a.mul b)
  | .ffma _ => some ((a.mul b).add f.x.rnd c)
  | .fmin _ => some (a.minNum b)
  | .fmax _ => some (a.maxNum b)
  | .rcp _ => some (fRcp a)
  | .sqrt _ => some (fSqrt a)
  | _ => none

/-- The 32-bit result of a float or format instruction at a lane. -/
def floatResult (i : Instr) (f : Fmt) (v : State) (l : Nat) : Option Word :=
  match i with
  | .rsqrt _ => some ((rsqrtVal (fltA f v l)).finish f.x (Config.rsqrtBits (fltA f v l) f.x.scale))
  | .exp2 _ => some ((exp2Val (fltA f v l)).finish f.x (Config.exp2Bits (fltA f v l) f.x.scale))
  | .log2 _ => some ((log2Val (fltA f v l)).finish f.x (Config.log2Bits (fltA f v l) f.x.scale))
  | .sin _ => some ((trigVal false (fltA f v l)).finish f.x (Config.sinBits (fltA f v l) f.x.scale))
  | .cos _ => some ((trigVal true (fltA f v l)).finish f.x (Config.cosBits (fltA f v l) f.x.scale))
  | .cvt _ => if f.cls = .var then some (cvtLane f v l) else if f.cvtTypes.1.is64 then none else some ((cvtUniform f v).extractLsb' 0 32)
  | .pack4 _ => some (setElem 4 ((rawB f v l).toNat % 8) (v.readV f.d.toNat l) (pack4 (scaleByte f v l) f.x.rnd (f32Of (fltA f v l))))
  | .unpk4 _ => some (unpk4 (scaleByte f v l) (elemOf 4 ((rawB f v l).toNat % 8) (rawA f v l)))
  | .mksc _ => some (setElem 8 ((rawB f v l).toNat % 4) (v.readV f.d.toNat l) (mkScale f.x.qual.toNat (rawA f v l)))
  | .tagrd _ => some (BitVec.ofNat 32 (tagCode (v.tagOf f.a.toNat)))
  | .tagset _ => some (v.readV f.a.toNat l)
  | _ => (exactFloat i f (f32Of (fltA f v l)) (f32Of (fltB f v l)) (f32Of (fltC f v l))).map (finishF32 f.x)

/-- The tags that the varying sources of a float or format instruction must carry (R88, R104, R266 to R271). -/
def floatSourcesFit (i : Instr) (f : Fmt) (v : State) : Bool :=
  let scale := tagsOk v (varC f) [.i32, .raw, .sc8x4]
  match i with
  | .ffma _ => tagsOk v (varA f ++ varB f ++ varC f) [.f32]
  | .rcp _ | .rsqrt _ | .sqrt _ | .exp2 _ | .log2 _ | .sin _ | .cos _ => tagsOk v (varA f) [.f32]
  | .cvt _ =>
    let (dt, st) := f.cvtTypes
    f.cls != .var || (tagsOk v (varA f) (cvtSrcTags dt st) && (dt.isScalar || tagIn v f.d.toNat [packTag dt, .raw]))
  | .pack4 _ => tagIn v f.a.toNat [.f32, .raw] && tagIn v f.d.toNat [.b4x8, .raw] && scale
  | .unpk4 _ => tagIn v f.a.toNat [.b4x8, .raw] && scale
  | .mksc _ => tagIn v f.a.toNat [.f32, .raw] && tagIn v f.d.toNat [.sc8x4, .raw]
  | .tagrd _ | .tagset _ => true
  | _ => tagsOk v (varA f ++ varB f) [.f32]

/-- The tag that a float or format instruction writes. -/
def floatTag (i : Instr) (f : Fmt) : Tag :=
  match i with
  | .cvt _ => packTag f.cvtTypes.1
  | .pack4 _ => .b4x8
  | .mksc _ => .sc8x4
  | .tagrd _ => .i32
  | .tagset _ => codeTag f.b.toNat
  | _ => .f32

/-- The condition of a float compare (R63), from whether an operand is NaN and the order of the two. -/
def floatCond : Instr → Option (Bool → Ordering → Bool)
  | .fcmpEq _ => some fun nan o => !nan && o == .eq
  | .fcmpNe _ => some fun nan o => nan || o != .eq
  | .fcmpLt _ => some fun nan o => !nan && o == .lt
  | .fcmpLe _ => some fun nan o => !nan && o != .gt
  | .fcmpGt _ => some fun nan o => !nan && o == .gt
  | .fcmpGe _ => some fun nan o => !nan && o != .lt
  | .fcmpUn _ => some fun nan _ => nan
  | _ => none

/-! ### Frames of calls (R19, R68) -/

/-- Where a call goes. -/
def callTarget (i : Instr) (f : Fmt) (v : State) : Addr :=
  match i with
  | .calli _ => v.readD f.a.toNat
  | _ => pcRel v.split.pc f.imm

/-- The address of the frame record that a call stores. -/
def frameAddr (s : State) : Addr := s.team.fsbase + BitVec.ofNat 64 (16 * s.team.fdepth)

/-- The 16 bytes of a frame record: the return address, the depth, zeros. -/
def frameRecord (ret depth : Nat) : List Byte := leBytes 8 ret ++ leBytes 2 depth ++ leBytes 6 0

/-! ### Splits and joins (R96 to R101, R116 to R120) -/

/-- The executing team's number is a team's, and no other team has it. -/
def Single (s : State) : Prop := s.team.id ≠ 0 ∧ ∀ t ∈ s.others, t.id ≠ s.team.id

/-- The bytes of an access, and the key identifier that it goes under (R297). -/
structure Place where
  bytes : List Nat
  key   : Nat
  deriving DecidableEq, Repr

/-- What a byte outside a write holds after it: the rest of a line that other keys have encrypted holds what the writing ones decrypt it to
(R337). -/
def State.kept (s : State) (p : Place) (k : Nat) : Byte :=
  if lineOf k ∈ p.bytes.map lineOf then s.byteAs p.key k else s.byte k

/-- The device's own access to the executing team's private memory goes on at a place: translated, checked, no page with the host (R69, R99,
R301). -/
def Reaches (v : State) (acc : Access) (a : Addr × Nat) (p : Place) : Prop :=
  ∃ ps, v.pieces acc (splitPage a.1 a.2) = .ok (p.bytes, ps) ∧ (ps.head?.map Phys.kid).getD 0 = p.key ∧
    ∀ h ∈ ps.filterMap Phys.host, v.owns h = true

/-- The bytes of a place hold `bs`, and every other byte of memory what the write keeps of it. -/
def BytesStored (p : Place) (bs : List Byte) (s t : State) : Prop :=
  (∀ k, k ∉ p.bytes → t.byte k = s.kept p k) ∧ (p.bytes.Nodup → t.bytes p.bytes = bs)

/-- The device reaches every slot of the executing team's deferred list, slot `i` at the place `ps i`; a helper group's list stands in the
pool (R99, R137). -/
def ListReached (v : State) (acc : Access) (ps : Nat → Place) : Prop :=
  v.inHelper = false → ∀ i, i < v.team.dflen → Reaches v acc (deferredSlot v.team i) (ps i)

/-- The executing team's deferred list. -/
def deferredList (v : State) (ps : Nat → Place) : List Deferred :=
  if v.inHelper then v.team.deferred else (List.range v.team.dflen).map fun i => deferredOf (v.bytesAs (ps i).key (ps i).bytes)

/-- Of the bytes of memory only those in lines of the deferred list's slots may have changed. -/
def OutsideListKept (ps : Nat → Place) (s t : State) : Prop :=
  ∀ k, (∀ i, i < s.team.dflen → lineOf k ∉ (ps i).bytes.map lineOf) → t.byte k = s.byte k

/-- The lanes with which the executing split comes to its join, where no side of it is left to run there: its own, and those that its newest
deferred entry has gathered for this join; a second entry for the same join is not covered (R99, R117). -/
def comesWith (s : State) (l : List Deferred) : Option Mask :=
  match l.reverse.filter fun d => d.split == s.split.entry with
  | [] => some s.split.mask
  | d :: r =>
    if d.addr ≠ s.split.pc then some s.split.mask
    else if d.pc.isNone ∧ (∀ y ∈ r.head?, y.addr ≠ s.split.pc) then some (s.split.mask ||| d.arrived) else none

/-- The deferred list and every byte of memory are as before. -/
def ListKept (s t : State) : Prop :=
  (if s.inHelper then t.team.deferred = s.team.deferred else t.team.dflen = s.team.dflen) ∧ ∀ k, t.byte k = s.byte k

/-- Entry `i` of the deferred list is `d`, the last or the next one; nothing else of the list and no other byte of memory has changed. -/
def ListStored (i : Nat) (p : Place) (d : Deferred) (s t : State) : Prop :=
  if s.inHelper then
    t.team.deferred = s.team.deferred.take i ++ [d] ++ s.team.deferred.drop (i + 1) ∧ ∀ k, t.byte k = s.byte k
  else t.team.dflen = max s.team.dflen (i + 1) ∧ BytesStored p (deferredBytes d) s t

/-- Whether a divergence that joins at `jn` finds a free split entry, and a record: the split's own, or a free one (R97, R99). -/
def roomToSplit (s : State) (jn : Addr) : Bool :=
  decide (entriesUsed s < splitLimit s) &&
    (recordJoin s.team s.split.link == some jn || (freeRecord s).isSome)

/-- What a divergence leaves: the taken lanes at `target`, the others at `fall`, to join at `jn` (R97, R99, R116). -/
structure Divides (taken : Mask) (target jn fall : Addr) (s t : State) : Prop where
  files  : FilesKept [] s t
  run    : t.split.run = {}
  noneTaken : taken = 0 → t.split.pc = fall ∧ t.split.mask = s.split.mask ∧ t.team.splits = s.team.splits
  allTaken : taken ≠ 0 → s.split.mask &&& ~~~taken = 0 →
    t.split.pc = target ∧ t.split.mask = s.split.mask ∧ t.team.splits = s.team.splits
  someTaken : taken ≠ 0 → s.split.mask &&& ~~~taken ≠ 0 → roomToSplit s jn = true →
    t.split.pc = fall ∧ t.split.mask = s.split.mask &&& ~~~taken ∧ (∀ y ∈ s.team.splits, y ∈ t.team.splits) ∧
    ∃ k j x, t.split.link = some k ∧ t.team.joins.get none k = some j ∧ j.addr = jn ∧
      x ∈ t.team.splits ∧ x.mask = taken ∧ x.pc = target ∧ x.link = some k ∧ x.run = {} ∧
      (recordJoin s.team s.split.link ≠ some jn → j.expects = s.split.mask ∧ j.arrived = 0 ∧ j.outer = s.split.link)
  deferred : taken ≠ 0 → s.split.mask &&& ~~~taken ≠ 0 → roomToSplit s jn = false →
    t.split.pc = target ∧ t.split.mask = taken ∧ t.team.splits = s.team.splits

/-- The entry of the deferred list that a serialised divergence leaves (R99). -/
def deferredSide (taken : Mask) (jn fall : Addr) (s : State) : Deferred :=
  { pc := some fall, mask := s.split.mask &&& ~~~taken, addr := jn, arrived := 0, split := s.split.entry }

end Sys2Proof.Machine
end

