-- ==== Sys2Proof/Certificates/Slice0/Obligations.lean ====
section
/-! DEFINITION. The statements for the provers, one definition each. -/
open Sys2Proof Sys2Proof.Machine

/-! ### Integer instructions -/

/-- R51 to R55, R57, R59, R88, R91: an integer instruction of the varying class writes its result to the active lanes and the
result's tag to the register; nothing else changes. -/
def Obligations.IntegerLanes : Prop :=
  ∀ (i : Instr) (f : Fmt) (s : State) (val : Nat → Word),
    Acts i f s → f.cls = .var → f.x.ty.is64 = false → integerSourcesFit i f (s.seen i f) = true →
    (∀ l, integerResult i f (s.seen i f) l = some (val l)) →
    ∃ t, exec i s = .next t ∧ Stepped f [.v f.d.toNat] s t ∧ LanesHold f (s.seen i f) s t val ∧
      t.regTag f.d.toNat = integerTag i f (s.seen i f)

/-- R51 to R55, R57, R59, R91: an integer instruction of the uniform class and 32 bits writes its uniform register where the
split's mask is the live mask, and raises UDIV where it is not. -/
def Obligations.IntegerWord : Prop :=
  ∀ (i : Instr) (f : Fmt) (s : State) (w : Word),
    Acts i f s → f.cls = .uni → f.x.ty.is64 = false → integerResult i f (s.seen i f) 0 = some w →
    ((s.seen i f).diverged = false →
      ∃ t, exec i s = .next t ∧ Stepped f [.s f.d.toNat] s t ∧ t.regS f.d.toNat = w) ∧
    ((s.seen i f).diverged = true → exec i s = .next (s.takeFault (wholeFlt .UDIV)))

/-- R14, R51 to R53, R55, R57, R91: an integer instruction of the uniform class and 64 bits writes both halves of its pair where the split's
mask is the live mask, and raises UDIV where it is not. -/
def Obligations.IntegerPair : Prop :=
  ∀ (i : Instr) (f : Fmt) (s : State) (w : Addr),
    Acts i f s → f.cls = .uni → f.x.ty.is64 = true → wideResult i f (s.seen i f) = some w →
    ((s.seen i f).diverged = false →
      ∃ t, exec i s = .next t ∧ Stepped f [.s f.d.toNat, .s (f.d.toNat + 1)] s t ∧
        t.regS (f.d.toNat + 1) ++ t.regS f.d.toNat = w) ∧
    ((s.seen i f).diverged = true → exec i s = .next (s.takeFault (wholeFlt .UDIV)))

/-- R56, R104: an integer compare writes the truth of its condition on the exact values of A and B: to every active lane of a
varying predicate, or to a uniform predicate; a write to p7 or q7 is discarded (R7). -/
def Obligations.IntegerCompare : Prop :=
  ∀ (i : Instr) (f : Fmt) (s : State) (c : Int → Int → Bool), Acts i f s → integerCond i = some c →
    let v := s.seen i f
    let u := f.x.ty.unsigned
    (f.cls = .var → f.x.ty.is64 = false → tagsOk v (varA f ++ varB f) [.i32] = true →
      ∃ t, exec i s = .next t ∧ Stepped f [.p f.d.toNat] s t ∧
        PredsHold f v s t fun l => c (valOf u (intA f v l)) (valOf u (intB f v l))) ∧
    (f.cls = .uni → v.diverged = false →
      ∃ t, exec i s = .next t ∧ Stepped f [.q f.d.toNat] s t ∧
        (f.d.toNat ≠ 7 → t.regQ f.d.toNat =
          if f.x.ty.is64 then c (valOf u (intA64 f v)) (valOf u (intB64 f v)) else c (valOf u (intA f v 0)) (valOf u (intB f v 0)))) ∧
    (f.cls = .uni → v.diverged = true → exec i s = .next (s.takeFault (wholeFlt .UDIV)))

/-- R89, R90: "lane l of the result equals the same operation applied to lane l's values, modulo 2^32": the affine forms of `add`,
`sub`, `mul` and `shl`, unchecked, or checked with every exact result in range; the checked form raises AFFOVF, and writes nothing, where a
lane's exact result from the signed lane values is outside the signed range. In a split that is not the whole team (R91) each form raises
UDIV. -/
def Obligations.AffineForms : Prop :=
  (∀ (i : Instr) (f : Fmt) (s : State) (g : Word → Word → Word), Acts i f s → f.cls = .aff → affineOp i = some g →
     let v := s.seen i f
     v.diverged = false → (f.x.qual = 1 → ∀ l, l < v.team.n → affineFits i ((pairA f v).at l) ((pairB f v).at l)) →
     (takesUniformB i = true → (pairB f v).stride = 0) →
     ∃ t, exec i s = .next t ∧ Stepped f [.a f.d.toNat] s t ∧
       ∀ l, (t.regA f.d.toNat).at l = g ((pairA f v).at l) ((pairB f v).at l)) ∧
  (∀ (i : Instr) (f : Fmt) (s : State) (l : Nat), Acts i f s → f.cls = .aff → (affineOp i).isSome = true → f.x.qual = 1 →
     let v := s.seen i f
     v.diverged = false → l < v.team.n → ¬ affineFits i ((pairA f v).at l) ((pairB f v).at l) →
     exec i s = .next (s.takeFault (laneFlt .AFFOVF 0 0))) ∧
  (∀ (i : Instr) (f : Fmt) (s : State), Acts i f s → f.cls = .aff → (affineOp i).isSome = true → (s.seen i f).diverged = true →
     exec i s = .next (s.takeFault (wholeFlt .UDIV)))

/-! ### Float and format instructions -/

/-- R33, R61 to R65, R103, R104, R266 to R271: a float or format instruction of the varying class writes its result and tag to
the active lanes; nothing else changes. -/
def Obligations.FloatLanes : Prop :=
  ∀ (i : Instr) (f : Fmt) (s : State) (val : Nat → Word),
    Acts i f s → f.cls = .var → floatSourcesFit i f (s.seen i f) = true →
    (∀ l, floatResult i f (s.seen i f) l = some (val l)) →
    ∃ t, exec i s = .next t ∧ Stepped f [.v f.d.toNat] s t ∧ LanesHold f (s.seen i f) s t val ∧
      t.regTag f.d.toNat = floatTag i f

/-- R61 to R65, R91: a float instruction or a conversion of the uniform class writes its uniform register, or with a 64-bit
destination type its pair, where the split's mask is the live mask, and raises UDIV where it is not. -/
def Obligations.FloatWord : Prop :=
  ∀ (i : Instr) (f : Fmt) (s : State), Acts i f s → f.cls = .uni → floatSourcesFit i f (s.seen i f) = true →
    (∀ w, floatResult i f (s.seen i f) 0 = some w → (s.seen i f).diverged = false →
      ∃ t, exec i s = .next t ∧ Stepped f [.s f.d.toNat] s t ∧ t.regS f.d.toNat = w) ∧
    (i = .cvt f → f.cvtTypes.1.is64 = true → (s.seen i f).diverged = false →
      ∃ t, exec i s = .next t ∧ Stepped f [.s f.d.toNat, .s (f.d.toNat + 1)] s t ∧
        t.regS (f.d.toNat + 1) ++ t.regS f.d.toNat = cvtUniform f (s.seen i f)) ∧
    ((floatResult i f (s.seen i f) 0).isSome = true ∨ i = .cvt f → (s.seen i f).diverged = true →
      exec i s = .next (s.takeFault (wholeFlt .UDIV)))

/-- R63, R104: a float compare; with a NaN operand only `ne` and `un` hold. -/
def Obligations.FloatCompare : Prop :=
  ∀ (i : Instr) (f : Fmt) (s : State) (c : Bool → Ordering → Bool), Acts i f s → floatCond i = some c →
    let v := s.seen i f
    let holds := fun l => c ((f32Of (fltA f v l)).isNan || (f32Of (fltB f v l)).isNan) ((f32Of (fltA f v l)).cmp (f32Of (fltB f v l)))
    (f.cls = .var → tagsOk v (varA f ++ varB f) [.f32] = true →
      ∃ t, exec i s = .next t ∧ Stepped f [.p f.d.toNat] s t ∧ PredsHold f v s t holds) ∧
    (f.cls = .uni → v.diverged = false →
      ∃ t, exec i s = .next t ∧ Stepped f [.q f.d.toNat] s t ∧ (f.d.toNat ≠ 7 → t.regQ f.d.toNat = holds 0)) ∧
    (f.cls = .uni → v.diverged = true → exec i s = .next (s.takeFault (wholeFlt .UDIV)))

/-- R88, R104: an integer or float instruction, or a compare, with a varying source of another tag raises TAGMIS and has no effect. -/
def Obligations.TagMismatch : Prop :=
  ∀ (i : Instr) (f : Fmt) (s : State), Acts i f s → f.cls = .var →
    ((∃ w, f.x.ty.is64 = false ∧ integerResult i f (s.seen i f) 0 = some w ∧ integerSourcesFit i f (s.seen i f) = false) ∨
     (∃ w, floatResult i f (s.seen i f) 0 = some w ∧ floatSourcesFit i f (s.seen i f) = false) ∨
     ((integerCond i).isSome = true ∧ tagsOk (s.seen i f) (varA f ++ varB f) [.i32] = false) ∨
     ((floatCond i).isSome = true ∧ tagsOk (s.seen i f) (varA f ++ varB f) [.f32] = false)) →
    exec i s = .next (s.takeFault (wholeFlt .TAGMIS))

/-- R259, R260, R263: rounding a value of a format to that format gives its own encoding, in every rounding mode. A magnitude rounded
to a multiple of 2^q is the nearest one, ties to the even one, under RNE; under the directed modes it is the nearest one toward zero, or on the
side of the rounding. -/
def Obligations.Rounding : Prop :=
  (∀ F ∈ [FFmt.f32, FFmt.bf16, FFmt.f16, FFmt.f8e4, FFmt.f8e5, FFmt.f48], ∀ (rnd : Rnd) (x : Nat),
     x < 2 ^ (1 + F.ebits + F.fbits) → F.decode x ≠ .nan → F.round rnd false (F.decode x) = x) ∧
  (∀ (neg : Bool) (m : Nat) (e q : Int), e < q →
     let s := (q - e).toNat
     let r := fun rnd => roundAt rnd neg m e q
     (2 * (r .rne * 2 ^ s) ≤ 2 * m + 2 ^ s ∧ 2 * m ≤ 2 * (r .rne * 2 ^ s) + 2 ^ s) ∧
     (2 * m = 2 * (r .rne * 2 ^ s) + 2 ^ s ∨ 2 * (r .rne * 2 ^ s) = 2 * m + 2 ^ s → r .rne % 2 = 0) ∧
     (r .rz * 2 ^ s ≤ m ∧ m < (r .rz + 1) * 2 ^ s) ∧
     (if neg then r .rpi = r .rz else m ≤ r .rpi * 2 ^ s ∧ r .rpi * 2 ^ s < m + 2 ^ s) ∧
     (if neg then m ≤ r .rmi * 2 ^ s ∧ r .rmi * 2 ^ s < m + 2 ^ s else r .rmi = r .rz))

/-! ### Control transfer, traps and handlers -/

/-- R66, R67: `bra` ends its run and goes to pc + sx(imm, 32); a target that is not canonical raises XLATE with the target in
`fraddr`. -/
def Obligations.Branch : Prop :=
  ∀ (f : Fmt) (s : State), Acts (.bra f) f s →
    let target := pcRel s.split.pc f.imm
    (canonical target = true → ∃ t, exec (.bra f) s = .next t ∧ Moved f [] target s t) ∧
    (canonical target = false → exec (.bra f) s = .next (s.takeFault (laneFlt .XLATE target 0)))

/-- R66, R67, R91: `brc` writes its counter less one, and branches where that is not zero; in a split that is not the whole
team it raises UDIV, and where it branches to a target that is not canonical it raises XLATE, the counter unchanged. That the target is
checked only where the branch is taken is read as log entry 28 says. -/
def Obligations.CountedBranch : Prop :=
  ∀ (f : Fmt) (s : State), Acts (.brc f) f s →
    let v := s.seen (.brc f) f
    let n := v.readS f.d.toNat - 1
    let target := pcRel s.split.pc f.imm
    (v.diverged = true → exec (.brc f) s = .next (s.takeFault (wholeFlt .UDIV))) ∧
    (v.diverged = false → n ≠ 0 → canonical target = false →
      exec (.brc f) s = .next (s.takeFault (laneFlt .XLATE target 0))) ∧
    (v.diverged = false → (n = 0 ∨ canonical target = true) →
      ∃ t, exec (.brc f) s = .next t ∧ t.regS f.d.toNat = n ∧
        Moved f [.s f.d.toNat] (if n = 0 then s.split.pc + BitVec.ofNat 64 f.len.bytes else target) s t)

/-- R19, R68, R91: `call` and `calli` store the frame record, the return address and the new depth, at fsbase + 16 × fdepth, add one to
`fdepth` and go to the target; the other bytes of memory, the registers and the other system registers stay. What stops a call: UDIV in a
split that is not the whole team, XLATE at a target that is not canonical, ALIGN at an indirect target that is not a multiple of 4, STACK
at depth 256. That the record is written at issue is read as log entry 29 says. -/
def Obligations.Calls : Prop :=
  (∀ (i : Instr) (f : Fmt) (s : State) (p : Place), Acts i f s → (i = .call f ∨ i = .calli f) →
     let v := s.seen i f
     let target := callTarget i f v
     v.diverged = false → canonical target = true → (i = .calli f → target.toNat % 4 = 0) → s.team.fdepth ≠ 256 →
     Reaches v .store (frameAddr s, 16) p →
     ∃ t, exec i s = .next t ∧ t.split.pc = target ∧ t.split.run = {} ∧ t.team.fdepth = s.team.fdepth + 1 ∧
       FilesKept [] s t ∧ BytesStored p (frameRecord (s.split.pc.toNat + f.len.bytes) (s.team.fdepth + 1)) s t ∧
       t = { s with team := t.team, split := t.split, cycle := t.cycle, nextId := t.nextId, free := t.free, parts := t.parts,
                    cores := t.cores, dies := t.dies, mem := t.mem, seals := t.seals, hist := t.hist, homes := t.homes, tlb := t.tlb, l1 := t.l1,
                    entries := t.entries, shares := t.shares, updates := t.updates, unperf := t.unperf } ∧
       t.entries.map Entry.asks = s.entries.map Entry.asks ∧
       t.team = { s.team with c := t.team.c, flights := t.team.flights, tctl := t.team.tctl, retired := t.team.retired,
                              fdepth := t.team.fdepth }) ∧
  (∀ (i : Instr) (f : Fmt) (s : State), Acts i f s → (i = .call f ∨ i = .calli f) →
     let v := s.seen i f
     let target := callTarget i f v
     (v.diverged = true → exec i s = .next (s.takeFault (wholeFlt .UDIV))) ∧
     (v.diverged = false → canonical target = false → exec i s = .next (s.takeFault (laneFlt .XLATE target 0))) ∧
     (v.diverged = false → canonical target = true → i = .calli f → target.toNat % 4 ≠ 0 →
       exec i s = .next (s.takeFault (laneFlt .ALIGN target 0))) ∧
     (v.diverged = false → canonical target = true → (i = .calli f → target.toNat % 4 = 0) → s.team.fdepth = 256 →
       exec i s = .next (s.takeFault (wholeFlt .STACK))))

/-- R14, R19, R69, R145, R186, R300: `ret` takes the return address from the frame record of the depth, takes one from `fdepth`, and
releases the colours taken at that depth, with a release entry for each in ascending order. What stops it, by lower code: UDIV, XLATE of a
return address that is not canonical, PERM while a recruitment or a drafted expansion is open, STACK at depth 0. That the record is read at
issue is read as log entry 29 says. -/
def Obligations.ReturnPopsFrame : Prop :=
  ∀ (f : Fmt) (s : State), Acts (.ret f) f s →
    let v := s.seen (.ret f) f
    let mine := sortNats ((s.team.held.filter fun h => h.2 == s.team.fdepth).map Prod.fst)
    (v.diverged = true → exec (.ret f) s = .next (s.takeFault (wholeFlt .UDIV))) ∧
    (v.diverged = false → s.team.fdepth = 0 →
      exec (.ret f) s = .next (s.takeFault (wholeFlt (if lendingOpen s.team then .PERM else .STACK)))) ∧
    (∀ k ks ps, v.diverged = false → s.team.fdepth ≠ 0 →
      v.pieces .load (splitPage (recordAddr s.team (s.team.fdepth - 1)) 16) = .ok (k :: ks, ps) →
      let back := BitVec.ofNat 64 (leNat 8 (s.bytesAs ((ps.head?.map Phys.kid).getD 0) (k :: ks)))
      (canonical back = false → exec (.ret f) s = .next (s.takeFault (laneFlt .XLATE back 0))) ∧
      (canonical back = true → lendingOpen s.team = true → exec (.ret f) s = .next (s.takeFault (wholeFlt .PERM))) ∧
      (canonical back = true → lendingOpen s.team = false → (∀ h ∈ ps.filterMap Phys.host, s.owns h = true) →
        (mine = [] ∨ s.markedCommands s.team.id = false) →
        ∃ t, exec (.ret f) s = .next t ∧ t.split.pc = back &&& ~~~3 ∧ t.split.run = {} ∧
          t.team.fdepth = s.team.fdepth - 1 ∧ FilesKept [] s t ∧ (∀ k, t.byte k = s.byte k) ∧
          t.team.held = s.team.held.filter (fun h => !mine.contains h.1) ∧
          t.entries.map (fun e => (e.team, e.kind)) =
            s.entries.map (fun e => (e.team, e.kind)) ++ mine.map (fun c => (s.team.id, EntryKind.release c))))

/-- R40, R72, R77: `nop` only moves on; `runend` ends the run with its wait mask; `yield` marks the split to begin its next run
behind the others. -/
def Obligations.RunControl : Prop :=
  (∀ (f : Fmt) (s : State), Acts (.nop f) f s → ∃ t, exec (.nop f) s = .next t ∧ Stepped f [] s t) ∧
  (∀ (f : Fmt) (s : State), Acts (.runend f) f s →
    ∃ u, exec (.runend f) s = .next { u with split := { u.split with run := {}, trailer := f.wait } } ∧ Stepped f [] s u) ∧
  (∀ (f : Fmt) (s : State), Acts (.yield f) f s →
    ∃ u, exec (.yield f) s = .next { u with split := { u.split with yielded := true } } ∧ Stepped f [] s u)

/-- R71, R315: `trap` raises TRAP with its immediate in `fraddr`, and `brk` raises BRK. -/
def Obligations.TrapAndBreak : Prop :=
  (∀ (f : Fmt) (s : State), Acts (.trap f) f s →
    exec (.trap f) s = .next (s.takeFault { code := .TRAP, addr := f.imm.zeroExtend 64, lane := 0xFFFFFFFF })) ∧
  (∀ (f : Fmt) (s : State), Acts (.brk f) f s → ∃ a, exec (.brk f) s = .next (s.takeFault { code := .BRK, addr := a, lane := 0xFFFFFFFF }))

/-- R20, R42, R303, R304: a fault of a team with a handler writes `frcode`, `frpc`, `fraddr` and `frlane`, keeps the faulting split
with its run and the held splits, and starts one split at `trapvec` with the live mask; registers and memory stay. With no handler, or
inside one, the fault ends the team with the fault's code. That the handler's split takes over the instruction-buffer entry of the faulting
one is the model's choice (log entry 69). -/
def Obligations.FaultTaken : Prop :=
  (∀ (s : State) (x : Flt), s.inHelper = false → s.team.handler = none → s.team.trapvec ≠ 0 →
     ((x.code = .BRK ∨ x.code = .WATCHPT) → s.debugAttached = false) →
     let t := s.takeFault x
     t.team.frcode = BitVec.ofNat 8 (faultCode x.code) ∧ t.team.frpc = s.split.pc ∧ t.team.fraddr = x.addr ∧ t.team.frlane = x.lane ∧
     t.split.pc = s.team.trapvec &&& ~~~3 ∧ t.split.mask = s.team.live ∧ t.split.link = none ∧ t.split.run = {} ∧
     (∃ h, t.team.handler = some h ∧ h.held = s.team.splits ∧
       h.fault = { s.split with request := none, buffer := false, gated := none }) ∧ t.team.splits = [] ∧
     FilesKept [] s t ∧
     t = { s with team := t.team, split := t.split, nextId := t.nextId } ∧
     t.team = { s.team with frcode := t.team.frcode, frpc := t.team.frpc, fraddr := t.team.fraddr, frlane := t.team.frlane,
                            xfown := t.team.xfown, xfoff := t.team.xfoff, handler := t.team.handler, splits := [],
                            joins := s.team.joins.map fun e => (e.1, e.2.map fun j => { j with held := true }) }) ∧
  (∀ (s : State) (x : Flt), s.inHelper = false → (s.team.handler ≠ none ∨ s.team.trapvec = 0) →
     ((x.code = .BRK ∨ x.code = .WATCHPT) → s.debugAttached = false) →
     s.takeFault x = (s.recordFault x).unfocus.endTeam s.team.id (.fault (faultCode x.code) s.split.pc))

/-- R14, R42, R73, R303: `rfe` ends the handler: the faulting split goes on at `frpc` with the run kept for it, and the held splits are
released; where the handler's lanes have ended every lane of the faulting split, only the held splits go on. With no handler it starts a
new run at `frpc`, bits 1:0 of the pc always zero. An `frpc` that is not canonical raises XLATE. That other splits of the handler are dropped
is the model's choice (log entry 92). -/
def Obligations.ReturnFromHandler : Prop :=
  ∀ (f : Fmt) (s : State), Acts (.rfe f) f s →
    (canonical s.team.frpc = false → exec (.rfe f) s = .next (s.takeFault (laneFlt .XLATE s.team.frpc 0))) ∧
    (canonical s.team.frpc = true → s.team.handler = none →
      ∃ t, exec (.rfe f) s = .next t ∧ t.split.pc = s.team.frpc &&& ~~~3 ∧ t.split.run = {} ∧ t.split.mask = s.split.mask ∧
        FilesKept [] s t ∧ ∀ k, t.byte k = s.byte k) ∧
    (∀ h, canonical s.team.frpc = true → s.team.handler = some h → h.fault.mask ≠ 0 →
      ∃ t, exec (.rfe f) s = .next t ∧ t.split.pc = s.team.frpc &&& ~~~3 ∧ t.split.run = h.fault.run ∧
        t.split.mask = h.fault.mask ∧ t.split.link = h.fault.link ∧ t.team.handler = none ∧
        t.team.splits = h.held.map (fun x => { x with inSlot := false }) ∧
        FilesKept [] s t ∧ (∀ k, t.byte k = s.byte k) ∧ ∀ c ∈ t.commands, c.team = s.team.id → c.hold = none) ∧
    (∀ h, canonical s.team.frpc = true → s.team.handler = some h → h.fault.mask = 0 → (∀ u ∈ s.others, u.id ≠ s.team.id) →
      ∃ t u, exec (.rfe f) s = .next t ∧ t.split = {} ∧ t.findTeam s.team.id = some u ∧ u.handler = none ∧
        u.splits = h.held.map (fun x => { x with inSlot := false }) ∧ (∀ k, t.byte k = s.byte k))

/-- R97, R99, R115, R116: `brv` divides its split by its guard: the lanes whose predicate reads true go to the target, the others past it;
a target or join address that is not canonical raises XLATE. With no free split entry or record the others wait in the deferred list, of
private memory, and with that list full the divergence raises DEFER. That both addresses are checked whichever lanes act, and that a slot is
written at issue, are read as log entries 28 and 30 say; which of the two stands in `fraddr`, and the layout of a slot, are the model's choice
(log entries 68 and 80). -/
def Obligations.DivergentBranch : Prop :=
  ∀ (f : Fmt) (s : State), Passes (.brv f) f s →
    let v := s.seen (.brv f) f
    let target := pcRel s.split.pc f.imm
    let jn := s.split.pc + joinOffset f
    let fall := s.split.pc + 16
    let taken := activeMask f v
    (canonical target = false → exec (.brv f) s = .next (s.takeFault (wholeFlt .XLATE target))) ∧
    (canonical target = true → canonical jn = false → exec (.brv f) s = .next (s.takeFault (wholeFlt .XLATE jn))) ∧
    (∀ ps, canonical target = true → canonical jn = true → ListReached v .load ps →
      let n := (deferredList v ps).length
      ((taken = 0 ∨ s.split.mask &&& ~~~taken = 0 ∨ roomToSplit s jn = true) →
        ∃ t, exec (.brv f) s = .next t ∧ Divides taken target jn fall s t ∧ ListKept s t) ∧
      (taken ≠ 0 → s.split.mask &&& ~~~taken ≠ 0 → roomToSplit s jn = false →
        (∀ p, n < deferLimit s → (s.inHelper = false → Reaches v .store (deferredSlot s.team n) p) →
          ∃ t, exec (.brv f) s = .next t ∧ Divides taken target jn fall s t ∧
            ListStored n p (deferredSide taken jn fall s) s t) ∧
        (deferLimit s ≤ n → exec (.brv f) s = .next (s.takeFault (wholeFlt .DEFER)))))

/-- R99, R118, R119: `jtab` serves the lowest index group of its split: with every index in range, the group's lanes go to their entry's target
and the others stay at the `jtab`; an index out of range raises JTAB with its lowest lane, a target or join address that is not canonical
XLATE, and a divergence with the deferred list full DEFER. The canonical check of the join address, and the `frlane` of a fault, are read as
log entries 27 and 28 say, and that a slot is written at issue as log entry 30 says; the layout of a slot, and that the target comes before
the join address, are the model's choice (log entries 68 and 80). -/
def Obligations.JumpTable : Prop :=
  ∀ (f : Fmt) (s : State) (w0 w1 w2 : Word), Acts (.jtab f) f s →
    let v := s.seen (.jtab f) f
    let pc := s.split.pc
    let table := pcRel pc f.imm
    let n := min (w0.toNat % 512) 256
    let lanes := lanesOf s.team.n s.split.mask
    let index := fun l => (rawA f v l).toNat
    let least := (lanes.map index).foldl min 256
    let taken := maskOf (lanes.filter fun l => index l == least)
    let rest := s.split.mask &&& ~~~taken
    let word := fun a => (tableWord v s a).map Prod.snd
    let target := tableAddr pc w2
    let jn := tableAddr pc w1
    tagsOk v (varA f) [.i32, .raw] = true → word table = .ok w0 →
    (∀ l ∈ lanes, n ≤ index l → (∀ m ∈ lanes, m < l → index m < n) →
      exec (.jtab f) s = .next (s.takeFault (laneFlt .JTAB table l))) ∧
    ((∀ l ∈ lanes, index l < n) → word (table + 4) = .ok w1 → word (table + BitVec.ofNat 64 (8 + 4 * least)) = .ok w2 →
      (canonical target = false → exec (.jtab f) s = .next (s.takeFault (wholeFlt .XLATE target))) ∧
      (canonical target = true → canonical jn = false → exec (.jtab f) s = .next (s.takeFault (wholeFlt .XLATE jn))) ∧
      (∀ ps, canonical target = true → canonical jn = true → ListReached v .load ps →
        let m := (deferredList v ps).length
        ((rest = 0 ∨ roomToSplit s jn = true) → ∃ t, exec (.jtab f) s = .next t ∧ Divides taken target jn pc s t ∧ ListKept s t) ∧
        (rest ≠ 0 → roomToSplit s jn = false →
          (∀ p, m < deferLimit s → (s.inHelper = false → Reaches v .store (deferredSlot s.team m) p) →
            ∃ t, exec (.jtab f) s = .next t ∧ Divides taken target jn pc s t ∧ ListStored m p (deferredSide taken jn pc s) s t) ∧
          (deferLimit s ≤ m → exec (.jtab f) s = .next (s.takeFault (wholeFlt .DEFER))))))

/-- R98, R99, R117: a split that comes to a `join` of a record on its chain, with the lanes that a deferred entry has gathered for it, arrives
there: the record then holds these lanes too and the records inside it expect them no more, and once every expected live lane has arrived it
fires: a split of the arrived live lanes goes on after the `join`. (A record that a handler holds takes its split among the held ones; another
record that is already complete would fire with it, so every other one still waits.) With no record of that address the split goes on past
the `join` with those lanes. A split whose newest deferred side joins here turns to that side, and keeps its own lanes as arrived; an entry
whose side has been taken is removed. That a slot is written at issue is read as log entry 30 says, and the layout of a slot is the model's
choice (log entry 68). -/
def Obligations.Joins : Prop :=
  (∀ (f : Fmt) (s : State) (k : Nat) (inner : List Nat) (j : Join) (m : Mask) (ps : Nat → Place), Acts (.join f) f s → Single s →
     let v := s.seen (.join f) f
     let old := deferredList v ps
     ListReached v .load ps → ListReached v .store ps → comesWith s old = some m →
     findRecord s.team s.split.pc 17 s.split.link [] = some (k, inner) → k < 16 → s.team.joins.get none k = some j →
     let left := fun (i : Nat) (y : Join) => if i ∈ inner then { y with expects := y.expects &&& ~~~m } else y
     (∀ i y, i ≠ k → s.team.joins.get none i = some y → (left i y).complete s.team.live = false) →
     let a := j.arrived ||| m
     ∃ t u, exec (.join f) s = .next t ∧ t.findTeam s.team.id = some u ∧ u.live = s.team.live ∧ OutsideListKept ps s t ∧
       ((∀ d ∈ old, d.split = s.split.entry → d.addr ≠ s.split.pc) → ∀ y, t.byte y = s.byte y) ∧
       (∀ i ∈ inner, u.joins.get none i = (s.team.joins.get none i).map (left i)) ∧
       (j.expects &&& s.team.live &&& ~~~a ≠ 0 → (u.joins.get none k).map Join.arrived = some a) ∧
       (j.expects &&& s.team.live &&& ~~~a = 0 → a &&& s.team.live ≠ 0 →
         u.joins.get none k = none ∧ ∃ x ∈ (if j.held && s.team.handler.isSome then u.heldSplits else u.splits),
           x.pc = j.addr + 8 ∧ x.mask = a &&& s.team.live ∧ x.link = j.outer)) ∧
  (∀ (f : Fmt) (s : State) (m : Mask) (ps : Nat → Place), Acts (.join f) f s →
     let v := s.seen (.join f) f
     let old := deferredList v ps
     ListReached v .load ps → ListReached v .store ps → comesWith s old = some m →
     findRecord s.team s.split.pc 17 s.split.link [] = none →
     ∃ t, exec (.join f) s = .next t ∧ t.split.pc = s.split.pc + BitVec.ofNat 64 f.len.bytes ∧ t.split.run = {} ∧ t.split.mask = m ∧
       t.split.link = s.split.link ∧ t.team.splits = s.team.splits ∧ t.team.joins = s.team.joins ∧ FilesKept [] s t ∧
       ((∀ d ∈ old, d.split = s.split.entry → d.addr ≠ s.split.pc) → ListKept s t) ∧
       (∀ (i : Nat) (d : Deferred), old[i]? = some d → d.split = s.split.entry → d.addr = s.split.pc →
         (∀ n y, i < n → old[n]? = some y → y.split ≠ s.split.entry) → OutsideListKept ps s t ∧
         if s.inHelper then t.team.deferred = old.eraseIdx i
         else t.team.dflen + 1 = s.team.dflen ∧ (i + 1 = s.team.dflen → ∀ y, t.byte y = s.byte y))) ∧
  (∀ (f : Fmt) (s : State) (d : Deferred) (pc : Addr) (i : Nat) (ps : Nat → Place), Acts (.join f) f s →
     let v := s.seen (.join f) f
     let old := deferredList v ps
     ListReached v .load ps → ListReached v .store ps → old[i]? = some d → d.split = s.split.entry →
     (∀ m y, i < m → old[m]? = some y → y.split ≠ s.split.entry) → d.addr = s.split.pc → d.pc = some pc → d.mask ≠ 0 →
     ∃ t, exec (.join f) s = .next t ∧ t.split.pc = pc ∧ t.split.mask = d.mask ∧ FilesKept [] s t ∧
       ListStored i (ps i) { d with pc := none, arrived := s.split.mask } s t)

/-- R22, R70, R101, R120: `exit` ends the whole team, whatever the split's mask: no lane is live, no split runs. `exitl` ends its active
lanes: they leave the live mask and every split of the team; the last lane's exit ends the team. -/
def Obligations.Exits : Prop :=
  (∀ (f : Fmt) (s : State), Acts (.exit f) f s → Single s → s.team.ended = false →
     ∃ t u, exec (.exit f) s = .next t ∧ t.findTeam s.team.id = some u ∧ u.live = 0 ∧ u.splits = [] ∧ u.ended = true ∧
       u.exited = true ∧ ∀ k, t.byte k = s.byte k) ∧
  (∀ (f : Fmt) (s : State) (ps : Nat → Place), Acts (.exitl f) f s → Single s → s.team.ended = false →
     let v := s.seen (.exitl f) f
     let gone := activeMask f v
     ListReached v .load ps → ListReached v .store ps →
     ∃ t u, exec (.exitl f) s = .next t ∧ t.findTeam s.team.id = some u ∧ OutsideListKept ps s t ∧
       u.live = s.team.live &&& ~~~gone ∧ (∀ x ∈ u.splits, x.mask &&& gone = 0) ∧
       (s.team.live &&& ~~~gone = 0 → u.ended = true ∧ u.splits = []))

/-! ### Encoding and the step -/

/-- R24, R26, R31, R34 to R36: the words that chapters 3, 4, 6 to 10, 12 to 16, 18 to 20 and 23 write out decode to the instructions that they
stand for. A check of a few words, of tier 1. -/
def Obligations.WordsDecode : Prop :=
  decode [0x03, 0x80, 0xC1, 0x00, 0x00, 0x00, 0xC0, 0x1F, 0x00, 0x00, 0x00, 0x00, 0x04, 0x00, 0x00, 0x00] =
    .ok (.add { cls := .uni, len := .l128, d := 6, a := 3, imm := 4 }) ∧
  decode [0x32, 0x08, 0xC2, 0x02, 0x03, 0x18, 0xC0, 0x5F, 0x08, 0x40, 0x00, 0x00] =
    .ok (.ffma { cls := .uni, len := .l96, d := 8, a := 11, b := 12, kb := true, wait := 6, x := { c := 8, kc := 1 } }) ∧
  decode [0x8B, 0xA4, 0x40, 0x00, 0x00, 0x00, 0x00, 0x1C, 0x00, 0x00, 0x00, 0x30, 0x01, 0x00, 0x00, 0x00] =
    .ok (.shfl { cls := .var, len := .l128, d := 2, a := 1, sig := 0, x := { qual := 3 }, imm := 1 }) ∧
  decode [0x2A, 0xE9, 0x40, 0x02, 0xC0, 0x00, 0xC0, 0x1F, 0x00, 0x00, 0x00, 0x60] =
    .ok (.segred { cls := .var, len := .l96, d := 3, a := 9, stall := 3, x := { qual := 6 } }) ∧
  decode [0x99, 0x41, 0x40, 0x80, 0x00, 0x08, 0xC0, 0x2F] =
    .ok (.min { cls := .var, len := .l64, d := 1, a := 1, b := 2, wait := 2, guard := 11 }) ∧
  decode [0x2A, 0x18, 0x02, 0x82, 0x02, 0x00, 0x40, 0x44, 0x00, 0x00, 0x40, 0x13] =
    .ok (.ldfe { cls := .var, len := .l96, d := 8, a := 8, b := 10, kb := true, sig := 1, guard := 1, x := { ty := .f32, qual := 1, rnd := .rz } }) ∧
  decode [0x72, 0x2C, 0x01, 0xC0, 0x00, 0x00, 0xC0, 0x5F, 0x02, 0x40, 0x00, 0x00] =
    .ok (.watch { cls := .uni, len := .l96, d := 4, b := 3, kb := true, x := { c := 2, kc := 1 } }) ∧
  decode [0x03, 0xE0, 0x00, 0x80, 0x00, 0x00, 0x80, 0x5C, 0x04, 0x40, 0xC0, 0x00, 0x07, 0x00, 0x00, 0x00] =
    .ok (.atom { cls := .uni, len := .l128, d := 3, b := 2, kb := true, sig := 2, x := { c := 4, kc := 1, rnd := .rmi }, imm := 7 }) ∧
  decode [0x02, 0x6C, 0x00, 0x80, 0x00, 0x00, 0x00, 0x5C, 0x03, 0x40, 0x00, 0x00] =
    .ok (.tint { cls := .uni, len := .l96, d := 1, b := 2, kb := true, sig := 0, x := { c := 3, kc := 1 } }) ∧
  decode [0x81, 0x30, 0x80, 0xC0, 0x00, 0x00, 0xC0, 0x1F] =
    .ok (.waitcnt { cls := .uni, len := .l64, a := 2, b := 3 }) ∧
  decode [0x9A, 0xD0, 0xC1, 0x81, 0x02, 0x10, 0xC0, 0x07, 0x0C, 0x40, 0x00, 0x00] =
    .ok (.unpk4 { cls := .var, len := .l96, d := 7, a := 7, b := 10, wait := 4, guard := 1, x := { c := 12, kc := 1 } }) ∧
  decode [0x8F, 0x34, 0x00, 0x02, 0x00, 0x04, 0x40, 0x1C, 0x03, 0x40, 0x00, 0x0F, 0xFF, 0x00, 0x00, 0x00] =
    .ok (.mma { cls := .sys, len := .l128, a := 8, wait := 1, sig := 1, x := { c := 3, kc := 1, ty := .b4 }, imm := 255 }) ∧
  decode [0x81, 0x38, 0x40, 0x04, 0x00, 0x00, 0xC0, 0x1F] =
    .ok (.prog { cls := .uni, len := .l64, a := 17 }) ∧
  decode [0x09, 0x82, 0x00, 0x48, 0x05, 0x00, 0xC0, 0xDF] =
    .ok (.cmpEq { cls := .var, len := .l64, d := 2, a := 32, ka := true, b := 21, kb := true }) ∧
  decode [0x11, 0x39, 0x03, 0x00, 0x00, 0x00, 0xC0, 0x1F] =
    .ok (.rdhlc { cls := .uni, len := .l64, d := 12 }) ∧
  decode [0x13, 0x20, 0x00, 0xC0, 0x04, 0x04, 0xC0, 0x5F, 0x0D, 0x40, 0x00, 0x00, 0x08, 0x00, 0x00, 0x00] =
    .ok (.red { cls := .uni, len := .l128, b := 19, kb := true, wait := 1, x := { c := 13, kc := 1 }, imm := 8 })

/-- R24, R26, R31, R34 to R36: no bit of an encoding is dropped: what `encode` writes for a well-formed instruction decodes to that
instruction. -/
def Obligations.DecodeOfEncode : Prop :=
  ∀ i : Instr, i.isEvent = false → i.wellFormed = true → decode (encode i) = .ok i

/-- R24, R26: one meaning for each word: an instruction that the three words decode to is well formed, and its encoding is those
words, as far as its length names them. -/
def Obligations.EncodeOfDecode : Prop :=
  ∀ (w : BitVec 64) (xw imm : Word) (i : Instr), decodeWords w xw imm = .ok i →
    i.wellFormed = true ∧ i.isEvent = false ∧ ∃ f, i.fmt? = some f ∧ Len.ofCode? (w.extractLsb' 0 2) = some f.len ∧
      encode i = (leBytes 8 w.toNat ++ leBytes 4 xw.toNat ++ leBytes 4 imm.toNat).take f.len.bytes

/-- R38, R39: what an encoding that is no instruction raises: ILLEN for length 0b00, then ILLOP where no instruction has the opcode,
then ILLCLASS where the instruction has not the class, then ILLENC where a field breaks its rule; the fault is taken at its address. -/
def Obligations.EncodingFates : Prop :=
  (∀ (w : BitVec 64) (xw imm : Word),
    (w.extractLsb' 0 2 = 0 → decodeWords w xw imm = .error .ILLEN) ∧
    ∀ f, Fmt.ofWords w xw imm = some f →
      ((∀ i : Instr, i.opcode? ≠ some (w.extractLsb' 4 10)) → decodeWords w xw imm = .error .ILLOP) ∧
      ∀ i : Instr, i.opcode? = some (w.extractLsb' 4 10) → i.fmt? = some f → Instr.ofOpcode (w.extractLsb' 4 10).toNat f = some i →
        (i.classes.contains f.cls = false → decodeWords w xw imm = .error .ILLCLASS) ∧
        (i.classes.contains f.cls = true → i.wellFormed = false → decodeWords w xw imm = .error .ILLENC)) ∧
  (∀ (x : Fate) (s : State), exec (.encodingNotAnInstruction x) s = .next (s.takeFault (wholeFlt x.code x.addr)))

/-- R24, R39, R40, R44, R138: where the step issues from a split whose bytes at the pc decode, in order of address and outside the pools, to an
instruction, and the run is not full, the step is `exec` of that instruction at that state, the fetch noted as an access; what measures it
(sampling, counters, record mode) is added after it. Where no instruction comes of the fetch, the step takes its fate at the pc, in the order
of R39: the fault of the translation; POOLX of the first word; ILLEN; FETCHX; POOLX of the rest; what the decoder finds; and for the 25th
instruction of a run RUNLEN. In a helper group a form that it may not execute raises ILLCLASS before ILLENC and RUNLEN. Which move a step
makes, and when an event from outside is taken, are the model's choice (log entries 3 and 4): the statement is about a step that issues. -/
def Obligations.StepRunsDecodedInstruction : Prop :=
  ∀ (s : State) (t x : Nat), s.stopped = false →
    let u := s.unfocus.tick
    u.forced = none → u.agenda = [] → u.choose u.openMoves = some (.issue t x) →
    let v := (({ u with free := u.free + 1 } : State).focus t x).modTeam fun w => { w with fetchOff := none }
    let pc := v.split.pc
    let after := fun w => State.logAll { u with free := u.free + 1 } (State.measure v w) (.issue t x)
    let xl := v.translate v.team.ctx v.team.launch v.team.part v.team.core .fetch pc
    let meets := fun f : Flt => step s = .next (after (v.takeFault f))
    let runs := fun i => step s = match exec i v.touchFetch with
      | .next w => .next (after w)
      | .fault e => .fault e
      | .refused r => .refused r
    v.split.owed = 0 →
    (canonical pc = false → meets { code := .XLATE, addr := pc }) ∧
    (∀ c, canonical pc = true → xl = .fault c → meets { code := c, addr := pc }) ∧
    (∀ p, canonical pc = true → xl = .ok p → (∀ h, p.host = some h → v.owns h = true) →
      (meetsPool v.owner pc 4 = true → meets { code := .POOLX }) ∧
      (meetsPool v.owner pc 4 = false → Len.ofCode? ((v.byteAs p.kid p.key).extractLsb' 0 2) = none → meets { code := .ILLEN }) ∧
      ∀ len, meetsPool v.owner pc 4 = false → Len.ofCode? ((v.byteAs p.kid p.key).extractLsb' 0 2) = some len →
        (32 < pc.toNat % 32 + len.bytes → meets { code := .FETCHX }) ∧
        (pc.toNat % 32 + len.bytes ≤ 32 → meetsPool v.owner (pc + 4) (len.bytes - 4) = true → meets { code := .POOLX }) ∧
        (pc.toNat % 32 + len.bytes ≤ 32 → meetsPool v.owner (pc + 4) (len.bytes - 4) = false →
          let bytes := (List.range len.bytes).map fun k => v.byteAs p.kid (p.key + k)
          (∀ i, decode bytes = .ok i → (v.split.run.count < 24 ∨ v.forbidden i = true) → runs i) ∧
          (∀ i, decode bytes = .ok i → 24 ≤ v.split.run.count → v.forbidden i = false → meets { code := .RUNLEN }) ∧
          (∀ c, decode bytes = .error c → (c = .ILLENC → v.inHelper = true → v.namedHere.any v.forbidden = false) →
            exec (.encodingNotAnInstruction { code := c }) v = .next (v.takeFault { code := c }) ∧ meets { code := c }) ∧
          (decode bytes = .error .ILLENC → v.inHelper = true → v.namedHere.any v.forbidden = true → meets { code := .ILLCLASS })))

/-- R338, R345, R351: right after reset the board controller has released nothing, no error stands, the device is not frozen, no key identifier is
live, no partition, context or ring is in use, no link is up, no team exists, and no step of the device executes anything until
RESET_RELEASE. That descriptors, rings and links hold zeros is the model's choice (log entry 10), as is what a step counts (log entry 5). -/
def Obligations.ResetState : Prop :=
  State.reset.phase = 0 ∧ State.reset.error = 0 ∧ State.reset.frozen = .no ∧ State.reset.keysLive = 0 ∧
  (∀ p, (State.reset.part p).entry.valid = false) ∧ (∀ c, (State.reset.ctx c).desc.valid = false) ∧
  (∀ p n, (State.reset.ring p n).en = false) ∧ (∀ l, State.reset.links.get 0 l = 0) ∧ State.reset.allTeams = [] ∧
  Memory.wf State.reset.mem = true ∧ State.reset.openMoves = [] ∧
  step State.reset = .next { State.reset with cycle := 1 }

/-- The list of memory's bytes keeps its one canonical form in every step (the model's own representation, log entries 1 and 2). -/
def Obligations.StepKeepsMemoryCanonical : Prop :=
  ∀ (s t : State), Memory.wf s.mem = true → step s = .next t → Memory.wf t.mem = true

/-! ### Issue -/

/-- R29, R30, R40: an instruction whose guard lets nothing act has no effect but its issue: a control transfer ends its run and goes
on after itself, any other moves past it. -/
def Obligations.GuardedOff : Prop :=
  ∀ (i : Instr) (f : Fmt) (s : State), i.fmt? = some f → i ≠ .brv f → i ≠ .runend f → s.split.gated = none →
    preCheck (s.issueCycle f) i f (usesOf i) false s = none → guardOn f (s.seen i f) = false →
    ∃ t, exec i s = .next t ∧
      (endsRun i = true → Moved f [] (s.split.pc + BitVec.ofNat 64 f.len.bytes) s t) ∧ (endsRun i = false → Stepped f [] s t)

/-- R41, R49, R93, R116, R137, R138, R152, R300: what every instruction but `brk` meets before its own effect, in this order: where it acts,
ILLCLASS for a form that a helper body may not execute; STALLCHK where the checking scoreboard finds its guard, or where it acts its
registers, not readable; TMPDEAD where it acts and reads a temporary that its run has not written; ILLENC where it names a register outside
the held blocks, or, where it acts, one that it may not name. The guard of `brv` is its condition. That a helper body may execute the
class 10 and mask instructions that R138 does not name is read as log entry 22 says. An access that has waited for its colours is past
these checks (R184, log entry 32). -/
def Obligations.EarlyFaults : Prop :=
  ∀ (i : Instr) (f : Fmt) (s : State), i.fmt? = some f → i ≠ .brk f → s.split.gated = none →
    let now := s.issueCycle f
    let u := usesOf i
    let on := decide (i = .brv f) || guardOn f (s.seen i f)
    let alien := on && s.inHelper && !helperMay i f
    let early := stallCheck now i f f.guardReg [] s || (on && stallCheck now i f u.reads (if fixedLatency i then u.writes else []) s)
    let dead := on && tempDead u s
    (alien = true → exec i s = .next (s.takeFault (wholeFlt .ILLCLASS))) ∧
    (alien = false → early = true → exec i s = .next (s.takeFault (wholeFlt .STALLCHK))) ∧
    (alien = false → early = false → dead = true → exec i s = .next (s.takeFault (wholeFlt .TMPDEAD))) ∧
    (alien = false → early = false → dead = false → outsideBlocks u s = true → exec i s = .next (s.takeFault (wholeFlt .ILLENC))) ∧
    (alien = false → early = false → dead = false → outsideBlocks u s = false → on = true → namesBadly i f u s = true →
      exec i s = .next (s.takeFault (wholeFlt .ILLENC)))

/-! ### Lanes -/

/-- R104, R108, R109, R113: `bcast` copies a uniform register to the active lanes, `mata` gives each active lane its value of an
affine register, `mkaff` forms an affine register from a base and a stride. -/
def Obligations.LaneCopies : Prop :=
  (∀ (f : Fmt) (s : State), Acts (.bcast f) f s → f.cls = .var →
    ∃ t, exec (.bcast f) s = .next t ∧ Stepped f [.v f.d.toNat] s t ∧
      LanesHold f (s.seen (.bcast f) f) s t (fun l => (s.seen (.bcast f) f).seeS f.b.toNat l) ∧
      t.regTag f.d.toNat = if f.x.ty = .f32 then .f32 else .i32) ∧
  (∀ (f : Fmt) (s : State), Acts (.mata f) f s → f.cls = .var →
    ∃ t, exec (.mata f) s = .next t ∧ Stepped f [.v f.d.toNat] s t ∧
      LanesHold f (s.seen (.mata f) f) s t (fun l => (s.seen (.mata f) f).seeA f.a.toNat l l) ∧ t.regTag f.d.toNat = .i32) ∧
  (∀ (f : Fmt) (s : State), Acts (.mkaff f) f s →
    let v := s.seen (.mkaff f) f
    (v.diverged = false → ∃ t, exec (.mkaff f) s = .next t ∧ Stepped f [.a f.d.toNat] s t ∧
      t.regA f.d.toNat = { base := if f.len = .l128 then f.imm else v.readS f.b.toNat, stride := v.readS f.x.c.toNat }) ∧
    (v.diverged = true → exec (.mkaff f) s = .next (s.takeFault (wholeFlt .UDIV))))

/-- R91, R110 to R112, R122 to R126, R300: the cross-lane instructions of variable latency: each issues and its result is on its way. One that
writes registers of the whole team raises UDIV in a split that is not the whole team, after TAGMIS where its source carries a wrong tag; `vuni`
raises UDIV, with the first lane that differs in `fraddr`, where the lanes do not agree. The tag that an affine
source of `ishuf` gives is the model's choice (log entry 75). -/
def Obligations.CrossLaneResults : Prop :=
  (∀ (i : Instr) (f : Fmt) (s : State), Acts i f s →
    let v := s.seen i f
    (∀ xs, laneResult i f v = some xs → laneSourceFits i f v = true → (laneTeamWide i f = true → v.diverged = false) →
      ∃ t, exec i s = .next t ∧ Awaits f xs s t) ∧
    ((laneResult i f v).isSome = true → laneSourceFits i f v = true → laneTeamWide i f = true → v.diverged = true →
      exec i s = .next (s.takeFault (wholeFlt .UDIV))) ∧
    ((laneResult i f v).isSome = true → laneSourceFits i f v = false → exec i s = .next (s.takeFault (wholeFlt .TAGMIS))) ∧
    (∀ l, i = .vuni f → v.diverged = false → agree f v = .error l →
      exec i s = .next (s.takeFault (wholeFlt .UDIV (BitVec.ofNat 64 l))))) ∧
  (∀ (f : Fmt) (s : State), Acts (.vfirst f) f s →
    let v := s.seen (.vfirst f) f
    v.diverged = false → ∃ t, exec (.vfirst f) s = .next t ∧ Awaits f [.word f.d.toNat
      (match lowestLane s.team.n (s.split.mask &&& v.readP f.b.toNat) with | some l => v.readV f.a.toNat l | none => 0)] s t) ∧
  (∀ (f : Fmt) (s : State) (x : Word), Acts (.vuni f) f s →
    let v := s.seen (.vuni f) f
    v.diverged = false → agree f v = .ok x → ∃ t, exec (.vuni f) s = .next t ∧ Awaits f [.word f.d.toNat x] s t) ∧
  (∀ (f : Fmt) (s : State), Acts (.vuniTry f) f s →
    let v := s.seen (.vuniTry f) f
    v.diverged = false → ∃ t, exec (.vuniTry f) s = .next t ∧ Awaits f
      (match agree f v with | .ok x => [.word f.d.toNat x, .bit f.b.toNat true] | .error _ => [.bit f.b.toNat false]) s t) ∧
  (∀ (f : Fmt) (s : State), Acts (.vaff f) f s →
    let v := s.seen (.vaff f) f
    tagIn v f.a.toNat [.i32, .raw] = true → v.diverged = false → ∃ t, exec (.vaff f) s = .next t ∧ Awaits f
      (match progression f v with | some p => [.pair f.d.toNat p, .bit f.b.toNat true] | none => [.bit f.b.toNat false]) s t) ∧
  (∀ (i : Instr) (f : Fmt) (s : State), Acts i f s → (i = .shfl f ∨ i = .ishuf f ∨ i = .vred f ∨ i = .scan f) →
    let v := s.seen i f
    let put := fun (tag : Tag) (val : Nat → Word) =>
      ∃ t, exec i s = .next t ∧ Awaits f [.lanes f.d.toNat (some tag) ((activeLanes f v).map fun l => (l, val l))] s t
    (i = .shfl f → put (copyTag f v) fun l => rawA f v (shflLane f v l)) ∧
    (i = .ishuf f → put (copyTag f v) fun l =>
      let m := (rawB f v l).toNat
      if present v m then (if f.ka then v.seeA f.a.toNat l m else v.seeV f.a.toNat l m) else 0) ∧
    (i = .vred f → tagsOk v (varA f) (redTags f.x.qual.toNat) = true → put (redTag f v f.x.qual.toNat) (reduceTile f v)) ∧
    (i = .scan f → tagsOk v (varA f) (redTags f.x.qual.toNat) = true → put (redTag f v f.x.qual.toNat) (scanLane f v))) ∧
  (∀ (f : Fmt) (s : State), Acts (.vote f) f s →
    let v := s.seen (.vote f) f
    let p := v.readP f.a.toNat
    let mode := f.x.qual.toNat
    let all := lanesOf s.team.n s.split.mask
    let put := fun (xs : List Landing) => ∃ t, exec (.vote f) s = .next t ∧ Awaits f xs s t
    (f.cls = .var → mode = 3 → put [.lanes f.d.toNat (some .i32) ((activeLanes f v).map fun l => (l, ballot p (participants f v l)))]) ∧
    (f.cls = .var → mode ≠ 3 → put [.preds f.d.toNat ((activeLanes f v).map fun l => (l, voteOf mode p (participants f v l)))]) ∧
    (f.cls ≠ .var → v.diverged = false → mode = 3 →
      put [.word f.d.toNat (ballot p (all.filter fun l => l / 32 == (rawB f v 0).toNat))]) ∧
    (f.cls ≠ .var → v.diverged = false → mode ≠ 3 → put [.bit f.d.toNat (voteOf mode p all)]))

/-- R122, R126: the lane that `shfl` reads: position k, j − k, j + k or j xor k of the lane's tile, where that position lies in the
tile and its lane is in the split; the lane itself otherwise. -/
def Obligations.ShuffleSource : Prop :=
  ∀ (f : Fmt) (v : State) (l : Nat), l < 1024 →
    let t := tileSize v.team
    let j := l % t
    let k := (rawB f v l).toNat
    let pos : Int := match f.x.qual.toNat with
      | 0 => k
      | 1 => (j : Int) - k
      | 2 => (j : Int) + k
      | _ => (j ^^^ k : Nat)
    let m := shflLane f v l
    (t = 2 ∨ t = 4 ∨ t = 8 ∨ t = 16 ∨ t = 32) ∧
    (0 ≤ pos → pos < t → (l - j + pos.toNat < v.team.n ∧ v.split.mask.getLsbD (l - j + pos.toNat) = true) → m = l - j + pos.toNat) ∧
    ((pos < 0 ∨ (t : Int) ≤ pos ∨ v.team.n ≤ l - j + pos.toNat ∨ v.split.mask.getLsbD (l - j + pos.toNat) = false) → m = l)

/-- R91, R104, R114: the predicate instructions: at the active lanes of a varying predicate, or of uniform predicates. -/
def Obligations.PredicateLogic : Prop :=
  ∀ (i : Instr) (f : Fmt) (s : State) (g : Bool → Bool → Bool), Acts i f s → predicateOp i = some g →
    let v := s.seen i f
    (f.cls = .var → ∃ t, exec i s = .next t ∧ Stepped f [.p f.d.toNat] s t ∧
      PredsHold f v s t fun l => g ((v.readP f.a.toNat).getLsbD l)
        (if f.kb then v.seeQ f.b.toNat l else (v.readP f.b.toNat).getLsbD l)) ∧
    (f.cls ≠ .var → v.diverged = false → ∃ t, exec i s = .next t ∧ Stepped f [.q f.d.toNat] s t ∧
      (f.d.toNat ≠ 7 → t.regQ f.d.toNat = g (v.readQ f.a.toNat) (v.readQ f.b.toNat))) ∧
    (f.cls ≠ .var → v.diverged = true → exec i s = .next (s.takeFault (wholeFlt .UDIV)))


/-! ### Memory instructions -/

/-- R160, R168, R199, R200, R219 to R222, R229, R230: a load, store, full-empty access, atomic or reduction that nothing hinders
enters one entry for each active lane, in ascending lane order: with the lane's address, its locations, and for a store its data, the
bytes of the access's width; a private access of 8 bytes enters one for each of its two words (R166). Registers and memory change when the
entries commit. A form with a result awaits its register. That a class 00 `stfe` needs no whole team is read as log entry 35 says. -/
def Obligations.AccessesEnter : Prop :=
  ∀ (i : Instr) (f : Fmt) (s : State) (a : AccessForm) (ls : List Loc), Acts i f s →
    let v := s.seen i f
    accessForm i f v = some a → v.checkLanes (spaceOf f) a.acc a.size true a.quiet a.lanes = .ok ls → Unhindered f v ls →
    (i = .st f → watchStore v (spaceOf f) a.size ls = none) → (s.split.gated = none ∨ (s.split.gated = some ls ∧ ∀ x ∈ ls, ∀ h ∈ x.met, v.owns h = true)) →
    ∃ t, exec i s = .next t ∧ Entered f ((if i = .ld f ∨ i = .st f then inWords f ls else ls).map (accessAsks i f v)) s t ∧ (ls.map fun x => (x.lane, x.va)) = a.lanes ∧
      ((i = .ld f ∨ i = .ldfe f ∨ i = .atom f) → ∃ p, t.team.pending = s.team.pending ++ [p] ∧ p.value = none ∧ p.regs = awaited f) ∧
      ((i = .st f ∨ i = .stfe f ∨ i = .red f) → t.team.pending = s.team.pending)

/-- R161, R173, R176, R298, R301: the first lane, in ascending order, that a check of R161 stops decides: a fault with its address and
lane, a VIOL with an entry of the violation log, or for a demand entry a park until the driver answers, which becomes XLATE if it refuses. An
access that meets a page that the host owns asks the host for it and parks; the refusal raises MIGRATE at the lowest lane that meets it. -/
def Obligations.AccessStops : Prop :=
  (∀ (i : Instr) (f : Fmt) (s : State) (a : AccessForm) (l : Nat) (va : Addr), Acts i f s →
     let v := s.seen i f
     accessForm i f v = some a → s.split.gated = none →
     (∀ c, v.checkLanes (spaceOf f) a.acc a.size true a.quiet a.lanes = .error (.fault c, l, va) →
       exec i s = .next (s.takeFault (laneFlt c va l))) ∧
     (∀ x, v.checkLanes (spaceOf f) a.acc a.size true a.quiet a.lanes = .error (.refused x, l, va) →
       exec i s = .next ((s.takeFault (laneFlt .VIOL va l)).logViol x)) ∧
     (v.checkLanes (spaceOf f) a.acc a.size true a.quiet a.lanes = .error (.driver, l, va) →
       ∃ t, exec i s = .next t ∧ ParkedAt (.driver (laneFlt .XLATE va l)) s t ∧ (s.inHelper = false → t.team.fetchOff = some s.split.id)) ∧
     (v.checkLanes (spaceOf f) a.acc a.size true a.quiet a.lanes = .error (.wait, l, va) →
       ∃ t, exec i s = .next t ∧ ParkedAt .paused s t ∧ ∀ k, t.byte k = s.byte k)) ∧
  (∀ (i : Instr) (f : Fmt) (s : State) (a : AccessForm) (ls : List Loc) (x : Loc) (n : Nat), Acts i f s →
     let v := s.seen i f
     accessForm i f v = some a → s.split.gated = none →
     v.checkLanes (spaceOf f) a.acc a.size true a.quiet a.lanes = .ok ls →
     (ls.find? fun x => !x.hosts.isEmpty) = some x → x.hosts.head? = some n →
     ∃ t, exec i s = .next t ∧ ParkedAt (.page n (some (laneFlt .MIGRATE x.va x.lane))) s t ∧ (t.pages.get {} n).asked = true ∧
       ∀ k, t.byte k = s.byte k)

/-- R146, R184, R205, R214: an access of global memory that meets colours that its team does not hold: HCOLOUR in a helper body, CHELD past 16
held colours, CORDER where the lowest is below the greatest held. Else the team takes them in ascending order: of each free colour it becomes
the holder, the colour joins the held ones with the depth, and an acquire entry enters; at one that is not free it joins that colour's entry
queue and parks; once it holds them all, the access enters behind the acquires. That `fraddr` and `frlane` of HCOLOUR, CHELD and CORDER are
those of the lane whose address meets the colour is read from R303 (log entry 27). -/
def Obligations.ColourStage : Prop :=
  ∀ (i : Instr) (f : Fmt) (s : State) (a : AccessForm) (ls : List Loc) (c : Nat) (x : Loc) (r : List (Nat × Loc)), Acts i f s →
    let v := s.seen i f
    let sought := c :: r.map Prod.fst
    let acquire := fun d : Nat => ({ team := s.team.id, kind := .acquire d, locs := [], va := 0, lane := 0, acq := true } : Asks)
    let takes := fun (ds : List Nat) (t : State) => t.team.held = s.team.held ++ ds.map (fun d => (d, s.team.fdepth)) ∧
      ∀ d ∈ ds, ((t.ctx s.team.ctx).monitors.get {} d).holder = some s.team.id
    accessForm i f v = some a → a.colours = true → spaceOf f = .g → s.split.gated = none →
    v.checkLanes (spaceOf f) a.acc a.size true a.quiet a.lanes = .ok ls → (∀ y ∈ ls, y.hosts = [] ∧ y.drop = none) →
    v.newColours ls = (c, x) :: r →
    (s.inHelper = true → exec i s = .next (s.takeFault (laneFlt .HCOLOUR x.va x.lane))) ∧
    (s.inHelper = false → 16 < s.team.held.length + r.length + 1 →
      ∃ y ∈ (c, x) :: r, (∀ z ∈ (c, x) :: r, y.2.lane ≤ z.2.lane) ∧ exec i s = .next (s.takeFault (laneFlt .CHELD y.2.va y.2.lane))) ∧
    (s.inHelper = false → s.team.held.length + r.length + 1 ≤ 16 → s.team.held ≠ [] → c < topColour s.team →
      exec i s = .next (s.takeFault (laneFlt .CORDER x.va x.lane))) ∧
    (s.inHelper = false → s.team.held.length + r.length + 1 ≤ 16 → (s.team.held = [] ∨ topColour s.team ≤ c) →
      (i = .st f → watchStore v (spaceOf f) a.size ls = none) →
      (∀ pre d post, sought = pre ++ d :: post → (∀ y ∈ pre, s.colourFree y = true) → s.colourFree d = false →
        ∃ t, exec i s = .next t ∧ ParkedAt (.colour (d :: post)) s t ∧ takes pre t ∧ t.split.gated = some ls ∧
          t.entries.map Entry.asks = s.entries.map Entry.asks ++ pre.map acquire ∧ (∀ k, t.byte k = s.byte k) ∧
          ((t.ctx s.team.ctx).monitors.get {} d).entry = ((s.ctx s.team.ctx).monitors.get {} d).entry ++ [s.team.id]) ∧
      ((∀ d ∈ sought, s.colourFree d = true) →
        ∃ t, exec i s = .next t ∧ takes sought t ∧ RegistersKept [] s t ∧ (∀ k, t.byte k = s.byte k) ∧
          t.split.pc = s.split.pc + BitVec.ofNat 64 f.len.bytes ∧
          t.entries.map Entry.asks = s.entries.map Entry.asks ++ sought.map acquire ++ ls.map (accessAsks i f v)))

/-- R206, R225, R226, R231: `fence` enters a fence entry; `pref` past its tag checks changes nothing; `cwb` and `cinv` enter one entry
for each line that their lanes name in pages that the device owns. -/
def Obligations.FenceAndLineControls : Prop :=
  (∀ (f : Fmt) (s : State), Acts (.fence f) f s →
    ∃ t, exec (.fence f) s = .next t ∧ Entered f [{ team := s.team.id, kind := .fence, locs := [], va := 0, lane := 0 }] s t) ∧
  (∀ (f : Fmt) (s : State), Acts (.pref f) f s → addrTags f (s.seen (.pref f) f) = true →
    ∃ t, exec (.pref f) s = .next t ∧ Stepped f [] s t) ∧
  (∀ (i : Instr) (f : Fmt) (s : State) (ls : List Loc), Acts i f s → (i = .cwb f ∨ i = .cinv f) →
    let v := s.seen i f
    addrTags f v = true → v.checkLanes .g .load 1 false false (accessLanes f v) = .ok ls →
    ∃ t, exec i s = .next t ∧
      Entered f ((byLine (ls.filter fun x => x.hosts.isEmpty)).map fun x =>
        { team := s.team.id, kind := if i = .cwb f then .writeback else .invalidate, va := x.va, lane := x.lane,
          locs := (List.range 128).map fun k => 128 * (x.keys.headD 0 / 128) + k }) s t)

/-- R227, R228: `pgrel` and `pgown` of device memory, of a page that the device owns, and of a page that the host owns. -/
def Obligations.PageControls : Prop :=
  ∀ (i : Instr) (f : Fmt) (s : State) (p : Phys), Acts i f s → (i = .pgrel f ∨ i = .pgown f) →
    let v := s.seen i f
    let va := baseAddr f v
    (v.diverged = true → exec i s = .next (s.takeFault (wholeFlt .UDIV))) ∧
    (v.diverged = false → canonical va = false → exec i s = .next (s.takeFault (laneFlt .XLATE va 0))) ∧
    (v.diverged = false → canonical va = true → v.translate v.team.ctx v.team.launch v.team.part v.team.core .other va = .ok p →
      (p.host = none → s.split.answer = none → ∃ t, exec i s = .next t ∧ Awaits f [.bit f.d.toNat (i = .pgown f)] s t) ∧
      (∀ n, p.host = some n → s.owns n = true → i = .pgrel f →
        ∃ t, exec i s = .next t ∧ Entered f [{ team := s.team.id, kind := .giveback n f.d.toNat, locs := [], va := va, lane := 0, rel := true }] s t) ∧
      (∀ n, p.host = some n → s.owns n = true → i = .pgown f → s.split.answer = none →
        ∃ t, exec i s = .next t ∧ Awaits f [.bit f.d.toNat true] s t) ∧
      (∀ n, p.host = some n → s.owns n = false → i = .pgrel f → ∃ t, exec i s = .next t ∧ Awaits f [.bit f.d.toNat true] s t) ∧
      (∀ n, p.host = some n → s.owns n = false → i = .pgown f → s.split.answer ≠ some false →
        ∃ t, exec i s = .next t ∧ ParkedAt (.page n none) s t ∧ (t.pages.get {} n).asked = true))

/-- R35, R44, R58: `lit` reads a literal of 4 or 8 bytes of a pool at pc + sx(imm, 32): ALIGN where it is not aligned, PERM where it lies
outside the pools, and the value, extended to the active lanes or to a uniform register or pair, is on its way. The `frlane` of a fault in
the varying class is read as log entry 27 says; that the value is that of memory's present bytes, where the team has stored into the pool too,
is the model's choice (log entry 73). -/
def Obligations.LiteralLoad : Prop :=
  ∀ (f : Fmt) (s : State), Acts (.lit f) f s →
    let v := s.seen (.lit f) f
    let n := if f.x.ty.is64 then 8 else 4
    let a := pcRel s.split.pc f.imm
    let flt := fun c => if f.cls = .var then wholeFlt c a else laneFlt c a 0
    (f.cls = .uni → v.diverged = true → exec (.lit f) s = .next (s.takeFault (wholeFlt .UDIV))) ∧
    ((f.cls = .var ∨ v.diverged = false) → a.toNat % n ≠ 0 → exec (.lit f) s = .next (s.takeFault (flt .ALIGN))) ∧
    ((f.cls = .var ∨ v.diverged = false) → a.toNat % n = 0 → inPool v.owner a n = false →
      exec (.lit f) s = .next (s.takeFault (flt .PERM))) ∧
    (∀ x, (f.cls = .var ∨ v.diverged = false) → a.toNat % n = 0 → inPool v.owner a n = true →
      v.checkLane .g .load n true 0 a = .ok x → x.hosts = [] →
      let w := leNat 8 (s.bytesAs x.kid x.keys)
      let lo := BitVec.ofNat 32 w
      let xs : List Landing :=
        if f.cls = .var then
          [.lanes f.d.toNat (some (if f.x.ty = .f32 then .f32 else .i32)) ((activeLanes f v).map fun l => (l, lo))]
        else if f.x.ty.is64 then [.word f.d.toNat lo, .word (f.d.toNat + 1) (BitVec.ofNat 32 (w / 2 ^ 32))] else [.word f.d.toNat lo]
      ∃ u tlb homes dies, Awaits f xs s u ∧ exec (.lit f) s = .next { u with tlb := tlb, homes := homes, dies := dies })


/-! ### Moves of the order machine and the engines -/

/-- R202, R204, R213, R219, R229, R337: the commit of a store writes exactly its data at its locations; the commit of an atomic writes the
operation's new value there and delivers the old one; the commit of a load writes its register's lane and no byte of memory. A write keeps of
the rest of its lines what its key identifier decrypts them to. How a load's value is chosen, and when a watchpoint reports, are read as log
entries 16, 17 and 36 say. -/
def Obligations.Commits : Prop :=
  ∀ (s : State) (e : Entry),
    let u := s.unfocus
    let place : Place := ⟨e.locs, e.key⟩
    let at? := fun (bs : List Byte) (k : Nat) => (e.locs.idxOf? k).elim (s.kept place k) fun i => bs.getD i 0
    let delivered := fun (t : State) (d : Dest) (x : Nat) =>
      ∃ w, t.findTeam e.team = some w ∧ w.v.get 0 (1024 * d.reg + d.lane) = extendTo 32 d.bits d.uns x
    let register := fun (d : Dest) => e.dest = some d ∧ d.var = true ∧ d.wide = false ∧ d.reg < 248
    (u.entries.find? fun y => y.id == e.id) = some e → u.canCommit e = true → u.targetRefuses e = false → e.locs.Nodup →
    ((e.kind = .store ∨ e.kind = .stfe) → e.data.length = e.locs.length →
      ∃ t, exec (.commit e.id) s = .next t ∧ ∀ k, t.byte k = at? e.data k) ∧
    (e.kind = .load → e.team ≠ 0 → (u.others.any fun t => t.id == e.team) = true →
      ∃ t, exec (.commit e.id) s = .next t ∧ (∀ k, t.byte k = s.byte k) ∧
        ∀ d, register d → delivered t d (leNat 8 (u.readEntry e))) ∧
    (∀ op ty x ret, e.kind = .atomic op ty x ret → e.inside = true → e.dom ≠ .core → e.locs.length = memSize ty →
      watched (u.part (u.teamOf e).part) (u.teamOf e).ctx ((List.range (memSize ty)).map (e.va.toNat + ·)) = [] →
      e.team ≠ 0 → (u.others.any fun t => t.id == e.team) = true →
      let old := s.bytesAs e.key e.locs
      ∃ t, exec (.commit e.id) s = .next t ∧
        (∀ k, t.byte k = match atomNew op ty (leNat 8 old) x (leNat 8 e.data) with
          | some new => at? (leBytes (memSize ty) new) k
          | none => s.byte k) ∧
        ∀ d, register d → delivered t d (leNat 8 old))

/-- R60, R229: the new value of each atomic operation from the old value and the data: on the `w` bits of an integer type; for `exch` and `cas`
of f32 on its bits; `fadd` rounds the exact sum to nearest even, writes a NaN as 0x7FC00000, and the zero of operands of opposite sign as +0.
`cas` writes only where the old value equals the compare value. -/
def Obligations.AtomicValues : Prop :=
  (∀ (ty : Ty) (m x cmp : Nat), ty ∈ [Ty.i32, .z32, .i64, .z64] → m < 2 ^ (8 * memSize ty) → x < 2 ^ (8 * memSize ty) →
    let w := 8 * memSize ty
    let val := fun n : Nat => if ty.unsigned then (n : Int) else if n < 2 ^ (w - 1) then (n : Int) else (n : Int) - 2 ^ w
    atomNew 0 ty m x cmp = some ((m + x) % 2 ^ w) ∧
    atomNew 1 ty m x cmp = some (if val m < val x then m else x) ∧
    atomNew 2 ty m x cmp = some (if val m < val x then x else m) ∧
    atomNew 3 ty m x cmp = some (m &&& x) ∧ atomNew 4 ty m x cmp = some (m ||| x) ∧ atomNew 5 ty m x cmp = some (m ^^^ x) ∧
    atomNew 6 ty m x cmp = some x ∧ atomNew 7 ty m x cmp = if m = cmp then some x else none) ∧
  (∀ (m x cmp : Nat), m < 2 ^ 32 → x < 2 ^ 32 →
    let sum := (FFmt.f32.decode m).add .rne (FFmt.f32.decode x)
    atomNew 6 .f32 m x cmp = some x ∧ (atomNew 7 .f32 m x cmp = if m = cmp then some x else none) ∧
    (sum = .nan → atomNew 8 .f32 m x cmp = some 0x7FC00000) ∧
    (sum ≠ .nan → atomNew 8 .f32 m x cmp = some (FFmt.f32.round .rne false sum)) ∧
    (m < 0x7F800000 → x = m + 2 ^ 31 → atomNew 8 .f32 m x cmp = some 0))

/-- R204, R206, R209, R223, R242: an update at the head of its queue reaches its sharer's copy; a fence with nothing older left retires; an
element of a command that lies in one block of 16 bytes and whose accesses go through is performed at once, and one that writes scratchpad
bytes writes what it read; of a longer one the first piece is read, and the element waits for the rest. Update queues and what an update
leaves of a newer store are read as log entries 15 and 34 say, and that a longer element moves in pieces of 16 bytes as log entry 43 says; the
element here belongs to a command that has written nothing yet (log entry 67), and no die link is being retrained. -/
def Obligations.QueueAndEngineMoves : Prop :=
  (∀ (s : State) (home core : Nat) (q : Update), s.unfocus.headUpdate home core = some q →
    ∃ t, exec (.propagate home core) s = .next t ∧ (∀ k, t.byte k = s.byte k) ∧
      ∀ kid x, s.unfocus.share q.core kid q.line = some x → ∃ y, t.share q.core kid q.line = some y ∧
        y.data = q.bytes.foldl (fun m b => m.set 0 b.1 b.2) x.data ∧ (q.fill = true → y.ready = true)) ∧
  (∀ (s : State) (e : Entry), (s.unfocus.entries.find? fun y => y.id == e.id) = some e → s.unfocus.canRetire e = true →
    (∀ x ∈ s.unperf, x.store ≠ e.id) →
    ∃ t, exec (.fenceRetirement e.id) s = .next t ∧ (∀ y ∈ t.entries, y.id ≠ e.id) ∧ ∀ k, t.byte k = s.byte k) ∧
  (∀ (s : State) (id n : Nat) (c : Command),
    let u := s.unfocus
    let e := elementOf c n
    let fits := fun (x : Space × Addr) => pieceAt x.2 e.bytes 0 = e.bytes
    (u.commands.find? fun c => c.id == id) = some c → u.mayMove c n = true → c.elems.get .todo n = .todo →
    (e.read.isSome ∨ e.write.isSome) = true → (∀ l ∈ u.links, l.2 ≠ 2) →
    (∀ x, e.read = some x → ∃ ks kid, u.reach c x e.bytes false (peerSides c).1 = .ok ks kid) →
    (∀ x, e.write = some x → ∃ ks kid, u.reach c x e.bytes true (peerSides c).2 = .ok ks kid) →
    ((∀ x, e.read = some x → fits x) → (∀ x, e.write = some x → fits x) →
      ∃ t, exec (.engineElement id n) s = .next t ∧ (∀ c' ∈ t.commands, c'.id = id → c'.elems.get .todo n = .done) ∧
        ∀ x va ks kid, e.read = some x → e.write = some (.sp, va) → c.elems = [] → c.olds = [] →
          u.reach c x e.bytes false (peerSides c).1 = .ok ks kid →
          ∀ i, i < e.bytes → t.byte (padKey c.block (va.toNat + i)) = u.homeByte (u.asEntry c x ks kid) i (ks.getD i 0)) ∧
    (∀ x ks kid, e.read = some x → ¬ fits x → u.reach c x (pieceAt x.2 e.bytes 0) false (peerSides c).1 = .ok ks kid →
      ∃ t, exec (.engineElement id n) s = .next t ∧ ∀ c' ∈ t.commands, c'.id = id →
        ∃ l, c'.elems.get .todo n = .part l ∧ l.length = pieceAt x.2 e.bytes 0))


/-! ### Register blocks, rendezvous, barriers -/

/-- R93, R94, R127, R128: `setpart` sets the tile of cross-lane work; `rgacq` takes blocks where they fit and no earlier request waits,
else it waits (`rgacq.try` answers); `rgrel` gives the highest blocks back and grants waiting requests; registers outside the held blocks
are gone. That a `.try` does not overtake a waiting team, and what a request that never fits does, are read as log entries 37 and 39 say;
that `rgacq.try` with k = 0 answers true is the model's choice (log entry 94). -/
def Obligations.RegisterBlocks : Prop :=
  (∀ (f : Fmt) (s : State), Acts (.setpart f) f s →
    let v := s.seen (.setpart f) f
    let w := if f.len = .l128 then f.imm else v.readS f.b.toNat
    (4 < w.toNat → exec (.setpart f) s = .next (s.takeFault (laneFlt .ILLENC 0 0))) ∧
    (w.toNat ≤ 4 → v.diverged = true → exec (.setpart f) s = .next (s.takeFault (wholeFlt .UDIV))) ∧
    (w.toNat ≤ 4 → v.diverged = false →
      Performs (.setpart f) f s fun u => u.modTeam fun t => { t with tile := w.extractLsb' 0 3 })) ∧
  (∀ (i : Instr) (f : Fmt) (s : State), Acts i f s → (i = .rgacq f ∨ i = .rgacqTry f) →
    let v := s.seen i f
    let k := f.imm.toNat
    let fits := (v.core s.team.core).acquirers = [] ∧ s.team.blocks + k ≤ 31 ∧ v.rankBlocks s.team.core + k * ranksOf s.team.n ≤ 512
    (v.diverged = true → exec i s = .next (s.takeFault (wholeFlt .UDIV))) ∧
    (v.diverged = false → k = 0 →
      (i = .rgacq f → ∃ t, exec i s = .next t ∧ Stepped f [] s t) ∧
      (i = .rgacqTry f → ∃ t, exec i s = .next t ∧ Awaits f [.bit f.d.toNat true] s t)) ∧
    (v.diverged = false → k ≠ 0 → fits →
      (i = .rgacq f → Performs i f s fun u => u.modTeam (setBlocks (s.team.blocks + k))) ∧
      (i = .rgacqTry f → PerformsAwaiting i f s [.bit f.d.toNat true] fun u => u.modTeam (setBlocks (s.team.blocks + k)))) ∧
    (v.diverged = false → k ≠ 0 → ¬ fits →
      (i = .rgacq f → Performs i f s fun u =>
        let u := u.modSplit fun x => { x with park := .acquire k, buffer := false }
        if s.team.blocks + k ≤ 31 then
          u.modCore s.team.core fun c =>
            { c with acquirers := c.acquirers ++ [{ team := s.team.id, split := s.split.id, flight := s.nextId }] }
        else u) ∧
      (i = .rgacqTry f → ∃ t, exec i s = .next t ∧ Awaits f [.bit f.d.toNat false] s t))) ∧
  (∀ (f : Fmt) (s : State), Acts (.rgrel f) f s →
    let v := s.seen (.rgrel f) f
    let m := s.team.blocks - f.imm.toNat
    let open? := s.team.recruit.state ≠ .none ∨ s.team.expand.isSome = true
    let busy := ∃ p ∈ s.team.pending, ∃ n, Reg.v n ∈ p.regs ∧ 8 * m ≤ n ∧ n < 248
    (v.diverged = true → exec (.rgrel f) s = .next (s.takeFault (wholeFlt .UDIV))) ∧
    (v.diverged = false → open? → exec (.rgrel f) s = .next (s.takeFault (wholeFlt .PERM))) ∧
    (v.diverged = false → ¬ open? → busy → ∃ t, exec (.rgrel f) s = .next t ∧ ParkedAt .paused s t) ∧
    (v.diverged = false → ¬ open? → ¬ busy → Performs (.rgrel f) f s fun u =>
      let w := (u.modTeam (setBlocks m)).unfocus
      (grantBlocks s.team.core (w.core s.team.core).acquirers w).focus s.team.id s.split.id)) ∧
  (∀ (m r l : Nat) (t : Team), l < 1024 →
    (setBlocks m t).blocks = m ∧
    (setBlocks m t).v.get 0 (1024 * r + l) = (if 8 * m ≤ r ∧ r < 248 then 0 else t.v.get 0 (1024 * r + l)) ∧
    (setBlocks m t).tags.get .raw r = if 8 * m ≤ r ∧ r < 248 then .raw else t.tags.get .raw r)

/-- R129 to R132, R210, R211: a sender and a receiver of a slot meet in order of arrival, and the sender's active lanes reach the
receiver's register; the first of the two waits. A team that arrives at a barrier waits, and a generation is not complete while a live
team of the block has not arrived. -/
def Obligations.RendezvousAndBarriers : Prop :=
  (∀ (f : Fmt) (s : State), Acts (.rvsend f) f s →
    let v := s.seen (.rvsend f) f
    let k := f.b.toNat
    let slot := s.block.slots.get {} k
    let me : Party := { team := s.team.id, split := s.split.id, flight := s.nextId, reg := f.a.toNat, active := activeMask f v,
                        vals := (activeLanes f v).map fun l => (l, rawA f v l), tag := copyTag f v }
    (slot.receivers = [] → Performs (.rvsend f) f s fun u =>
      (u.modBlock s.team.block fun b => { b with slots := b.slots.set {} k { slot with senders := slot.senders ++ [me] } }).modSplit
        fun x => { x with park := .rendezvous k true, buffer := false }) ∧
    (∀ r rest w, slot.receivers = r :: rest → Single s → r.team ≠ s.team.id → r.team ≠ 0 →
      (s.others.find? fun t => t.id == r.team) = some w → r.reg < 248 → (∀ x ∈ w.every, x.id = r.split → x.wave = none) →
      ∃ t y, exec (.rvsend f) s = .next t ∧ t.findTeam r.team = some y ∧ (∀ k, t.byte k = s.byte k) ∧
        y.tags.get .raw r.reg = copyTag f v ∧
        ∀ l, l < 1024 → y.v.get 0 (1024 * r.reg + l) =
          if l < w.n ∧ l < s.team.n ∧ r.active.getLsbD l = true then (if l ∈ activeLanes f v then rawA f v l else 0)
          else w.v.get 0 (1024 * r.reg + l))) ∧
  (∀ (f : Fmt) (s : State), Acts (.rvrecv f) f s →
    let v := s.seen (.rvrecv f) f
    let k := f.b.toNat
    let slot := s.block.slots.get {} k
    let me : Party := { team := s.team.id, split := s.split.id, flight := s.nextId, reg := f.d.toNat, active := activeMask f v }
    (slot.senders = [] → ∃ u n, Expects f [.v f.d.toNat] s u ∧ exec (.rvrecv f) s = .next
      { (u.modBlock s.team.block fun b => { b with slots := b.slots.set {} k { slot with receivers := slot.receivers ++ [me] } }).modSplit
          (fun x => { x with park := .rendezvous k false, buffer := false }) with free := n }) ∧
    (∀ p rest, slot.senders = p :: rest →
      PerformsAwaiting (.rvrecv f) f s [transferred (((s.findTeam p.team).map Team.n).getD 0) s.team.n p me] fun u =>
        ((u.modBlock s.team.block fun b => { b with slots := b.slots.set {} k { slot with senders := rest } }).unfocus.partyDone p).focus
          s.team.id s.split.id)) ∧
  (∀ (i : Instr) (f : Fmt) (s : State), Acts i f s → (i = .bar f ∨ i = .barx f) →
    let v := s.seen i f
    let k := f.b.toNat
    let me : Arrival := { team := s.team.id, entries := s.split.older.filter fun e => !s.entryGone e }
    (v.diverged = true → exec i s = .next (s.takeFault (wholeFlt .UDIV))) ∧
    (v.diverged = false → Performs i f s fun u =>
      ((u.modBlock s.team.block fun b =>
        let bar := b.barriers.get {} k
        { b with barriers := b.barriers.set {} k { bar with arrived := bar.arrived ++ [me], x := bar.x || decide (i = .barx f) } }).modSplit
        fun x => { x with park := .barrier k, buffer := false }).unfocus.checkBarriers s.team.block)) ∧
  (∀ (s : State) (b : Block) (t : Team), s.findBlock b.id = some b → t ∈ s.liveTeams b →
    (∀ k, k < 8 → ((b.barriers.get {} k).arrived.map Arrival.team).Nodup ∧ ∀ a ∈ (b.barriers.get {} k).arrived, a.team ≠ t.id) →
    s.checkBarriers b.id = s)

/-! ### Helpers and expansions -/

/-- R134 to R147: `recruit` forms a helper group on the first idle lanes, or answers why not; `hnext` deals iterations in ascending order,
returned ones first; `hred` folds a contribution into its iteration's part; `hwait` ends the recruitment once no helper is left and lands
its targets; `hrel` cancels; `hexit` takes helpers out of their group. Corners that R134 to R148 leave are read as log entry 39 says; that
`hnext` in a drafted group raises ILLENC is the model's choice (log entry 79). -/
def Obligations.Recruitment : Prop :=
  (∀ (f : Fmt) (s : State), Acts (.recruit f) f s →
    let v := s.seen (.recruit f) f
    let count := fun n => Landing.word f.d.toNat (BitVec.ofNat 32 n)
    let n := (v.readS f.a.toNat).toNat
    let lanes := (v.idleLanes false).take (min (min (min (v.readS f.x.c.toNat).toNat 1024) n) (v.freeSets s.team.core))
    (v.diverged = true → exec (.recruit f) s = .next (s.takeFault (wholeFlt .UDIV))) ∧
    (v.diverged = false → s.inHelper = true → ∃ t, exec (.recruit f) s = .next t ∧ Awaits f [.bit f.b.toNat false] s t) ∧
    (∀ c, v.diverged = false → s.inHelper = false → (v.refusal = some c ∨ (v.refusal = none ∧ lanes = [] ∧ c = 1)) →
      ∃ t, exec (.recruit f) s = .next t ∧ Awaits f [count c, .bit f.b.toNat false] s t) ∧
    (v.diverged = false → s.inHelper = false → v.refusal = none → lanes ≠ [] →
      ∃ u g x k, Awaits f [count lanes.length, .bit f.b.toNat true] s u ∧
        exec (.recruit f) s = .next { u with
          team := { u.team with recruit := { state := .active, l0 := (lowestLane s.team.n s.split.mask).getD 0, total := n, group := some g.id } },
          others := insertTeam g s.others, free := k } ∧
        g.role = .helper s.team.id ∧ g.n = lanes.length ∧ g.live = fullMask lanes.length ∧
        (g.lent.map fun y => (y.team, y.lane)) = lanes ∧ g.splits = [x] ∧ x.pc = pcRel s.split.pc f.imm &&& ~~~3 ∧ x.mask = g.live ∧
        (∀ y, g.s.get 0 y = 0) ∧ g.core = s.team.core)) ∧
  (∀ (f : Fmt) (s : State), Acts (.hnext f) f s →
    (dealSource s = none → exec (.hnext f) s = .next (s.takeFault (wholeFlt .ILLENC))) ∧
    (∀ r, dealSource s = some r → (s.inHelper = true → leaving s.team &&& s.split.mask = 0) →
      let ls := lanesOf s.team.n s.split.mask
      let after := if s.inHelper then (deal ls r).1 else (deal ls r.swap).1.swap
      let out := if s.inHelper then (deal ls r).2 else (deal ls r.swap).2
      let got := out.filterMap fun x => x.2.map fun i => (x.1, BitVec.ofNat 32 i)
      PerformsAwaiting (.hnext f) f s
        [.lanes f.d.toNat (if got.isEmpty then none else some .i32) got, .preds f.b.toNat (out.map fun x => (x.1, x.2.isSome))]
        fun u => u.modRecruit fun _ => after)) ∧
  (∀ (ls : List Nat) (r : Recruit), r.state ≠ .cancelled →
    (deal ls r).2 = ls.mapIdx fun k l =>
      (l, if k < r.returned.length then r.returned[k]?
          else if r.next + (k - r.returned.length) < r.total then some (r.next + (k - r.returned.length)) else none)) ∧
  (∀ (f : Fmt) (s : State) (r : Recruit), Acts (.hred f) f s → redSource s = some r →
    let v := s.seen (.hred f) f
    let q := f.x.qual.toNat
    let reg := redReg f s
    let old := r.targets.find? fun g => g.reg == reg
    let base : Target := old.getD { reg := reg, op := q, rnd := f.x.rnd }
    let ls := activeLanes f v
    let made : Target := { base with parts :=
      (ls.map fun l => ((iterOf s r l).getD 0, v.readV f.a.toNat l)).foldl (contribute q f.x.rnd) base.parts }
    redHeld f s = true → (old = none → r.targets.length < 4) → (∀ g, old = some g → g.op = q) →
    (∀ l ∈ ls, ∃ i, iterOf s r l = some i ∧ (q = 6 → i < 1024)) →
    tagIn v f.a.toNat (if q = 6 then [.f32] else if q ≥ 3 then [.i32, .raw] else [.i32]) = true →
    v.owner.tags.get .raw reg = (if q = 6 then .f32 else .i32) →
    Performs (.hred f) f s fun u => u.modRecruit fun r =>
      { r with targets := if old.isSome then r.targets.map fun g => if g.reg = reg then made else g else r.targets ++ [made] }) ∧
  (∀ (f : Fmt) (s : State), Acts (.hwait f) f s →
    let v := s.seen (.hwait f) f
    let r := s.team.recruit
    (v.diverged = true → exec (.hwait f) s = .next (s.takeFault (wholeFlt .UDIV))) ∧
    (v.diverged = false → r.state = .none →
      ∃ t, exec (.hwait f) s = .next t ∧ Stepped f [.q f.d.toNat] s t ∧ (f.d.toNat ≠ 7 → t.regQ f.d.toNat = false)) ∧
    (v.diverged = false → r.state ≠ .none → r.group.isSome = true →
      ∃ t, exec (.hwait f) s = .next t ∧ ParkedAt .helpers s t) ∧
    (∀ e, v.diverged = false → r.state ≠ .none → r.group = none → r.fault = some e →
      exec (.hwait f) s = .next (((s.afterGroup (.helper s.team.id)).modTeam
        fun t => helperRecord e false { t with recruit := {} }).takeFault (helperFlt e))) ∧
    (v.diverged = false → r.state ≠ .none → r.group = none → r.fault = none → r.state ≠ .cancelled → r.remains = true →
      ∃ u n, Stepped f [.q f.d.toNat] s u ∧ (f.d.toNat ≠ 7 → u.regQ f.d.toNat = true) ∧
        exec (.hwait f) s = .next { u with team := { u.team with recruit := { r with state := .released } }, free := n }) ∧
    (v.diverged = false → r.state ≠ .none → r.group = none → r.fault = none → (r.state = .cancelled ∨ r.remains = false) →
      Performs (.hwait f) f s fun u =>
        (((r.targets.foldl (landTarget r) u).afterGroup (.helper s.team.id)).modTeam fun t => { t with recruit := {} }).writeQ
          f.d.toNat false)) ∧
  (∀ (f : Fmt) (s : State), Acts (.hrel f) f s →
    let v := s.seen (.hrel f) f
    (v.diverged = true → exec (.hrel f) s = .next (s.takeFault (wholeFlt .UDIV))) ∧
    (v.diverged = false → s.team.recruit.state = .none → ∃ t, exec (.hrel f) s = .next t ∧ Stepped f [] s t) ∧
    (v.diverged = false → s.team.recruit.state ≠ .none →
      Performs (.hrel f) f s fun u => u.modTeam fun t => { t with recruit := { t.recruit with state := .cancelled, returned := [] } })) ∧
  (∀ (f : Fmt) (s : State), Acts (.hexit f) f s →
    (s.inHelper = false → exec (.hexit f) s = .next (s.takeFault (wholeFlt .ILLENC))) ∧
    (s.inHelper = true → Performs (.hexit f) f s fun u => u.leave (activeMask f (s.seen (.hexit f) f))))

/-- R149 to R157: `xpand` opens an expansion over its active lanes' segments where the unit has a place, and `xpand.n` drafts a group for
it; `xnext` closes the wave and deals the next; `segred` buffers one result for each owner; `xend` closes the expansion. Every number
below the total lies in exactly one owner's segment. Corners that R149 to R157 leave are read as log entry 40 says;
what a `segred` destination reads as before `xend` is free (log entry 66). -/
def Obligations.Expansions : Prop :=
  (∀ (i : Instr) (f : Fmt) (s : State), Acts i f s → (i = .xpand f ∨ i = .xpandN f) →
    let v := s.seen i f
    let ls := activeLanes f v
    let owners := ownersOf (ls.map fun l => (l, rawA f v l, lengthOf (rawB f v l))) 0
    let fits := tagsOk v (varA f ++ varB f) [.i32, .raw] = true
    let e : Expansion := { w := ls.length, workers := activeMask f v, owners := owners.1, total := owners.2 }
    let drafts := i = .xpandN f ∧ v.refusal = none ∧ e.w ≤ (v.idleLanes true).length ∧ e.w ≤ v.freeSets s.team.core
    (¬ fits → exec i s = .next (s.takeFault (wholeFlt .TAGMIS))) ∧
    (fits → s.team.expand.isSome = true → exec i s = .next (s.takeFault (wholeFlt .ILLENC))) ∧
    (fits → s.team.expand = none → 2 ^ 31 ≤ owners.2 → exec i s = .next (s.takeFault (wholeFlt .AFFOVF))) ∧
    (fits → s.team.expand = none → owners.2 < 2 ^ 31 → v.mayOpen = false →
      ∃ t, exec i s = .next t ∧ ParkedAt .expandUnit s t ∧ ∃ w ∈ (t.core s.team.core).expanders, w.team = s.team.id) ∧
    (fits → s.team.expand = none → owners.2 < 2 ^ 31 → v.mayOpen = true → ¬ drafts →
      Performs i f s fun u => u.unlist.modTeam fun t => { t with expand := some e, own := [], xshort := false }) ∧
    (fits → s.team.expand = none → owners.2 < 2 ^ 31 → v.mayOpen = true → drafts →
      ∃ u g x k, Stepped f [] s u ∧
        exec i s = .next { u.unlist with team := { u.team with expand := some { e with group := some g.id }, own := [], xshort := false },
                                         others := insertTeam g s.others, free := k } ∧
        g.role = .drafted s.team.id ∧ g.n = e.w ∧ g.live = fullMask e.w ∧ (g.lent.map fun y => (y.team, y.lane)) = (v.idleLanes true).take e.w ∧
        g.splits = [x] ∧ x.pc = v.readD f.d.toNat &&& ~~~3 ∧ x.mask = g.live)) ∧
  (∀ (ls : List (Nat × Word × Nat)) (n : Nat), n < (ownersOf ls 0).2 →
    ∃ o ∈ (ownersOf ls 0).1, (o.base ≤ n ∧ n < o.base + o.len) ∧
      ∀ p ∈ (ownersOf ls 0).1, p.base ≤ n → n < p.base + p.len → p = o) ∧
  (∀ (f : Fmt) (s : State), Acts (.xnext f) f s →
    (s.expansion = none → exec (.xnext f) s = .next (s.takeFault (wholeFlt .ILLENC))) ∧
    (∀ e, s.expansion = some e →
      let workers := if s.inHelper then s.team.live else e.workers
      let closed := fun (u : State) => if !s.inHelper && e.replay then u else u.closeCurrent
      (s.split.mask ≠ workers → exec (.xnext f) s = .next (s.takeFault (wholeFlt .UDIV))) ∧
      ∀ e', s.split.mask = workers → (closed s).expansion = some e' →
        (64 < e'.closed.length → ∃ t, exec (.xnext f) s = .next t ∧ ParkedAt .paused s t) ∧
        (e'.closed.length ≤ 64 → s.inHelper = true → leaving s.team ≠ 0 →
          Performs (.xnext f) f s fun u => u.closeCurrent.leave s.team.live) ∧
        (e'.closed.length ≤ 64 → (s.inHelper = true → leaving s.team = 0) →
          Performs (.xnext f) f s fun u => dealWave f s.nextId s.split.pc (closed u) e'))) ∧
  (∀ (f : Fmt) (s : State) (e : Expansion) (k : Nat), Acts (.segred f) f s → s.expansion = some e → currentWave s e = some k →
    let v := s.seen (.segred f) f
    let q := f.x.qual.toNat
    let tag : Tag := if q = 6 then .f32 else .i32
    let own := fun l => s.team.own.get 0 l
    let ls := (activeLanes f v).filter fun l => own l != 0xFFFFFFFF && (s.inHelper || e.workers.getLsbD l)
    let folded := (ls.map fun l => ((own l).toNat, v.readV f.a.toNat l)).foldl (contribute q f.x.rnd) []
    let segs := folded.map fun x =>
      ({ wave := k, reg := redReg f s, op := q, rnd := f.x.rnd, owner := x.1, value := x.2 } : Segment)
    redHeld f s = true → tagIn v f.a.toNat [tag] = true → v.owner.tags.get .raw (redReg f s) = tag →
    Performs (.segred f) f s fun u => u.modOwner fun t => { t with expand := t.expand.map fun e =>
      { e with segments := e.segments ++ segs, mixed := e.mixed ++ segs.map fun g => 1024 * g.reg + g.owner } }) ∧
  (∀ (f : Fmt) (s : State), Acts (.xend f) f s →
    (s.team.expand = none → exec (.xend f) s = .next (s.takeFault (wholeFlt .ILLENC))) ∧
    (∀ e, s.team.expand = some e →
      let ended := fun (u : State) =>
        (if e.replay then u else u.closeCurrent).modTeam fun t => { t with expand := t.expand.map fun e => { e with ending := true } }
      (s.split.mask ≠ e.workers → exec (.xend f) s = .next (s.takeFault (wholeFlt .UDIV))) ∧
      (s.split.mask = e.workers → e.group.isSome = true → ∃ t, exec (.xend f) s = .next t ∧ t.split.park = .stalled ∧
        t.split.pc = s.split.pc ∧ t.team.expand.map Expansion.ending = some true) ∧
      (s.split.mask = e.workers → e.group = none → e.fault = none → Performs (.xend f) f s fun u => (ended u).closeExpansion e) ∧
      (∀ x, s.split.mask = e.workers → e.group = none → e.fault = some x →
        exec (.xend f) s = .next (((s.closeExpansion e).modTeam (helperRecord x true)).takeFault (helperFlt x)))))

/-! ### Colours -/

/-- R183, R193 to R197: `tint` and `untint` change the coloured ranges all or nothing, after the checks of R193; `tintq` and `tintq.clr`
read a colour's state; `mtry` takes a free colour; `mwait` releases a held colour and waits on it; `mnote` and `mnall` move waiters to its
entry queue; `watch` waits until a word differs. That CHELD and CNOTHELD of the monitor instructions give `fraddr` 0 and lane 0, that the
ranges change at the issue of `tint`, and the bits of `tintq` for an abandoned or held colour are read as log entries 27 and 38 say; that
`watch` is an acquire entry whose split parks at once is read as log entry 41 says, and what a range of length 0 is checked for is the model's
choice (log entry 78). -/
def Obligations.Colours : Prop :=
  (∀ (i : Instr) (f : Fmt) (s : State), Acts i f s → (i = .tint f ∨ i = .untint f) →
    let v := s.seen i f
    let base := v.readD f.a.toNat
    let n := (v.readS f.b.toNat).toNat
    let c := (v.readS f.x.c.toNat).toNat % 65536
    let rs := (s.ctx s.team.ctx).ranges
    let strange :=
      if (i = .tint f) then n = 0 ∨ c = 0 ∨ (∃ r ∈ rs, r.meets base.toNat n = true) ∨ 1024 ≤ rs.length
      else ∃ r ∈ rs, r.meets base.toNat n = true ∧ r.within base.toNat n = false
    (v.diverged = true → exec i s = .next (s.takeFault (wholeFlt .UDIV))) ∧
    (∀ x, v.diverged = false → rangeFault base n = some x → exec i s = .next (s.takeFault x)) ∧
    (v.diverged = false → rangeFault base n = none → strange → ∃ t, exec i s = .next t ∧ Awaits f [.bit f.d.toNat false] s t) ∧
    (v.diverged = false → rangeFault base n = none → ¬ strange → PerformsAwaiting i f s [.bit f.d.toNat true] fun u =>
      u.modCtx s.team.ctx fun x => { x with ranges :=
        if (i = .tint f) then rs ++ [{ base := base.toNat, len := n, colour := c }] else rs.filter fun r => !r.within base.toNat n })) ∧
  (∀ (i : Instr) (f : Fmt) (s : State), Acts i f s → (i = .tintq f ∨ i = .tintqClr f) →
    let v := s.seen i f
    let va := v.readD f.a.toNat
    let c := v.colourOf s.team.ctx va
    let w := colourState v va
    (v.diverged = true → exec i s = .next (s.takeFault (wholeFlt .UDIV))) ∧
    (v.diverged = false → canonical va = false → exec i s = .next (s.takeFault (laneFlt .XLATE va 0))) ∧
    (i = .tintq f → v.diverged = false → canonical va = true →
      ∃ t, exec i s = .next t ∧ Awaits f [.word f.d.toNat w.1, .word (f.d.toNat + 1) w.2] s t) ∧
    (i = .tintqClr f → v.diverged = false → canonical va = true → (c = 0 ∨ holdsColour s.team c = false) →
      exec i s = .next (s.takeFault (laneFlt .CNOTHELD 0 0))) ∧
    (i = .tintqClr f → v.diverged = false → canonical va = true → c ≠ 0 → holdsColour s.team c = true →
      PerformsAwaiting i f s [.word f.d.toNat (w.1 &&& ~~~65536), .word (f.d.toNat + 1) w.2] fun u =>
        u.modCtx s.team.ctx fun x => { x with monitors := x.monitors.set {} c { x.monitors.get {} c with abandoned := false } })) ∧
  (∀ (f : Fmt) (s : State), Acts (.mtry f) f s →
    let v := s.seen (.mtry f) f
    let c := (v.readS f.a.toNat).toNat % 65536
    (v.diverged = true → exec (.mtry f) s = .next (s.takeFault (wholeFlt .UDIV))) ∧
    (v.diverged = false → (c = 0 ∨ holdsColour s.team c = true) →
      ∃ t, exec (.mtry f) s = .next t ∧ Awaits f [.bit f.d.toNat true] s t) ∧
    (v.diverged = false → c ≠ 0 → holdsColour s.team c = false → s.team.held.length = 16 →
      exec (.mtry f) s = .next (s.takeFault (laneFlt .CHELD 0 0))) ∧
    (v.diverged = false → c ≠ 0 → holdsColour s.team c = false → s.team.held.length ≠ 16 → s.colourFree c = false →
      ∃ t, exec (.mtry f) s = .next t ∧ Awaits f [.bit f.d.toNat false] s t) ∧
    (v.diverged = false → c ≠ 0 → holdsColour s.team c = false → s.team.held.length ≠ 16 → s.colourFree c = true →
      ∃ t, exec (.mtry f) s = .next t ∧ t.team.held = s.team.held ++ [(c, s.team.fdepth)] ∧
        ((t.ctx s.team.ctx).monitors.get {} c).holder = some s.team.id ∧ RegistersKept [] s t ∧ (∀ k, t.byte k = s.byte k) ∧
        (t.entries.map fun e => (e.team, e.kind)) = (s.entries.map fun e => (e.team, e.kind)) ++ [(s.team.id, .acquire c)] ∧
        ∃ p, t.team.pending = s.team.pending ++ [p] ∧ p.value = some [.bit f.d.toNat true])) ∧
  (∀ (f : Fmt) (s : State), Acts (.mwait f) f s →
    let v := s.seen (.mwait f) f
    let c := (v.readS f.a.toNat).toNat % 65536
    let held := s.team.held.find? fun h => h.1 == c
    (held = none → exec (.mwait f) s = .next (s.takeFault (laneFlt .CNOTHELD 0 0))) ∧
    (∀ h, held = some h →
      (v.diverged = true → exec (.mwait f) s = .next (s.takeFault (wholeFlt .UDIV))) ∧
      (v.diverged = false → lendingOpen s.team = true → exec (.mwait f) s = .next (s.takeFault (wholeFlt .PERM))) ∧
      (v.diverged = false → lendingOpen s.team = false → s.markedCommands s.team.id = true →
        ∃ t, exec (.mwait f) s = .next t ∧ ParkedAt .stalled s t) ∧
      (v.diverged = false → lendingOpen s.team = false → s.markedCommands s.team.id = false →
        ∃ t, exec (.mwait f) s = .next t ∧ t.split.park = .mwait c h.2 s.nextId ∧ t.team.held = s.team.held.filter (fun h => h.1 != c) ∧
          ((t.ctx s.team.ctx).monitors.get {} c).wait = ((s.ctx s.team.ctx).monitors.get {} c).wait ++ [s.team.id] ∧
          RegistersKept [] s t ∧ (∀ k, t.byte k = s.byte k) ∧
          (t.entries.map fun e => (e.team, e.kind)) = (s.entries.map fun e => (e.team, e.kind)) ++ [(s.team.id, .release c)]))) ∧
  (∀ (i : Instr) (f : Fmt) (s : State), Acts i f s → (i = .mnote f ∨ i = .mnall f) →
    let c := ((s.seen i f).readS f.a.toNat).toNat % 65536
    let m := (s.ctx s.team.ctx).monitors.get {} c
    let k := if (i = .mnall f) then m.wait.length else 1
    (holdsColour s.team c = false → exec i s = .next (s.takeFault (laneFlt .CNOTHELD 0 0))) ∧
    (holdsColour s.team c = true → Performs i f s fun u => (m.wait.take k).foldl State.reclaimLanes (u.modCtx s.team.ctx fun x =>
      { x with monitors := x.monitors.set {} c { m with entry := m.entry ++ m.wait.take k, wait := m.wait.drop k } }))) ∧
  (∀ (f : Fmt) (s : State) (ls : List Loc), Acts (.watch f) f s →
    let v := s.seen (.watch f) f
    let va := baseAddr f v
    let x := v.readS f.x.c.toNat
    v.diverged = false → s.split.gated = none → v.checkLanes (spaceOf f) .load 4 true false [(0, va)] = .ok ls → (∀ y ∈ ls, y.hosts = []) →
    ∃ t, exec (.watch f) s = .next t ∧ t.split.park = .watch (spaceOf f) va x ∧
      Entered f (ls.map fun y => { team := s.team.id, kind := .watch x, locs := y.keys, va := y.va, lane := y.lane,
                                   dest := some { reg := f.d.toNat }, acq := true, sp := spaceOf f = .sp }) s t ∧
      ∃ p, t.team.pending = s.team.pending ++ [p] ∧ p.value = none ∧ p.regs = [.s f.d.toNat])

/-! ### Engines, queues, the matrix unit -/

/-- R223, R237 to R242, R319: `ldline` and `tcopy` issue a command of their class and wait while its counter holds 63; `tshape` enters the read
of a shape record; `waitcnt` goes on once its counter is low enough, and takes a pending engine fault of its class, or a pending WATCHPT;
`cntrd` reads a counter. The place and the time of a command's effects are read as log entries 43 and 47 say. -/
def Obligations.EngineInstructions : Prop :=
  (∀ (f : Fmt) (s : State), Acts (.ldline f) f s →
    let v := s.seen (.ldline f) f
    let ranks := (List.range 32).filterMap fun j =>
      match (activeLanes f v).filter fun l => l / 32 == j with
      | [] => none
      | l :: r => some (l, memAddr f v l &&& ~~~127, l :: r)
    (addrTags f v = false → exec (.ldline f) s = .next (s.takeFault (wholeFlt .TAGMIS))) ∧
    (addrTags f v = true → 63 ≤ s.counter s.owner.id 2 → ∃ t, exec (.ldline f) s = .next t ∧ ParkedAt .paused s t) ∧
    (addrTags f v = true → s.counter s.owner.id 2 < 63 →
      (∀ x ∈ ranks, v.checkLane (spaceOf f) .load 128 false x.1 x.2.1 = .error .driver ∨
        ∃ y, v.checkLane (spaceOf f) .load 128 false x.1 x.2.1 = .ok y) →
      ∃ t c, exec (.ldline f) s = .next t ∧ Queued f [.v f.d.toNat] c s t ∧ c.cls = 2 ∧ c.total = ranks.length ∧
        c.kind = .line (spaceOf f) s.team.id s.split.id s.split.begun f.d.toNat (memTag f.x.ty) (ranks.map Prod.snd) ∧ t.regTag f.d.toNat = memTag f.x.ty ∧
        (∀ l, l < 1024 → t.regV f.d.toNat l = s.regV f.d.toNat l) ∧
        ∃ p, t.team.pending = s.team.pending ++ [p] ∧ p.value = none ∧ p.regs = [.v f.d.toNat])) ∧
  (∀ (f : Fmt) (s : State) (ls : List Loc), Acts (.tshape f) f s →
    let v := s.seen (.tshape f) f
    let pool := f.len = .l128
    let va := if f.len = .l128 then pcRel s.split.pc f.imm else baseAddr f v
    (v.diverged = true → exec (.tshape f) s = .next (s.takeFault (wholeFlt .UDIV))) ∧
    (v.diverged = false → pool → va.toNat % 64 = 0 → inPool s.team va 256 = false →
      exec (.tshape f) s = .next (s.takeFault (laneFlt .PERM va 0))) ∧
    (v.diverged = false → (pool → inPool s.team va 256 = true) → RecordReady v va 256 ls →
      ∃ t, exec (.tshape f) s = .next t ∧ Entered f (ls.map fun y =>
          { team := s.team.id, kind := .shape f.x.qual.toNat f.d.toNat, locs := y.keys, va := y.va, lane := y.lane }) s t ∧
        ∃ p, t.team.pending = s.team.pending ++ [p] ∧ p.value = none ∧ p.regs = Fmt.qReg f.d.toNat)) ∧
  (∀ (f : Fmt) (s : State), Acts (.tcopy f) f s →
    let v := s.seen (.tcopy f) f
    let r := s.block.shapes.get [] f.b.toNat
    let ds := spaceCode f.x.qual.toNat
    let ss := spaceCode (f.x.qual.toNat / 4)
    let dst := v.readD f.d.toNat
    let src := v.readD f.a.toNat
    let sp := v.inAperture s.team.ctx s.team.launch ss src
    let dp := v.inAperture s.team.ctx s.team.launch ds dst
    let cls := if sp || dp then 3 else 0
    (r = [] → exec (.tcopy f) s = .next (s.takeFault (wholeFlt .PERM))) ∧
    (r ≠ [] → 63 ≤ s.counter s.owner.id cls → ∃ t, exec (.tcopy f) s = .next t ∧ ParkedAt .paused s t) ∧
    (r ≠ [] → s.counter s.owner.id cls < 63 → ∃ t c, exec (.tcopy f) s = .next t ∧ Queued f [] c s t ∧ c.cls = cls ∧
      c.kind = .copy r ss src ds dst sp dp ∧ c.total = shapeTotal r)) ∧
  (∀ (f : Fmt) (s : State), Acts (.waitcnt f) f s →
    let k := f.a.toNat
    let n := f.b.toNat
    (n < s.counter s.team.id k → ∃ t, exec (.waitcnt f) s = .next t ∧ ParkedAt (.counter k n) s t) ∧
    (s.counter s.team.id k ≤ n → s.team.engst.getLsbD k = true → exec (.waitcnt f) s =
      .next ((s.modTeam fun t => { t with engst := t.engst &&& ~~~15 }).takeFault (wholeFlt .CENGINE s.team.engaddr))) ∧
    (∀ h, s.counter s.team.id k ≤ n → s.team.engst.getLsbD k = false → (s.team.watchHits.find? fun h => h.1 == k) = some h →
      exec (.waitcnt f) s =
        .next ((s.modTeam fun t => { t with watchHits := t.watchHits.erase h }).takeFault (wholeFlt .WATCHPT h.2))) ∧
    (s.counter s.team.id k ≤ n → s.team.engst.getLsbD k = false → (∀ h ∈ s.team.watchHits, h.1 ≠ k) →
      ∃ t, exec (.waitcnt f) s = .next t ∧ Stepped f [] s t)) ∧
  (∀ (f : Fmt) (s : State), Acts (.cntrd f) f s →
    let v := s.seen (.cntrd f) f
    let k := f.a.toNat
    (v.diverged = true → exec (.cntrd f) s = .next (s.takeFault (wholeFlt .UDIV))) ∧
    (v.diverged = false → ∃ t, exec (.cntrd f) s = .next t ∧ Awaits f [.word f.d.toNat
      (BitVec.ofNat 32 (s.counter s.team.id k + if s.team.engst.getLsbD k then 256 else 0))] s t))

/-- R249, R251 to R253: `card` posts to a queue with room, in order of request, else it waits (`card.try` answers); `spawn` enters one
item for each active lane; `eput` and `eget` take the next free and the next filled slot of an edge, in order of request, else they wait;
`qstat` counts. That a `.try` does not overtake a waiting team is read as log entry 37 says; that `card` takes any number whose core bit the
partition entry sets, past the grade's cores too, is the model's choice (log entry 89). -/
def Obligations.Posting : Prop :=
  (∀ (i : Instr) (f : Fmt) (s : State) (ls : List Loc), Acts i f s → (i = .card f ∨ i = .cardTry f) →
    let v := s.seen i f
    let va := baseAddr f v
    let target := v.readS f.x.c.toNat
    let die := s.dieOf s.team.core
    let room := v.queueRoom target die s.team.part = true ∧ v.myTurn (v.postersOf target die s.team.part) = true
    let known := target = partitionTarget ∨ (target.toNat < 256 ∧ (s.part s.team.part).entry.cores.getLsbD target.toNat = true)
    let q := if i = .cardTry f then some f.d.toNat else none
    (i = .cardTry f → v.diverged = true → exec i s = .next (s.takeFault (wholeFlt .UDIV))) ∧
    ((i = .cardTry f → v.diverged = false) → RecordReady v va 128 ls →
      (¬ known → exec i s = .next (s.takeFault (laneFlt .PERM (target.zeroExtend 64) 0))) ∧
      (known → room → ∃ u, Entered f (ls.map fun y =>
          { team := s.team.id, kind := .card target q, locs := y.keys, va := y.va, lane := y.lane, rel := true }) s u ∧
        exec i s = .next (u.modPosters target die fun ws => dropWaiter ws s.team.id s.split.id)) ∧
      (known → ¬ room → i = .cardTry f → ∃ u tlb, Awaits f [.bit f.d.toNat false] s u ∧ exec i s = .next { u with tlb := tlb }) ∧
      (known → ¬ room → i = .card f → ∃ t, exec i s = .next t ∧ ParkedAt .queue s t))) ∧
  (∀ (f : Fmt) (s : State), Acts (.spawn f) f s →
    let v := s.seen (.spawn f) f
    let child := pcRel s.split.pc f.imm
    ((s.card.csize = 0 ∨ canonical child = false) → exec (.spawn f) s = .next (s.takeFault (wholeFlt .PERM))) ∧
    (s.card.csize ≠ 0 → canonical child = true → ∃ t, exec (.spawn f) s = .next t ∧ Entered f ((activeLanes f v).map fun l =>
      { team := s.team.id, kind := .item child, locs := [], va := 0, lane := l, rel := true, data := quadBytes v f.a.toNat l }) s t)) ∧
  (∀ (i : Instr) (f : Fmt) (s : State), Acts i f s → (i = .eput f ∨ i = .eputTry f) →
    let v := s.seen i f
    let e := f.b.toNat
    let x := s.edge s.team.ctx e
    let room := edgeRoom x = true ∧ v.myTurn x.producers = true
    let q := if i = .eputTry f then some f.d.toNat else none
    (i = .eputTry f → v.diverged = true → exec i s = .next (s.takeFault (wholeFlt .UDIV))) ∧
    ((i = .eputTry f → v.diverged = false) →
      (x.entry.valid = false → exec i s = .next (s.takeFault (wholeFlt .PERM))) ∧
      (∀ ls, x.entry.valid = true → room → s.split.gated = none → v.checkLanes .g .store 16 false false [(0, slotAddr x x.tail)] = .ok ls →
        (∀ y ∈ ls, y.hosts = []) → watchStore v .g 16 ls = none →
        ∃ u, Entered f (ls.map fun y => { team := s.team.id, kind := .put e x.tail q, locs := y.keys, va := y.va, lane := y.lane, rel := true,
                                          data := uniBytes v f.a.toNat }) s u ∧
          exec i s = .next (u.modEdge s.team.ctx e fun y =>
            { y with tail := y.tail + 1, producers := dropWaiter y.producers s.team.id s.split.id })) ∧
      (x.entry.valid = true → ¬ room → i = .eputTry f → ∃ t, exec i s = .next t ∧ Awaits f [.bit f.d.toNat false] s t) ∧
      (x.entry.valid = true → ¬ room → i = .eput f → ∃ t, exec i s = .next t ∧ ParkedAt .queue s t))) ∧
  (∀ (f : Fmt) (s : State), Acts (.eget f) f s →
    let v := s.seen (.eget f) f
    let e := f.b.toNat
    let x := s.edge s.team.ctx e
    let ready := edgeReady x = true ∧ v.myTurn x.consumers = true
    (v.diverged = true → exec (.eget f) s = .next (s.takeFault (wholeFlt .UDIV))) ∧
    (v.diverged = false → x.entry.valid = false → exec (.eget f) s = .next (s.takeFault (wholeFlt .PERM))) ∧
    (∀ ls, v.diverged = false → x.entry.valid = true → ready → s.split.gated = none →
      v.checkLanes .g .load 16 false false [(0, slotAddr x x.head)] = .ok ls →
      (∀ y ∈ ls, y.hosts = []) →
      ∃ u, Entered f (ls.map fun y => { team := s.team.id, kind := .take e x.head, locs := y.keys, va := y.va, lane := y.lane, acq := true,
                                        dest := some { reg := f.d.toNat } }) s u ∧
        exec (.eget f) s = .next (u.modEdge s.team.ctx e fun y =>
          { y with head := y.head + 1, filled := y.filled.filter (· != y.head), consumers := dropWaiter y.consumers s.team.id s.split.id })) ∧
    (v.diverged = false → x.entry.valid = true → ¬ ready → ∃ t, exec (.eget f) s = .next t ∧ ParkedAt .queue s t)) ∧
  (∀ (f : Fmt) (s : State), Acts (.qstat f) f s →
    let v := s.seen (.qstat f) f
    let x := s.edge s.team.ctx f.b.toNat
    (v.diverged = true → exec (.qstat f) s = .next (s.takeFault (wholeFlt .UDIV))) ∧
    (v.diverged = false → x.entry.valid = false → exec (.qstat f) s = .next (s.takeFault (wholeFlt .PERM))) ∧
    (v.diverged = false → x.entry.valid = true →
      ∃ t, exec (.qstat f) s = .next t ∧ Awaits f [.word f.d.toNat (edgeCounts x)] s t))

/-- R274 to R281, R284, R289, R290, R292: the gang of a team, the token of a tile, and what the matrix instructions put into the unit:
their commands join the unit queue, each under its counter and flag, and a member of an operation waits in its tile's latch. Corners that
R272 to R293 leave (a drain's kind, a second arrival, the lane of a metadata fault) are read as log entries 27, 44, 45 and 46 say; that a
`.try` does not overtake a waiting team is read as log entry 37 says, and to which members a token goes as log entry 64 says. -/
def Obligations.MatrixInstructions : Prop :=
  (∀ (f : Fmt) (s : State), Acts (.gang f) f s →
    let v := s.seen (.gang f) f
    let w := v.readS f.a.toNat
    let valid := gangValid w s.team.number s.block.nteams
    (v.diverged = true → exec (.gang f) s = .next (s.takeFault (wholeFlt .UDIV))) ∧
    (v.diverged = false → valid = false → exec (.gang f) s = .next (s.takeFault (wholeFlt .MGANG))) ∧
    (v.diverged = false → valid = true → Performs (.gang f) f s fun u => u.modTeam fun t => { t with gang := w })) ∧
  (∀ (i : Instr) (f : Fmt) (s : State), Acts i f s → (i = .macq f ∨ i = .macqTry f) →
    let v := s.seen i f
    let n := f.d.toNat
    let c := s.team.core
    let gang := gangSet s.team.gang
    let unit := v.unitOpen c s.team.block s.team.id
    let token := (s.matrix c).bound.isNone || v.tokenOpen c n s.team.id gang
    let taken := fun (u : State) => (takeUnit s u).modMatrix c fun m => { m with tokens := m.tokens.set .unit n (.gang gang) }
    (i = .macqTry f → v.diverged = true → exec i s = .next (s.takeFault (wholeFlt .UDIV))) ∧
    ((i = .macqTry f → v.diverged = false) →
      (hasGang v = false → exec i s = .next (s.takeFault (wholeFlt .MGANG))) ∧
      (hasGang v = true → unit = true → token = true →
        (i = .macq f → Performs i f s taken) ∧ (i = .macqTry f → PerformsAwaiting i f s [.bit f.b.toNat true] taken)) ∧
      (hasGang v = true → (unit = false ∨ token = false) →
        (i = .macqTry f → ∃ t, exec i s = .next t ∧ Awaits f [.bit f.b.toNat false] s t) ∧
        (i = .macq f → ∃ t, exec i s = .next t ∧ ParkedAt (if unit then .token n else .unit) s t)))) ∧
  (∀ (i : Instr) (f : Fmt) (s : State), Acts i f s → (i = .mrel f ∨ i = .mzero f) →
    let v := s.seen i f
    let n := f.d.toNat
    let m := s.matrix s.team.core
    (v.holdsTile n = false → exec i s = .next (s.takeFault (wholeFlt .MTOKEN))) ∧
    (v.holdsTile n = true → 63 ≤ s.counter s.owner.id 1 → ∃ t, exec i s = .next t ∧ ParkedAt .paused s t) ∧
    (v.holdsTile n = true → s.counter s.owner.id 1 < 63 → ∃ t c, exec i s = .next t ∧ Queued f [] c s t ∧ c.cls = 1 ∧
      (i = .mzero f → c.kind = .zero n ∧ t.matrix s.team.core = { m with queue := m.queue ++ [.zero c.id n] }) ∧
      (i = .mrel f → c.kind = .release n ∧ t.matrix s.team.core =
        { m with queue := m.queue ++ [.release c.id n], tokens := m.tokens.set .unit n (.releasing (gangSet s.team.gang)) }))) ∧
  (∀ (f : Fmt) (s : State), Acts (.mldb f) f s →
    let v := s.seen (.mldb f) f
    let va := baseAddr f v
    let n := imageBytes f.x.ty f.d.toNat
    let unit := v.unitOpen s.team.core s.team.block s.team.id
    (unit = false → ∃ t, exec (.mldb f) s = .next t ∧ ParkedAt .unit s t) ∧
    let left := fun (u : State) => u.modMatrix s.team.core fun m =>
      { m with waits := m.waits.filter fun w => !(w.team == s.team.id && w.split == s.split.id) }
    (unit = true → va.toNat % 128 ≠ 0 → exec (.mldb f) s = .next ((left s).takeFault (laneFlt .ALIGN va 0))) ∧
    (∀ c l a, unit = true → va.toNat % 128 = 0 → v.checkLanes (spaceOf f) .load n false false [(0, va)] = .error (.fault c, l, a) →
      exec (.mldb f) s = .next ((left s).takeFault (laneFlt c a l))) ∧
    (∀ ls, unit = true → va.toNat % 128 = 0 → v.checkLanes (spaceOf f) .load n false false [(0, va)] = .ok ls →
      (63 ≤ s.counter s.owner.id 1 → ∃ t, exec (.mldb f) s = .next t ∧ ParkedAt .paused s t) ∧
      (s.counter s.owner.id 1 < 63 → ∃ t c, exec (.mldb f) s = .next t ∧ Queued f [] c s t ∧ c.cls = 1 ∧
        c.kind = .loadMacro f.d.toNat f.x.ty (spaceOf f) va ∧ c.total = n / 128 ∧ (t.matrix s.team.core).bound = some s.team.block))) ∧
  (∀ (f : Fmt) (s : State), Acts (.mswap f) f s →
    let m := s.matrix s.team.core
    let mask := f.imm.toNat % 256
    (m.bound ≠ some s.team.block → exec (.mswap f) s = .next (s.takeFault (wholeFlt .MTOKEN))) ∧
    (m.bound = some s.team.block → 63 ≤ s.counter s.owner.id 1 → ∃ t, exec (.mswap f) s = .next t ∧ ParkedAt .paused s t) ∧
    (m.bound = some s.team.block → s.counter s.owner.id 1 < 63 → ∃ t c, exec (.mswap f) s = .next t ∧ Queued f [] c s t ∧ c.cls = 1 ∧
      c.kind = .swap mask ∧ t.matrix s.team.core = { m with queue := m.queue ++ [.swap c.id mask (s.loadsOf s.team.core mask)] })) ∧
  (∀ (i : Instr) (f : Fmt) (s : State), Acts i f s → (i = .mma f ∨ i = .mmas f) →
    let v := s.seen i f
    let sparse := decide (i = .mmas f)
    let n := f.d.toNat
    let ctl := mmaCtl f v
    let rows := rowsPer sparse f.x.ty
    let latch := (s.matrix s.team.core).latches.get none n
    let inRows := ctl.toNat / 256 % 16 + (gangOf s.team.gang).length * rows ≤ 16 ∧ ctl.toNat / 4096 % 16 < ranksOf s.team.n
    let quad := ∀ j, j < 4 → tagIn v (f.a.toNat + j) [quadTag f.x.ty, .raw] = true
    (hasGang v = false → exec i s = .next (s.takeFault (wholeFlt .MGANG))) ∧
    (hasGang v = true → v.holdsTile n = false → exec i s = .next (s.takeFault (wholeFlt .MTOKEN))) ∧
    (hasGang v = true → v.holdsTile n = true → ¬ inRows → exec i s = .next (s.takeFault (wholeFlt .MROWS))) ∧
    (hasGang v = true → v.holdsTile n = true → inRows → ¬ quad → exec i s = .next (s.takeFault (wholeFlt .TAGMIS))) ∧
    (hasGang v = true → v.holdsTile n = true → inRows → quad → (sparse = true → metaOffset ctl rows ≤ s.block.spsize) →
      (∀ l, latch = some l → (∀ m ∈ l.members, m.team ≠ s.team.id) ∧ l.sparse = sparse ∧ l.ty = f.x.ty ∧ l.ctl = ctl.toNat % 4096) →
      (63 ≤ s.counter s.owner.id 1 → ∃ t, exec i s = .next t ∧ ParkedAt .paused s t) ∧
      (s.counter s.owner.id 1 < 63 → ∃ t l m c, exec i s = .next t ∧ t.commands = s.commands ++ [c] ∧ c.cls = 1 ∧ c.kind = .mul [n] ∧
        c.ready = false ∧ c.counts = [s.owner.id] ∧ m.cmd = c.id ∧ (t.matrix s.team.core).latches.get none n = some l ∧ t.split.park = .latch n ∧
        RegistersKept [] s t ∧ (∀ k, t.byte k = s.byte k) ∧
        l.members = ((latch.map Latch.members).getD []) ++ [m] ∧ m.team = s.team.id ∧ m.fmt = f ∧ m.ctl = ctl ∧
        l.gang = (latch.map Latch.gang).getD (gangOf s.team.gang) ∧
        (l.full.isSome = true ↔ l.members.length = l.gang.length)))) ∧
  (∀ (f : Fmt) (s : State), Acts (.mdrain f) f s →
    let v := s.seen (.mdrain f) f
    let n := f.d.toNat
    let ctl := v.readS f.x.c.toNat
    let va := baseAddr f v
    let m := s.matrix s.team.core
    let rows := (List.range (drainCount ctl)).map fun i => (0, va + BitVec.ofNat 64 (i * drainPitch ctl))
    let inRows := drainCount ctl ≠ 0 ∧ drainRow ctl + drainCount ctl ≤ 16
    let kindFits := ¬ (f.x.ty = .i32 ∧ ((projected m).tiles.get {} n).kind = .float)
    (v.holdsTile n = false → exec (.mdrain f) s = .next (s.takeFault (wholeFlt .MTOKEN))) ∧
    (v.holdsTile n = true → ¬ inRows → exec (.mdrain f) s = .next (s.takeFault (wholeFlt .MROWS))) ∧
    (v.holdsTile n = true → inRows → ¬ kindFits → exec (.mdrain f) s = .next (s.takeFault (wholeFlt .MSCALE))) ∧
    (v.holdsTile n = true → inRows → kindFits → va.toNat % 16 ≠ 0 → exec (.mdrain f) s = .next (s.takeFault (laneFlt .ALIGN va 0))) ∧
    (∀ ls, v.holdsTile n = true → inRows → kindFits → va.toNat % 16 = 0 →
      v.checkLanes (spaceOf f) .store (drainCols ctl * drainSize f.x.ty) false false rows = .ok ls → s.counter s.owner.id 1 < 63 →
      ∃ t c, exec (.mdrain f) s = .next t ∧ Queued f [] c s t ∧ c.cls = 1 ∧ c.ready = false ∧ c.kind = .drain n (spaceOf f) va ctl f ∧
        c.total = drainCount ctl * drainCols ctl ∧ t.matrix s.team.core = { m with queue := m.queue ++ [.drain c.id n] })) ∧
  (∀ (f : Fmt) (s : State), Acts (.mstat f) f s →
    let v := s.seen (.mstat f) f
    let sel := (if f.len = .l128 then f.imm else v.readS f.b.toNat).toNat
    (v.diverged = true → exec (.mstat f) s = .next (s.takeFault (wholeFlt .UDIV))) ∧
    (v.diverged = false → ∃ t, exec (.mstat f) s = .next t ∧ Awaits f [.word f.d.toNat (BitVec.ofNat 32 (mstatValue v sel))] s t))

/-- R281, R284, R285, R288, R292: the head of the unit queue takes effect: an operation on its tile's chains, a zeroing, a drain's
capture, a release of the token where no drain of the tile is under way, an exchange of macro copies once its loads are complete. A latch
that is open for 2^20 cycles, or whose metadata is missing for so long, empties with a fault. Corners of the latch are read as log entry
45 says. -/
def Obligations.MatrixUnit : Prop :=
  (∀ (s : State) (core : Nat) (ids : List Nat) (tile : Nat) (ty : Ty) (rows : List OpRow) (r : List UnitOp),
    (s.matrix core).queue = .op ids tile ty rows :: r →
    ∃ t, exec (.matrixOpComplete core) s = .next t ∧ (∀ k, t.byte k = s.byte k) ∧
      t.matrix core = { applyOp tile ty rows (s.matrix core) with queue := r }) ∧
  (∀ (s : State) (core id tile : Nat) (r : List UnitOp), (s.matrix core).queue = .zero id tile :: r →
    ∃ t, exec (.matrixOpComplete core) s = .next t ∧ (∀ k, t.byte k = s.byte k) ∧ (t.matrix core).queue = r ∧
      ∀ n, (t.matrix core).tiles.get {} n = if n = tile then {} else (s.matrix core).tiles.get {} n) ∧
  (∀ (s : State) (core id tile : Nat) (r : List UnitOp), (s.matrix core).queue = .release id tile :: r →
    s.unfocus.draining core tile = false →
    ∃ t, exec (.matrixOpComplete core) s = .next t ∧ (∀ k, t.byte k = s.byte k) ∧ (t.matrix core).queue = r ∧
      ∀ n, (t.matrix core).tokens.get .unit n = if n = tile then .unit else (s.matrix core).tokens.get .unit n) ∧
  (∀ (s : State) (core id tile : Nat) (r : List UnitOp), (s.matrix core).queue = .drain id tile :: r →
    ∃ t, exec (.matrixOpComplete core) s = .next t ∧ (∀ k, t.byte k = s.byte k) ∧ t.matrix core = { s.matrix core with queue := r } ∧
      ∀ c ∈ t.commands, c.id = id → ∀ n spc base ctl f, c.kind = .drain n spc base ctl f →
        c.ready = true ∧ c.data = drainBytes ((s.matrix core).tiles.get {} tile) f ctl) ∧
  (∀ (s : State) (core id mask : Nat) (loads : List Nat) (r : List UnitOp), (s.matrix core).queue = .swap id mask loads :: r →
    (∀ c ∈ s.commands, c.id ∈ loads → c.complete = true) →
    ∃ t, exec (.mswapExchange core) s = .next t ∧ (∀ k, t.byte k = s.byte k) ∧ (t.matrix core).queue = r ∧
      ∀ n, (t.matrix core).macros.get {} n =
        let x := (s.matrix core).macros.get {} n
        if n < 8 ∧ mask.testBit n = true then { active := x.shadow, shadow := x.active } else x) ∧
  (∀ (s : State) (core tile : Nat) (l : Latch), (s.matrix core).latches.get none tile = some l → l.full = none →
    let failed := s.unfocus.failLatch core tile .MGANG
    (l.opened + 2 ^ 20 ≤ s.cycle →
      exec (.latchTimeout core tile) s = .next failed.unstall ∧ (failed.matrix core).latches.get none tile = none) ∧
    (s.cycle < l.opened + 2 ^ 20 → exec (.latchTimeout core tile) s = .next s.unfocus.unstall)) ∧
  (∀ (s : State) (core tile c : Nat) (l : Latch), (s.matrix core).latches.get none tile = some l → l.full = some c → l.sparse = true →
    let failed := s.unfocus.failLatch core tile .MMETA
    (c + 2 ^ 20 ≤ s.cycle → s.unfocus.swapWaits (s.matrix core) = false → captureAll s.unfocus l = none →
      exec (.metadataTimeout core tile) s = .next failed.unstall ∧ (failed.matrix core).latches.get none tile = none) ∧
    (s.cycle < c + 2 ^ 20 → exec (.metadataTimeout core tile) s = .next s.unfocus.unstall))

/-! ### System registers and time -/

/-- R15, R74 to R76, R240, R311, R326 to R328: `rdsr` reads a system register, and reading `engst` clears `engst.more`; `wrsr` writes
those that may be written, after the checks of R75, and raises PERM for the others; `rdtime` never runs backward; `rdhlc` advances its
die's clock; `prog` records progress. Device time is the model's count of cycles (log entry 5). -/
def Obligations.SystemRegisters : Prop :=
  (∀ (f : Fmt) (s : State), Acts (.rdsr f) f s → f.cls = .uni →
    let v := s.seen (.rdsr f) f
    let n := f.imm.toNat
    (v.diverged = true → exec (.rdsr f) s = .next (s.takeFault (wholeFlt .UDIV))) ∧
    (v.diverged = false → f.x.ty.is64 = false →
      ∃ u k, Stepped f [.s f.d.toNat] s u ∧ u.regS f.d.toNat = BitVec.ofNat 32 (sysReg v n) ∧
        exec (.rdsr f) s = .next { afterRead n u with free := k }) ∧
    (v.diverged = false → f.x.ty.is64 = true →
      ∃ u k, Stepped f [.s f.d.toNat, .s (f.d.toNat + 1)] s u ∧
        u.regS (f.d.toNat + 1) ++ u.regS f.d.toNat = BitVec.ofNat 64 (sysReg v n) ∧ exec (.rdsr f) s = .next { afterRead n u with free := k })) ∧
  (∀ (f : Fmt) (s : State), Acts (.wrsr f) f s →
    let v := s.seen (.wrsr f) f
    let w := v.readS f.a.toNat
    let x := v.readD f.a.toNat
    let n := f.imm.toNat
    let P := fun (g : Team → Team) => Performs (.wrsr f) f s fun u => u.modTeam g
    (n = 0 → P fun t => { t with tctl := w &&& 15 }) ∧
    ((n = 3 ∨ n = 5) → canonical x = false → exec (.wrsr f) s = .next (s.takeFault (laneFlt .XLATE x 0))) ∧
    (n = 3 → canonical x = true → P fun t => { t with trapvec := x &&& ~~~3 }) ∧
    (n = 5 → canonical x = true → P fun t => { t with frpc := x &&& ~~~3 }) ∧
    (n = 4 → P fun t => { t with frcode := w.extractLsb' 0 8 }) ∧
    (n = 6 → P fun t => { t with fraddr := x }) ∧
    (n = 0x10 → 4 < w.toNat → exec (.wrsr f) s = .next (s.takeFault (laneFlt .ILLENC 0 0))) ∧
    (n = 0x10 → w.toNat ≤ 4 → v.diverged = true → exec (.wrsr f) s = .next (s.takeFault (wholeFlt .UDIV))) ∧
    (n = 0x10 → w.toNat ≤ 4 → v.diverged = false → P fun t => { t with tile := w.extractLsb' 0 3 }) ∧
    (n = 0x1E → P fun t => { t with frlane := w }) ∧
    (n ∉ [0, 3, 4, 5, 6, 0x10, 0x1E] → exec (.wrsr f) s = .next (s.takeFault (wholeFlt .PERM)))) ∧
  (∀ (i : Instr) (f : Fmt) (s : State), Acts i f s → (i = .rdtime f ∨ i = .rdhlc f) →
    let v := s.seen i f
    let d := s.dieOf s.team.core
    let parts := fun (g : Addr) => [Landing.word f.d.toNat (g.extractLsb' 0 32), .word (f.d.toNat + 1) (g.extractLsb' 32 32)]
    (v.diverged = true → exec i s = .next (s.takeFault (wholeFlt .UDIV))) ∧
    (i = .rdtime f → v.diverged = false → ∃ g : Addr, (s.ctx s.team.ctx).last.toNat ≤ g.toNat ∧
      PerformsAwaiting i f s (parts g) fun u => u.modCtx s.team.ctx fun c => { c with last := g }) ∧
    (i = .rdhlc f → v.diverged = false → ∃ h : Addr, ((s.die d).hlc.toNat < 2 ^ 63 → s.issueCycle f + 64 < 2 ^ 50 → (s.die d).hlc.toNat < h.toNat) ∧
      PerformsAwaiting i f s (parts h) fun u => u.modDie d fun x => { x with hlc := h })) ∧
  (∀ (f : Fmt) (s : State), Acts (.prog f) f s → Performs (.prog f) f s fun u =>
    u.modTeam fun t => { t with progv := ((s.seen (.prog f) f).readS f.a.toNat).extractLsb' 0 16, progset := true })

/-! ### Events of the host and the device -/

/-- R246, R248, R250, R302, R325, R339, R341, R345, R351: the device ignores the host's commands before it is ready, and then only the status
block reads other than zero; a register write of an owner that may make it sets the register, any other is ignored, and while the device is
frozen the hypervisor's is refused; the violation log clears; a doorbell only moves up; a ring's reset drops its unread slots; a written edge
starts empty; a context's `part` stays while it is valid, a window that breaks R165 is refused, and a launch keeps the descriptor that it was
dispatched under. A claim takes a free unit and finds a held one busy; a forced claim of the hypervisor takes a unit that a guest holds, whose
owner sees it revoked. The statuses of refused commands, a ring size outside its range, and claims are read as log entries 49, 50 and 59 say;
that a launch keeps its whole descriptor as log entry 86 says. -/
def Obligations.RegisterSpace : Prop :=
  ((∀ (i : Instr) (s : State), isHostCommand i = true → s.phase ≠ 5 → exec i s = .next s.unfocus.unstall) ∧
   (∀ (o : Owner) (r : HostRead) (s : State),
     ((s.phase ≠ 5 ∧ r.early = false) ∨ s.mayRead o r = false → ∀ b ∈ s.readReg o r, b = 0) ∧
     (s.readReg o .phase = leBytes 4 s.phase ∧ s.readReg o .error = leBytes 4 s.error ∧ s.readReg o .status = leBytes 4 s.status) ∧
     (∀ u, s.phase = 5 → s.readReg o (.claim u) = leBytes 4 ((s.claimOf u).statusOf o))) ∧
   (∀ (o : Owner) (r : HostReg) (s : State), s.phase = 5 →
     (o = .hypervisor → s.frozen ≠ .no → exec (.registerWrite o r) s = .next (s.unfocus.answer 2).unstall) ∧
     ((o = .hypervisor → s.frozen = .no) → s.unfocus.mayWrite o r = false → exec (.registerWrite o r) s = .next s.unfocus.unstall) ∧
     ((o = .hypervisor → s.frozen = .no) → s.unfocus.mayWrite o r = true →
       ∃ t, exec (.registerWrite o r) s = .next t ∧ RegisterHolds s t r ∧ ((∀ cx v, r ≠ .faultTail cx v) → ∀ k, t.byte k = s.byte k))) ∧
   (∀ (p : Nat) (s : State), s.phase = 5 →
     (s.frozen ≠ .no → exec (.violationLogClear p) s = .next (s.unfocus.answer 2).unstall) ∧
     (s.frozen = .no → ∃ t, exec (.violationLogClear p) s = .next t ∧ (t.part p).viols = 0 ∧ (t.part p).violaddr = (s.part p).violaddr)) ∧
   (∀ (p n : Nat) (v : By Addr) (s : State), s.phase = 5 →
     (mayReach v.owner p = false → exec (.rqDoor p n v) s = .next s.unfocus.unstall) ∧
     (mayReach v.owner p = true →
       ∃ t, exec (.rqDoor p n v) s = .next t ∧ (t.ring p n).door = max (s.ring p n).door v.value.toNat ∧ (t.ring p n).read = (s.ring p n).read)) ∧
   (∀ (p : Nat) (n : By Nat) (s : State), s.phase = 5 →
     (mayReach n.owner p = false → exec (.ringReset p n) s = .next s.unfocus.unstall) ∧
     (mayReach n.owner p = true →
       ∃ t, exec (.ringReset p n) s = .next t ∧ (t.ring p n.value).read = (s.ring p n.value).door ∧ (t.ring p n.value).door = (s.ring p n.value).door ∧
         (t.ring p n.value).ovr = false ∧ (t.ring p n.value).stale = 0)) ∧
   (∀ (cx n : Nat) (e : By EdgeEntry) (s : State), s.phase = 5 →
     (¬ obeyed e.owner (State.partOf cx s) s → exec (.edgeTableWrite cx n e) s = .next (turnedAway e.owner s)) ∧
     (obeyed e.owner (State.partOf cx s) s →
       ∃ t, exec (.edgeTableWrite cx n e) s = .next t ∧ (t.edge cx n).entry = e.value ∧ (t.edge cx n).tail = 0 ∧ (t.edge cx n).head = 0 ∧
         (t.edge cx n).filled = [])) ∧
   (∀ (cx : Nat) (d : By CtxDesc) (s : State), s.phase = 5 →
     let old := (s.ctx cx).desc
     let new := { d.value with part := if old.valid then old.part else d.value.part, vwin := d.value.vwin &&& 0x7FF }
     (¬ obeyed d.owner (State.partOf cx s) s → exec (.contextDescriptorWrite cx d) s = .next (turnedAway d.owner s)) ∧
     (obeyed d.owner (State.partOf cx s) s →
       (s.windowBad cx new.part.toNat new.vwin = true →
         ∃ t, exec (.contextDescriptorWrite cx d) s = .next t ∧ t.status = 2 ∧ (t.ctx cx).desc = old) ∧
       (s.windowBad cx new.part.toNat new.vwin = false → old.valid = true → new.valid = false →
         ∃ t, exec (.contextDescriptorWrite cx d) s = .next t ∧ (t.ctx cx).desc = new) ∧
       (s.windowBad cx new.part.toNat new.vwin = false → (old.valid = false ∨ new.valid = true) →
         ∃ t, exec (.contextDescriptorWrite cx d) s = .next t ∧ (t.ctx cx).desc = new ∧
           (∀ id l, old.valid = true → s.findLaunch id = some l → l.card.ctx = cx → t.descOf cx id = s.descOf cx id) ∧
           (new.vwin = old.vwin → new.part = old.part → ∀ k, t.byte k = s.byte k) ∧
           ((new.vwin ≠ old.vwin ∨ new.part ≠ old.part) → ∀ core off, (s.part new.part.toNat).entry.cores.getLsbD core = true →
             65536 * windowBase new.vwin ≤ off → off < 65536 * (windowBase new.vwin + windowSize new.vwin) → off < 2 ^ 21 →
             t.byte (vaultKey core off) = 0))))) ∧
  (∀ (u : ClaimUnit) (s : State), s.phase = 5 → (∀ die n, u = .traceUnit die n → n < 4) →
     (∀ o, (o = .hypervisor → s.frozen = .no) → ∃ t, exec (.claimWrite u o) s = .next t ∧
       (t.claimOf u).owner = some ((s.claimOf u).owner.getD o) ∧ ((t.claimOf u).statusOf o = 0 ↔ (s.claimOf u).owner = none)) ∧
     (s.frozen = .no → ∃ t, exec (.forcedClaim u) s = .next t ∧ (t.claimOf u).owner = some .hypervisor ∧
       ∀ p, (s.claimOf u).owner = some (.driver p) → (t.claimOf u).statusOf (.driver p) = 2) ∧
     (s.frozen ≠ .no → exec (.claimWrite u .hypervisor) s = .next (s.unfocus.answer 2).unstall ∧
       exec (.forcedClaim u) s = .next (s.unfocus.answer 2).unstall))

/-- R329, R336 to R338, R340, R344, R345: a partition entry that would share a core, a key, a way or a byte with another valid partition is
refused; one that takes a core from a block waits until the core is empty; while the device is frozen only a valid partition's `valid` may be
cleared. A key is created once, and stands for keys of its own; its retirement takes it out of every key set, and is complete once no access
under it is under way. A line of the stacks that one key identifier has written reads under it as written. An access from outside reaches
memory through the partition that holds the address, a peer's only through a window and under the window's key; it waits for a way that is
closed, the host's to a range of the system domain for the one before it. The statuses of refused writes and key commands, what encryption
leaves open, accesses outside every partition, the log of a refused peer and the domain of the host's access are read as log entries 50 to 52,
55, 63 and 90 say. -/
def Obligations.PartitionsAndKeys : Prop :=
  (∀ (p : Nat) (e : PartEntry) (s : State), s.phase = 5 → s.frozen = .no →
    let u := s.unfocus
    let clash := (u.part p).busy.isSome = true ∨
      ∃ n, n < 32 ∧ n ≠ p ∧ (entriesMeet e (u.part n).entry = true ∨ ∃ b, (u.part n).busy = some b ∧ entriesMeet e b = true)
    (clash → ∃ t, exec (.partitionEntryWrite p e) s = .next t ∧ t.status = 2 ∧ ∀ n, t.part n = s.part n) ∧
    (¬ clash → u.occupied (coresLeaving (u.part p).entry e) = false →
      ∃ t, exec (.partitionEntryWrite p e) s = .next t ∧ t.status = 0 ∧ (t.part p).entry = e ∧ ∀ n, n ≠ p → t.part n = s.part n) ∧
    (¬ clash → u.occupied (coresLeaving (u.part p).entry e) = true →
      ∃ t, exec (.partitionEntryWrite p e) s = .next t ∧ t.status = 1 ∧ (t.part p).busy = some e)) ∧
  (∀ (p : Nat) (e : PartEntry) (s : State), s.phase = 5 → s.frozen ≠ .no →
    let empties := s.frozen.frosted = true ∧ (s.part p).entry.valid = true ∧ e.valid = false
    (¬ empties → exec (.partitionEntryWrite p e) s = .next (s.unfocus.answer 2).unstall) ∧
    (empties → ∃ t, exec (.partitionEntryWrite p e) s = .next t ∧ (t.part p).entry = { (s.part p).entry with valid := false } ∧
      (s.frozen = .frozen → t.status = 0))) ∧
  (∀ (p : Nat) (s : State),
    ((s.part p).busy = none → exec (.partitionWriteDone p) s = .next s.unfocus.unstall) ∧
    ∀ e, (s.part p).busy = some e →
      (s.occupied (coresLeaving (s.part p).entry e) = true → exec (.partitionWriteDone p) s = .next s.unfocus.unstall) ∧
      (s.occupied (coresLeaving (s.part p).entry e) = false →
        ∃ t, exec (.partitionWriteDone p) s = .next t ∧ t.status = 0 ∧ (t.part p).entry = e ∧ (t.part p).busy = none)) ∧
  (∀ (k : Nat) (s : State), s.phase = 5 → k < 64 →
    (s.frozen = .no → s.keysLive.getLsbD k = false →
      ∃ t, exec (.keyCreate k) s = .next t ∧ t.status = 0 ∧ (∀ j, j < 64 → t.keysLive.getLsbD j = (s.keysLive.getLsbD j || j == k)) ∧
        ∀ j, t.sealOf j = if j = k then (k, s.nextId) else s.sealOf j) ∧
    ((s.frozen ≠ .no ∨ s.keysLive.getLsbD k = true) →
      ∃ t, exec (.keyCreate k) s = .next t ∧ t.status = 2 ∧ t.keysLive = s.keysLive) ∧
    (s.frozen = .no → s.keysLive.getLsbD k = true → k ∉ s.retiring →
      ∃ t, exec (.keyRetire k) s = .next t ∧ t.status = 1 ∧ k ∈ t.retiring ∧ ∀ p, (t.part p).entry.keys.getLsbD k = false) ∧
    ((s.frozen ≠ .no ∨ s.keysLive.getLsbD k = false ∨ k ∈ s.retiring) →
      ∃ t, exec (.keyRetire k) s = .next t ∧ t.status = 2 ∧ t.retiring = s.retiring)) ∧
  (∀ (k : Nat) (s : State), k < 64 → k ∈ s.retiring →
    (s.unfocus.keyBusy k = true → exec (.keyRetireComplete k) s = .next s.unfocus.unstall) ∧
    (s.unfocus.keyBusy k = false → ∃ t, exec (.keyRetireComplete k) s = .next t ∧ t.status = 0 ∧ t.keysLive.getLsbD k = false ∧
      k ∉ t.retiring ∧ (∀ x ∈ t.shares ++ t.l1, x.key ≠ k) ∧ ∀ a, t.byte a = s.byte a)) ∧
  (∀ (k kid : Nat) (s : State), k < 2 ^ 51 →
    let t := s.sealLines kid [k]
    t.seals.get none (lineOf k) = some (s.sealOf kid) ∧ t.byteAs kid k = s.byteAs kid k ∧ ∀ j, t.byte j = s.kept ⟨[k], kid⟩ j) ∧
  (∀ (a : HostAccess) (s : State), Unwatched s → a.addr.toNat < 2 ^ 54 → s.arrived = [] →
    let k := a.addr.toNat
    let n := a.bytes.length
    (s.unfocus.holderOf k = none → exec (.hostMemAccess a) s = .next s.unfocus.unstall) ∧
    (∀ p, s.unfocus.holderOf k = some p →
      let system := s.hostDomain p k = .system
      let waits := s.wayBetween 0 k = false ∨ (system ∧ ∃ m ∈ s.hostNeeds, ∃ u ∈ s.unperf, u.store = m)
      (a.write = true → s.frozen ≠ .no → ∃ t, exec (.hostMemAccess a) s = .next t ∧ (t.part p).viols = (s.part p).viols + 1 ∧ t.arrived = []) ∧
      ((a.write = true → s.frozen = .no) → waits →
        ∃ t, exec (.hostMemAccess a) s = .next t ∧ t.arrived = [.host a] ∧ t.outReads = s.outReads ∧ ∀ j, t.byte j = s.byte j) ∧
      (a.write = false → ¬ waits → ∃ t bs, exec (.hostMemAccess a) s = .next t ∧ t.outReads = s.outReads ++ [bs] ∧ bs.length = n ∧
        (system → ∀ i, i < n → bs.getD i 0 = s.byte (k + i)) ∧
        (∀ i, i < n → bs.getD i 0 ∈ s.byte (k + i) :: s.hist.get [] (k + i)) ∧ ∀ j, t.byte j = s.byte j) ∧
      (a.write = true → s.frozen = .no → ¬ waits → ∃ t, exec (.hostMemAccess a) s = .next t ∧ t.arrived = [] ∧
        ∀ j, t.byte j = if k ≤ j ∧ j < k + n then a.bytes.getD (j - k) 0 else s.byte j))) ∧
  (∀ (e : PeerElement) (s : State), Unwatched s → s.arrived = [] →
    let k := e.addr.toNat
    let n := e.bytes.length
    (s.unfocus.windowFor e = none → let p := (s.unfocus.holderOf k).getD 0
      ∃ t, exec (.peerElementReceive e) s = .next t ∧ (t.part p).viols = (s.part p).viols + 1 ∧ t.arrived = []) ∧
    (∀ w, s.unfocus.windowFor e = some w →
      let place : Place := ⟨(List.range n).map (k + ·), w.key.toNat⟩
      (s.wayBetween (s.arrivalDie e) k = false →
        ∃ t, exec (.peerElementReceive e) s = .next t ∧ t.arrived = [.peer e] ∧ ∀ j, t.byte j = s.byte j) ∧
      (s.wayBetween (s.arrivalDie e) k = true → ∃ t, exec (.peerElementReceive e) s = .next t ∧ t.arrived = [] ∧
        (e.write = false → t.outReads = s.outReads ++ [s.bytesAs place.key place.bytes] ∧ ∀ j, t.byte j = s.byte j) ∧
        (e.write = true → ∀ j, t.byte j = if k ≤ j ∧ j < k + n then e.bytes.getD (j - k) 0 else s.kept place j))))

/-- R329, R332, R345 to R347, R349 to R351: bring-up, die links, Frost and Thaw, attestation. A step from phase 1 checks the configuration image
and takes the grade from it, one from phase 2 forms the identity; training and the firmware image end phases 3 and 4. Frost writes an image that
Thaw takes again where it stands unchanged. The statuses of refused commands are read as log entry 55 says; hashes, signatures and the bytes of
an image that the manual does not place are opaque (log entries 56, 60 and 61). -/
def Obligations.DeviceStates : Prop :=
  (∀ (c : ConfigImage) (b : Bool) (s : State), s.phase = 0 → s.error = 0 →
    ∃ t, exec (.resetRelease c b) s = .next t ∧ t.cycle = 0 ∧ t.phase = 1 ∧ t.error = 0 ∧ t.config = c ∧
      (configGood c = false → t.bootStep.phase = 1 ∧ t.bootStep.error = 0xE1 ∧ t.bootStep.bootStep = t.bootStep) ∧
      (configGood c = true → t.bootStep.phase = 2 ∧ t.bootStep.error = 0 ∧ t.bootStep.grade = gradeOf c.grade.toNat ∧
        (b = false → t.bootStep.bootStep.phase = 2 ∧ t.bootStep.bootStep.error = 0xE2) ∧
        (b = true → t.bootStep.bootStep.phase = 3 ∧ t.bootStep.bootStep.error = 0 ∧ t.bootStep.bootStep.seed = some (Config.seedOf c.helper)))) ∧
  (∀ (c : ConfigImage) (b : Bool) (n : Nat), n ≤ 2 →
    let s : State := { State.reset with phase := n, config := c, pufOk := b }
    step s = .next { s.bootStep with cycle := s.cycle + 1 }) ∧
  (∀ (ok : Bool) (s : State), s.phase = 3 → s.error = 0 → ∃ t, exec (.trainingComplete ok) s = .next t ∧
    (ok = true → t.phase = 4 ∧ t.error = 0 ∧ ∀ l, l < 4 → t.links.get 0 l = 1) ∧ (ok = false → t.phase = 3 ∧ t.error = 0xE3)) ∧
  (∀ (f : Firmware) (s : State), s.phase = 4 → s.error = 0 → ∃ t, exec (.firmwareSupply f) s = .next t ∧
    (firmwareGood s.config f = true → t.phase = 5 ∧ t.error = 0 ∧ t.firmware = f ∧ ∀ i, i < (enumBytes s.config).length →
      t.byte (Config.enumAddr + i) = (enumBytes s.config).getD i 0) ∧
    (firmwareGood s.config f = false → t.phase = 4 ∧ t.error = 0xE4)) ∧
  (∀ (l : Nat) (s : State),
    (∃ t, exec (.linkFailure l true) s = .next t ∧ t.links.get 0 l = 2 ∧ t.stopped = s.stopped) ∧
    (∃ t, exec (.linkFailure l false) s = .next t ∧ t.links.get 0 l = 0 ∧ t.stopped = true) ∧
    (∃ t, exec (.linkRetrained l) s = .next t ∧ ∀ n, t.links.get 0 n = if n = l ∧ s.links.get 0 l = 2 then 1 else s.links.get 0 n)) ∧
  (∀ (target : FrostTarget) (s : State), s.phase = 5 →
    (s.frozen ≠ .no ∨ s.unfocus.frostOpen target = false → ∃ t, exec (.frost target) s = .next t ∧ t.status = 2 ∧ t.frozen = s.frozen) ∧
    (s.frozen = .no → s.unfocus.frostOpen target = true → ∃ t, exec (.frost target) s = .next t ∧ t.status = 1 ∧ t.frozen = .freezing target ∧
      ∀ n, (s.pages.get {} n).device = true → (t.pages.get {} n).recalled = true)) ∧
  (∀ (target : FrostTarget) (s : State), s.frozen = .freezing target →
    (s.unfocus.still = false → exec .frostComplete s = .next s.unfocus.unstall) ∧
    (s.unfocus.still = true → let g := s.unfocus.image
      ∃ t, exec .frostComplete s = .next t ∧ t.frozen = .frozen ∧ t.status = 0 ∧ (frostAddr target, g) ∈ t.images ∧
        g.mem = s.mem.dropKeys (2 ^ 54 ≤ ·) ∧ g.seals = s.seals ∧ g.parts = s.parts ∧ g.ctxs = s.ctxs ∧
        (Unwatched s → t.goodImage (frostAddr target) = some g))) ∧
  (∀ s : State, s.phase = 5 → ∃ t, exec .continueFrost s = .next t ∧
    (s.frozen = .frozen → t.frozen = .no ∧ t.status = 0) ∧ (s.frozen ≠ .frozen → t.frozen = s.frozen ∧ t.status = 2)) ∧
  (∀ (a : Addr) (s : State), s.phase = 5 →
    let may := (∀ e ∈ s.parts, e.2.entry.valid = false) ∧ (s.unfocus.goodImage a).isSome = true ∧ (s.frozen = .no ∨ s.frozen = .frozen)
    (may → ∃ t, exec (.thaw a) s = .next t ∧ t.frozen = .thawing a ∧ t.status = 1) ∧
    (¬ may → ∃ t, exec (.thaw a) s = .next t ∧ t.frozen = s.frozen ∧ t.status = 2)) ∧
  (∀ (a : Addr) (g : DeviceImage) (s : State), s.frozen = .thawing a → (s.images.find? fun x => x.1 == a) = some (a, g) →
    Memory.wf s.mem = true → Memory.wf g.mem = true → (∀ k, 2 ^ 54 ≤ k → g.mem.get 0 k = 0) →
    ∃ t, exec .thawComplete s = .next t ∧ t.frozen = .no ∧ t.status = 0 ∧ t.parts = g.parts ∧ t.ctxs = g.ctxs ∧
      t.keysLive = g.keysLive ∧ t.keyNo = g.keyNo ∧ t.seals = g.seals ∧ t.blocks = g.blocks ∧ t.entries = [] ∧ t.updates = [] ∧
      t.commands = [] ∧ (∀ k, k < 2 ^ 54 → t.byte k = g.mem.get 0 k) ∧
      ∀ n, n < 4 → (g.clocks.getD n 0).toNat < 2 ^ 64 - 1 → (g.clocks.getD n 0).toNat < (t.die n).hlc.toNat) ∧
  (∀ (o : Owner) (nonce : BitVec 256) (s : State), s.phase = 5 →
    (o = .hypervisor → s.frozen ≠ .no → exec (.attestationRequest o nonce) s = .next (s.unfocus.answer 2).unstall) ∧
    ((o = .hypervisor → s.frozen = .no) →
      ∃ t bs, exec (.attestationRequest o nonce) s = .next t ∧ t.reports = s.reports ++ [(o, bs)] ∧ bs.take 32 = leBytes 32 nonce.toNat ∧
        (bs.drop 32).take 64 = leBytes 32 (Config.shake256 s.firmware.bytes).toNat ++ leBytes 32 (Config.shake256 (configBytes s.config)).toNat ∧
        bs.length = 3461 ∧ ∀ k, t.byte k = s.byte k))

/-- R176 to R178, R256, R298, R299, R339: the host's answers for a page, the driver's for a fault, invalidation, and the periods of placement
and arbitration. The hand-back of pages and the time of a stale translation are read as log entries 25 and 58 say. -/
def Obligations.PagesAndPeriods : Prop :=
  (∀ (n : Nat) (s : State),
    ((s.pages.get {} n).asked = false → exec (.hostPageGrant n) s = .next s.unfocus.unstall ∧
      exec (.hostPageRefuse n) s = .next s.unfocus.unstall) ∧
    ((s.pages.get {} n).asked = true →
      (∃ t, exec (.hostPageGrant n) s = .next t ∧ (t.pages.get {} n).device = true ∧ (t.pages.get {} n).asked = false ∧
        (t.pages.get {} n).since = s.cycle ∧ (∀ k, t.byte k = s.byte k) ∧ ∀ c ∈ t.commands, c.elems.all (fun e => e.2 ≠ .page n) = true) ∧
      (∃ t, exec (.hostPageRefuse n) s = .next t ∧ (t.pages.get {} n).device = (s.pages.get {} n).device ∧
        (t.pages.get {} n).asked = false ∧ (t.pages.get {} n).refused = true)) ∧
    (∃ t, exec (.hostPageRecall n) s = .next t ∧ ((s.pages.get {} n).device = true → (t.pages.get {} n).recalled = true) ∧
      ((s.pages.get {} n).device = false → t = s.unfocus.unstall)) ∧
    (s.unfocus.mayHandBack n = false → exec (.hostPageHandback n) s = .next s.unfocus.unstall) ∧
    (s.unfocus.mayHandBack n = true → ∃ t, exec (.hostPageHandback n) s = .next t ∧ (t.pages.get {} n).device = false ∧
      (t.pages.get {} n).recalled = false ∧ (∀ x ∈ t.shares ++ t.l1, inHostPage n (128 * x.line) = false) ∧ ∀ k, t.byte k = s.byte k)) ∧
  (∀ (b : By Nat) (core slot units : Nat) (base : Addr) (s : State), s.phase = 5 → mayReach b.owner (State.partOf b.value s) = false →
    exec (.driverResume b core slot) s = .next s.unfocus.unstall ∧ exec (.driverRefuse b core slot) s = .next s.unfocus.unstall ∧
      exec (.invalidate b base units) s = .next s.unfocus.unstall) ∧
  (∀ (b : By Nat) (core slot units : Nat) (base : Addr) (s : State), s.phase = 5 → mayReach b.owner (State.partOf b.value s) = true →
    let cx := b.value
    (∃ t, exec (.driverResume b core slot) s = .next t ∧ (∀ k, t.byte k = s.byte k) ∧
      ∀ x ∈ s.unfocus.driverParks cx core slot, x.1 ≠ 0 → ∀ w, t.findTeam x.1 = some w → ∀ y ∈ w.every, y.id = x.2.id → y.park = .none) ∧
    (s.unfocus.driverParks cx core slot = [] → ∃ t, exec (.driverRefuse b core slot) s = .next t ∧
      ∀ k, t.byte k = s.byte k) ∧
    (∀ tid x f, s.unfocus.driverParks cx core slot = [(tid, x)] → x.park = .driver f → exec (.driverRefuse b core slot) s =
      .next ((s.unfocus.faultParked tid x.id f).answerElements (commandOf cx core slot) (· == .driver) (some .XLATE)).unstall) ∧
    (∃ t, exec (.invalidate b base units) s = .next t ∧
      t.invals = s.invals ++ [(cx, base, units)] ∧ t.tlb = s.tlb ∧ ∀ k, t.byte k = s.byte k)) ∧
  (∀ (cx : Nat) (i : Nat × Addr × Nat) (s : State), (s.invals.find? fun i => i.1 == cx) = some i →
    (s.unfocus.rangeBusy cx i.2.1 i.2.2 = true → exec (.invalidateDone cx) s = .next s.unfocus.unstall) ∧
    (s.unfocus.rangeBusy cx i.2.1 i.2.2 = false → ∃ t, exec (.invalidateDone cx) s = .next t ∧ t.invals = s.invals.erase i ∧
      ∀ x ∈ t.tlb, x.ctx = cx → ¬ (x.page < i.2.1.toNat + 65536 * i.2.2 ∧ i.2.1.toNat < x.page + 2 ^ x.shift))) ∧
  (∀ s : State,
    let queued := fun u => s.updates.any fun q => 128 * q.line / 2 ^ 21 == u
    ∃ t, exec .placementPeriod s = .next t ∧ t.placement = s.placement + 1 ∧
      ∀ u, t.homes.get none u =
        if s.frozen = .no then (s.homes.get none u).map (placeUnit s.cycle (queued u)) else s.homes.get none u) ∧
  (∀ (now : Nat) (queued : Bool) (h : Home),
    let d := (placeUnit now queued h).die
    d ≠ h.die → h.fixed = [] ∧ queued = false ∧ 4 * h.counts.get 0 h.die < h.counts.get 0 d ∧ d ∈ h.hot ∧
      ∀ c, h.moved = some c → c + cyclesOf 10000000 ≤ now) ∧
  (∀ s : State, ∃ t, exec .equinoxPeriod s = .next t ∧ t.equinox = s.equinox + 1 ∧
    ∀ c x, (t.core c).budgets.get {} x = ((s.core c).budgets.get {} x).period) ∧
  (∀ b : Budget, b.period.refill = b.refill ∧ b.period.balance + (b.debt - b.period.debt) = b.refill.toNat ∧
    b.period.debt ≤ b.debt ∧ 2 * (b.debt - b.period.debt) ≤ b.refill.toNat)

/-- R16, R80, R82, R243 to R249, R254, R257: a ring's next slot becomes a queued card, is read again while it is stale, or stops the ring;
a decision of the dispatcher refuses a card or puts a block on a core, its teams in the state of R16; a launch that is done writes the
completion record that its card names, if any, and leaves; a bin closes after 4,096 cycles; a launch past its deadline is marked. The choice
of a core and slot is free (log entry 48); ring addresses are physical (log entry 23). -/
def Obligations.LaunchEvents : Prop :=
  (∀ (i : Instr) (p n : Nat) (s : State), (i = .cardRead p n ∨ i = .slotReread p n) →
    let r := s.ring p n
    let idle := s.frozen ≠ .no ∨ r.en = false ∨ r.ovr = true ∨ r.door ≤ r.read
    let va := slotOf r r.read
    let bs := (List.range 128).map fun k => s.byte (va.toNat + k)
    let seq := field bs 48 8
    let size := 2 ^ r.lsize
    let stale := seq < r.read ∧ seq % size = r.read % size
    let due := r.stale ≠ 0 ∧ r.since + cyclesOf 1000 ≤ s.cycle
    ((i = .cardRead p n ∧ r.stale ≠ 0) ∨ (i = .slotReread p n ∧ ¬ due) ∨ idle → exec i s = .next s.unfocus.unstall) ∧
    ((i = .cardRead p n → r.stale = 0) → (i = .slotReread p n → due) → ¬ idle →
      (r.door - r.read ≤ size → seq = r.read → ∃ t x, exec i s = .next t ∧ (t.ring p n).read = r.read + 1 ∧ (t.ring p n).stale = 0 ∧
        (t.ring p n).ovr = false ∧ (t.ring p n).cards = r.cards ++ [x] ∧ x.addr = va ∧
        { x.card with valid := true } = { parseCard bs with valid := true }) ∧
      (r.door - r.read ≤ size → seq ≠ r.read → stale → r.stale < 16 →
        ∃ t, exec i s = .next t ∧ t.ring p n = { r with stale := r.stale + 1, since := s.cycle }) ∧
      (size < r.door - r.read ∨ (seq ≠ r.read ∧ (¬ stale ∨ 16 ≤ r.stale)) →
        ∃ t, exec i s = .next t ∧ (t.ring p n).ovr = true ∧ (t.ring p n).read = r.read ∧ (t.ring p n).log = va))) ∧
  (∀ (p : Nat) (s : State),
    ((s.frozen ≠ .no ∨ s.phase ≠ 5 ∨ (s.part p).entry.valid = false ∨ s.unfocus.decide? p = none) →
      exec (.dispatch p) s = .next s.unfocus.unstall) ∧
    (∀ n x, s.frozen = .no → s.phase = 5 → (s.part p).entry.valid = true → s.unfocus.decide? p = some (n, x, none) → x.card.done = 0 →
      ∃ t, exec (.dispatch p) s = .next t ∧ t.blocks = s.blocks ∧ (t.part p).round = n + 1 ∧ ∀ k, t.byte k = s.byte k) ∧
    (∀ n x core, s.frozen = .no → s.phase = 5 → (s.part p).entry.valid = true → s.unfocus.decide? p = some (n, x, some core) →
      (∀ l ∈ s.launches, l.order ≠ x.order ∧ l.id < s.nextId) → (∀ y ∈ s.unfocus.others, y.block ≤ s.nextId) →
      let c := x.card
      ∃ t b, exec (.dispatch p) s = .next t ∧ t.blocks = s.blocks ++ [b] ∧ b.core = core ∧ b.nteams = c.teams ∧ b.linear = 0 ∧
        b.preempt = .resident ∧ (∀ k, t.byte k = s.byte k) ∧
        ∀ y ∈ t.others, y.block = b.id → y.core = core ∧ y.n = c.size ∧ y.live = fullMask c.size ∧ y.blocks = c.blocks ∧
          y.s.get 0 0 = c.param.extractLsb' 0 32 ∧ y.s.get 0 1 = c.param.extractLsb' 32 32 ∧ (∀ r, 2 ≤ r → y.s.get 0 r = 0) ∧
          y.v = [] ∧ y.p = [] ∧ y.a = [] ∧ y.q = [] ∧ y.tctl = 0 ∧ y.fdepth = 0 ∧ y.handler = none ∧ y.held = [] ∧
          y.trapvec = (s.ctx c.ctx).desc.trapvec ∧ ∃ z ∈ y.splits, z.pc = c.entry ∧ z.mask = fullMask c.size ∧ z.run = {})) ∧
  (∀ (id : Nat) (l : Launch) (s : State), s.unfocus.findLaunch id = some l → s.unfocus.launchDone l = true → l.card.done = 0 →
    ∃ t, exec (.launchCompletion id) s = .next t ∧ (∀ x ∈ t.launches, x.id ≠ id) ∧ (∀ k, t.byte k = s.byte k) ∧
      ∀ x ∈ s.launches, x.id ≠ id → x ∈ t.launches) ∧
  (∀ (id : Nat) (l : Launch) (s : State), s.unfocus.findLaunch id = some l → s.unfocus.launchDone l = true → l.card.done ≠ 0 →
    let c := l.card
    let open? := s.unfocus.recordOpen c.ctx l.id c.part c.done 32 l.die
    let status := l.code % 256 + (if l.missed = true ∨ s.pastDeadline c.deadline = true then 256 else 0) + (if l.engine then 1024 else 0)
    (open? = false → exec (.launchCompletion id) s = .next s.unfocus.unstall) ∧
    (open? = true → ∃ t, exec (.launchCompletion id) s = .next t ∧ ∀ x ∈ t.launches, x.id ≠ id) ∧
    (∀ p : Phys, open? = true → Unwatched s → canonical c.done = true → c.done.toNat % 65536 + 32 ≤ 65536 →
      s.unfocus.translate c.ctx l.id c.part (l.die * s.grade.coresPerDie) .store c.done = .ok p → (∀ h, p.host = some h → s.owns h = true) →
      let place : Place := ⟨(List.range 32).map (p.key + ·), p.kid⟩
      ∃ t h, exec (.launchCompletion id) s = .next t ∧ BytesStored place (recordBytes c.seq.toNat status l.nfault l.place h) s t)) ∧
  (∀ (id d : Nat) (b : Bin) (s : State), b ∈ (s.die d).bins → b.id = id → b.opened + 4096 ≤ s.cycle →
    ∃ t, exec (.packingBinTimeout id) s = .next t ∧ { b with closed := true } ∈ (t.die d).bins ∧ ∀ k, t.byte k = s.byte k) ∧
  (∀ (id : Nat) (s : State), ∃ t, exec (.deadlineExpiry id) s = .next t ∧
    t.launches = s.launches.map fun l =>
      if l.id = id ∧ s.pastDeadline l.card.deadline = true then { l with missed := true, expired := true } else l)

/-- R40, R42, R46, R48, R101, R145, R170, R305 to R310, R316, R321 to R324, R345: what begins, ends, stops and resumes a team. Where the
records of a save or a checkpoint stand in their area is free (log entry 53), a replay passes through the images of the counts (log entry 62),
and corners of pre-emption and debugging are read as log entries 54 and 59 say. -/
def Obligations.TeamEvents : Prop :=
  (∀ (tid sid : Nat) (w : Team) (x : Split) (s : State), tid ≠ 0 → sid ≠ 0 → s.unfocus.findTeam tid = some w →
    (w.splits.find? fun y => y.id == sid) = some x →
    (s.unfocus.mayStart w x = false → exec (.runStart tid sid) s = .next s.unfocus.unstall) ∧
    (s.unfocus.mayStart w x = true → (s.unfocus.focus tid sid).pendingFault = none →
      ∃ t w' x', exec (.runStart tid sid) s = .next t ∧ t.findTeam tid = some w' ∧ x' ∈ w'.splits ∧ x'.id = sid ∧
        x'.run = { active := true } ∧ x'.pc = x.pc ∧ x'.mask = x.mask ∧ x'.begun = s.nextId ∧ x'.inSlot = true ∧
        x'.waits = 0 ∧ x'.awaits = [] ∧ ∀ k, t.byte k = s.byte k) ∧
    (∀ g f, s.unfocus.mayStart w x = true → (s.unfocus.focus tid sid).pendingFault = some (g, f) →
      exec (.runStart tid sid) s = .next ((((s.unfocus.focus tid sid).modTeam g).takeFault f).unfocus).unstall)) ∧
  (∀ (tid id : Nat) (w : Team) (p : Pending) (xs : List Landing) (s : State), tid ≠ 0 → s.unfocus.findTeam tid = some w →
    (w.pending.find? fun p => p.id == id) = some p → p.value = some xs →
    ∃ t w', exec (.resultWriteback tid id) s = .next t ∧ t.findTeam tid = some w' ∧ (∀ y ∈ w'.pending, y.id ≠ id) ∧
      (∀ k, t.byte k = s.byte k) ∧
      (∀ n v, xs = [.word n v] → ∀ r, w'.s.get 0 r = if r = n then v else w.s.get 0 r) ∧
      (∀ n b, xs = [.bit n b] → n ≠ 7 → ∀ r, w'.q.get false r = if r = n then b else w.q.get false r) ∧
      (∀ n tag vals, xs = [.lanes n (some tag) vals] → n < 248 → (vals.map Prod.fst).Nodup → (∀ v ∈ vals, v.1 < 1024) →
        (∀ y ∈ w.every, y.id = p.split → y.wave = none) →
        w'.tags.get .raw n = tag ∧ ∀ r l, l < 1024 → w'.v.get 0 (1024 * r + l) =
          if r = n then ((vals.find? fun v => v.1 == l).map Prod.snd).getD (w.v.get 0 (1024 * r + l)) else w.v.get 0 (1024 * r + l))) ∧
  (∀ (tid : Nat) (w : Team) (x y : Split) (a b : Wave) (s : State), tid ≠ 0 → s.unfocus.findTeam tid = some w →
    (w.splits.find? fun z => z.id == x.id) = some x → (w.splits.find? fun z => z.id == a.other) = some y →
    x.wave = some a → y.wave = some b → y.run.temps.wf 0 = true →
    x.pc = a.stop → y.pc = a.stop → x.park = .none → y.park = .none → a.hit = true →
    ∃ t w' z, exec (.waveSplitMerge tid x.id) s = .next t ∧ t.findTeam tid = some w' ∧ z ∈ w'.splits ∧ z.id = x.id ∧
      z.mask = x.mask ||| y.mask ∧ z.wave = none ∧ z.pc = a.stop ∧ ∀ r l, r < 8 → l < 1024 →
        z.run.temps.get 0 (1024 * r + l) = if y.mask.getLsbD l then y.run.temps.get 0 (1024 * r + l) else x.run.temps.get 0 (1024 * r + l)) ∧
  (∀ (gid r : Nat) (g : Team) (s : State), gid ≠ 0 → s.unfocus.findTeam gid = some g → g.role = .helper r → g.ended = false →
    let late := maskOf ((g.lent.filter fun x => x.reclaimed.any fun c => decide (c + 4096 ≤ s.cycle)).map Lent.helper)
    ∃ t w, exec (.helperAbandonTimeout gid) s = .next t ∧ t.findTeam gid = some w ∧ w.live = g.live &&& ~~~late) ∧
  (∀ (tid : Nat) (cores : List Nat) (s : State), s.phase = 5 → s.frozen ≠ .no →
    exec (.kill tid) s = .next (s.unfocus.answer 2).unstall ∧ exec (.preemptRequest cores) s = .next (s.unfocus.answer 2).unstall) ∧
  (∀ (tid : Nat) (w : Team) (s : State), s.phase = 5 → s.frozen = .no → tid ≠ 0 → s.unfocus.findTeam tid = some w → w.role = .main → w.ended = false →
    ∃ t w', exec (.kill tid) s = .next t ∧ t.findTeam tid = some w' ∧ w'.ended = true ∧ w'.live = 0 ∧ w'.splits = [] ∧ w'.held = [] ∧
      (∀ e ∈ t.entries, e.team = tid → e.committed = true) ∧ ∀ k, t.byte k = s.byte k) ∧
  (∀ (cores : List Nat) (s : State), s.phase = 5 → s.frozen = .no → ∃ t, exec (.preemptRequest cores) s = .next t ∧
    (∀ c ∈ cores, (t.core c).asked = true) ∧
    ∀ b ∈ s.blocks, cores.contains b.core = true → b.preempt = .resident → ∃ b' ∈ t.blocks, b'.id = b.id ∧ b'.preempt ≠ .resident) ∧
  (∀ (id c : Nat) (b : Block) (s : State), s.findBlock id = some b → b.preempt = .draining c →
    (s.cycle < c + cyclesOf 200000 → exec (.drainTimeout id) s = .next s.unfocus.unstall) ∧
    (c + cyclesOf 200000 ≤ s.cycle → ∃ t b', exec (.drainTimeout id) s = .next t ∧ t.findBlock id = some b' ∧
      (b'.preempt = .restarting ∨ b'.preempt = .saving))) ∧
  (∀ (id : Nat) (b : Block) (s : State), s.findBlock id = some b → b.preempt = .saving →
    let u := s.unfocus
    let area := fun k => ∃ y ∈ u.teamsOf b, let d := u.descOf y.ctx y.launch
      d.savebase.toNat ≤ k ∧ k < d.savebase.toNat + d.savesize.toNat
    ((∀ y ∈ u.teamsOf b, y.id ≠ 0 ∧ u.savable b y = true ∧ y.expand.bind Expansion.current = none) →
      ((u.matrix b.core).bound = some id → (u.matrix b.core).queue = []) →
      (∀ p ∈ s.parts, ∀ i, i < 4 → (p.2.wps.get {} i).en = false) →
      ∃ t b', exec (.saveComplete id) s = .next t ∧ t.findBlock id = some b' ∧ b'.preempt = .saved s.cycle ∧
        (∀ y ∈ t.teamsOf b', y.out = true) ∧ ∀ k, ¬ area k → t.byte k = s.byte k)) ∧
  (∀ (id since core : Nat) (b : Block) (s : State), s.findBlock id = some b → b.preempt = .saved since → s.frozen = .no →
    s.unfocus.coreBack b = some core →
    ∃ t b', exec (.blockRestore id) s = .next t ∧ t.findBlock id = some b' ∧ b'.preempt = .resident ∧ b'.core = core ∧
      ∀ k, t.byte k = s.byte k) ∧
  (∀ (tid : Nat) (w : Team) (s : State), s.phase = 5 → tid ≠ 0 → s.unfocus.findTeam tid = some w → (w.stopAt = none ∨ canonical w.frpc = true) →
    ∃ t w', exec (.debugResume tid) s = .next t ∧ t.findTeam tid = some w' ∧ w'.stopped = false ∧ w'.stopAt = none ∧
      (∀ y ∈ w'.every, y.park ≠ .stop ∧ (w.stopAt = some y.id → y.pc = w.frpc &&& ~~~3)) ∧ (∀ c ∈ t.commands, c.team = tid → c.hold = none) ∧
      ∀ k, t.byte k = s.byte k) ∧
  (∀ (p : Nat) (s : State),
    let on := (s.part p).dbgctl.getLsbD 2 = true ∨ (s.part p).checking = true
    (¬ on → exec (.checkpoint p) s = .next s.unfocus.unstall) ∧
    (on → ∃ t, exec (.checkpoint p) s = .next t ∧
      ((t.part p).checking = true ∨ ((t.part p).checking = false ∧ (t.part p).interval = some (t.part p).retired))) ∧
    (on → s.blocksOf p = [] → ∃ t, exec (.checkpoint p) s = .next t ∧ (t.part p).checking = false ∧
      (t.part p).interval = some (s.part p).retired ∧ (t.part p).log = [] ∧ (t.part p).undo = [] ∧
      ∀ k, ¬ ((s.part p).recBase.toNat ≤ k ∧ k < (s.part p).recBase.toNat + (s.part p).recSize.toNat) → t.byte k = s.byte k)) ∧
  (∀ (p n c : Nat) (g h : PartImage) (s : State), s.phase = 5 → (s.part p).interval = some c → s.imageAt p c = some g → s.imageAt p n = some h →
    c ≤ n → n ≤ (s.part p).retired →
    ∃ t, exec (.replayStop p n) s = .next t ∧ (t.part p).replayTo = some n ∧ (t.part p).retired = c ∧
      ∀ y ∈ t.others, y.part = p → y.stopped = true) ∧
  (∀ (p n : Nat) (s : State), (s.part p).replayTo = some n →
    ((s.part p).retired ≠ n → exec (.replayCountReached p) s = .next s.unfocus.unstall) ∧
    ((s.part p).retired = n → ∃ t, exec (.replayCountReached p) s = .next t ∧ (t.part p).replayTo = none ∧ (t.part p).retired = n ∧
      ∀ y ∈ t.others, y.part = p → y.stopped = true)) ∧
  (∀ (core sched : Nat) (s : State),
    ((s.unit core sched).expired = true → ∃ t, exec (.sampleCountExpiry core sched) s = .next t ∧
      t.unit core sched = { s.unit core sched with armed := true } ∧ ∀ k, t.byte k = s.byte k) ∧
    ((s.unit core sched).expired = false → exec (.sampleCountExpiry core sched) s = .next s.unfocus.unstall))
end

