-- ==== Sys2Proof/Laws/Map.lean ====
section
/-! SUPPORT. The laws of sparse tables: a read after a write, and that every operation keeps the canonical form. -/
namespace Sys2Proof

variable {α : Type}

@[simp] theorem SMap.get_nil (d : α) (k : Nat) : SMap.get [] d k = d := rfl

theorem SMap.get_erase (m : SMap α) (d : α) (k j : Nat) :
    (m.erase k).get d j = if k = j then d else m.get d j := by
  induction m with
  | nil => simp [SMap.erase, SMap.get]
  | cons e r ih =>
    obtain ⟨i, x⟩ := e
    by_cases hik : i = k
    · subst hik
      by_cases hij : i = j <;> simp_all [SMap.erase, SMap.get]
    · by_cases hij : i = j
      · subst hij; simp [SMap.erase, SMap.get, hik, Ne.symm hik]
      · simp [SMap.erase, SMap.get, hik, hij, ih]

/-- Inserting a key that no entry has. -/
theorem SMap.get_insert (m : SMap α) (d : α) (k j : Nat) (v : α) (h : ∀ e ∈ m, e.1 ≠ k) :
    (m.insert k v).get d j = if k = j then v else m.get d j := by
  induction m with
  | nil => by_cases hkj : k = j <;> simp [SMap.insert, SMap.get, hkj]
  | cons e r ih =>
    obtain ⟨i, x⟩ := e
    have hik : i ≠ k := h (i, x) (by simp)
    have hr := ih fun e he => h e (by simp [he])
    by_cases hlt : k < i
    · by_cases hkj : k = j
      · subst hkj; simp [SMap.insert, SMap.get, hlt]
      · simp [SMap.insert, SMap.get, hlt, hkj]
    · by_cases hij : i = j
      · subst hij; simp [SMap.insert, SMap.get, hlt, Ne.symm hik]
      · simp [SMap.insert, SMap.get, hlt, hij, hr]

theorem SMap.erase_noKey (m : SMap α) (k : Nat) : ∀ e ∈ m.erase k, e.1 ≠ k := by
  induction m with
  | nil => simp [SMap.erase]
  | cons e r ih =>
    obtain ⟨i, x⟩ := e
    by_cases hik : i = k
    · simpa [SMap.erase, hik] using ih
    · simpa [SMap.erase, hik] using ih

/-- A read after a write: the key written reads as the value, every other key as before. -/
theorem SMap.get_set [DecidableEq α] (m : SMap α) (d : α) (k j : Nat) (v : α) :
    (m.set d k v).get d j = if k = j then v else m.get d j := by
  unfold SMap.set
  split
  · subst_vars; exact SMap.get_erase m _ k j
  · rw [SMap.get_insert _ d k j v (SMap.erase_noKey m k), SMap.get_erase]
    by_cases hkj : k = j <;> simp [hkj]

@[simp] theorem SMap.get_set_same [DecidableEq α] (m : SMap α) (d : α) (k : Nat) (v : α) :
    (m.set d k v).get d k = v := by simp [SMap.get_set]

theorem SMap.get_set_other [DecidableEq α] (m : SMap α) (d : α) {k j : Nat} (v : α) (h : k ≠ j) :
    (m.set d k v).get d j = m.get d j := by simp [SMap.get_set, h]

/-- Writing a list leaves every key outside it alone. -/
theorem SMap.get_setList_other [DecidableEq α] (vs : List α) (m : SMap α) (d : α) (k j : Nat)
    (h : j < k ∨ k + vs.length ≤ j) : (m.setList d k vs).get d j = m.get d j := by
  induction vs generalizing m k with
  | nil => rfl
  | cons v vs ih =>
    have hl : (v :: vs).length = vs.length + 1 := rfl
    simp only [SMap.setList]
    rw [ih _ _ (by omega), SMap.get_set_other _ _ _ (by omega)]

/-- Reading back the list that was written. -/
theorem SMap.get_setList_same [DecidableEq α] (vs : List α) (m : SMap α) (d : α) (k i : Nat) (h : i < vs.length) :
    (m.setList d k vs).get d (k + i) = vs[i] := by
  induction vs generalizing m k i with
  | nil => simp at h
  | cons v vs ih =>
    cases i with
    | zero =>
      simp only [SMap.setList, Nat.add_zero, List.getElem_cons_zero]
      rw [SMap.get_setList_other _ _ _ _ _ (by omega)]; simp
    | succ i =>
      have : i < vs.length := by simpa using h
      simp only [SMap.setList, List.getElem_cons_succ]
      rw [show k + (i + 1) = (k + 1) + i by omega]
      exact ih _ _ _ this

theorem SMap.getList_setList [DecidableEq α] (vs : List α) (m : SMap α) (d : α) (k : Nat) :
    (m.setList d k vs).getList d k vs.length = vs := by
  refine List.ext_getElem (by simp [SMap.getList]) fun i h _ => ?_
  simp only [SMap.getList, List.getElem_map, List.getElem_range]
  exact SMap.get_setList_same vs m d k i (by simpa [SMap.getList] using h)

theorem SMap.wfFrom_mono [DecidableEq α] (d : α) (m : SMap α) {a b : Nat} (h : a ≤ b) :
    SMap.wfFrom d b m = true → SMap.wfFrom d a m = true := by
  cases m with
  | nil => simp [SMap.wfFrom]
  | cons e r =>
    obtain ⟨i, x⟩ := e
    simp only [SMap.wfFrom, Bool.and_eq_true, decide_eq_true_eq]
    rintro ⟨⟨hb, hx⟩, hr⟩
    exact ⟨⟨Nat.le_trans h hb, hx⟩, hr⟩

theorem SMap.wfFrom_erase [DecidableEq α] (d : α) (k : Nat) (m : SMap α) (lo : Nat) :
    SMap.wfFrom d lo m = true → SMap.wfFrom d lo (m.erase k) = true := by
  induction m generalizing lo with
  | nil => simp [SMap.wfFrom, SMap.erase]
  | cons e r ih =>
    obtain ⟨i, x⟩ := e
    simp only [SMap.wfFrom, SMap.erase, Bool.and_eq_true, decide_eq_true_eq]
    rintro ⟨⟨hlo, hx⟩, hr⟩
    split
    · exact SMap.wfFrom_mono d _ (by omega) (ih _ hr)
    · simp [SMap.wfFrom, hlo, hx, ih _ hr]

theorem SMap.wfFrom_insert [DecidableEq α] (d : α) (k : Nat) (v : α) (hv : v ≠ d) (m : SMap α) (lo : Nat)
    (hk : lo ≤ k) (hn : ∀ e ∈ m, e.1 ≠ k) :
    SMap.wfFrom d lo m = true → SMap.wfFrom d lo (m.insert k v) = true := by
  induction m generalizing lo with
  | nil => simp [SMap.wfFrom, SMap.insert, hk, hv]
  | cons e r ih =>
    obtain ⟨i, x⟩ := e
    have hik : i ≠ k := hn (i, x) (by simp)
    simp only [SMap.wfFrom, SMap.insert, Bool.and_eq_true, decide_eq_true_eq]
    rintro ⟨⟨hlo, hx⟩, hr⟩
    split
    · simp [SMap.wfFrom, hk, hv, hx, hr]; omega
    · simp [SMap.wfFrom, hlo, hx, ih _ (by omega) (fun e he => hn e (by simp [he])) hr]

/-- Every write keeps the canonical form. -/
theorem SMap.wf_set [DecidableEq α] (m : SMap α) (d : α) (k : Nat) (v : α) (h : m.wf d = true) :
    (m.set d k v).wf d = true := by
  unfold SMap.set
  split
  · exact SMap.wfFrom_erase d k m 0 h
  · exact SMap.wfFrom_insert d k v ‹_› _ 0 (Nat.zero_le _) (SMap.erase_noKey m k) (SMap.wfFrom_erase d k m 0 h)

theorem SMap.wf_setList [DecidableEq α] (vs : List α) (m : SMap α) (d : α) (k : Nat) (h : m.wf d = true) :
    (m.setList d k vs).wf d = true := by
  induction vs generalizing m k with
  | nil => exact h
  | cons v vs ih => exact ih _ _ (SMap.wf_set m d k v h)

theorem SMap.wfFrom_dropKeys [DecidableEq α] (d : α) (p : Nat → Bool) (m : SMap α) (lo : Nat) :
    SMap.wfFrom d lo m = true → SMap.wfFrom d lo (m.dropKeys p) = true := by
  induction m generalizing lo with
  | nil => simp [SMap.wfFrom, SMap.dropKeys]
  | cons e r ih =>
    obtain ⟨i, x⟩ := e
    simp only [SMap.wfFrom, Bool.and_eq_true, decide_eq_true_eq]
    rintro ⟨⟨hlo, hx⟩, hr⟩
    have := ih _ hr
    simp only [SMap.dropKeys, List.filter_cons] at this ⊢
    split
    · simp [SMap.wfFrom, hlo, hx, this]
    · exact SMap.wfFrom_mono d _ (by omega) this

theorem SMap.wf_dropKeys [DecidableEq α] (m : SMap α) (d : α) (p : Nat → Bool) (h : m.wf d = true) :
    (m.dropKeys p).wf d = true := SMap.wfFrom_dropKeys d p m 0 h

@[simp] theorem SMap.wf_nil [DecidableEq α] (d : α) : SMap.wf ([] : SMap α) d = true := rfl

end Sys2Proof
end

