-- ==== Sys2Proof/Laws/State.lean ====
section
/-! SUPPORT. The field lemmas of the state's updates: what each named update of Machine/Ops.lean leaves as it was, one simp
rule for each field. -/
namespace Sys2Proof.Machine.State

@[simp] theorem modTeam_fields (s : State) (g : Team → Team) :
    (s.modTeam g).grade = s.grade ∧ (s.modTeam g).config = s.config ∧ (s.modTeam g).pufOk = s.pufOk ∧
    (s.modTeam g).seed = s.seed ∧ (s.modTeam g).firmware = s.firmware ∧ (s.modTeam g).phase = s.phase ∧
    (s.modTeam g).error = s.error ∧ (s.modTeam g).status = s.status ∧ (s.modTeam g).stopped = s.stopped ∧
    (s.modTeam g).frozen = s.frozen ∧ (s.modTeam g).devno = s.devno ∧ (s.modTeam g).links = s.links ∧
    (s.modTeam g).peers = s.peers ∧ (s.modTeam g).arrived = s.arrived ∧ (s.modTeam g).peerBytes = s.peerBytes ∧
    (s.modTeam g).outReads = s.outReads ∧ (s.modTeam g).hostNeeds = s.hostNeeds ∧ (s.modTeam g).msix = s.msix ∧
    (s.modTeam g).keysLive = s.keysLive ∧ (s.modTeam g).keyNo = s.keyNo ∧ (s.modTeam g).retiring = s.retiring ∧
    (s.modTeam g).images = s.images ∧ (s.modTeam g).past = s.past ∧ (s.modTeam g).reports = s.reports ∧
    (s.modTeam g).cycle = s.cycle ∧ (s.modTeam g).equinox = s.equinox ∧ (s.modTeam g).placement = s.placement ∧
    (s.modTeam g).free = s.free ∧ (s.modTeam g).nextId = s.nextId ∧ (s.modTeam g).agenda = s.agenda ∧
    (s.modTeam g).split = s.split ∧ (s.modTeam g).others = s.others ∧ (s.modTeam g).blocks = s.blocks ∧
    (s.modTeam g).launches = s.launches ∧ (s.modTeam g).mem = s.mem ∧ (s.modTeam g).full = s.full ∧
    (s.modTeam g).seals = s.seals ∧ (s.modTeam g).backed = s.backed ∧ (s.modTeam g).hist = s.hist ∧
    (s.modTeam g).l1 = s.l1 ∧ (s.modTeam g).floors = s.floors ∧ (s.modTeam g).entries = s.entries ∧
    (s.modTeam g).shares = s.shares ∧ (s.modTeam g).updates = s.updates ∧ (s.modTeam g).unperf = s.unperf ∧
    (s.modTeam g).commands = s.commands ∧ (s.modTeam g).cores = s.cores ∧ (s.modTeam g).dies = s.dies ∧
    (s.modTeam g).ctxs = s.ctxs ∧ (s.modTeam g).parts = s.parts ∧ (s.modTeam g).pages = s.pages ∧
    (s.modTeam g).homes = s.homes ∧ (s.modTeam g).tlb = s.tlb ∧ (s.modTeam g).invals = s.invals := by
  and_intros <;> rfl

@[simp] theorem modSplit_fields (s : State) (g : Split → Split) :
    (s.modSplit g).grade = s.grade ∧ (s.modSplit g).config = s.config ∧ (s.modSplit g).pufOk = s.pufOk ∧
    (s.modSplit g).seed = s.seed ∧ (s.modSplit g).firmware = s.firmware ∧ (s.modSplit g).phase = s.phase ∧
    (s.modSplit g).error = s.error ∧ (s.modSplit g).status = s.status ∧ (s.modSplit g).stopped = s.stopped ∧
    (s.modSplit g).frozen = s.frozen ∧ (s.modSplit g).devno = s.devno ∧ (s.modSplit g).links = s.links ∧
    (s.modSplit g).peers = s.peers ∧ (s.modSplit g).arrived = s.arrived ∧ (s.modSplit g).peerBytes = s.peerBytes ∧
    (s.modSplit g).outReads = s.outReads ∧ (s.modSplit g).hostNeeds = s.hostNeeds ∧ (s.modSplit g).msix = s.msix ∧
    (s.modSplit g).keysLive = s.keysLive ∧ (s.modSplit g).keyNo = s.keyNo ∧ (s.modSplit g).retiring = s.retiring ∧
    (s.modSplit g).images = s.images ∧ (s.modSplit g).past = s.past ∧ (s.modSplit g).reports = s.reports ∧
    (s.modSplit g).cycle = s.cycle ∧ (s.modSplit g).equinox = s.equinox ∧ (s.modSplit g).placement = s.placement ∧
    (s.modSplit g).free = s.free ∧ (s.modSplit g).nextId = s.nextId ∧ (s.modSplit g).agenda = s.agenda ∧
    (s.modSplit g).team = s.team ∧ (s.modSplit g).others = s.others ∧ (s.modSplit g).blocks = s.blocks ∧
    (s.modSplit g).launches = s.launches ∧ (s.modSplit g).mem = s.mem ∧ (s.modSplit g).full = s.full ∧
    (s.modSplit g).seals = s.seals ∧ (s.modSplit g).backed = s.backed ∧ (s.modSplit g).hist = s.hist ∧
    (s.modSplit g).l1 = s.l1 ∧ (s.modSplit g).floors = s.floors ∧ (s.modSplit g).entries = s.entries ∧
    (s.modSplit g).shares = s.shares ∧ (s.modSplit g).updates = s.updates ∧ (s.modSplit g).unperf = s.unperf ∧
    (s.modSplit g).commands = s.commands ∧ (s.modSplit g).cores = s.cores ∧ (s.modSplit g).dies = s.dies ∧
    (s.modSplit g).ctxs = s.ctxs ∧ (s.modSplit g).parts = s.parts ∧ (s.modSplit g).pages = s.pages ∧
    (s.modSplit g).homes = s.homes ∧ (s.modSplit g).tlb = s.tlb ∧ (s.modSplit g).invals = s.invals := by
  and_intros <;> rfl

@[simp] theorem modBlock_fields (s : State) (n : Nat) (g : Block → Block) :
    (s.modBlock n g).grade = s.grade ∧ (s.modBlock n g).config = s.config ∧ (s.modBlock n g).pufOk = s.pufOk ∧
    (s.modBlock n g).seed = s.seed ∧ (s.modBlock n g).firmware = s.firmware ∧ (s.modBlock n g).phase = s.phase ∧
    (s.modBlock n g).error = s.error ∧ (s.modBlock n g).status = s.status ∧ (s.modBlock n g).stopped = s.stopped ∧
    (s.modBlock n g).frozen = s.frozen ∧ (s.modBlock n g).devno = s.devno ∧ (s.modBlock n g).links = s.links ∧
    (s.modBlock n g).peers = s.peers ∧ (s.modBlock n g).arrived = s.arrived ∧ (s.modBlock n g).peerBytes = s.peerBytes ∧
    (s.modBlock n g).outReads = s.outReads ∧ (s.modBlock n g).hostNeeds = s.hostNeeds ∧ (s.modBlock n g).msix = s.msix ∧
    (s.modBlock n g).keysLive = s.keysLive ∧ (s.modBlock n g).keyNo = s.keyNo ∧ (s.modBlock n g).retiring = s.retiring ∧
    (s.modBlock n g).images = s.images ∧ (s.modBlock n g).past = s.past ∧ (s.modBlock n g).reports = s.reports ∧
    (s.modBlock n g).cycle = s.cycle ∧ (s.modBlock n g).equinox = s.equinox ∧ (s.modBlock n g).placement = s.placement ∧
    (s.modBlock n g).free = s.free ∧ (s.modBlock n g).nextId = s.nextId ∧ (s.modBlock n g).agenda = s.agenda ∧
    (s.modBlock n g).team = s.team ∧ (s.modBlock n g).split = s.split ∧ (s.modBlock n g).others = s.others ∧
    (s.modBlock n g).launches = s.launches ∧ (s.modBlock n g).mem = s.mem ∧ (s.modBlock n g).full = s.full ∧
    (s.modBlock n g).seals = s.seals ∧ (s.modBlock n g).backed = s.backed ∧ (s.modBlock n g).hist = s.hist ∧
    (s.modBlock n g).l1 = s.l1 ∧ (s.modBlock n g).floors = s.floors ∧ (s.modBlock n g).entries = s.entries ∧
    (s.modBlock n g).shares = s.shares ∧ (s.modBlock n g).updates = s.updates ∧ (s.modBlock n g).unperf = s.unperf ∧
    (s.modBlock n g).commands = s.commands ∧ (s.modBlock n g).cores = s.cores ∧ (s.modBlock n g).dies = s.dies ∧
    (s.modBlock n g).ctxs = s.ctxs ∧ (s.modBlock n g).parts = s.parts ∧ (s.modBlock n g).pages = s.pages ∧
    (s.modBlock n g).homes = s.homes ∧ (s.modBlock n g).tlb = s.tlb ∧ (s.modBlock n g).invals = s.invals := by
  and_intros <;> rfl

@[simp] theorem modLaunch_fields (s : State) (n : Nat) (g : Launch → Launch) :
    (s.modLaunch n g).grade = s.grade ∧ (s.modLaunch n g).config = s.config ∧ (s.modLaunch n g).pufOk = s.pufOk ∧
    (s.modLaunch n g).seed = s.seed ∧ (s.modLaunch n g).firmware = s.firmware ∧ (s.modLaunch n g).phase = s.phase ∧
    (s.modLaunch n g).error = s.error ∧ (s.modLaunch n g).status = s.status ∧ (s.modLaunch n g).stopped = s.stopped ∧
    (s.modLaunch n g).frozen = s.frozen ∧ (s.modLaunch n g).devno = s.devno ∧ (s.modLaunch n g).links = s.links ∧
    (s.modLaunch n g).peers = s.peers ∧ (s.modLaunch n g).arrived = s.arrived ∧ (s.modLaunch n g).peerBytes = s.peerBytes ∧
    (s.modLaunch n g).outReads = s.outReads ∧ (s.modLaunch n g).hostNeeds = s.hostNeeds ∧ (s.modLaunch n g).msix = s.msix ∧
    (s.modLaunch n g).keysLive = s.keysLive ∧ (s.modLaunch n g).keyNo = s.keyNo ∧ (s.modLaunch n g).retiring = s.retiring ∧
    (s.modLaunch n g).images = s.images ∧ (s.modLaunch n g).past = s.past ∧ (s.modLaunch n g).reports = s.reports ∧
    (s.modLaunch n g).cycle = s.cycle ∧ (s.modLaunch n g).equinox = s.equinox ∧ (s.modLaunch n g).placement = s.placement ∧
    (s.modLaunch n g).free = s.free ∧ (s.modLaunch n g).nextId = s.nextId ∧ (s.modLaunch n g).agenda = s.agenda ∧
    (s.modLaunch n g).team = s.team ∧ (s.modLaunch n g).split = s.split ∧ (s.modLaunch n g).others = s.others ∧
    (s.modLaunch n g).blocks = s.blocks ∧ (s.modLaunch n g).mem = s.mem ∧ (s.modLaunch n g).full = s.full ∧
    (s.modLaunch n g).seals = s.seals ∧ (s.modLaunch n g).backed = s.backed ∧ (s.modLaunch n g).hist = s.hist ∧
    (s.modLaunch n g).l1 = s.l1 ∧ (s.modLaunch n g).floors = s.floors ∧ (s.modLaunch n g).entries = s.entries ∧
    (s.modLaunch n g).shares = s.shares ∧ (s.modLaunch n g).updates = s.updates ∧ (s.modLaunch n g).unperf = s.unperf ∧
    (s.modLaunch n g).commands = s.commands ∧ (s.modLaunch n g).cores = s.cores ∧ (s.modLaunch n g).dies = s.dies ∧
    (s.modLaunch n g).ctxs = s.ctxs ∧ (s.modLaunch n g).parts = s.parts ∧ (s.modLaunch n g).pages = s.pages ∧
    (s.modLaunch n g).homes = s.homes ∧ (s.modLaunch n g).tlb = s.tlb ∧ (s.modLaunch n g).invals = s.invals := by
  and_intros <;> rfl

@[simp] theorem modCore_fields (s : State) (n : Nat) (g : Core → Core) :
    (s.modCore n g).grade = s.grade ∧ (s.modCore n g).config = s.config ∧ (s.modCore n g).pufOk = s.pufOk ∧
    (s.modCore n g).seed = s.seed ∧ (s.modCore n g).firmware = s.firmware ∧ (s.modCore n g).phase = s.phase ∧
    (s.modCore n g).error = s.error ∧ (s.modCore n g).status = s.status ∧ (s.modCore n g).stopped = s.stopped ∧
    (s.modCore n g).frozen = s.frozen ∧ (s.modCore n g).devno = s.devno ∧ (s.modCore n g).links = s.links ∧
    (s.modCore n g).peers = s.peers ∧ (s.modCore n g).arrived = s.arrived ∧ (s.modCore n g).peerBytes = s.peerBytes ∧
    (s.modCore n g).outReads = s.outReads ∧ (s.modCore n g).hostNeeds = s.hostNeeds ∧ (s.modCore n g).msix = s.msix ∧
    (s.modCore n g).keysLive = s.keysLive ∧ (s.modCore n g).keyNo = s.keyNo ∧ (s.modCore n g).retiring = s.retiring ∧
    (s.modCore n g).images = s.images ∧ (s.modCore n g).past = s.past ∧ (s.modCore n g).reports = s.reports ∧
    (s.modCore n g).cycle = s.cycle ∧ (s.modCore n g).equinox = s.equinox ∧ (s.modCore n g).placement = s.placement ∧
    (s.modCore n g).free = s.free ∧ (s.modCore n g).nextId = s.nextId ∧ (s.modCore n g).agenda = s.agenda ∧
    (s.modCore n g).team = s.team ∧ (s.modCore n g).split = s.split ∧ (s.modCore n g).others = s.others ∧
    (s.modCore n g).blocks = s.blocks ∧ (s.modCore n g).launches = s.launches ∧ (s.modCore n g).mem = s.mem ∧
    (s.modCore n g).full = s.full ∧ (s.modCore n g).seals = s.seals ∧ (s.modCore n g).backed = s.backed ∧
    (s.modCore n g).hist = s.hist ∧ (s.modCore n g).l1 = s.l1 ∧ (s.modCore n g).floors = s.floors ∧
    (s.modCore n g).entries = s.entries ∧ (s.modCore n g).shares = s.shares ∧ (s.modCore n g).updates = s.updates ∧
    (s.modCore n g).unperf = s.unperf ∧ (s.modCore n g).commands = s.commands ∧ (s.modCore n g).dies = s.dies ∧
    (s.modCore n g).ctxs = s.ctxs ∧ (s.modCore n g).parts = s.parts ∧ (s.modCore n g).pages = s.pages ∧
    (s.modCore n g).homes = s.homes ∧ (s.modCore n g).tlb = s.tlb ∧ (s.modCore n g).invals = s.invals := by
  and_intros <;> rfl

@[simp] theorem modCtx_fields (s : State) (n : Nat) (g : Ctx → Ctx) :
    (s.modCtx n g).grade = s.grade ∧ (s.modCtx n g).config = s.config ∧ (s.modCtx n g).pufOk = s.pufOk ∧
    (s.modCtx n g).seed = s.seed ∧ (s.modCtx n g).firmware = s.firmware ∧ (s.modCtx n g).phase = s.phase ∧
    (s.modCtx n g).error = s.error ∧ (s.modCtx n g).status = s.status ∧ (s.modCtx n g).stopped = s.stopped ∧
    (s.modCtx n g).frozen = s.frozen ∧ (s.modCtx n g).devno = s.devno ∧ (s.modCtx n g).links = s.links ∧
    (s.modCtx n g).peers = s.peers ∧ (s.modCtx n g).arrived = s.arrived ∧ (s.modCtx n g).peerBytes = s.peerBytes ∧
    (s.modCtx n g).outReads = s.outReads ∧ (s.modCtx n g).hostNeeds = s.hostNeeds ∧ (s.modCtx n g).msix = s.msix ∧
    (s.modCtx n g).keysLive = s.keysLive ∧ (s.modCtx n g).keyNo = s.keyNo ∧ (s.modCtx n g).retiring = s.retiring ∧
    (s.modCtx n g).images = s.images ∧ (s.modCtx n g).past = s.past ∧ (s.modCtx n g).reports = s.reports ∧
    (s.modCtx n g).cycle = s.cycle ∧ (s.modCtx n g).equinox = s.equinox ∧ (s.modCtx n g).placement = s.placement ∧
    (s.modCtx n g).free = s.free ∧ (s.modCtx n g).nextId = s.nextId ∧ (s.modCtx n g).agenda = s.agenda ∧
    (s.modCtx n g).team = s.team ∧ (s.modCtx n g).split = s.split ∧ (s.modCtx n g).others = s.others ∧
    (s.modCtx n g).blocks = s.blocks ∧ (s.modCtx n g).launches = s.launches ∧ (s.modCtx n g).mem = s.mem ∧
    (s.modCtx n g).full = s.full ∧ (s.modCtx n g).seals = s.seals ∧ (s.modCtx n g).backed = s.backed ∧
    (s.modCtx n g).hist = s.hist ∧ (s.modCtx n g).l1 = s.l1 ∧ (s.modCtx n g).floors = s.floors ∧
    (s.modCtx n g).entries = s.entries ∧ (s.modCtx n g).shares = s.shares ∧ (s.modCtx n g).updates = s.updates ∧
    (s.modCtx n g).unperf = s.unperf ∧ (s.modCtx n g).commands = s.commands ∧ (s.modCtx n g).cores = s.cores ∧
    (s.modCtx n g).dies = s.dies ∧ (s.modCtx n g).parts = s.parts ∧ (s.modCtx n g).pages = s.pages ∧
    (s.modCtx n g).homes = s.homes ∧ (s.modCtx n g).tlb = s.tlb ∧ (s.modCtx n g).invals = s.invals := by
  and_intros <;> rfl

@[simp] theorem modPart_fields (s : State) (n : Nat) (g : Part → Part) :
    (s.modPart n g).grade = s.grade ∧ (s.modPart n g).config = s.config ∧ (s.modPart n g).pufOk = s.pufOk ∧
    (s.modPart n g).seed = s.seed ∧ (s.modPart n g).firmware = s.firmware ∧ (s.modPart n g).phase = s.phase ∧
    (s.modPart n g).error = s.error ∧ (s.modPart n g).status = s.status ∧ (s.modPart n g).stopped = s.stopped ∧
    (s.modPart n g).frozen = s.frozen ∧ (s.modPart n g).devno = s.devno ∧ (s.modPart n g).links = s.links ∧
    (s.modPart n g).peers = s.peers ∧ (s.modPart n g).arrived = s.arrived ∧ (s.modPart n g).peerBytes = s.peerBytes ∧
    (s.modPart n g).outReads = s.outReads ∧ (s.modPart n g).hostNeeds = s.hostNeeds ∧ (s.modPart n g).msix = s.msix ∧
    (s.modPart n g).keysLive = s.keysLive ∧ (s.modPart n g).keyNo = s.keyNo ∧ (s.modPart n g).retiring = s.retiring ∧
    (s.modPart n g).images = s.images ∧ (s.modPart n g).past = s.past ∧ (s.modPart n g).reports = s.reports ∧
    (s.modPart n g).cycle = s.cycle ∧ (s.modPart n g).equinox = s.equinox ∧ (s.modPart n g).placement = s.placement ∧
    (s.modPart n g).free = s.free ∧ (s.modPart n g).nextId = s.nextId ∧ (s.modPart n g).agenda = s.agenda ∧
    (s.modPart n g).team = s.team ∧ (s.modPart n g).split = s.split ∧ (s.modPart n g).others = s.others ∧
    (s.modPart n g).blocks = s.blocks ∧ (s.modPart n g).launches = s.launches ∧ (s.modPart n g).mem = s.mem ∧
    (s.modPart n g).full = s.full ∧ (s.modPart n g).seals = s.seals ∧ (s.modPart n g).backed = s.backed ∧
    (s.modPart n g).hist = s.hist ∧ (s.modPart n g).l1 = s.l1 ∧ (s.modPart n g).floors = s.floors ∧
    (s.modPart n g).entries = s.entries ∧ (s.modPart n g).shares = s.shares ∧ (s.modPart n g).updates = s.updates ∧
    (s.modPart n g).unperf = s.unperf ∧ (s.modPart n g).commands = s.commands ∧ (s.modPart n g).cores = s.cores ∧
    (s.modPart n g).dies = s.dies ∧ (s.modPart n g).ctxs = s.ctxs ∧ (s.modPart n g).pages = s.pages ∧
    (s.modPart n g).homes = s.homes ∧ (s.modPart n g).tlb = s.tlb ∧ (s.modPart n g).invals = s.invals := by
  and_intros <;> rfl

@[simp] theorem modDie_fields (s : State) (n : Nat) (g : Die → Die) :
    (s.modDie n g).grade = s.grade ∧ (s.modDie n g).config = s.config ∧ (s.modDie n g).pufOk = s.pufOk ∧
    (s.modDie n g).seed = s.seed ∧ (s.modDie n g).firmware = s.firmware ∧ (s.modDie n g).phase = s.phase ∧
    (s.modDie n g).error = s.error ∧ (s.modDie n g).status = s.status ∧ (s.modDie n g).stopped = s.stopped ∧
    (s.modDie n g).frozen = s.frozen ∧ (s.modDie n g).devno = s.devno ∧ (s.modDie n g).links = s.links ∧
    (s.modDie n g).peers = s.peers ∧ (s.modDie n g).arrived = s.arrived ∧ (s.modDie n g).peerBytes = s.peerBytes ∧
    (s.modDie n g).outReads = s.outReads ∧ (s.modDie n g).hostNeeds = s.hostNeeds ∧ (s.modDie n g).msix = s.msix ∧
    (s.modDie n g).keysLive = s.keysLive ∧ (s.modDie n g).keyNo = s.keyNo ∧ (s.modDie n g).retiring = s.retiring ∧
    (s.modDie n g).images = s.images ∧ (s.modDie n g).past = s.past ∧ (s.modDie n g).reports = s.reports ∧
    (s.modDie n g).cycle = s.cycle ∧ (s.modDie n g).equinox = s.equinox ∧ (s.modDie n g).placement = s.placement ∧
    (s.modDie n g).free = s.free ∧ (s.modDie n g).nextId = s.nextId ∧ (s.modDie n g).agenda = s.agenda ∧
    (s.modDie n g).team = s.team ∧ (s.modDie n g).split = s.split ∧ (s.modDie n g).others = s.others ∧
    (s.modDie n g).blocks = s.blocks ∧ (s.modDie n g).launches = s.launches ∧ (s.modDie n g).mem = s.mem ∧
    (s.modDie n g).full = s.full ∧ (s.modDie n g).seals = s.seals ∧ (s.modDie n g).backed = s.backed ∧
    (s.modDie n g).hist = s.hist ∧ (s.modDie n g).l1 = s.l1 ∧ (s.modDie n g).floors = s.floors ∧
    (s.modDie n g).entries = s.entries ∧ (s.modDie n g).shares = s.shares ∧ (s.modDie n g).updates = s.updates ∧
    (s.modDie n g).unperf = s.unperf ∧ (s.modDie n g).commands = s.commands ∧ (s.modDie n g).cores = s.cores ∧
    (s.modDie n g).ctxs = s.ctxs ∧ (s.modDie n g).parts = s.parts ∧ (s.modDie n g).pages = s.pages ∧
    (s.modDie n g).homes = s.homes ∧ (s.modDie n g).tlb = s.tlb ∧ (s.modDie n g).invals = s.invals := by
  and_intros <;> rfl

@[simp] theorem writeS_fields (s : State) (n : Nat) (w : Word) :
    (s.writeS n w).grade = s.grade ∧ (s.writeS n w).config = s.config ∧ (s.writeS n w).pufOk = s.pufOk ∧
    (s.writeS n w).seed = s.seed ∧ (s.writeS n w).firmware = s.firmware ∧ (s.writeS n w).phase = s.phase ∧
    (s.writeS n w).error = s.error ∧ (s.writeS n w).status = s.status ∧ (s.writeS n w).stopped = s.stopped ∧
    (s.writeS n w).frozen = s.frozen ∧ (s.writeS n w).devno = s.devno ∧ (s.writeS n w).links = s.links ∧
    (s.writeS n w).peers = s.peers ∧ (s.writeS n w).arrived = s.arrived ∧ (s.writeS n w).peerBytes = s.peerBytes ∧
    (s.writeS n w).outReads = s.outReads ∧ (s.writeS n w).hostNeeds = s.hostNeeds ∧ (s.writeS n w).msix = s.msix ∧
    (s.writeS n w).keysLive = s.keysLive ∧ (s.writeS n w).keyNo = s.keyNo ∧ (s.writeS n w).retiring = s.retiring ∧
    (s.writeS n w).images = s.images ∧ (s.writeS n w).past = s.past ∧ (s.writeS n w).reports = s.reports ∧
    (s.writeS n w).cycle = s.cycle ∧ (s.writeS n w).equinox = s.equinox ∧ (s.writeS n w).placement = s.placement ∧
    (s.writeS n w).free = s.free ∧ (s.writeS n w).nextId = s.nextId ∧ (s.writeS n w).agenda = s.agenda ∧
    (s.writeS n w).split = s.split ∧ (s.writeS n w).others = s.others ∧ (s.writeS n w).blocks = s.blocks ∧
    (s.writeS n w).launches = s.launches ∧ (s.writeS n w).mem = s.mem ∧ (s.writeS n w).full = s.full ∧
    (s.writeS n w).seals = s.seals ∧ (s.writeS n w).backed = s.backed ∧ (s.writeS n w).hist = s.hist ∧
    (s.writeS n w).l1 = s.l1 ∧ (s.writeS n w).floors = s.floors ∧ (s.writeS n w).entries = s.entries ∧
    (s.writeS n w).shares = s.shares ∧ (s.writeS n w).updates = s.updates ∧ (s.writeS n w).unperf = s.unperf ∧
    (s.writeS n w).commands = s.commands ∧ (s.writeS n w).cores = s.cores ∧ (s.writeS n w).dies = s.dies ∧
    (s.writeS n w).ctxs = s.ctxs ∧ (s.writeS n w).parts = s.parts ∧ (s.writeS n w).pages = s.pages ∧
    (s.writeS n w).homes = s.homes ∧ (s.writeS n w).tlb = s.tlb ∧ (s.writeS n w).invals = s.invals := by
  and_intros <;> rfl

@[simp] theorem writeQ_fields (s : State) (n : Nat) (b : Bool) :
    (s.writeQ n b).grade = s.grade ∧ (s.writeQ n b).config = s.config ∧ (s.writeQ n b).pufOk = s.pufOk ∧
    (s.writeQ n b).seed = s.seed ∧ (s.writeQ n b).firmware = s.firmware ∧ (s.writeQ n b).phase = s.phase ∧
    (s.writeQ n b).error = s.error ∧ (s.writeQ n b).status = s.status ∧ (s.writeQ n b).stopped = s.stopped ∧
    (s.writeQ n b).frozen = s.frozen ∧ (s.writeQ n b).devno = s.devno ∧ (s.writeQ n b).links = s.links ∧
    (s.writeQ n b).peers = s.peers ∧ (s.writeQ n b).arrived = s.arrived ∧ (s.writeQ n b).peerBytes = s.peerBytes ∧
    (s.writeQ n b).outReads = s.outReads ∧ (s.writeQ n b).hostNeeds = s.hostNeeds ∧ (s.writeQ n b).msix = s.msix ∧
    (s.writeQ n b).keysLive = s.keysLive ∧ (s.writeQ n b).keyNo = s.keyNo ∧ (s.writeQ n b).retiring = s.retiring ∧
    (s.writeQ n b).images = s.images ∧ (s.writeQ n b).past = s.past ∧ (s.writeQ n b).reports = s.reports ∧
    (s.writeQ n b).cycle = s.cycle ∧ (s.writeQ n b).equinox = s.equinox ∧ (s.writeQ n b).placement = s.placement ∧
    (s.writeQ n b).free = s.free ∧ (s.writeQ n b).nextId = s.nextId ∧ (s.writeQ n b).agenda = s.agenda ∧
    (s.writeQ n b).split = s.split ∧ (s.writeQ n b).others = s.others ∧ (s.writeQ n b).blocks = s.blocks ∧
    (s.writeQ n b).launches = s.launches ∧ (s.writeQ n b).mem = s.mem ∧ (s.writeQ n b).full = s.full ∧
    (s.writeQ n b).seals = s.seals ∧ (s.writeQ n b).backed = s.backed ∧ (s.writeQ n b).hist = s.hist ∧
    (s.writeQ n b).l1 = s.l1 ∧ (s.writeQ n b).floors = s.floors ∧ (s.writeQ n b).entries = s.entries ∧
    (s.writeQ n b).shares = s.shares ∧ (s.writeQ n b).updates = s.updates ∧ (s.writeQ n b).unperf = s.unperf ∧
    (s.writeQ n b).commands = s.commands ∧ (s.writeQ n b).cores = s.cores ∧ (s.writeQ n b).dies = s.dies ∧
    (s.writeQ n b).ctxs = s.ctxs ∧ (s.writeQ n b).parts = s.parts ∧ (s.writeQ n b).pages = s.pages ∧
    (s.writeQ n b).homes = s.homes ∧ (s.writeQ n b).tlb = s.tlb ∧ (s.writeQ n b).invals = s.invals := by
  unfold writeQ
  (repeat' split) <;> (and_intros <;> rfl)

@[simp] theorem writeA_fields (s : State) (n : Nat) (x : Affine) :
    (s.writeA n x).grade = s.grade ∧ (s.writeA n x).config = s.config ∧ (s.writeA n x).pufOk = s.pufOk ∧
    (s.writeA n x).seed = s.seed ∧ (s.writeA n x).firmware = s.firmware ∧ (s.writeA n x).phase = s.phase ∧
    (s.writeA n x).error = s.error ∧ (s.writeA n x).status = s.status ∧ (s.writeA n x).stopped = s.stopped ∧
    (s.writeA n x).frozen = s.frozen ∧ (s.writeA n x).devno = s.devno ∧ (s.writeA n x).links = s.links ∧
    (s.writeA n x).peers = s.peers ∧ (s.writeA n x).arrived = s.arrived ∧ (s.writeA n x).peerBytes = s.peerBytes ∧
    (s.writeA n x).outReads = s.outReads ∧ (s.writeA n x).hostNeeds = s.hostNeeds ∧ (s.writeA n x).msix = s.msix ∧
    (s.writeA n x).keysLive = s.keysLive ∧ (s.writeA n x).keyNo = s.keyNo ∧ (s.writeA n x).retiring = s.retiring ∧
    (s.writeA n x).images = s.images ∧ (s.writeA n x).past = s.past ∧ (s.writeA n x).reports = s.reports ∧
    (s.writeA n x).cycle = s.cycle ∧ (s.writeA n x).equinox = s.equinox ∧ (s.writeA n x).placement = s.placement ∧
    (s.writeA n x).free = s.free ∧ (s.writeA n x).nextId = s.nextId ∧ (s.writeA n x).agenda = s.agenda ∧
    (s.writeA n x).split = s.split ∧ (s.writeA n x).others = s.others ∧ (s.writeA n x).blocks = s.blocks ∧
    (s.writeA n x).launches = s.launches ∧ (s.writeA n x).mem = s.mem ∧ (s.writeA n x).full = s.full ∧
    (s.writeA n x).seals = s.seals ∧ (s.writeA n x).backed = s.backed ∧ (s.writeA n x).hist = s.hist ∧
    (s.writeA n x).l1 = s.l1 ∧ (s.writeA n x).floors = s.floors ∧ (s.writeA n x).entries = s.entries ∧
    (s.writeA n x).shares = s.shares ∧ (s.writeA n x).updates = s.updates ∧ (s.writeA n x).unperf = s.unperf ∧
    (s.writeA n x).commands = s.commands ∧ (s.writeA n x).cores = s.cores ∧ (s.writeA n x).dies = s.dies ∧
    (s.writeA n x).ctxs = s.ctxs ∧ (s.writeA n x).parts = s.parts ∧ (s.writeA n x).pages = s.pages ∧
    (s.writeA n x).homes = s.homes ∧ (s.writeA n x).tlb = s.tlb ∧ (s.writeA n x).invals = s.invals := by
  and_intros <;> rfl

@[simp] theorem writeV_fields (s : State) (n l : Nat) (w : Word) :
    (s.writeV n l w).grade = s.grade ∧ (s.writeV n l w).config = s.config ∧ (s.writeV n l w).pufOk = s.pufOk ∧
    (s.writeV n l w).seed = s.seed ∧ (s.writeV n l w).firmware = s.firmware ∧ (s.writeV n l w).phase = s.phase ∧
    (s.writeV n l w).error = s.error ∧ (s.writeV n l w).status = s.status ∧ (s.writeV n l w).stopped = s.stopped ∧
    (s.writeV n l w).frozen = s.frozen ∧ (s.writeV n l w).devno = s.devno ∧ (s.writeV n l w).links = s.links ∧
    (s.writeV n l w).peers = s.peers ∧ (s.writeV n l w).arrived = s.arrived ∧ (s.writeV n l w).peerBytes = s.peerBytes ∧
    (s.writeV n l w).outReads = s.outReads ∧ (s.writeV n l w).hostNeeds = s.hostNeeds ∧ (s.writeV n l w).msix = s.msix ∧
    (s.writeV n l w).keysLive = s.keysLive ∧ (s.writeV n l w).keyNo = s.keyNo ∧ (s.writeV n l w).retiring = s.retiring ∧
    (s.writeV n l w).images = s.images ∧ (s.writeV n l w).past = s.past ∧ (s.writeV n l w).reports = s.reports ∧
    (s.writeV n l w).cycle = s.cycle ∧ (s.writeV n l w).equinox = s.equinox ∧ (s.writeV n l w).placement = s.placement ∧
    (s.writeV n l w).free = s.free ∧ (s.writeV n l w).nextId = s.nextId ∧ (s.writeV n l w).agenda = s.agenda ∧
    (s.writeV n l w).others = s.others ∧ (s.writeV n l w).blocks = s.blocks ∧ (s.writeV n l w).launches = s.launches ∧
    (s.writeV n l w).mem = s.mem ∧ (s.writeV n l w).full = s.full ∧ (s.writeV n l w).seals = s.seals ∧
    (s.writeV n l w).backed = s.backed ∧ (s.writeV n l w).hist = s.hist ∧ (s.writeV n l w).l1 = s.l1 ∧
    (s.writeV n l w).floors = s.floors ∧ (s.writeV n l w).entries = s.entries ∧ (s.writeV n l w).shares = s.shares ∧
    (s.writeV n l w).updates = s.updates ∧ (s.writeV n l w).unperf = s.unperf ∧ (s.writeV n l w).commands = s.commands ∧
    (s.writeV n l w).cores = s.cores ∧ (s.writeV n l w).dies = s.dies ∧ (s.writeV n l w).ctxs = s.ctxs ∧
    (s.writeV n l w).parts = s.parts ∧ (s.writeV n l w).pages = s.pages ∧ (s.writeV n l w).homes = s.homes ∧
    (s.writeV n l w).tlb = s.tlb ∧ (s.writeV n l w).invals = s.invals := by
  unfold writeV
  (repeat' split) <;> (and_intros <;> rfl)

@[simp] theorem setTag_fields (s : State) (n : Nat) (t : Tag) :
    (s.setTag n t).grade = s.grade ∧ (s.setTag n t).config = s.config ∧ (s.setTag n t).pufOk = s.pufOk ∧
    (s.setTag n t).seed = s.seed ∧ (s.setTag n t).firmware = s.firmware ∧ (s.setTag n t).phase = s.phase ∧
    (s.setTag n t).error = s.error ∧ (s.setTag n t).status = s.status ∧ (s.setTag n t).stopped = s.stopped ∧
    (s.setTag n t).frozen = s.frozen ∧ (s.setTag n t).devno = s.devno ∧ (s.setTag n t).links = s.links ∧
    (s.setTag n t).peers = s.peers ∧ (s.setTag n t).arrived = s.arrived ∧ (s.setTag n t).peerBytes = s.peerBytes ∧
    (s.setTag n t).outReads = s.outReads ∧ (s.setTag n t).hostNeeds = s.hostNeeds ∧ (s.setTag n t).msix = s.msix ∧
    (s.setTag n t).keysLive = s.keysLive ∧ (s.setTag n t).keyNo = s.keyNo ∧ (s.setTag n t).retiring = s.retiring ∧
    (s.setTag n t).images = s.images ∧ (s.setTag n t).past = s.past ∧ (s.setTag n t).reports = s.reports ∧
    (s.setTag n t).cycle = s.cycle ∧ (s.setTag n t).equinox = s.equinox ∧ (s.setTag n t).placement = s.placement ∧
    (s.setTag n t).free = s.free ∧ (s.setTag n t).nextId = s.nextId ∧ (s.setTag n t).agenda = s.agenda ∧
    (s.setTag n t).others = s.others ∧ (s.setTag n t).blocks = s.blocks ∧ (s.setTag n t).launches = s.launches ∧
    (s.setTag n t).mem = s.mem ∧ (s.setTag n t).full = s.full ∧ (s.setTag n t).seals = s.seals ∧
    (s.setTag n t).backed = s.backed ∧ (s.setTag n t).hist = s.hist ∧ (s.setTag n t).l1 = s.l1 ∧
    (s.setTag n t).floors = s.floors ∧ (s.setTag n t).entries = s.entries ∧ (s.setTag n t).shares = s.shares ∧
    (s.setTag n t).updates = s.updates ∧ (s.setTag n t).unperf = s.unperf ∧ (s.setTag n t).commands = s.commands ∧
    (s.setTag n t).cores = s.cores ∧ (s.setTag n t).dies = s.dies ∧ (s.setTag n t).ctxs = s.ctxs ∧
    (s.setTag n t).parts = s.parts ∧ (s.setTag n t).pages = s.pages ∧ (s.setTag n t).homes = s.homes ∧
    (s.setTag n t).tlb = s.tlb ∧ (s.setTag n t).invals = s.invals := by
  unfold setTag
  (repeat' split) <;> (and_intros <;> rfl)

@[simp] theorem writeP_fields (s : State) (n : Nat) (vals : List (Nat × Bool)) :
    (s.writeP n vals).grade = s.grade ∧ (s.writeP n vals).config = s.config ∧ (s.writeP n vals).pufOk = s.pufOk ∧
    (s.writeP n vals).seed = s.seed ∧ (s.writeP n vals).firmware = s.firmware ∧ (s.writeP n vals).phase = s.phase ∧
    (s.writeP n vals).error = s.error ∧ (s.writeP n vals).status = s.status ∧ (s.writeP n vals).stopped = s.stopped ∧
    (s.writeP n vals).frozen = s.frozen ∧ (s.writeP n vals).devno = s.devno ∧ (s.writeP n vals).links = s.links ∧
    (s.writeP n vals).peers = s.peers ∧ (s.writeP n vals).arrived = s.arrived ∧ (s.writeP n vals).peerBytes = s.peerBytes ∧
    (s.writeP n vals).outReads = s.outReads ∧ (s.writeP n vals).hostNeeds = s.hostNeeds ∧ (s.writeP n vals).msix = s.msix ∧
    (s.writeP n vals).keysLive = s.keysLive ∧ (s.writeP n vals).keyNo = s.keyNo ∧ (s.writeP n vals).retiring = s.retiring ∧
    (s.writeP n vals).images = s.images ∧ (s.writeP n vals).past = s.past ∧ (s.writeP n vals).reports = s.reports ∧
    (s.writeP n vals).cycle = s.cycle ∧ (s.writeP n vals).equinox = s.equinox ∧ (s.writeP n vals).placement = s.placement ∧
    (s.writeP n vals).free = s.free ∧ (s.writeP n vals).nextId = s.nextId ∧ (s.writeP n vals).agenda = s.agenda ∧
    (s.writeP n vals).split = s.split ∧ (s.writeP n vals).others = s.others ∧ (s.writeP n vals).blocks = s.blocks ∧
    (s.writeP n vals).launches = s.launches ∧ (s.writeP n vals).mem = s.mem ∧ (s.writeP n vals).full = s.full ∧
    (s.writeP n vals).seals = s.seals ∧ (s.writeP n vals).backed = s.backed ∧ (s.writeP n vals).hist = s.hist ∧
    (s.writeP n vals).l1 = s.l1 ∧ (s.writeP n vals).floors = s.floors ∧ (s.writeP n vals).entries = s.entries ∧
    (s.writeP n vals).shares = s.shares ∧ (s.writeP n vals).updates = s.updates ∧ (s.writeP n vals).unperf = s.unperf ∧
    (s.writeP n vals).commands = s.commands ∧ (s.writeP n vals).cores = s.cores ∧ (s.writeP n vals).dies = s.dies ∧
    (s.writeP n vals).ctxs = s.ctxs ∧ (s.writeP n vals).parts = s.parts ∧ (s.writeP n vals).pages = s.pages ∧
    (s.writeP n vals).homes = s.homes ∧ (s.writeP n vals).tlb = s.tlb ∧ (s.writeP n vals).invals = s.invals := by
  unfold writeP
  (repeat' split) <;> (and_intros <;> rfl)

@[simp] theorem launchFlight_fields (s : State) (id : Nat) (sig : BitVec 4) (left : Nat) (due : Option Nat) :
    (s.launchFlight id sig left due).grade = s.grade ∧ (s.launchFlight id sig left due).config = s.config ∧
    (s.launchFlight id sig left due).pufOk = s.pufOk ∧ (s.launchFlight id sig left due).seed = s.seed ∧
    (s.launchFlight id sig left due).firmware = s.firmware ∧ (s.launchFlight id sig left due).phase = s.phase ∧
    (s.launchFlight id sig left due).error = s.error ∧ (s.launchFlight id sig left due).status = s.status ∧
    (s.launchFlight id sig left due).stopped = s.stopped ∧ (s.launchFlight id sig left due).frozen = s.frozen ∧
    (s.launchFlight id sig left due).devno = s.devno ∧ (s.launchFlight id sig left due).links = s.links ∧
    (s.launchFlight id sig left due).peers = s.peers ∧ (s.launchFlight id sig left due).arrived = s.arrived ∧
    (s.launchFlight id sig left due).peerBytes = s.peerBytes ∧ (s.launchFlight id sig left due).outReads = s.outReads ∧
    (s.launchFlight id sig left due).hostNeeds = s.hostNeeds ∧ (s.launchFlight id sig left due).msix = s.msix ∧
    (s.launchFlight id sig left due).keysLive = s.keysLive ∧ (s.launchFlight id sig left due).keyNo = s.keyNo ∧
    (s.launchFlight id sig left due).retiring = s.retiring ∧ (s.launchFlight id sig left due).images = s.images ∧
    (s.launchFlight id sig left due).past = s.past ∧ (s.launchFlight id sig left due).reports = s.reports ∧
    (s.launchFlight id sig left due).cycle = s.cycle ∧ (s.launchFlight id sig left due).equinox = s.equinox ∧
    (s.launchFlight id sig left due).placement = s.placement ∧ (s.launchFlight id sig left due).free = s.free ∧
    (s.launchFlight id sig left due).nextId = s.nextId ∧ (s.launchFlight id sig left due).agenda = s.agenda ∧
    (s.launchFlight id sig left due).split = s.split ∧ (s.launchFlight id sig left due).others = s.others ∧
    (s.launchFlight id sig left due).blocks = s.blocks ∧ (s.launchFlight id sig left due).launches = s.launches ∧
    (s.launchFlight id sig left due).mem = s.mem ∧ (s.launchFlight id sig left due).full = s.full ∧
    (s.launchFlight id sig left due).seals = s.seals ∧ (s.launchFlight id sig left due).backed = s.backed ∧
    (s.launchFlight id sig left due).hist = s.hist ∧ (s.launchFlight id sig left due).l1 = s.l1 ∧
    (s.launchFlight id sig left due).floors = s.floors ∧ (s.launchFlight id sig left due).entries = s.entries ∧
    (s.launchFlight id sig left due).shares = s.shares ∧ (s.launchFlight id sig left due).updates = s.updates ∧
    (s.launchFlight id sig left due).unperf = s.unperf ∧ (s.launchFlight id sig left due).commands = s.commands ∧
    (s.launchFlight id sig left due).cores = s.cores ∧ (s.launchFlight id sig left due).dies = s.dies ∧
    (s.launchFlight id sig left due).ctxs = s.ctxs ∧ (s.launchFlight id sig left due).parts = s.parts ∧
    (s.launchFlight id sig left due).pages = s.pages ∧ (s.launchFlight id sig left due).homes = s.homes ∧
    (s.launchFlight id sig left due).tlb = s.tlb ∧ (s.launchFlight id sig left due).invals = s.invals := by
  unfold launchFlight
  (repeat' split) <;> (and_intros <;> rfl)

@[simp] theorem countRetired_fields (s : State)  :
    (s.countRetired).grade = s.grade ∧ (s.countRetired).config = s.config ∧ (s.countRetired).pufOk = s.pufOk ∧
    (s.countRetired).seed = s.seed ∧ (s.countRetired).firmware = s.firmware ∧ (s.countRetired).phase = s.phase ∧
    (s.countRetired).error = s.error ∧ (s.countRetired).status = s.status ∧ (s.countRetired).stopped = s.stopped ∧
    (s.countRetired).frozen = s.frozen ∧ (s.countRetired).devno = s.devno ∧ (s.countRetired).links = s.links ∧
    (s.countRetired).peers = s.peers ∧ (s.countRetired).arrived = s.arrived ∧ (s.countRetired).peerBytes = s.peerBytes ∧
    (s.countRetired).outReads = s.outReads ∧ (s.countRetired).hostNeeds = s.hostNeeds ∧ (s.countRetired).msix = s.msix ∧
    (s.countRetired).keysLive = s.keysLive ∧ (s.countRetired).keyNo = s.keyNo ∧ (s.countRetired).retiring = s.retiring ∧
    (s.countRetired).images = s.images ∧ (s.countRetired).past = s.past ∧ (s.countRetired).reports = s.reports ∧
    (s.countRetired).cycle = s.cycle ∧ (s.countRetired).equinox = s.equinox ∧ (s.countRetired).placement = s.placement ∧
    (s.countRetired).free = s.free ∧ (s.countRetired).nextId = s.nextId ∧ (s.countRetired).agenda = s.agenda ∧
    (s.countRetired).team = s.team ∧ (s.countRetired).split = s.split ∧ (s.countRetired).others = s.others ∧
    (s.countRetired).blocks = s.blocks ∧ (s.countRetired).launches = s.launches ∧ (s.countRetired).mem = s.mem ∧
    (s.countRetired).full = s.full ∧ (s.countRetired).seals = s.seals ∧ (s.countRetired).backed = s.backed ∧
    (s.countRetired).hist = s.hist ∧ (s.countRetired).l1 = s.l1 ∧ (s.countRetired).floors = s.floors ∧
    (s.countRetired).entries = s.entries ∧ (s.countRetired).shares = s.shares ∧ (s.countRetired).updates = s.updates ∧
    (s.countRetired).unperf = s.unperf ∧ (s.countRetired).commands = s.commands ∧ (s.countRetired).cores = s.cores ∧
    (s.countRetired).dies = s.dies ∧ (s.countRetired).ctxs = s.ctxs ∧ (s.countRetired).pages = s.pages ∧
    (s.countRetired).homes = s.homes ∧ (s.countRetired).tlb = s.tlb ∧ (s.countRetired).invals = s.invals := by
  and_intros <;> rfl

@[simp] theorem chargeBudget_fields (s : State) (n : Nat) :
    (s.chargeBudget n).grade = s.grade ∧ (s.chargeBudget n).config = s.config ∧ (s.chargeBudget n).pufOk = s.pufOk ∧
    (s.chargeBudget n).seed = s.seed ∧ (s.chargeBudget n).firmware = s.firmware ∧ (s.chargeBudget n).phase = s.phase ∧
    (s.chargeBudget n).error = s.error ∧ (s.chargeBudget n).status = s.status ∧ (s.chargeBudget n).stopped = s.stopped ∧
    (s.chargeBudget n).frozen = s.frozen ∧ (s.chargeBudget n).devno = s.devno ∧ (s.chargeBudget n).links = s.links ∧
    (s.chargeBudget n).peers = s.peers ∧ (s.chargeBudget n).arrived = s.arrived ∧
    (s.chargeBudget n).peerBytes = s.peerBytes ∧ (s.chargeBudget n).outReads = s.outReads ∧
    (s.chargeBudget n).hostNeeds = s.hostNeeds ∧ (s.chargeBudget n).msix = s.msix ∧
    (s.chargeBudget n).keysLive = s.keysLive ∧ (s.chargeBudget n).keyNo = s.keyNo ∧
    (s.chargeBudget n).retiring = s.retiring ∧ (s.chargeBudget n).images = s.images ∧ (s.chargeBudget n).past = s.past ∧
    (s.chargeBudget n).reports = s.reports ∧ (s.chargeBudget n).cycle = s.cycle ∧ (s.chargeBudget n).equinox = s.equinox ∧
    (s.chargeBudget n).placement = s.placement ∧ (s.chargeBudget n).free = s.free ∧ (s.chargeBudget n).nextId = s.nextId ∧
    (s.chargeBudget n).agenda = s.agenda ∧ (s.chargeBudget n).team = s.team ∧ (s.chargeBudget n).split = s.split ∧
    (s.chargeBudget n).others = s.others ∧ (s.chargeBudget n).blocks = s.blocks ∧
    (s.chargeBudget n).launches = s.launches ∧ (s.chargeBudget n).mem = s.mem ∧ (s.chargeBudget n).full = s.full ∧
    (s.chargeBudget n).seals = s.seals ∧ (s.chargeBudget n).backed = s.backed ∧ (s.chargeBudget n).hist = s.hist ∧
    (s.chargeBudget n).l1 = s.l1 ∧ (s.chargeBudget n).floors = s.floors ∧ (s.chargeBudget n).entries = s.entries ∧
    (s.chargeBudget n).shares = s.shares ∧ (s.chargeBudget n).updates = s.updates ∧ (s.chargeBudget n).unperf = s.unperf ∧
    (s.chargeBudget n).commands = s.commands ∧ (s.chargeBudget n).dies = s.dies ∧ (s.chargeBudget n).ctxs = s.ctxs ∧
    (s.chargeBudget n).parts = s.parts ∧ (s.chargeBudget n).pages = s.pages ∧ (s.chargeBudget n).homes = s.homes ∧
    (s.chargeBudget n).tlb = s.tlb ∧ (s.chargeBudget n).invals = s.invals := by
  unfold chargeBudget
  (repeat' split) <;> (and_intros <;> rfl)

@[simp] theorem account_fields (s : State) (f : Fmt) (ends : Bool) :
    (s.account f ends).grade = s.grade ∧ (s.account f ends).config = s.config ∧ (s.account f ends).pufOk = s.pufOk ∧
    (s.account f ends).seed = s.seed ∧ (s.account f ends).firmware = s.firmware ∧ (s.account f ends).phase = s.phase ∧
    (s.account f ends).error = s.error ∧ (s.account f ends).status = s.status ∧ (s.account f ends).stopped = s.stopped ∧
    (s.account f ends).frozen = s.frozen ∧ (s.account f ends).devno = s.devno ∧ (s.account f ends).links = s.links ∧
    (s.account f ends).peers = s.peers ∧ (s.account f ends).arrived = s.arrived ∧
    (s.account f ends).peerBytes = s.peerBytes ∧ (s.account f ends).outReads = s.outReads ∧
    (s.account f ends).hostNeeds = s.hostNeeds ∧ (s.account f ends).msix = s.msix ∧
    (s.account f ends).keysLive = s.keysLive ∧ (s.account f ends).keyNo = s.keyNo ∧
    (s.account f ends).retiring = s.retiring ∧ (s.account f ends).images = s.images ∧ (s.account f ends).past = s.past ∧
    (s.account f ends).reports = s.reports ∧ (s.account f ends).equinox = s.equinox ∧
    (s.account f ends).placement = s.placement ∧ (s.account f ends).free = s.free ∧ (s.account f ends).nextId = s.nextId ∧
    (s.account f ends).agenda = s.agenda ∧ (s.account f ends).others = s.others ∧ (s.account f ends).blocks = s.blocks ∧
    (s.account f ends).launches = s.launches ∧ (s.account f ends).mem = s.mem ∧ (s.account f ends).full = s.full ∧
    (s.account f ends).seals = s.seals ∧ (s.account f ends).backed = s.backed ∧ (s.account f ends).hist = s.hist ∧
    (s.account f ends).l1 = s.l1 ∧ (s.account f ends).floors = s.floors ∧ (s.account f ends).entries = s.entries ∧
    (s.account f ends).shares = s.shares ∧ (s.account f ends).updates = s.updates ∧ (s.account f ends).unperf = s.unperf ∧
    (s.account f ends).commands = s.commands ∧ (s.account f ends).dies = s.dies ∧ (s.account f ends).ctxs = s.ctxs ∧
    (s.account f ends).pages = s.pages ∧ (s.account f ends).homes = s.homes ∧ (s.account f ends).tlb = s.tlb ∧
    (s.account f ends).invals = s.invals := by
  unfold account
  simp

@[simp] theorem putByte_fields (s : State) (k : Nat) (b : Byte) :
    (s.putByte k b).grade = s.grade ∧ (s.putByte k b).config = s.config ∧ (s.putByte k b).pufOk = s.pufOk ∧
    (s.putByte k b).seed = s.seed ∧ (s.putByte k b).firmware = s.firmware ∧ (s.putByte k b).phase = s.phase ∧
    (s.putByte k b).error = s.error ∧ (s.putByte k b).status = s.status ∧ (s.putByte k b).stopped = s.stopped ∧
    (s.putByte k b).frozen = s.frozen ∧ (s.putByte k b).devno = s.devno ∧ (s.putByte k b).links = s.links ∧
    (s.putByte k b).peers = s.peers ∧ (s.putByte k b).arrived = s.arrived ∧ (s.putByte k b).peerBytes = s.peerBytes ∧
    (s.putByte k b).outReads = s.outReads ∧ (s.putByte k b).hostNeeds = s.hostNeeds ∧ (s.putByte k b).msix = s.msix ∧
    (s.putByte k b).keysLive = s.keysLive ∧ (s.putByte k b).keyNo = s.keyNo ∧ (s.putByte k b).retiring = s.retiring ∧
    (s.putByte k b).images = s.images ∧ (s.putByte k b).past = s.past ∧ (s.putByte k b).reports = s.reports ∧
    (s.putByte k b).cycle = s.cycle ∧ (s.putByte k b).equinox = s.equinox ∧ (s.putByte k b).placement = s.placement ∧
    (s.putByte k b).free = s.free ∧ (s.putByte k b).nextId = s.nextId ∧ (s.putByte k b).agenda = s.agenda ∧
    (s.putByte k b).team = s.team ∧ (s.putByte k b).split = s.split ∧ (s.putByte k b).others = s.others ∧
    (s.putByte k b).blocks = s.blocks ∧ (s.putByte k b).launches = s.launches ∧ (s.putByte k b).full = s.full ∧
    (s.putByte k b).seals = s.seals ∧ (s.putByte k b).backed = s.backed ∧ (s.putByte k b).l1 = s.l1 ∧
    (s.putByte k b).floors = s.floors ∧ (s.putByte k b).entries = s.entries ∧ (s.putByte k b).shares = s.shares ∧
    (s.putByte k b).updates = s.updates ∧ (s.putByte k b).unperf = s.unperf ∧ (s.putByte k b).commands = s.commands ∧
    (s.putByte k b).cores = s.cores ∧ (s.putByte k b).dies = s.dies ∧ (s.putByte k b).ctxs = s.ctxs ∧
    (s.putByte k b).parts = s.parts ∧ (s.putByte k b).pages = s.pages ∧ (s.putByte k b).homes = s.homes ∧
    (s.putByte k b).tlb = s.tlb ∧ (s.putByte k b).invals = s.invals := by
  and_intros <;> rfl

@[simp] theorem putBytes_fields (s : State) (bs : List (Nat × Byte)) :
    (s.putBytes bs).grade = s.grade ∧ (s.putBytes bs).config = s.config ∧ (s.putBytes bs).pufOk = s.pufOk ∧
    (s.putBytes bs).seed = s.seed ∧ (s.putBytes bs).firmware = s.firmware ∧ (s.putBytes bs).phase = s.phase ∧
    (s.putBytes bs).error = s.error ∧ (s.putBytes bs).status = s.status ∧ (s.putBytes bs).stopped = s.stopped ∧
    (s.putBytes bs).frozen = s.frozen ∧ (s.putBytes bs).devno = s.devno ∧ (s.putBytes bs).links = s.links ∧
    (s.putBytes bs).peers = s.peers ∧ (s.putBytes bs).arrived = s.arrived ∧ (s.putBytes bs).peerBytes = s.peerBytes ∧
    (s.putBytes bs).outReads = s.outReads ∧ (s.putBytes bs).hostNeeds = s.hostNeeds ∧ (s.putBytes bs).msix = s.msix ∧
    (s.putBytes bs).keysLive = s.keysLive ∧ (s.putBytes bs).keyNo = s.keyNo ∧ (s.putBytes bs).retiring = s.retiring ∧
    (s.putBytes bs).images = s.images ∧ (s.putBytes bs).past = s.past ∧ (s.putBytes bs).reports = s.reports ∧
    (s.putBytes bs).cycle = s.cycle ∧ (s.putBytes bs).equinox = s.equinox ∧ (s.putBytes bs).placement = s.placement ∧
    (s.putBytes bs).free = s.free ∧ (s.putBytes bs).nextId = s.nextId ∧ (s.putBytes bs).agenda = s.agenda ∧
    (s.putBytes bs).team = s.team ∧ (s.putBytes bs).split = s.split ∧ (s.putBytes bs).others = s.others ∧
    (s.putBytes bs).blocks = s.blocks ∧ (s.putBytes bs).launches = s.launches ∧ (s.putBytes bs).full = s.full ∧
    (s.putBytes bs).seals = s.seals ∧ (s.putBytes bs).backed = s.backed ∧ (s.putBytes bs).l1 = s.l1 ∧
    (s.putBytes bs).floors = s.floors ∧ (s.putBytes bs).entries = s.entries ∧ (s.putBytes bs).shares = s.shares ∧
    (s.putBytes bs).updates = s.updates ∧ (s.putBytes bs).unperf = s.unperf ∧ (s.putBytes bs).commands = s.commands ∧
    (s.putBytes bs).cores = s.cores ∧ (s.putBytes bs).dies = s.dies ∧ (s.putBytes bs).ctxs = s.ctxs ∧
    (s.putBytes bs).parts = s.parts ∧ (s.putBytes bs).pages = s.pages ∧ (s.putBytes bs).homes = s.homes ∧
    (s.putBytes bs).tlb = s.tlb ∧ (s.putBytes bs).invals = s.invals := by
  induction bs generalizing s with
  | nil => simp [putBytes]
  | cons x r ih => obtain ⟨k, b⟩ := x; simp [putBytes, ih]

@[simp] theorem setFull_fields (s : State) (k : Nat) (b : Bool) :
    (s.setFull k b).grade = s.grade ∧ (s.setFull k b).config = s.config ∧ (s.setFull k b).pufOk = s.pufOk ∧
    (s.setFull k b).seed = s.seed ∧ (s.setFull k b).firmware = s.firmware ∧ (s.setFull k b).phase = s.phase ∧
    (s.setFull k b).error = s.error ∧ (s.setFull k b).status = s.status ∧ (s.setFull k b).stopped = s.stopped ∧
    (s.setFull k b).frozen = s.frozen ∧ (s.setFull k b).devno = s.devno ∧ (s.setFull k b).links = s.links ∧
    (s.setFull k b).peers = s.peers ∧ (s.setFull k b).arrived = s.arrived ∧ (s.setFull k b).peerBytes = s.peerBytes ∧
    (s.setFull k b).outReads = s.outReads ∧ (s.setFull k b).hostNeeds = s.hostNeeds ∧ (s.setFull k b).msix = s.msix ∧
    (s.setFull k b).keysLive = s.keysLive ∧ (s.setFull k b).keyNo = s.keyNo ∧ (s.setFull k b).retiring = s.retiring ∧
    (s.setFull k b).images = s.images ∧ (s.setFull k b).past = s.past ∧ (s.setFull k b).reports = s.reports ∧
    (s.setFull k b).cycle = s.cycle ∧ (s.setFull k b).equinox = s.equinox ∧ (s.setFull k b).placement = s.placement ∧
    (s.setFull k b).free = s.free ∧ (s.setFull k b).nextId = s.nextId ∧ (s.setFull k b).agenda = s.agenda ∧
    (s.setFull k b).team = s.team ∧ (s.setFull k b).split = s.split ∧ (s.setFull k b).others = s.others ∧
    (s.setFull k b).blocks = s.blocks ∧ (s.setFull k b).launches = s.launches ∧ (s.setFull k b).mem = s.mem ∧
    (s.setFull k b).seals = s.seals ∧ (s.setFull k b).backed = s.backed ∧ (s.setFull k b).hist = s.hist ∧
    (s.setFull k b).l1 = s.l1 ∧ (s.setFull k b).floors = s.floors ∧ (s.setFull k b).entries = s.entries ∧
    (s.setFull k b).shares = s.shares ∧ (s.setFull k b).updates = s.updates ∧ (s.setFull k b).unperf = s.unperf ∧
    (s.setFull k b).commands = s.commands ∧ (s.setFull k b).cores = s.cores ∧ (s.setFull k b).dies = s.dies ∧
    (s.setFull k b).ctxs = s.ctxs ∧ (s.setFull k b).parts = s.parts ∧ (s.setFull k b).pages = s.pages ∧
    (s.setFull k b).homes = s.homes ∧ (s.setFull k b).tlb = s.tlb ∧ (s.setFull k b).invals = s.invals := by
  and_intros <;> rfl

/-- Two states are equal where every field is. -/
theorem eq_of_fields {s t : State}
    (h : s.grade = t.grade ∧ s.config = t.config ∧ s.pufOk = t.pufOk ∧ s.seed = t.seed ∧ s.firmware = t.firmware ∧
      s.phase = t.phase ∧ s.error = t.error ∧ s.status = t.status ∧ s.stopped = t.stopped ∧ s.frozen = t.frozen ∧
      s.devno = t.devno ∧ s.links = t.links ∧ s.peers = t.peers ∧ s.arrived = t.arrived ∧ s.peerBytes = t.peerBytes ∧
      s.outReads = t.outReads ∧ s.hostNeeds = t.hostNeeds ∧ s.msix = t.msix ∧ s.keysLive = t.keysLive ∧
      s.keyNo = t.keyNo ∧ s.retiring = t.retiring ∧ s.images = t.images ∧ s.past = t.past ∧ s.reports = t.reports ∧
      s.cycle = t.cycle ∧ s.equinox = t.equinox ∧ s.placement = t.placement ∧ s.free = t.free ∧ s.nextId = t.nextId ∧
      s.agenda = t.agenda ∧ s.team = t.team ∧ s.split = t.split ∧ s.others = t.others ∧ s.blocks = t.blocks ∧
      s.launches = t.launches ∧ s.mem = t.mem ∧ s.full = t.full ∧ s.seals = t.seals ∧ s.backed = t.backed ∧
      s.hist = t.hist ∧ s.l1 = t.l1 ∧ s.floors = t.floors ∧ s.entries = t.entries ∧ s.shares = t.shares ∧
      s.updates = t.updates ∧ s.unperf = t.unperf ∧ s.commands = t.commands ∧ s.cores = t.cores ∧ s.dies = t.dies ∧
      s.ctxs = t.ctxs ∧ s.parts = t.parts ∧ s.pages = t.pages ∧ s.homes = t.homes ∧ s.tlb = t.tlb ∧
      s.invals = t.invals) : s = t := by
  cases s
  cases t
  simp only [mk.injEq]
  exact h

end Sys2Proof.Machine.State
end

