-- ==== Sys2Proof/Laws/Issue.lean ====
section
/-! SUPPORT. What issuing an instruction does: the one law of `issue`, and what `account` and `launch` leave as it was. -/
namespace Sys2Proof.Machine

/-! ### Accounting -/

/-- A read of the partitions after an update of one. -/
theorem part_modPart (s : State) (n p : Nat) (g : Part → Part) :
    (s.modPart n g).part p = if p = n then g (s.part n) else s.part p := by
  simp only [State.part, State.modPart, SMap.get_set]
  by_cases h : n = p
  · subst h; simp
  · simp [h, Ne.symm h]

/-- A read of the cores after an update of one. -/
theorem core_modCore (s : State) (n c : Nat) (g : Core → Core) :
    (s.modCore n g).core c = if c = n then g (s.core n) else s.core c := by
  simp only [State.core, State.modCore, SMap.get_set]
  by_cases h : n = c
  · subst h; simp
  · simp [h, Ne.symm h]

theorem RegistersKept.of_eq (ws : List Reg) {s t : State} (ht : t.team.s = s.team.s ∧ t.team.q = s.team.q ∧ t.team.a = s.team.a ∧
   t.team.v = s.team.v ∧ t.team.tags = s.team.tags ∧ t.team.p = s.team.p ∧ t.split.run.temps = s.split.run.temps ∧ t.split.run.tags = s.split.run.tags ∧
   t.split.wave = s.split.wave ∧ t.split.run.files = s.split.run.files) : RegistersKept ws s t := by
  obtain ⟨h1, h2, h3, h4, h5, h6, h7, h8, h9, h10⟩ := ht
  constructor <;> intros <;>
    simp only [State.regS, State.regQ, State.regA, State.regP, State.regV, State.regTag, Split.tagSeen, *]

theorem chargeBudget_core (s : State) (n c : Nat) :
    (s.chargeBudget n).core c = { s.core c with budgets := ((s.chargeBudget n).core c).budgets } := by
  unfold State.chargeBudget
  split
  · rfl
  · rw [core_modCore]
    split
    · subst_vars; rfl
    · rfl

@[simp] theorem account_team (f : Fmt) (ends : Bool) (s : State) : (s.account f ends).team = s.teamPast := by
  simp [State.account]
@[simp] theorem account_split (f : Fmt) (ends : Bool) (s : State) : (s.account f ends).split = s.splitPast f ends := by
  simp [State.account]

theorem account_part (f : Fmt) (ends : Bool) (s : State) (p : Nat) :
    (s.account f ends).part p = if p = s.team.part then { s.part p with retired := (s.part p).retired + 1 } else s.part p := by
  simp only [State.part, State.account, State.chargeBudget_fields]
  refine (part_modPart _ _ p _).trans ?_
  by_cases h : p = s.team.part
  · subst h; simp [State.part, State.teamPast]
  · simp [h, State.part, State.teamPast]

theorem account_core (f : Fmt) (ends : Bool) (s : State) (c : Nat) :
    (s.account f ends).core c = { s.core c with budgets := ((s.account f ends).core c).budgets } := by
  unfold State.account
  refine (chargeBudget_core _ _ _).trans ?_
  simp only [State.core, State.countRetired_fields]

theorem RegistersKept.files {ws : List Reg} {s t : State} (h : RegistersKept ws s t) : FilesKept ws s t :=
  ⟨h.uniform, h.bit, h.affine, h.mask, fun n l _ hl => h.lane n l hl, h.own⟩

theorem FilesKept.of_team {ws : List Reg} {s t : State} (h : t.team.s = s.team.s ∧ t.team.q = s.team.q ∧ t.team.a = s.team.a ∧
    t.team.v = s.team.v ∧ t.team.tags = s.team.tags ∧ t.team.p = s.team.p) : FilesKept ws s t := by
  obtain ⟨h1, h2, h3, h4, h5, h6⟩ := h
  constructor <;> intros <;> simp only [State.regS, State.regQ, State.regA, State.regP, State.regV, *]
  · rw [if_neg (by omega), if_neg (by omega)]

/-- Accounting changes the executing split and the counts, and no register. -/
theorem account_charged (f : Fmt) (ends : Bool) (s : State) : Charged f [] s (s.account f ends) where
  rest := State.eq_of_fields (by simp)
  bytes k := by simp [State.byte]
  team := by rw [account_team]; rfl
  count := by rw [account_team]; rfl
  tctl := by rw [account_team]; rfl
  flags k _ := by rw [account_team]; rfl
  files := FilesKept.of_team (by rw [account_team]; exact ⟨rfl, rfl, rfl, rfl, rfl, rfl⟩)
  parts := account_part f ends s
  cores := account_core f ends s

theorem account_stepped (f : Fmt) (s : State) : Stepped f [] s (s.account f false) where
  toCharged := account_charged f false s
  regs := RegistersKept.of_eq _ (by rw [account_team, account_split]; exact ⟨rfl, rfl, rfl, rfl, rfl, rfl, rfl, rfl, rfl, rfl⟩)
  split := by rw [account_split]; rfl
  run := by rw [account_split]; rfl

theorem account_moved (f : Fmt) (s : State) :
    Moved f [] (s.split.pc + BitVec.ofNat 64 f.len.bytes) s (s.account f true) where
  toCharged := account_charged f true s
  split := by rw [account_split]; rfl


/-! ### Issuing -/

/-- An instruction that acts answers with what its body answers. -/
theorem issue_acts {i : Instr} {f : Fmt} {s : State} (h : Acts i f s) (lat : Lat) (ends : Bool)
    (body : Nat → State → State → Res) :
    issue i f lat ends true body s =
      match body (launch f (usesOf i) lat ends s).1 (s.seen i f) (launch f (usesOf i) lat ends s).2 with
      | .done t => .next (bumpFree (s.issueCycle f) i f ((usesOf i).reads ++ f.guardReg) s t)
      | .raise x => .next (s.takeFault x)
      | .refuse x v => .next ((s.takeFault x).logViol v)
      | .watch x ms => .next (ms.foldl State.logMatch (s.takeFault x))
      | .failing g x => .next ((g s).takeFault x)
      | .stay t => .next (State.withdrawIssue s t (launch f (usesOf i) lat ends s).1) := by
  have hg := h.guard
  have hp := h.checks
  unfold State.seen at hg
  unfold issue State.seen
  simp only [Bool.not_true, Bool.false_or, Bool.true_or, hg, hp]
  rfl

end Sys2Proof.Machine
end

