-- ==== Sys2Proof/Laws/Memory.lean ====
section
/-! SUPPORT. The laws of the bytes of memory: a read after a write, a write leaves every other byte alone, every operation keeps
the canonical form. -/
namespace Sys2Proof.Machine
open State

@[simp] theorem byte_putByte (s : State) (k j : Nat) (b : Byte) : (s.putByte k b).byte j = if k = j then b else s.byte j := by
  simp [byte, putByte, SMap.get_set]

/-- Writing bytes leaves every byte that is not listed alone. -/
theorem byte_putBytes_other (bs : List (Nat × Byte)) (s : State) (j : Nat) (h : ∀ x ∈ bs, x.1 ≠ j) :
    (s.putBytes bs).byte j = s.byte j := by
  induction bs generalizing s with
  | nil => rfl
  | cons x r ih =>
    obtain ⟨k, b⟩ := x
    rw [putBytes, ih _ fun y hy => h y (by simp [hy]), byte_putByte, if_neg (h (k, b) (by simp))]

/-- Reading back bytes written from a key on. -/
theorem byte_putBytes_run (bs : List Byte) (s : State) (k i j : Nat) :
    (s.putBytes (bs.mapIdx fun n b => (k + i + n, b))).byte j =
      if k + i ≤ j ∧ j < k + i + bs.length then bs.getD (j - (k + i)) 0 else s.byte j := by
  induction bs generalizing s i with
  | nil => simp [putBytes] <;> omega
  | cons b r ih =>
    have e : (r.mapIdx fun n b => (k + i + (n + 1), b)) = r.mapIdx fun n b => (k + (i + 1) + n, b) := by
      congr 1
      funext n b
      congr 1
      omega
    rw [List.mapIdx_cons, putBytes, e, ih]
    simp only [List.length_cons, Nat.add_zero, byte_putByte]
    by_cases h : j = k + i
    · subst h
      rw [if_neg (by omega), if_pos rfl, if_pos (by omega)]
      simp
    · by_cases h' : k + (i + 1) ≤ j ∧ j < k + (i + 1) + r.length
      · rw [if_pos h', if_pos (by omega)]
        have : j - (k + i) = (j - (k + (i + 1))) + 1 := by omega
        simp [this]
      · rw [if_neg h', if_neg (Ne.symm h), if_neg (by omega)]

/-- Reading back bytes written from a key on. -/
theorem byte_putBytes_at (bs : List Byte) (s : State) (k j : Nat) :
    (s.putBytes (bs.mapIdx fun n b => (k + n, b))).byte j =
      if k ≤ j ∧ j < k + bs.length then bs.getD (j - k) 0 else s.byte j := by
  simpa using byte_putBytes_run bs s k 0 j

/-- Writing bytes changes memory and its history only. -/
theorem putBytes_rest (bs : List (Nat × Byte)) (s : State) :
    s.putBytes bs = { s with mem := (s.putBytes bs).mem, hist := (s.putBytes bs).hist } := by
  induction bs generalizing s with
  | nil => rfl
  | cons x r ih =>
    obtain ⟨k, b⟩ := x
    have e := ih (s.putByte k b)
    rw [putBytes]
    rw [e]
    rfl

/-! ### The canonical form -/

theorem putByte_wf (s : State) (k : Nat) (b : Byte) (h : Memory.wf s.mem = true) : Memory.wf (s.putByte k b).mem = true :=
  SMap.wf_set _ _ k b h

theorem putBytes_wf (bs : List (Nat × Byte)) (s : State) (h : Memory.wf s.mem = true) : Memory.wf (s.putBytes bs).mem = true := by
  induction bs generalizing s with
  | nil => exact h
  | cons x r ih => exact ih _ (putByte_wf s x.1 x.2 h)

theorem dropKeys_wf (m : SMap Byte) (p : Nat → Bool) (h : Memory.wf m = true) : Memory.wf (m.dropKeys p) = true :=
  SMap.wf_dropKeys m _ p h

theorem setList_wf (m : SMap Byte) (k : Nat) (bs : List Byte) (h : Memory.wf m = true) :
    Memory.wf (m.setList unlistedByte k bs) = true := SMap.wf_setList bs m _ k h

theorem keepKeys_wf (m : SMap Byte) (p : Nat → Bool) (h : Memory.wf m = true) : Memory.wf (keepKeys m p) = true :=
  dropKeys_wf m _ h

theorem mergeKeys_wf (new m : SMap Byte) (h : Memory.wf m = true) : Memory.wf (mergeKeys unlistedByte m new) = true := by
  unfold mergeKeys
  induction new generalizing m with
  | nil => exact h
  | cons e r ih => exact ih _ (SMap.wf_set _ _ e.1 e.2 h)

theorem clearWindow_wf (s : State) (p : Nat) (w : Word) (h : Memory.wf s.mem = true) : Memory.wf (s.clearWindow p w).mem = true := by
  dsimp only [clearWindow]
  exact dropKeys_wf _ _ h

theorem sealLine_wf (s : State) (kid l : Nat) (h : Memory.wf s.mem = true) : Memory.wf (s.sealLine kid l).mem = true := by
  have e : (s.sealLine kid l).mem = s.mem ∨
      (s.sealLine kid l).mem = s.mem.setList unlistedByte (128 * l) (s.bytesAs kid ((List.range 128).map (128 * l + ·))) := by
    unfold sealLine
    by_cases a : (decide (2 ^ 51 ≤ 128 * l) || decide (s.seals.get none l = some (s.sealOf kid))) = true
    · exact .inl (by rw [if_pos a])
    · by_cases b : s.seals.get none l = none
      · exact .inl (by rw [if_neg a]; dsimp only; rw [if_pos b])
      · exact .inr (by rw [if_neg a]; dsimp only; rw [if_neg b])
  rcases e with e | e <;> rw [e]
  · exact h
  · exact setList_wf _ _ _ h

theorem sealLines_wf (s : State) (kid : Nat) (ks : List Nat) (h : Memory.wf s.mem = true) : Memory.wf (s.sealLines kid ks).mem = true := by
  unfold sealLines
  generalize (ks.map lineOf).eraseDups = l
  induction l generalizing s with
  | nil => exact h
  | cons x r ih => exact ih _ (sealLine_wf s kid x h)

theorem restoreImage_wf (s : State) (g : PartImage) (h : Memory.wf s.mem = true) : Memory.wf (s.restoreImage g).mem = true :=
  mergeKeys_wf _ _ (dropKeys_wf _ _ h)

theorem thawDone_wf (s : State) (h : Memory.wf s.mem = true) : Memory.wf s.thawDone.mem = true := by
  unfold thawDone
  split
  · split
    · exact h
    · exact mergeKeys_wf _ _ (dropKeys_wf _ _ h)
  · exact h

theorem reset_wf : Memory.wf State.reset.mem = true := rfl

end Sys2Proof.Machine
end

