-- ==== Sys2Proof/Laws/Results.lean ====
section
/-! SUPPORT. Results in the registers: what one landing writes, and that it touches nothing else. -/
namespace Sys2Proof.Machine

/-- `t` differs from `s` only in registers of `ws`, in results on their way, and in the model's counters. -/
structure Touched (ws : List Reg) (s t : State) : Prop where
  rest  : t = { s with team := t.team, split := t.split, nextId := t.nextId, free := t.free }
  team  : t.team = { s.team with s := t.team.s, q := t.team.q, a := t.team.a, v := t.team.v, tags := t.team.tags,
                                 p := t.team.p, fresh := t.team.fresh, pending := t.team.pending, flights := t.team.flights }
  split : t.split = { s.split with run := t.split.run, awaits := t.split.awaits }
  run   : t.split.run = { s.split.run with temps := t.split.run.temps, tags := t.split.run.tags,
                                            files := t.split.run.files, written := t.split.run.written }
  regs  : RegistersKept ws s t

theorem RegistersKept.refl (ws : List Reg) (s : State) : RegistersKept ws s s :=
  RegistersKept.of_eq ws ⟨rfl, rfl, rfl, rfl, rfl, rfl, rfl, rfl, rfl, rfl⟩

theorem RegistersKept.trans {ws ws' : List Reg} {s t u : State} (h : RegistersKept ws s t) (h' : RegistersKept ws' t u) :
    RegistersKept (ws ++ ws') s u where
  uniform n hn := by rw [h'.uniform n (by simp_all), h.uniform n (by simp_all)]
  bit n hn := by rw [h'.bit n (by simp_all), h.bit n (by simp_all)]
  affine n hn := by rw [h'.affine n (by simp_all), h.affine n (by simp_all)]
  mask n hn := by rw [h'.mask n (by simp_all), h.mask n (by simp_all)]
  lane n l hl hw := by rw [h'.lane n l hl (by simp_all), h.lane n l hl (by simp_all)]
  tag n hw := by rw [h'.tag n (by simp_all), h.tag n (by simp_all)]
  own n h4 hw := by rw [h'.own n h4 (by simp_all), h.own n h4 (by simp_all)]

theorem RegistersKept.mono {ws ws' : List Reg} {s t : State} (h : RegistersKept ws s t) (hs : ∀ r ∈ ws, r ∈ ws') :
    RegistersKept ws' s t where
  uniform n hn := h.uniform n fun x => hn (hs _ x)
  bit n hn := h.bit n fun x => hn (hs _ x)
  affine n hn := h.affine n fun x => hn (hs _ x)
  mask n hn := h.mask n fun x => hn (hs _ x)
  lane n l hl hw := h.lane n l hl fun x => hw (hs _ x)
  tag n hw := h.tag n fun x => hw (hs _ x)
  own n h4 hw := h.own n h4 fun x => hw (hs _ x)

theorem FilesKept.trans {ws ws' : List Reg} {s t u : State} (h : FilesKept ws s t) (h' : FilesKept ws' t u) :
    FilesKept (ws ++ ws') s u where
  uniform n hn := by rw [h'.uniform n (by simp_all), h.uniform n (by simp_all)]
  bit n hn := by rw [h'.bit n (by simp_all), h.bit n (by simp_all)]
  affine n hn := by rw [h'.affine n (by simp_all), h.affine n (by simp_all)]
  mask n hn := by rw [h'.mask n (by simp_all), h.mask n (by simp_all)]
  lane n l h4 hl hw := by rw [h'.lane n l h4 hl (by simp_all), h.lane n l h4 hl (by simp_all)]
  tag n h4 hw := by rw [h'.tag n h4 (by simp_all), h.tag n h4 (by simp_all)]

theorem FilesKept.mono {ws ws' : List Reg} {s t : State} (h : FilesKept ws s t) (hs : ∀ r ∈ ws, r ∈ ws') :
    FilesKept ws' s t where
  uniform n hn := h.uniform n fun x => hn (hs _ x)
  bit n hn := h.bit n fun x => hn (hs _ x)
  affine n hn := h.affine n fun x => hn (hs _ x)
  mask n hn := h.mask n fun x => hn (hs _ x)
  lane n l h4 hl hw := h.lane n l h4 hl fun x => hw (hs _ x)
  tag n h4 hw := h.tag n h4 fun x => hw (hs _ x)

namespace Touched

theorem refl (ws : List Reg) (s : State) : Touched ws s s :=
  ⟨rfl, rfl, rfl, rfl, RegistersKept.refl ws s⟩

theorem mono {ws ws' : List Reg} {s t : State} (h : Touched ws s t) (hs : ∀ r ∈ ws, r ∈ ws') : Touched ws' s t :=
  ⟨h.rest, h.team, h.split, h.run, h.regs.mono hs⟩

theorem trans {ws ws' : List Reg} {s t u : State} (h : Touched ws s t) (h' : Touched ws' t u) :
    Touched (ws ++ ws') s u where
  rest := by
    have e := h'.rest
    rw [h.rest] at e
    exact e
  team := by
    have e := h'.team
    rw [h.team] at e
    exact e
  split := by
    have e := h'.split
    rw [h.split] at e
    exact e
  run := by
    have e := h'.run
    rw [h.run] at e
    exact e
  regs := h.regs.trans h'.regs

end Touched

/-- An issue that is followed by writes of registers stays one. -/
theorem Charged.touch {f : Fmt} {ws ws' : List Reg} {s t u : State} (h : Charged f ws s t) (h' : Touched ws' t u) :
    Charged f (ws ++ ws') s u where
  rest := by
    have e := h'.rest
    rw [h.rest] at e
    rw [e]
  bytes k := by
    have e : u.mem = t.mem := by rw [h'.rest]
    simpa [State.byte, e] using h.bytes k
  team := by
    have e := h'.team
    have e' := h.team
    unfold Team.sameBut at *
    rw [e'] at e
    rw [e]
  count := by rw [h'.team]; exact h.count
  tctl := by rw [h'.team]; exact h.tctl
  flags k hk := by rw [h'.team]; exact h.flags k hk
  files := h.files.trans h'.regs.files
  parts p := by
    have e : u.parts = t.parts := by rw [h'.rest]
    simpa [State.part, e] using h.parts p
  cores c := by
    have e : u.cores = t.cores := by rw [h'.rest]
    simpa [State.core, e] using h.cores c

theorem Stepped.touch {f : Fmt} {ws ws' : List Reg} {s t u : State} (h : Stepped f ws s t) (h' : Touched ws' t u) :
    Stepped f (ws ++ ws') s u where
  toCharged := h.toCharged.touch h'
  regs := h.regs.trans h'.regs
  split := by
    have e := h'.split
    rw [h.split] at e
    rw [e]
  run := by
    have e := h'.run
    rw [h.run] at e
    rw [e]

/-- After a transfer, writes of the team's files: the temporaries are gone with the run. -/
theorem Moved.touch {f : Fmt} {ws ws' : List Reg} {pc : Addr} {s t u : State} (h : Moved f ws pc s t) (h' : Touched ws' t u)
    (hr : u.split.run = t.split.run) : Moved f (ws ++ ws') pc s u where
  toCharged := h.toCharged.touch h'
  split := by
    have e := h'.split
    rw [hr, h.split] at e
    rw [e]

/-- Moving the split of a transfer elsewhere. -/
theorem Moved.at {f : Fmt} {ws : List Reg} {pc pc' : Addr} {s t : State} (h : Moved f ws pc s t) :
    Moved f ws pc' s (t.modSplit fun x => { x with pc := pc' }) where
  rest := by
    have e := h.rest
    rw [e]
    rfl
  bytes := h.bytes
  team := h.team
  count := h.count
  tctl := h.tctl
  flags := h.flags
  files :=
    { uniform := h.files.uniform, bit := h.files.bit, affine := h.files.affine, mask := h.files.mask
      lane := fun n l h4 hl hw => by
        have := h.files.lane n l h4 hl hw
        unfold State.regV at *
        rw [if_neg (by omega)] at *
        exact this
      tag := fun n h4 hw => by
        exact h.files.tag n h4 hw }
  parts := h.parts
  cores := h.cores
  split := by
    have e := h.split
    simp only [State.modSplit]
    rw [e]

open State

/-! ### Register reads after writes -/

@[simp] theorem regS_writeS (s : State) (n m : Nat) (w : Word) : (s.writeS n w).regS m = if n = m then w else s.regS m := by
  simp [regS, writeS, SMap.get_set]
@[simp] theorem regQ_writeQ (s : State) (n m : Nat) (b : Bool) :
    (s.writeQ n b).regQ m = if n = m ∧ n ≠ 7 then b else s.regQ m := by
  unfold writeQ regQ
  by_cases h7 : n = 7
  · simp [h7]
  · simp [h7, SMap.get_set]
@[simp] theorem regA_writeA (s : State) (n m : Nat) (x : Affine) : (s.writeA n x).regA m = if n = m then x else s.regA m := by
  simp [regA, writeA, SMap.get_set]
@[simp] theorem regP_writeP (s : State) (n m : Nat) (vals : List (Nat × Bool)) :
    (s.writeP n vals).regP m = if n = m ∧ n ≠ 7 then setLanes (s.regP m) vals else s.regP m := by
  unfold writeP regP
  by_cases h7 : n = 7
  · simp [h7]
  · by_cases h : n = m
    · subst h; simp [h7]
    · simp [h7, h, SMap.get_set]
theorem regV_writeV (s : State) (n l m k : Nat) (w : Word) (hl : l < 1024) (hk : k < 1024) :
    (s.writeV n l w).regV m k = if n = m ∧ l = k then w else s.regV m k := by
  unfold writeV regV
  by_cases hn : 248 ≤ n <;> by_cases hm : 248 ≤ m
  · simp only [hn, hm, if_true, SMap.get_set]
    by_cases h : n = m ∧ l = k
    · obtain ⟨rfl, rfl⟩ := h; simp
    · rw [if_neg (by omega), if_neg h]
  · simp only [hn, hm, if_true, if_false]; rw [if_neg (by omega)]
  · simp only [hn, hm, if_true, if_false]; rw [if_neg (by omega)]
  · simp only [hn, hm, if_false, SMap.get_set]
    by_cases h : n = m ∧ l = k
    · obtain ⟨rfl, rfl⟩ := h; simp
    · rw [if_neg (by omega), if_neg h]
@[simp] theorem regTag_setTag (s : State) (n m : Nat) (t : Tag) : (s.setTag n t).regTag m = if n = m then t else s.regTag m := by
  unfold setTag regTag
  by_cases hn : 248 ≤ n <;> by_cases hm : 248 ≤ m
  · simp only [hn, hm, if_true, SMap.get_set]
    by_cases h : n = m
    · subst h; simp
    · rw [if_neg (by omega), if_neg h]
  · simp only [hn, hm, if_true, if_false]; rw [if_neg (by omega)]
    rfl
  · by_cases hw : s.split.wave.isSome = true <;> simp only [hn, hm, hw, if_true, if_false, Bool.false_eq_true] <;> rw [if_neg (by omega)]
  · by_cases hw : s.split.wave.isSome = true <;> by_cases h : n = m <;>
      simp [hn, hm, hw, h, Split.tagSeen, SMap.get_set]
@[simp] theorem regV_setTag (s : State) (n m k : Nat) (t : Tag) : (s.setTag n t).regV m k = s.regV m k := by
  unfold setTag regV
  (repeat' split) <;> rfl
@[simp] theorem regTag_writeV (s : State) (n l m : Nat) (w : Word) : (s.writeV n l w).regTag m = s.regTag m := by
  unfold writeV regTag
  (repeat' split) <;> rfl
@[simp] theorem regTag_writeLanes (n m : Nat) (vals : List (Nat × Word)) (s : State) :
    (s.writeLanes n vals).regTag m = s.regTag m := by
  induction vals generalizing s with
  | nil => rfl
  | cons x r ih => obtain ⟨l, w⟩ := x; simp [writeLanes, ih]

/-- A lane after a list of lanes is written: the lane's value in the list, the last one where it stands twice. -/
theorem regV_writeLanes (n m k : Nat) (hk : k < 1024) (val : Nat → Word) (ls : List Nat) (h : ∀ l ∈ ls, l < 1024) (s : State) :
    (s.writeLanes n (ls.map fun l => (l, val l))).regV m k = if n = m ∧ k ∈ ls then val k else s.regV m k := by
  induction ls generalizing s with
  | nil => simp [writeLanes]
  | cons x r ih =>
    simp only [List.map_cons, writeLanes]
    rw [ih (fun l hl => h l (by simp [hl])), regV_writeV _ _ _ _ _ _ (h x (by simp)) hk]
    simp only [List.mem_cons]
    by_cases hr : n = m ∧ k ∈ r
    · rw [if_pos hr, if_pos ⟨hr.1, .inr hr.2⟩]
    · rw [if_neg hr]
      by_cases hx : n = m ∧ x = k
      · obtain ⟨rfl, rfl⟩ := hx
        simp
      · rw [if_neg hx, if_neg]
        rintro ⟨rfl, rfl | h2⟩
        · exact hx ⟨rfl, rfl⟩
        · exact hr ⟨rfl, h2⟩

theorem setLanes_get (val : Nat → Bool) (ls : List Nat) (h : ∀ l ∈ ls, l < 1024) (m : Mask) (k : Nat) (hk : k < 1024) :
    (setLanes m (ls.map fun l => (l, val l))).getLsbD k = if k ∈ ls then val k else m.getLsbD k := by
  have hb (l : Nat) (hl : l < 1024) : (laneBit l).getLsbD k = decide (l = k) := by
    rw [laneBit, BitVec.getLsbD_ofNat, Nat.testBit_two_pow]; simp [hk]
  unfold setLanes
  induction ls generalizing m with
  | nil => simp
  | cons x r ih =>
    simp only [List.map_cons, List.foldl_cons]
    rw [ih (fun l hl => h l (by simp [hl]))]
    by_cases hr : k ∈ r
    · simp [hr]
    · simp only [hr, if_false, List.mem_cons, or_false]
      by_cases hx : x = k
      · subst hx
        cases val x <;> simp [hb x hk, hk]
      · have hx' : k ≠ x := fun e => hx e.symm
        have := hb x (h x (by simp))
        cases val x <;> simp_all

theorem mem_activeLanes {f : Fmt} {v : State} {l : Nat} :
    l ∈ activeLanes f v ↔ l < v.team.n ∧ (activeMask f v).getLsbD l = true := by
  simp [activeLanes, lanesOf]

theorem activeLanes_lt {f : Fmt} {v : State} : ∀ l ∈ activeLanes f v, l < 1024 := by
  intro l hl
  exact BitVec.lt_of_getLsbD (mem_activeLanes.1 hl).2

/-! ### What a write touches -/

theorem writeS_touched (s : State) (n : Nat) (w : Word) : Touched [.s n] s (s.writeS n w) where
  rest := rfl
  team := rfl
  split := rfl
  run := rfl
  regs := by
    constructor <;> intros <;> try rfl
    rename_i m hm
    rw [regS_writeS, if_neg (by rintro rfl; simp at hm)]

theorem writeA_touched (s : State) (n : Nat) (x : Affine) : Touched [.a n] s (s.writeA n x) where
  rest := rfl
  team := rfl
  split := rfl
  run := rfl
  regs := by
    constructor <;> intros <;> try rfl
    rename_i m hm
    rw [regA_writeA, if_neg (by rintro rfl; simp at hm)]

theorem writeQ_touched (s : State) (n : Nat) (b : Bool) : Touched [.q n] s (s.writeQ n b) := by
  unfold writeQ
  split
  · exact Touched.refl _ _
  · refine ⟨rfl, rfl, rfl, rfl, ?_⟩
    constructor <;> intros <;> try rfl
    rename_i m hm
    exact SMap.get_set_other _ _ _ (by rintro rfl; simp at hm)

theorem writeP_touched (s : State) (n : Nat) (vals : List (Nat × Bool)) : Touched [.p n] s (s.writeP n vals) := by
  unfold writeP
  split
  · exact Touched.refl _ _
  · refine ⟨rfl, rfl, rfl, rfl, ?_⟩
    constructor <;> intros <;> try rfl
    rename_i m hm
    exact SMap.get_set_other _ _ _ (by rintro rfl; simp at hm)

theorem writeV_touched (s : State) (n l : Nat) (hl : l < 1024) (w : Word) : Touched [.v n] s (s.writeV n l w) where
  rest := by unfold writeV; split <;> rfl
  team := by unfold writeV; split <;> rfl
  split := by unfold writeV; split <;> rfl
  run := by unfold writeV; split <;> rfl
  regs :=
    { uniform := by unfold writeV; split <;> (intros; rfl)
      bit := by unfold writeV; split <;> (intros; rfl)
      affine := by unfold writeV; split <;> (intros; rfl)
      mask := by unfold writeV; split <;> (intros; rfl)
      lane := fun m k hk hm => by rw [regV_writeV _ _ _ _ _ _ hl hk, if_neg (by rintro ⟨rfl, _⟩; simp at hm)]
      tag := fun m _ => regTag_writeV s n l m w
      own := by unfold writeV; split <;> (intros; rfl) }

theorem setTag_touched (s : State) (n : Nat) (t : Tag) : Touched [.v n] s (s.setTag n t) where
  rest := by unfold setTag; (repeat' split) <;> rfl
  team := by unfold setTag; (repeat' split) <;> rfl
  split := by unfold setTag; (repeat' split) <;> rfl
  run := by unfold setTag; (repeat' split) <;> rfl
  regs :=
    { uniform := by unfold setTag; (repeat' split) <;> (intros; rfl)
      bit := by unfold setTag; (repeat' split) <;> (intros; rfl)
      affine := by unfold setTag; (repeat' split) <;> (intros; rfl)
      mask := by unfold setTag; (repeat' split) <;> (intros; rfl)
      lane := fun m k _ _ => regV_setTag s n m k t
      tag := fun m hm => by rw [regTag_setTag, if_neg (by rintro rfl; simp at hm)]
      own := fun m _ hm => by
        unfold setTag
        (repeat' split)
        · rfl
        · rfl
        · exact SMap.get_set_other _ _ _ (by rintro rfl; simp at hm) }

theorem writeLanes_touched (n : Nat) (vals : List (Nat × Word)) (h : ∀ x ∈ vals, x.1 < 1024) (s : State) :
    Touched [.v n] s (s.writeLanes n vals) := by
  induction vals generalizing s with
  | nil => exact Touched.refl _ _
  | cons x r ih =>
    obtain ⟨l, w⟩ := x
    exact ((writeV_touched s n l (h (l, w) (by simp)) w).trans (ih (fun y hy => h y (by simp [hy])) _)).mono (by simp)

theorem writeVar_touched (n : Nat) (t : Tag) (vals : List (Nat × Word)) (h : ∀ x ∈ vals, x.1 < 1024) (s : State) :
    Touched [.v n] s (s.writeVar n t vals) :=
  ((writeLanes_touched n vals h s).trans (setTag_touched _ n t)).mono (by simp)

/-- The lanes that a landing writes are lanes of a team. -/
def Landing.lanesFit : Landing → Prop
  | .lanes _ _ vals => ∀ x ∈ vals, x.1 < 1024
  | _ => True

/-- One landing touches its register and nothing else. -/
theorem land_touched (s : State) (x : Landing) (h : x.lanesFit) : Touched [regOf x] s (s.land x) := by
  cases x with
  | word n w => exact writeS_touched s n w
  | bit n b => exact writeQ_touched s n b
  | pair n x => exact writeA_touched s n x
  | lanes n t vals =>
    cases t with
    | some t => exact writeVar_touched n t vals h s
    | none => exact writeLanes_touched n vals h s
  | preds n vals => exact writeP_touched s n vals

/-- A fixed-latency result touches its register and nothing else. -/
theorem putFixed_touched (lat : Nat) (f : Fmt) (x : Landing) (h : x.lanesFit) (s : State) :
    Touched [regOf x] s (putFixed lat f x s) := by
  unfold putFixed
  split
  · refine Touched.mono (ws := [regOf x] ++ []) ((land_touched s x h).trans ⟨rfl, rfl, rfl, rfl, ?_⟩) (by simp)
    constructor <;> intros <;> rfl
  · refine Touched.mono (ws := [regOf x] ++ []) ((land_touched s x h).trans ⟨rfl, rfl, rfl, rfl, ?_⟩) (by simp)
    constructor <;> intros <;> rfl

theorem putLater_touched (fl : Nat) (xs : List Landing) (s : State) : Touched [] s (putLater fl xs s) := by
  refine ⟨rfl, rfl, rfl, rfl, ?_⟩
  constructor <;> intros <;> rfl

theorem putUnknown_touched (fl : Nat) (rs : List Reg) (s : State) : Touched [] s (putUnknown fl rs s) := by
  refine ⟨rfl, rfl, rfl, rfl, ?_⟩
  constructor <;> intros <;> rfl

theorem bumpFree_touched (now : Nat) (i : Instr) (f : Fmt) (rs : List Reg) (s0 s : State) : Touched [] s (bumpFree now i f rs s0 s) := by
  unfold bumpFree
  split
  · exact Touched.refl _ _
  · refine ⟨rfl, rfl, rfl, rfl, ?_⟩
    constructor <;> intros <;> rfl

/-! ### What every body starts from -/

/-- Starting a flight changes the flights and, where the instruction names one, its completion flag. -/
theorem launchFlight_team (s : State) (id : Nat) (sig : BitVec 4) (left : Nat) (due : Option Nat) :
    (s.launchFlight id sig left due).team =
      { s.team with flights := (s.launchFlight id sig left due).team.flights,
                    c := if sig = 15 then s.team.c else s.team.c.set 0 sig.toNat (s.team.c.get 0 sig.toNat + 1) } := by
  unfold State.launchFlight
  by_cases h : sig = 15 <;> simp only [h, if_true, if_false]

theorem Charged.launchFlight {f : Fmt} {ws : List Reg} {s t : State} (h : Charged f ws s t) (id left : Nat) (due : Option Nat)
    (n : Nat) : Charged f ws s ({ t with nextId := n }.launchFlight id f.sig left due) where
  rest := by
    rw [h.rest]
    exact State.eq_of_fields (by simp)
  bytes k := by simpa [State.byte] using h.bytes k
  team := by
    have e := h.team
    unfold Team.sameBut at *
    rw [launchFlight_team]
    rw [e]
  count := by rw [launchFlight_team]; exact h.count
  tctl := by rw [launchFlight_team]; exact h.tctl
  flags k hk := by
    rw [launchFlight_team]
    simp only
    split
    · exact h.flags k hk
    · rw [SMap.get_set_other _ _ _ (Ne.symm hk)]; exact h.flags k hk
  files := by
    refine FilesKept.mono (h.files.trans (ws' := []) ?_) (by simp)
    apply FilesKept.of_team
    rw [launchFlight_team]
    exact ⟨rfl, rfl, rfl, rfl, rfl, rfl⟩
  parts := by simpa [State.part] using h.parts
  cores := by simpa [State.core] using h.cores

theorem Stepped.launchFlight {f : Fmt} {ws : List Reg} {s t : State} (h : Stepped f ws s t) (id left : Nat) (due : Option Nat)
    (n : Nat) : Stepped f ws s ({ t with nextId := n }.launchFlight id f.sig left due) where
  toCharged := h.toCharged.launchFlight id left due n
  regs := by
    refine h.regs.trans (ws' := []) ?_ |>.mono (by simp)
    apply RegistersKept.of_eq
    rw [launchFlight_team]
    simp
  split := by
    have e := h.split
    simp only [State.launchFlight_fields]
    exact e
  run := by simpa using h.run

theorem Moved.launchFlight {f : Fmt} {ws : List Reg} {pc : Addr} {s t : State} (h : Moved f ws pc s t) (id left : Nat)
    (due : Option Nat) (n : Nat) : Moved f ws pc s ({ t with nextId := n }.launchFlight id f.sig left due) where
  toCharged := h.toCharged.launchFlight id left due n
  split := by
    have e := h.split
    simp only [State.launchFlight_fields]
    exact e

theorem awaitFlight_touched (s : State) (fl : Nat) : Touched [] s (s.awaitFlight fl) :=
  ⟨rfl, rfl, rfl, rfl, by constructor <;> intros <;> rfl⟩

/-- What an instruction's body starts from: past the instruction, no register changed. -/
theorem launch_stepped (f : Fmt) (u : Uses) (lat : Lat) (s : State) : Stepped f [] s (launch f u lat false s).2 := by
  have h := account_stepped f s
  unfold launch
  simp only
  split
  · exact h
  · have h' := h.launchFlight (s.account f false).nextId 1 (dueAt f lat s) ((s.account f false).nextId + 1)
    split
    · exact h'.touch (awaitFlight_touched _ _)
    · exact h'

theorem launch_moved (f : Fmt) (u : Uses) (lat : Lat) (s : State) :
    Moved f [] (s.split.pc + BitVec.ofNat 64 f.len.bytes) s (launch f u lat true s).2 := by
  have h := account_moved f s
  unfold launch
  simp only
  split
  · exact h
  · have h' := h.launchFlight (s.account f true).nextId 1 (dueAt f lat s) ((s.account f true).nextId + 1)
    split
    · exact h'.touch (awaitFlight_touched _ _) rfl
    · exact h'

theorem Stepped.mono {f : Fmt} {ws ws' : List Reg} {s t : State} (h : Stepped f ws s t) (hs : ∀ r ∈ ws, r ∈ ws') :
    Stepped f ws' s t := { h with regs := h.regs.mono hs, files := h.files.mono hs }

theorem Moved.mono {f : Fmt} {ws ws' : List Reg} {pc : Addr} {s t : State} (h : Moved f ws pc s t) (hs : ∀ r ∈ ws, r ∈ ws') :
    Moved f ws' pc s t := { h with files := h.files.mono hs }

/-! ### The law of each kind of result -/

theorem putFixed_regV (lat : Nat) (f : Fmt) (n m l : Nat) (hl : l < 1024) (tag : Tag) (val : Nat → Word) (ls : List Nat)
    (h : ∀ k ∈ ls, k < 1024) (s : State) :
    (putFixed lat f (.lanes n (some tag) (ls.map fun k => (k, val k))) s).regV m l =
      if n = m ∧ l ∈ ls then val l else s.regV m l := by
  have : (s.land (.lanes n (some tag) (ls.map fun k => (k, val k)))).regV m l =
      if n = m ∧ l ∈ ls then val l else s.regV m l := by
    simp [State.land, State.writeVar, regV_writeLanes n m l hl val ls h]
  unfold putFixed
  split <;> exact this

theorem putFixed_regTag (lat : Nat) (f : Fmt) (n : Nat) (tag : Tag) (vals : List (Nat × Word)) (s : State) :
    (putFixed lat f (.lanes n (some tag) vals) s).regTag n = tag := by
  have : (s.land (.lanes n (some tag) vals)).regTag n = tag := by simp [State.land, State.writeVar]
  unfold putFixed
  split <;> exact this

theorem putFixed_regS (lat : Nat) (f : Fmt) (n m : Nat) (w : Word) (s : State) :
    (putFixed lat f (.word n w) s).regS m = if n = m then w else s.regS m := by
  unfold putFixed
  split <;> exact regS_writeS s n m w

theorem putFixed_regQ (lat : Nat) (f : Fmt) (n m : Nat) (b : Bool) (s : State) :
    (putFixed lat f (.bit n b) s).regQ m = if n = m ∧ n ≠ 7 then b else s.regQ m := by
  unfold putFixed
  split <;> exact regQ_writeQ s n m b

theorem putFixed_regP (lat : Nat) (f : Fmt) (n m : Nat) (vals : List (Nat × Bool)) (s : State) :
    (putFixed lat f (.preds n vals) s).regP m = if n = m ∧ n ≠ 7 then setLanes (s.regP m) vals else s.regP m := by
  unfold putFixed
  split <;> exact regP_writeP s n m vals

theorem putFixed_regA (lat : Nat) (f : Fmt) (n m : Nat) (x : Affine) (s : State) :
    (putFixed lat f (.pair n x) s).regA m = if n = m then x else s.regA m := by
  unfold putFixed
  split <;> exact regA_writeA s n m x

/-- The free counter is no register. -/
@[simp] theorem bumpFree_regs (now : Nat) (i : Instr) (f : Fmt) (rs : List Reg) (s0 s : State) :
    (∀ n, (bumpFree now i f rs s0 s).regS n = s.regS n) ∧ (∀ n, (bumpFree now i f rs s0 s).regQ n = s.regQ n) ∧
    (∀ n, (bumpFree now i f rs s0 s).regA n = s.regA n) ∧ (∀ n, (bumpFree now i f rs s0 s).regP n = s.regP n) ∧
    (∀ n l, (bumpFree now i f rs s0 s).regV n l = s.regV n l) ∧ (∀ n, (bumpFree now i f rs s0 s).regTag n = s.regTag n) := by
  unfold bumpFree
  split <;> (and_intros <;> intros <;> rfl)

/-- A straight instruction whose body is done: it has stepped, with what the body touched. -/
theorem straight_done {i : Instr} {f : Fmt} {s : State} (h : Acts i f s) (lat : Lat) (ws : List Reg) (g : Nat → State → State)
    (body : Nat → State → State → Res) (hb : ∀ fl t, body fl (s.seen i f) t = .done (g fl t))
    (hg : ∀ fl t, Touched ws t (g fl t)) :
    ∃ t u fl, straight i f lat body s = .next t ∧ Stepped f ws s t ∧ Stepped f [] s u ∧ Touched [] (g fl u) t ∧
      fl = (launch f (usesOf i) lat false s).1 ∧ u = (launch f (usesOf i) lat false s).2 := by
  have hu := launch_stepped f (usesOf i) lat s
  have ht := bumpFree_touched (s.issueCycle f) i f ((usesOf i).reads ++ f.guardReg) s
    (g (launch f (usesOf i) lat false s).1 (launch f (usesOf i) lat false s).2)
  refine ⟨_, _, _, ?_, ((hu.touch (hg _ _)).touch ht).mono (by simp), hu, ht, rfl, rfl⟩
  exact (issue_acts h lat false body).trans (by rw [hb])

/-- A straight instruction whose body raises a fault takes it. -/
theorem straight_raise {i : Instr} {f : Fmt} {s : State} (h : Acts i f s) (lat : Lat) (x : Flt)
    (body : Nat → State → State → Res) (hb : ∀ fl t, body fl (s.seen i f) t = .raise x) :
    straight i f lat body s = .next (s.takeFault x) :=
  (issue_acts h lat false body).trans (by rw [hb])

theorem Touched.regs_eq {s t : State} (h : Touched [] s t) :
    (∀ n, t.regS n = s.regS n) ∧ (∀ n, t.regQ n = s.regQ n) ∧ (∀ n, t.regA n = s.regA n) ∧ (∀ n, t.regP n = s.regP n) ∧
    (∀ n l, l < 1024 → t.regV n l = s.regV n l) ∧ (∀ n, t.regTag n = s.regTag n) :=
  ⟨fun n => h.regs.uniform n (by simp), fun n => h.regs.bit n (by simp), fun n => h.regs.affine n (by simp),
   fun n => h.regs.mask n (by simp), fun n l hl => h.regs.lane n l hl (by simp), fun n => h.regs.tag n (by simp)⟩

theorem Stepped.regs_eq {f : Fmt} {s t : State} (h : Stepped f [] s t) :
    (∀ n, t.regS n = s.regS n) ∧ (∀ n, t.regQ n = s.regQ n) ∧ (∀ n, t.regA n = s.regA n) ∧ (∀ n, t.regP n = s.regP n) ∧
    (∀ n l, l < 1024 → t.regV n l = s.regV n l) ∧ (∀ n, t.regTag n = s.regTag n) :=
  ⟨fun n => h.regs.uniform n (by simp), fun n => h.regs.bit n (by simp), fun n => h.regs.affine n (by simp),
   fun n => h.regs.mask n (by simp), fun n l hl => h.regs.lane n l hl (by simp), fun n => h.regs.tag n (by simp)⟩

/-- A fixed-latency result in the active lanes. -/
theorem straight_lanes {i : Instr} {f : Fmt} {s : State} (h : Acts i f s) (n : Nat) (lat : Lat) (tag : Tag) (val : Nat → Word)
    (hv : f.cls = .var) (body : Nat → State → State → Res)
    (hb : ∀ fl t, body fl (s.seen i f) t = put n f tag val (s.seen i f) t) :
    ∃ t, straight i f lat body s = .next t ∧ Stepped f [.v f.d.toNat] s t ∧ LanesHold f (s.seen i f) s t val ∧
      t.regTag f.d.toNat = tag := by
  have hb' : ∀ fl t, body fl (s.seen i f) t =
      .done ((fun _ => putFixed n f (.lanes f.d.toNat (some tag) ((activeLanes f (s.seen i f)).map fun l => (l, val l)))) fl t) := by
    intro fl t; rw [hb]; unfold put; rw [hv]
  have hfit : Landing.lanesFit (.lanes f.d.toNat (some tag) ((activeLanes f (s.seen i f)).map fun l => (l, val l))) := by
    intro x hx
    obtain ⟨l, hl, rfl⟩ := List.mem_map.1 hx
    exact activeLanes_lt l hl
  obtain ⟨t, u, fl, he, hs, hu, ht, -, -⟩ := straight_done h lat
    [.v f.d.toNat] _ body hb' fun fl t => putFixed_touched n f _ hfit t
  refine ⟨t, he, hs, ?_, ?_⟩
  · intro l hl
    rw [ht.regs_eq.2.2.2.2.1 _ _ hl, putFixed_regV _ _ _ _ _ hl _ _ _ activeLanes_lt, hu.regs_eq.2.2.2.2.1 _ _ hl]
    simp
  · rw [ht.regs_eq.2.2.2.2.2, putFixed_regTag]

/-- A fixed-latency result in a uniform register. -/
theorem straight_word {i : Instr} {f : Fmt} {s : State} (h : Acts i f s) (n : Nat) (lat : Lat) (tag : Tag) (val : Nat → Word)
    (hv : f.cls ≠ .var) (hd : (s.seen i f).diverged = false) (body : Nat → State → State → Res)
    (hb : ∀ fl t, body fl (s.seen i f) t = put n f tag val (s.seen i f) t) :
    ∃ t, straight i f lat body s = .next t ∧ Stepped f [.s f.d.toNat] s t ∧ t.regS f.d.toNat = val 0 := by
  have hb' : ∀ fl t, body fl (s.seen i f) t = .done ((fun _ => putFixed n f (.word f.d.toNat (val 0))) fl t) := by
    intro fl t; rw [hb]; unfold put
    cases hc : f.cls <;> simp_all
  obtain ⟨t, u, fl, he, hs, -, ht, -, -⟩ := straight_done h lat
    [.s f.d.toNat] _ body hb' fun fl t => putFixed_touched n f (.word f.d.toNat (val 0)) trivial t
  refine ⟨t, he, hs, ?_⟩
  rw [ht.regs_eq.1, putFixed_regS]; simp

/-- A team-wide result with the split off the live mask raises UDIV (R91). -/
theorem straight_word_udiv {i : Instr} {f : Fmt} {s : State} (h : Acts i f s) (n : Nat) (lat : Lat) (tag : Tag) (val : Nat → Word)
    (hv : f.cls ≠ .var) (hd : (s.seen i f).diverged = true) (body : Nat → State → State → Res)
    (hb : ∀ fl t, body fl (s.seen i f) t = put n f tag val (s.seen i f) t) :
    straight i f lat body s = .next (s.takeFault (wholeFlt .UDIV)) := by
  refine straight_raise h lat _ body fun fl t => ?_
  rw [hb]; unfold put
  cases hc : f.cls <;> simp_all

/-- A fixed-latency result in a uniform pair (R14). -/
theorem straight_wide {i : Instr} {f : Fmt} {s : State} (h : Acts i f s) (n : Nat) (lat : Lat) (val : Addr)
    (hd : (s.seen i f).diverged = false) (body : Nat → State → State → Res)
    (hb : ∀ fl t, body fl (s.seen i f) t = putWide n f val (s.seen i f) t) :
    ∃ t, straight i f lat body s = .next t ∧ Stepped f [.s f.d.toNat, .s (f.d.toNat + 1)] s t ∧
      t.regS f.d.toNat = val.extractLsb' 0 32 ∧ t.regS (f.d.toNat + 1) = val.extractLsb' 32 32 := by
  have hb' : ∀ fl t, body fl (s.seen i f) t = .done ((fun _ t => putFixed n f (.word (f.d.toNat + 1) (val.extractLsb' 32 32))
      (putFixed n f (.word f.d.toNat (val.extractLsb' 0 32)) t)) fl t) := by
    intro fl t; rw [hb]; unfold putWide; rw [hd]; rfl
  obtain ⟨t, u, fl, he, hs, -, ht, -, -⟩ := straight_done h lat
    [.s f.d.toNat, .s (f.d.toNat + 1)] _ body hb' fun fl t =>
    ((putFixed_touched n f (.word f.d.toNat _) trivial t).trans (putFixed_touched n f (.word (f.d.toNat + 1) _) trivial _))
  refine ⟨t, he, hs, ?_, ?_⟩
  · rw [ht.regs_eq.1, putFixed_regS, putFixed_regS]; simp
  · rw [ht.regs_eq.1, putFixed_regS]; simp

/-- A fixed-latency result in an affine register. -/
theorem straight_pair {i : Instr} {f : Fmt} {s : State} (h : Acts i f s) (lat : Lat) (x : Affine)
    (hd : (s.seen i f).diverged = false) (body : Nat → State → State → Res)
    (hb : ∀ fl t, body fl (s.seen i f) t = putPair f x (s.seen i f) t) :
    ∃ t, straight i f lat body s = .next t ∧ Stepped f [.a f.d.toNat] s t ∧ t.regA f.d.toNat = x := by
  have hb' : ∀ fl t, body fl (s.seen i f) t = .done ((fun _ => putFixed 1 f (.pair f.d.toNat x)) fl t) := by
    intro fl t; rw [hb]; unfold putPair; rw [hd]; rfl
  obtain ⟨t, u, fl, he, hs, -, ht, -, -⟩ := straight_done h lat
    [.a f.d.toNat] _ body hb' fun fl t => putFixed_touched 1 f (.pair f.d.toNat x) trivial t
  refine ⟨t, he, hs, ?_⟩
  rw [ht.regs_eq.2.2.1, putFixed_regA]; simp

/-- A fixed-latency result in the active lanes of a varying predicate. -/
theorem straight_preds {i : Instr} {f : Fmt} {s : State} (h : Acts i f s) (n : Nat) (lat : Lat) (val : Nat → Bool)
    (hv : f.cls = .var) (body : Nat → State → State → Res)
    (hb : ∀ fl t, body fl (s.seen i f) t = putPred n f val (s.seen i f) t) :
    ∃ t, straight i f lat body s = .next t ∧ Stepped f [.p f.d.toNat] s t ∧ PredsHold f (s.seen i f) s t val := by
  have hb' : ∀ fl t, body fl (s.seen i f) t =
      .done ((fun _ => putFixed n f (.preds f.d.toNat ((activeLanes f (s.seen i f)).map fun l => (l, val l)))) fl t) := by
    intro fl t; rw [hb]; unfold putPred; rw [hv]
  obtain ⟨t, u, fl, he, hs, hu, ht, -, -⟩ := straight_done h lat
    [.p f.d.toNat] _ body hb' fun fl t => putFixed_touched n f (.preds f.d.toNat ((activeLanes f (s.seen i f)).map fun l => (l, val l))) trivial t
  refine ⟨t, he, hs, ?_⟩
  intro h7 l hl
  rw [ht.regs_eq.2.2.2.1, putFixed_regP, if_pos ⟨rfl, h7⟩, setLanes_get _ _ activeLanes_lt _ _ hl, hu.regs_eq.2.2.2.1]

/-- A fixed-latency result in a uniform predicate; a write to q7 is discarded (R14). -/
theorem straight_bit {i : Instr} {f : Fmt} {s : State} (h : Acts i f s) (n : Nat) (lat : Lat) (val : Nat → Bool)
    (hv : f.cls ≠ .var) (hd : (s.seen i f).diverged = false) (body : Nat → State → State → Res)
    (hb : ∀ fl t, body fl (s.seen i f) t = putPred n f val (s.seen i f) t) :
    ∃ t, straight i f lat body s = .next t ∧ Stepped f [.q f.d.toNat] s t ∧ (f.d.toNat ≠ 7 → t.regQ f.d.toNat = val 0) := by
  have hb' : ∀ fl t, body fl (s.seen i f) t = .done ((fun _ => putFixed n f (.bit f.d.toNat (val 0))) fl t) := by
    intro fl t; rw [hb]; unfold putPred
    cases hc : f.cls <;> simp_all
  obtain ⟨t, u, fl, he, hs, -, ht, -, -⟩ := straight_done h lat
    [.q f.d.toNat] _ body hb' fun fl t => putFixed_touched n f (.bit f.d.toNat (val 0)) trivial t
  refine ⟨t, he, hs, ?_⟩
  intro h7
  rw [ht.regs_eq.2.1, putFixed_regQ, if_pos ⟨rfl, h7⟩]

theorem straight_bit_udiv {i : Instr} {f : Fmt} {s : State} (h : Acts i f s) (n : Nat) (lat : Lat) (val : Nat → Bool)
    (hv : f.cls ≠ .var) (hd : (s.seen i f).diverged = true) (body : Nat → State → State → Res)
    (hb : ∀ fl t, body fl (s.seen i f) t = putPred n f val (s.seen i f) t) :
    straight i f lat body s = .next (s.takeFault (wholeFlt .UDIV)) := by
  refine straight_raise h lat _ body fun fl t => ?_
  rw [hb]; unfold putPred
  cases hc : f.cls <;> simp_all

end Sys2Proof.Machine
end

