-- ==== Sys2Proof/Laws/Seen.lean ====
section
/-! SUPPORT. What an instruction sees (R49), and the law of a body that is done or raises a fault. -/
namespace Sys2Proof.Machine
open State

/-- `t` differs from `s` in register files only. -/
def FilesOnly (s t : State) : Prop :=
  t = { s with team := { s.team with s := t.team.s, q := t.team.q, a := t.team.a, v := t.team.v, tags := t.team.tags, p := t.team.p, glimpses := t.team.glimpses },
               split := { s.split with run := { s.split.run with temps := t.split.run.temps, tags := t.split.run.tags,
                                                                 files := t.split.run.files, written := t.split.run.written } } }

theorem FilesOnly.refl (s : State) : FilesOnly s s := rfl

theorem FilesOnly.trans {s t u : State} (h : FilesOnly s t) (h' : FilesOnly t u) : FilesOnly s u := by
  unfold FilesOnly at *
  rw [h] at h'
  exact h'

theorem writeLanes_files (n : Nat) (vals : List (Nat × Word)) (s : State) : FilesOnly s (s.writeLanes n vals) := by
  induction vals generalizing s with
  | nil => rfl
  | cons x r ih =>
    obtain ⟨l, w⟩ := x
    refine FilesOnly.trans (t := s.writeV n l w) ?_ (ih _)
    unfold FilesOnly State.writeV
    by_cases h : 248 ≤ n <;> simp only [h, if_true, if_false]

theorem land_files (x : Landing) (s : State) : FilesOnly s (s.land x) := by
  cases x with
  | word n w => rfl
  | bit n b => unfold FilesOnly State.land State.writeQ; by_cases h : n = 7 <;> simp only [h, if_true, if_false]
  | pair n x => rfl
  | preds n vals => unfold FilesOnly State.land State.writeP; by_cases h : n = 7 <;> simp only [h, if_true, if_false]
  | lanes n t vals =>
    cases t with
    | none => exact writeLanes_files n vals s
    | some t =>
      refine FilesOnly.trans (t := s.writeLanes n vals) (writeLanes_files n vals s) ?_
      show FilesOnly _ ((s.writeLanes n vals).setTag n t)
      unfold FilesOnly State.setTag
      split
      · rfl
      · split <;> rfl

theorem landAll_files (xs : List Landing) (s : State) : FilesOnly s (s.landAll xs) := by
  induction xs generalizing s with
  | nil => rfl
  | cons x r ih => exact (land_files x s).trans (ih _)

theorem showTo_files (swept : Bool) (rs : List Reading) (sees : Reading → Bool) (x : Landing) (s : State) :
    FilesOnly s (showTo swept rs sees x s) := by
  unfold showTo
  split
  · exact FilesOnly.trans (t := { s with team := { s.team with glimpses := _ } }) rfl (writeLanes_files _ _ _)
  · exact land_files (.preds _ _) s
  · dsimp only
    split
    · rfl
    · split
      · rfl
      · split
        · exact land_files _ s
        · rfl

theorem setTag_files (n : Nat) (t : Tag) (s : State) : FilesOnly s (s.setTag n t) := by
  unfold FilesOnly State.setTag
  split
  · rfl
  · split <;> rfl

theorem seeOld_files (now : Nat) (i : Instr) (f : Fmt) (s0 : State) (k : Nat) (s : State) (x : Fresh) :
    FilesOnly s (seeOld now i f s0 k s x) := showTo_files _ _ _ _ s

theorem foldIdx_files {α : Type} (g : Nat → State → α → State) (hg : ∀ k s x, FilesOnly s (g k s x)) (l : List α) (k : Nat) (s : State) :
    FilesOnly s (foldIdx g k s l) := by
  induction l generalizing k s with
  | nil => rfl
  | cons x r ih => exact (hg k s x).trans (ih _ _)

theorem seeNew_files (now : Nat) (i : Instr) (f : Fmt) (s0 : State) (k : Nat) (s : State) (p : Pending) :
    FilesOnly s (seeNew now i f s0 k s p) := by
  unfold seeNew
  split
  · refine foldIdx_files _ (fun j s x => ?_) _ _ s
    refine FilesOnly.trans (t := showTo (f.cls = .var) (readingsOf now i f s0 (regOf x))
      (fun r => seeBit s (2 ^ 17 + 4 * k + j) r.rank r.src) x s) (showTo_files _ _ _ x s) ?_
    dsimp only
    split
    · split
      · exact setTag_files _ _ _
      · rfl
    · rfl
  · rfl

theorem seeMixed_files (s : State) : FilesOnly s (seeMixed s) := by
  unfold seeMixed
  split <;> rfl

theorem viewAt_files (now : Nat) (i : Instr) (f : Fmt) (reads : List Reg) (s : State) : FilesOnly s (viewAt now i f reads s) :=
  ((foldIdx_files _ (fun k s' x => seeOld_files now i f s k s' x) _ 0 s).trans
    (foldIdx_files _ (fun k s' p => seeNew_files now i f s k s' p) _ 0 _)).trans (seeMixed_files _)

/-- What an instruction sees differs from the state in register files only. -/
theorem seen_files (s : State) (i : Instr) (f : Fmt) : FilesOnly s (s.seen i f) := viewAt_files _ i f _ s

theorem FilesOnly.fields {s t : State} (h : FilesOnly s t) :
    t.split.pc = s.split.pc ∧ t.split.mask = s.split.mask ∧ t.split.link = s.split.link ∧ t.team.live = s.team.live ∧ t.team.n = s.team.n ∧ t.team.fdepth = s.team.fdepth ∧ t.team.fsbase = s.team.fsbase ∧
    t.diverged = s.diverged ∧ t.inHelper = s.inHelper ∧ t.mem = s.mem ∧ t.others = s.others := by
  unfold FilesOnly at h
  rw [h]
  exact ⟨rfl, rfl, rfl, rfl, rfl, rfl, rfl, rfl, rfl, rfl, rfl⟩

/-- An instruction whose registers are all readable sees the state as it is. -/
theorem seen_self {s : State} {i : Instr} {f : Fmt} (h : earlyFixed (s.issueCycle f) i f ((usesOf i).reads ++ f.guardReg) s = [])
    (h' : earlyPending ((usesOf i).reads ++ f.guardReg) s = []) (hx : s.team.expand = none) : s.seen i f = s := by
  simp [State.seen, viewAt, seeMixed, h, h', hx, foldIdx]

/-! ### Bodies that are done or raise -/

/-- Counting a consulted free value changes the counter of free values only. -/
theorem bumpFree_eq (now : Nat) (i : Instr) (f : Fmt) (rs : List Reg) (s0 s : State) :
    bumpFree now i f rs s0 s = { s with free := (bumpFree now i f rs s0 s).free } := by
  unfold bumpFree
  by_cases h : ((earlyFixed now i f rs s0).isEmpty && (earlyPending rs s0).isEmpty && !anyMixed s0) = true <;> simp only [h, if_true, if_false, Bool.false_eq_true]

theorem free_touched (s : State) (n : Nat) : Touched [] s { s with free := n } :=
  ⟨rfl, rfl, rfl, rfl, by constructor <;> intros <;> rfl⟩

theorem Moved.bump {f : Fmt} {ws : List Reg} {pc : Addr} {s t : State} (h : Moved f ws pc s t) (n : Nat) :
    Moved f ws pc s { t with free := n } := (h.touch (free_touched t n) rfl).mono (by simp)

theorem Stepped.bump {f : Fmt} {ws : List Reg} {s t : State} (h : Stepped f ws s t) (n : Nat) :
    Stepped f ws s { t with free := n } := (h.touch (free_touched t n)).mono (by simp)

/-- An instruction whose body is done: what it answers, from the state that its body started from. -/
theorem issue_done {i : Instr} {f : Fmt} {s : State} (h : Acts i f s) (lat : Lat) (ends : Bool)
    (body : Nat → State → State → Res) (g : Nat → State → State) (hb : ∀ fl t, body fl (s.seen i f) t = .done (g fl t)) :
    ∃ n, issue i f lat ends true body s =
      .next { g (launch f (usesOf i) lat ends s).1 (launch f (usesOf i) lat ends s).2 with free := n } :=
  ⟨_, (issue_acts h lat ends body).trans (by rw [hb]; exact congrArg Host.Outcome.next (bumpFree_eq _ _ _ _ _ _))⟩

/-- An instruction whose body raises a fault takes it. -/
theorem issue_raise {i : Instr} {f : Fmt} {s : State} (h : Acts i f s) (lat : Lat) (ends : Bool) (x : Flt)
    (body : Nat → State → State → Res) (hb : ∀ fl t, body fl (s.seen i f) t = .raise x) :
    issue i f lat ends true body s = .next (s.takeFault x) :=
  (issue_acts h lat ends body).trans (by rw [hb])

end Sys2Proof.Machine
end

