-- ==== Sys2Proof/Tests/Slice0.lean ====
section
/-! SUPPORT. Tests: ill-formed terms that the checks refuse, words of every instruction, single steps, and for each statement with
hypotheses a state and operands that meet them. -/
namespace Sys2Proof.Tests

set_option Elab.async false

/-- The bytes decode to the instruction, and its encoding is those bytes. -/
def decodesTo (bs : List Byte) (i : Instr) : Bool :=
  (match decode bs with | .ok j => decide (j = i) | .error _ => false) && decide (encode i = bs)

/-- The bytes meet the fate. -/
def meets (bs : List Byte) (c : Code) : Bool := match decode bs with | .ok _ => false | .error d => decide (d = c)

/-! ### Ill-formed terms -/

/-- Refused: common fields. -/
theorem test_ill_formed_common_fields :
    ([.add { cls := .uni, len := .l64, sig := 12 },
      .mad { cls := .uni, len := .l96, x := { kc := 3 } },
      .shfl { cls := .var, len := .l64, x := { qual := 1 } },
      .rdtime { cls := .uni, len := .l64, imm := 4 }] : List Instr).all (fun i => !i.wellFormed) = true := by decide +kernel

/-- Refused: classes. -/
theorem test_ill_formed_classes :
    ([.add { cls := .sys, len := .l64 },
      .fence { cls := .uni, len := .l64 },
      .mulhi { cls := .aff, len := .l64 },
      .bra { cls := .var, len := .l128 },
      .mkaff { cls := .var, len := .l96, kb := true, x := { kc := 1 } }] : List Instr).all (fun i => !i.wellFormed) = true := by decide +kernel

/-- Refused: register fields. -/
theorem test_ill_formed_register_fields :
    ([.add { cls := .uni, len := .l64, d := 64 },
      .add { cls := .uni, len := .l96, a := 3, x := { ty := .i64 } },
      .add { cls := .uni, len := .l64, a := 82 },
      .add { cls := .aff, len := .l64, a := 35 },
      .sub { cls := .aff, len := .l64, d := 32 },
      .add { cls := .uni, len := .l64, ka := true },
      .add { cls := .var, len := .l64, b := 82, kb := true },
      .mad { cls := .uni, len := .l96, x := { kc := 2 } },
      .sel { cls := .var, len := .l96, x := { c := 8 } },
      .cmpEq { cls := .var, len := .l64, d := 8 },
      .not { cls := .uni, len := .l64, b := 1 },
      .brc { cls := .uni, len := .l128, d := 64 },
      .add { cls := .var, len := .l128, b := 1 }] : List Instr).all (fun i => !i.wellFormed) = true := by decide +kernel

/-- Refused: x word. -/
theorem test_ill_formed_x_word :
    ([.add { cls := .var, len := .l96, x := { c := 1 } },
      .and { cls := .var, len := .l96, x := { negA := true } },
      .and { cls := .var, len := .l96, x := { absB := true } },
      .mul { cls := .var, len := .l96, x := { clamp := .unit } },
      .add { cls := .var, len := .l96, x := { scale := 1 } },
      .add { cls := .var, len := .l96, x := { rnd := .rz } },
      .add { cls := .var, len := .l96, x := { ty := .f32 } },
      .add { cls := .var, len := .l96, x := { qual := 1 } },
      .add { cls := .var, len := .l96, x := { ty := .i64 } },
      .rsqrt { cls := .var, len := .l96, x := { rnd := .rz } },
      .fcmpLt { cls := .var, len := .l96, x := { clamp := .unit } },
      .ffma { cls := .var, len := .l96, x := { ty := .z32 } },
      .mad { cls := .var, len := .l96, x := { qual := 1 } }] : List Instr).all (fun i => !i.wellFormed) = true := by decide +kernel

/-- Refused: affine forms. -/
theorem test_ill_formed_affine_forms :
    ([.mul { cls := .aff, len := .l64, b := 2 },
      .shl { cls := .aff, len := .l64, b := 2 },
      .add { cls := .aff, len := .l96, x := { absA := true } },
      .add { cls := .aff, len := .l96, x := { clamp := .sat } }] : List Instr).all (fun i => !i.wellFormed) = true := by decide +kernel

/-- Refused: lengths. -/
theorem test_ill_formed_lengths :
    ([.movi { cls := .uni, len := .l64 },
      .trap { cls := .uni, len := .l96 },
      .not { cls := .var, len := .l128 },
      .join { cls := .var, len := .l96 },
      .ldfe { cls := .var, len := .l64, kb := true },
      .atom { cls := .var, len := .l96, kb := true }] : List Instr).all (fun i => !i.wellFormed) = true := by decide +kernel

/-- Refused: immediates. -/
theorem test_ill_formed_immediates :
    ([.bra { cls := .uni, len := .l128, imm := 6 },
      .recruit { cls := .uni, len := .l128, x := { kc := 1 }, imm := 2 },
      .rgacq { cls := .uni, len := .l128, imm := 32 },
      .mswap { cls := .sys, len := .l128, imm := 256 },
      .nop { cls := .uni, len := .l128, imm := 1 }] : List Instr).all (fun i => !i.wellFormed) = true := by decide +kernel

/-- Refused: formats. -/
theorem test_ill_formed_formats :
    ([.cvt { cls := .var, len := .l96, x := { ty := .f32, qual := 3 } },
      .cvt { cls := .var, len := .l96, b := 2, x := { ty := .bf16, qual := 3 } },
      .cvt { cls := .uni, len := .l96, x := { ty := .f16, qual := 3 } },
      .tagset { cls := .var, len := .l64, b := 11 },
      .mksc { cls := .var, len := .l96, x := { qual := 4 } },
      .pack4 { cls := .var, len := .l96, x := { negB := true } }] : List Instr).all (fun i => !i.wellFormed) = true := by decide +kernel

/-- Refused: control. -/
theorem test_ill_formed_control :
    ([.runend { cls := .uni, len := .l64, guard := 3 },
      .join { cls := .var, len := .l64, guard := 3 },
      .brv { cls := .var, len := .l128, ka := true },
      .nop { cls := .uni, len := .l64, sig := 3 },
      .calli { cls := .uni, len := .l64, a := 3 },
      .brc { cls := .uni, len := .l128, x := { ty := .i64 } },
      .ret { cls := .uni, len := .l64, d := 1 }] : List Instr).all (fun i => !i.wellFormed) = true := by decide +kernel

/-- Refused: memory operands. -/
theorem test_ill_formed_memory_operands :
    ([.ld { cls := .uni, len := .l96, x := { qual := 5 } },
      .ld { cls := .uni, len := .l96, x := { rnd := .rpi } },
      .st { cls := .var, len := .l96, kb := true, x := { rnd := .rz } },
      .ld { cls := .uni, len := .l64, a := 3 },
      .ld { cls := .var, len := .l64, a := 1 },
      .ld { cls := .var, len := .l64, b := 3 },
      .st { cls := .var, len := .l96, d := 3, kb := true, x := { ty := .i64 } },
      .ld { cls := .uni, len := .l96, x := { ty := .bf16 } },
      .atom { cls := .var, len := .l128, kb := true, imm := 9 },
      .red { cls := .var, len := .l128, kb := true, imm := 6 },
      .atom { cls := .var, len := .l128, kb := true, x := { ty := .f32 } },
      .ldline { cls := .var, len := .l96, kb := true, x := { qual := 4 } },
      .pref { cls := .uni, len := .l96, x := { qual := 1 } },
      .bar { cls := .sys, len := .l64, b := 8 },
      .ld { cls := .var, len := .l128, kb := true },
      .red { cls := .var, len := .l128, d := 1, kb := true }] : List Instr).all (fun i => !i.wellFormed) = true := by decide +kernel

/-- Refused: lanes. -/
theorem test_ill_formed_lanes :
    ([.vote { cls := .var, len := .l96, x := { qual := 4 } },
      .vred { cls := .var, len := .l96, x := { qual := 9 } },
      .vred { cls := .var, len := .l96, x := { ty := .i32, qual := 6 } },
      .scan { cls := .var, len := .l64, b := 2 },
      .rgrel { cls := .uni, len := .l128, x := { qual := 1 } },
      .rvsend { cls := .var, len := .l64, b := 16 },
      .mkaff { cls := .aff, len := .l96, kb := true },
      .bcast { cls := .var, len := .l64 },
      .mata { cls := .var, len := .l64, a := 3 },
      .vfirst { cls := .uni, len := .l64, b := 8 },
      .pand { cls := .var, len := .l64, a := 8 },
      .shfl { cls := .var, len := .l96, x := { qual := 4 } },
      .setpart { cls := .uni, len := .l64, d := 1 }] : List Instr).all (fun i => !i.wellFormed) = true := by decide +kernel

/-- Refused: harvest. -/
theorem test_ill_formed_harvest :
    ([.hnext { cls := .var, len := .l64, guard := 1 },
      .hnext { cls := .var, len := .l64, b := 8 },
      .hred { cls := .var, len := .l96, x := { qual := 7 } },
      .segred { cls := .var, len := .l96, x := { qual := 3 } },
      .xpandN { cls := .var, len := .l96, d := 3, x := { qual := 1 } },
      .xnext { cls := .var, len := .l64, b := 8 },
      .recruit { cls := .uni, len := .l128, d := 64, x := { kc := 1 } }] : List Instr).all (fun i => !i.wellFormed) = true := by decide +kernel

/-- Refused: colours. -/
theorem test_ill_formed_colours :
    ([.watch { cls := .uni, len := .l96, x := { kc := 1, qual := 4 } },
      .tint { cls := .uni, len := .l96, x := { kc := 1, ty := .z32 } },
      .tintq { cls := .uni, len := .l64, d := 3 },
      .mwait { cls := .uni, len := .l64, d := 1 },
      .untint { cls := .uni, len := .l96, x := { c := 1 } }] : List Instr).all (fun i => !i.wellFormed) = true := by decide +kernel

/-- Refused: engines. -/
theorem test_ill_formed_engines :
    ([.waitcnt { cls := .uni, len := .l64, a := 4 },
      .waitcnt { cls := .uni, len := .l64, b := 64 },
      .spawn { cls := .var, len := .l128, a := 6 },
      .eget { cls := .uni, len := .l64, d := 6 },
      .tshape { cls := .uni, len := .l96, x := { qual := 8 } },
      .card { cls := .uni, len := .l96, x := { kc := 1, qual := 2 } },
      .tcopy { cls := .uni, len := .l64, b := 8 },
      .eput { cls := .uni, len := .l64, b := 64 },
      .cntrd { cls := .uni, len := .l64, a := 4 }] : List Instr).all (fun i => !i.wellFormed) = true := by decide +kernel

/-- Refused: matrix. -/
theorem test_ill_formed_matrix :
    ([.macq { cls := .sys, len := .l64, d := 4 },
      .mldb { cls := .sys, len := .l96, b := 1, kb := true, x := { ty := .b4 } },
      .mma { cls := .sys, len := .l96, b := 1, kb := true, x := { ty := .b4 } },
      .mma { cls := .sys, len := .l96, b := 1, kb := true, x := { ty := .z8 } },
      .mma { cls := .sys, len := .l96, a := 2, b := 1, kb := true, x := { ty := .i8 } },
      .mdrain { cls := .sys, len := .l96, b := 1, kb := true, x := { kc := 1, ty := .i8, qual := 1 } },
      .mstat { cls := .sys, len := .l64, b := 1 }] : List Instr).all (fun i => !i.wellFormed) = true := by decide +kernel

/-- Refused: system. -/
theorem test_ill_formed_system :
    ([.rdsr { cls := .uni, len := .l128, imm := 33 },
      .rdsr { cls := .uni, len := .l128, d := 2, imm := 3 },
      .wrsr { cls := .uni, len := .l128, x := { ty := .i64 }, imm := 0 },
      .rdtime { cls := .uni, len := .l64, d := 3 },
      .rdhlc { cls := .uni, len := .l96, x := { ty := .i32 } },
      .brk { cls := .sys, len := .l64, sig := 1 },
      .prog { cls := .uni, len := .l64, d := 1 }] : List Instr).all (fun i => !i.wellFormed) = true := by decide +kernel

/-- Refused: event numbers. -/
theorem test_ill_formed_event_numbers :
    ([.dispatch 32,
      .keyCreate 64,
      .linkFailure 4 true,
      .contextDescriptorWrite 1024 { owner := .hypervisor, value := {} },
      .edgeTableWrite 0 64 { owner := .hypervisor, value := {} },
      .latchTimeout 0 4,
      .rqDoor 0 8 { owner := .driver 0, value := 0 },
      .invalidate { owner := .driver 0, value := 1024 } 0 1,
      .partitionEntryWrite 0 { windows := List.replicate 6 { device := 0, part := 0, writes := true, key := 0, units := 1, base := 0 } },
      .partitionEntryWrite 0 { ranges := [(0x1000, 0x10000)] },
      .claimWrite (.traceUnit 0 4) .hypervisor] : List Instr).all (fun i => !i.wellFormed) = true := by decide +kernel

/-! ### Decoding -/

/-- The words that the manual works out. -/
theorem test_decode_worked_words :
    decodesTo [0x03, 0x80, 0xC1, 0x00, 0x00, 0x00, 0xC0, 0x1F, 0x00, 0x00, 0x00, 0x00, 0x04, 0x00, 0x00, 0x00]
      (.add { cls := .uni, len := .l128, d := 6, a := 3, imm := 4 }) = true ∧
    decodesTo [0x01, 0x18, 0x01, 0xC0, 0x00, 0x00, 0x00, 0x5C]
      (.ld { cls := .uni, len := .l64, d := 4, b := 3, kb := true, sig := 0 }) = true ∧
    decodesTo [0x32, 0x08, 0xC2, 0x02, 0x03, 0x18, 0xC0, 0x5F, 0x08, 0x40, 0x00, 0x00]
      (.ffma { cls := .uni, len := .l96, d := 8, a := 11, b := 12, kb := true, wait := 6, x := { c := 8, kc := 1 } }) = true ∧
    decodesTo [0x8B, 0xA4, 0x40, 0x00, 0x00, 0x00, 0x00, 0x1C, 0x00, 0x00, 0x00, 0x30, 0x01, 0x00, 0x00, 0x00]
      (.shfl { cls := .var, len := .l128, d := 2, a := 1, sig := 0, x := { qual := 3 }, imm := 1 }) = true ∧
    decodesTo [0x19, 0x69, 0x81, 0x41, 0x00, 0x00, 0x00, 0x1C]
      (.xnext { cls := .var, len := .l64, d := 5, a := 6, b := 1, sig := 0 }) = true ∧
    decodesTo [0x2A, 0xE9, 0x40, 0x02, 0xC0, 0x00, 0xC0, 0x1F, 0x00, 0x00, 0x00, 0x60]
      (.segred { cls := .var, len := .l96, d := 3, a := 9, stall := 3, x := { qual := 6 } }) = true ∧
    decodesTo [0x8A, 0xA4, 0x40, 0xC0, 0x00, 0x04, 0x40, 0x5C, 0x00, 0x00, 0x00, 0x30]
      (.shfl { cls := .var, len := .l96, d := 2, a := 1, b := 3, kb := true, wait := 1, sig := 1, x := { qual := 3 } }) = true ∧
    decodesTo [0x99, 0x41, 0x40, 0x80, 0x00, 0x08, 0xC0, 0x2F]
      (.min { cls := .var, len := .l64, d := 1, a := 1, b := 2, wait := 2, guard := 11 }) = true ∧
    decodesTo [0x3A, 0x98, 0x42, 0x80, 0x02, 0x10, 0xC0, 0xDF, 0x00, 0x00, 0x00, 0x13]
      (.stfe { cls := .var, len := .l96, d := 10, a := 1, ka := true, b := 10, kb := true, wait := 4, x := { ty := .f32, qual := 1 } }) = true ∧
    decodesTo [0x2A, 0x18, 0x02, 0x82, 0x02, 0x00, 0x40, 0x44, 0x00, 0x00, 0x40, 0x13]
      (.ldfe { cls := .var, len := .l96, d := 8, a := 8, b := 10, kb := true, sig := 1, guard := 1, x := { ty := .f32, qual := 1, rnd := .rz } }) = true ∧
    decodesTo [0x41, 0x2C, 0x40, 0x01, 0x00, 0x00, 0xC0, 0x1F]
      (.mwait { cls := .uni, len := .l64, a := 5 }) = true ∧
    decodesTo [0x72, 0x2C, 0x01, 0xC0, 0x00, 0x00, 0xC0, 0x5F, 0x02, 0x40, 0x00, 0x00]
      (.watch { cls := .uni, len := .l96, d := 4, b := 3, kb := true, x := { c := 2, kc := 1 } }) = true ∧
    decodesTo [0x8D, 0x20, 0x00, 0x00, 0x00, 0x00, 0xC0, 0x1F]
      (.fence { cls := .sys, len := .l64 }) = true ∧
    decodesTo [0x0B, 0x20, 0x81, 0x00, 0x00, 0x00, 0x40, 0x5C, 0x03, 0x00, 0x00, 0x00, 0x00, 0x00, 0x00, 0x00]
      (.atom { cls := .var, len := .l128, d := 4, a := 2, kb := true, sig := 1, x := { c := 3 } }) = true ∧
    decodesTo [0x03, 0xE0, 0x00, 0x80, 0x00, 0x00, 0x80, 0x5C, 0x04, 0x40, 0xC0, 0x00, 0x07, 0x00, 0x00, 0x00]
      (.atom { cls := .uni, len := .l128, d := 3, b := 2, kb := true, sig := 2, x := { c := 4, kc := 1, rnd := .rmi }, imm := 7 }) = true ∧
    decodesTo [0x02, 0x6C, 0x00, 0x80, 0x00, 0x00, 0x00, 0x5C, 0x03, 0x40, 0x00, 0x00]
      (.tint { cls := .uni, len := .l96, d := 1, b := 2, kb := true, sig := 0, x := { c := 3, kc := 1 } }) = true ∧
    decodesTo [0xCD, 0x20, 0x00, 0x00, 0x00, 0x04, 0xC0, 0x1F]
      (.bar { cls := .sys, len := .l64, wait := 1 }) = true ∧
    decodesTo [0x51, 0x2C, 0xC0, 0x00, 0x00, 0x00, 0xC0, 0x1F]
      (.mnote { cls := .uni, len := .l64, a := 3 }) = true ∧
    decodesTo [0x81, 0x30, 0x80, 0xC0, 0x00, 0x00, 0xC0, 0x1F]
      (.waitcnt { cls := .uni, len := .l64, a := 2, b := 3 }) = true ∧
    decodesTo [0x12, 0xB0, 0x82, 0x03, 0x00, 0x20, 0xC0, 0x1F, 0x00, 0x00, 0x00, 0x10]
      (.tcopy { cls := .uni, len := .l96, d := 10, a := 14, wait := 8, x := { qual := 1 } }) = true ∧
    decodesTo [0x9A, 0xD0, 0xC1, 0x81, 0x02, 0x10, 0xC0, 0x07, 0x0C, 0x40, 0x00, 0x00]
      (.unpk4 { cls := .var, len := .l96, d := 7, a := 7, b := 10, wait := 4, guard := 1, x := { c := 12, kc := 1 } }) = true ∧
    decodesTo [0x8F, 0x34, 0x00, 0x02, 0x00, 0x04, 0x40, 0x1C, 0x03, 0x40, 0x00, 0x0F, 0xFF, 0x00, 0x00, 0x00]
      (.mma { cls := .sys, len := .l128, a := 8, wait := 1, sig := 1, x := { c := 3, kc := 1, ty := .b4 }, imm := 255 }) = true ∧
    decodesTo [0xAE, 0x34, 0x80, 0x82, 0x01, 0x00, 0x80, 0x5C, 0x07, 0x40, 0x00, 0x10]
      (.mdrain { cls := .sys, len := .l96, a := 10, b := 6, kb := true, sig := 2, x := { c := 7, kc := 1, qual := 1 } }) = true ∧
    decodesTo [0x3F, 0x34, 0x80, 0x02, 0x00, 0x00, 0xC0, 0x1F, 0x00, 0x00, 0x00, 0x1F, 0x00, 0x00, 0x00, 0x00]
      (.mldb { cls := .sys, len := .l128, a := 10, x := { ty := .b4, qual := 1 } }) = true ∧
    decodesTo [0x4F, 0x34, 0x00, 0x00, 0x00, 0x00, 0xC0, 0x1F, 0x00, 0x00, 0x00, 0x00, 0xFF, 0x00, 0x00, 0x00]
      (.mswap { cls := .sys, len := .l128, imm := 255 }) = true ∧
    decodesTo [0x2D, 0x74, 0x00, 0x00, 0x00, 0x00, 0xC0, 0x1F]
      (.mrel { cls := .sys, len := .l64, d := 1 }) = true ∧
    decodesTo [0x81, 0x38, 0x40, 0x04, 0x00, 0x00, 0xC0, 0x1F]
      (.prog { cls := .uni, len := .l64, a := 17 }) = true ∧
    decodesTo [0x2B, 0x15, 0x40, 0x00, 0x00, 0x08, 0xC0, 0x1F, 0x00, 0x00, 0x00, 0x00, 0x10, 0x01, 0x00, 0x00]
      (.jtab { cls := .var, len := .l128, a := 1, wait := 2, imm := 272 }) = true ∧
    decodesTo [0x09, 0x82, 0x00, 0x48, 0x05, 0x00, 0xC0, 0xDF]
      (.cmpEq { cls := .var, len := .l64, d := 2, a := 32, ka := true, b := 21, kb := true }) = true ∧
    decodesTo [0x0D, 0x39, 0x00, 0x00, 0x00, 0x00, 0xC0, 0x1F]
      (.brk { cls := .sys, len := .l64 }) = true ∧
    decodesTo [0x11, 0x39, 0x03, 0x00, 0x00, 0x00, 0xC0, 0x1F]
      (.rdhlc { cls := .uni, len := .l64, d := 12 }) = true ∧
    decodesTo [0x02, 0x31, 0x00, 0x00, 0x03, 0x00, 0xC0, 0x5F, 0x0B, 0x40, 0x00, 0x00]
      (.card { cls := .uni, len := .l96, b := 12, kb := true, x := { c := 11, kc := 1 } }) = true ∧
    decodesTo [0x13, 0xD8, 0x00, 0x00, 0x00, 0x00, 0xC0, 0x1F, 0x00, 0x00, 0x80, 0x00, 0x80, 0x00, 0x00, 0x00]
      (.st { cls := .uni, len := .l128, d := 3, x := { rnd := .rpi }, imm := 128 }) = true ∧
    decodesTo [0xAA, 0xE4, 0xC2, 0x00, 0x00, 0x00, 0x40, 0x1C, 0x00, 0x00, 0x00, 0x60]
      (.vred { cls := .var, len := .l96, d := 11, a := 3, sig := 1, x := { qual := 6 } }) = true ∧
    decodesTo [0x13, 0x20, 0x00, 0xC0, 0x04, 0x04, 0xC0, 0x5F, 0x0D, 0x40, 0x00, 0x00, 0x08, 0x00, 0x00, 0x00]
      (.red { cls := .uni, len := .l128, b := 19, kb := true, wait := 1, x := { c := 13, kc := 1 }, imm := 8 }) = true := by decide +kernel

/-- Words of every integer instruction, written out from R26, R31, R35 and R36. -/
theorem test_decode_integer :
    decodesTo [0x06, 0xC0, 0x00, 0x41, 0x01, 0x00, 0xC0, 0x1F, 0x00, 0x00, 0x00, 0x10]
      (.add { cls := .aff, len := .l96, d := 3, a := 4, b := 5, x := { qual := 1 } }) = true ∧
    decodesTo [0x19, 0x00, 0x72, 0x48, 0x04, 0x00, 0xC0, 0xEF]
      (.sub { cls := .var, len := .l64, d := 200, a := 33, b := 17, kb := true, ka := true, guard := 11 }) = true ∧
    decodesTo [0x22, 0x40, 0x80, 0xC0, 0x00, 0x00, 0xC0, 0x1F, 0x00, 0x00, 0x03, 0x02]
      (.mul { cls := .uni, len := .l96, d := 1, a := 2, b := 3, x := { clamp := .sat, ty := .z32 } }) = true ∧
    decodesTo [0x39, 0x00, 0x42, 0x82, 0x02, 0x00, 0xC0, 0x1F]
      (.mulhi { cls := .var, len := .l64, d := 8, a := 9, b := 10 }) = true ∧
    decodesTo [0x4A, 0x00, 0x42, 0x82, 0x02, 0x00, 0xC0, 0x1F, 0x0B, 0x10, 0x00, 0x00]
      (.mad { cls := .var, len := .l96, d := 8, a := 9, b := 10, x := { c := 11, negC := true } }) = true ∧
    decodesTo [0x82, 0x80, 0x00, 0x81, 0x01, 0x00, 0xC0, 0x1F, 0x00, 0x00, 0x00, 0x04]
      (.and { cls := .uni, len := .l96, d := 2, a := 4, b := 6, x := { ty := .i64 } }) = true ∧
    decodesTo [0x99, 0x80, 0xFE, 0x3E, 0x3F, 0x00, 0xC0, 0x1F]
      (.or { cls := .var, len := .l64, d := 250, a := 251, b := 252 }) = true ∧
    decodesTo [0xA3, 0xC0, 0x41, 0x02, 0x00, 0x00, 0xC0, 0x1F, 0x00, 0x00, 0x00, 0x00, 0x00, 0xFF, 0x00, 0xFF]
      (.xor { cls := .uni, len := .l128, d := 7, a := 9, imm := 4278255360 }) = true ∧
    decodesTo [0xB9, 0x40, 0x81, 0x01, 0x00, 0x00, 0xC0, 0x1F]
      (.not { cls := .var, len := .l64, d := 5, a := 6 }) = true ∧
    decodesTo [0xC7, 0xC0, 0xC0, 0x01, 0x00, 0x00, 0xC0, 0x1F, 0x00, 0x00, 0x00, 0x00, 0x04, 0x00, 0x00, 0x00]
      (.shl { cls := .aff, len := .l128, d := 3, a := 7, imm := 4 }) = true ∧
    decodesTo [0xDB, 0x40, 0x81, 0x01, 0x00, 0x00, 0xC0, 0x1F, 0x00, 0x00, 0x00, 0x00, 0x09, 0x00, 0x00, 0x00]
      (.shr { cls := .var, len := .l128, d := 5, a := 6, imm := 9 }) = true ∧
    decodesTo [0xE1, 0x40, 0x81, 0xC1, 0x01, 0x00, 0xC0, 0x1F]
      (.sar { cls := .uni, len := .l64, d := 5, a := 6, b := 7 }) = true ∧
    decodesTo [0x09, 0x41, 0x80, 0x00, 0x00, 0x00, 0xC0, 0x1F]
      (.popc { cls := .var, len := .l64, d := 1, a := 2 }) = true ∧
    decodesTo [0x11, 0x41, 0x80, 0x00, 0x00, 0x00, 0xC0, 0x1F]
      (.clz { cls := .uni, len := .l64, d := 1, a := 2 }) = true ∧
    decodesTo [0x29, 0x41, 0x80, 0x00, 0x00, 0x00, 0xC0, 0x1F]
      (.brev { cls := .var, len := .l64, d := 1, a := 2 }) = true ∧
    decodesTo [0x33, 0x01, 0x41, 0x01, 0x00, 0x00, 0xC0, 0x1F, 0x00, 0x00, 0x00, 0x01, 0x08, 0x04, 0x00, 0x00]
      (.bfe { cls := .uni, len := .l128, d := 4, a := 5, x := { ty := .i32 }, imm := 1032 }) = true ∧
    decodesTo [0x4A, 0x01, 0x41, 0x81, 0x01, 0x00, 0xC0, 0x1F, 0x07, 0x00, 0x00, 0x00]
      (.bfi { cls := .var, len := .l96, d := 4, a := 5, b := 6, x := { c := 7 } }) = true ∧
    decodesTo [0x8A, 0x01, 0x41, 0x81, 0x01, 0x00, 0xC0, 0x1F, 0x03, 0x00, 0x00, 0x00]
      (.sel { cls := .var, len := .l96, d := 4, a := 5, b := 6, x := { c := 3 } }) = true ∧
    decodesTo [0x91, 0x01, 0x41, 0x81, 0x01, 0x00, 0xC0, 0x1F]
      (.min { cls := .uni, len := .l64, d := 4, a := 5, b := 6 }) = true ∧
    decodesTo [0xA9, 0x01, 0x41, 0x81, 0x01, 0x00, 0xC0, 0x1F]
      (.max { cls := .var, len := .l64, d := 4, a := 5, b := 6 }) = true ∧
    decodesTo [0x01, 0x82, 0x41, 0x01, 0x01, 0x00, 0xC0, 0x1F]
      (.cmpEq { cls := .uni, len := .l64, d := 6, a := 5, b := 4 }) = true ∧
    decodesTo [0x1A, 0x82, 0x40, 0x01, 0x01, 0x00, 0xC0, 0x1F, 0x00, 0x00, 0x00, 0x02]
      (.cmpNe { cls := .var, len := .l96, d := 2, a := 5, b := 4, x := { ty := .z32 } }) = true ∧
    decodesTo [0x2A, 0x82, 0x40, 0x01, 0x01, 0x00, 0xC0, 0x1F, 0x00, 0x00, 0x00, 0x02]
      (.cmpLt { cls := .var, len := .l96, d := 2, a := 5, b := 4, x := { ty := .z32 } }) = true ∧
    decodesTo [0x3A, 0x82, 0x40, 0x01, 0x01, 0x00, 0xC0, 0x1F, 0x00, 0x00, 0x00, 0x02]
      (.cmpLe { cls := .var, len := .l96, d := 2, a := 5, b := 4, x := { ty := .z32 } }) = true ∧
    decodesTo [0x4A, 0x82, 0x40, 0x01, 0x01, 0x00, 0xC0, 0x1F, 0x00, 0x00, 0x00, 0x02]
      (.cmpGt { cls := .var, len := .l96, d := 2, a := 5, b := 4, x := { ty := .z32 } }) = true ∧
    decodesTo [0x5A, 0x82, 0x40, 0x01, 0x01, 0x00, 0xC0, 0x1F, 0x00, 0x00, 0x00, 0x02]
      (.cmpGe { cls := .var, len := .l96, d := 2, a := 5, b := 4, x := { ty := .z32 } }) = true ∧
    decodesTo [0x81, 0x42, 0x81, 0x11, 0x00, 0x00, 0xC0, 0x1F]
      (.mov { cls := .uni, len := .l64, d := 5, a := 70 }) = true ∧
    decodesTo [0x9B, 0x42, 0x01, 0x00, 0x00, 0x00, 0xC0, 0x1F, 0x00, 0x00, 0x00, 0x03, 0x00, 0x00, 0x80, 0x3F]
      (.movi { cls := .var, len := .l128, d := 5, x := { ty := .f32 }, imm := 1065353216 }) = true ∧
    decodesTo [0xA3, 0x82, 0x01, 0x00, 0x00, 0x00, 0xC0, 0x1F, 0x00, 0x00, 0x00, 0x04, 0xC0, 0xFF, 0xFF, 0xFF]
      (.lit { cls := .uni, len := .l128, d := 6, x := { ty := .i64 }, imm := 4294967232 }) = true ∧
    decodesTo [0x01, 0x43, 0x81, 0xC1, 0x01, 0x00, 0xC0, 0x1F]
      (.idiv { cls := .uni, len := .l64, d := 5, a := 6, b := 7 }) = true ∧
    decodesTo [0x19, 0x43, 0x81, 0xC1, 0x01, 0x00, 0xC0, 0x1F]
      (.irem { cls := .var, len := .l64, d := 5, a := 6, b := 7 }) = true := by decide +kernel

/-- Words of every float instruction, written out from R26, R31, R35 and R36. -/
theorem test_decode_float :
    decodesTo [0x0A, 0x48, 0x81, 0xC1, 0x01, 0x00, 0xC0, 0x1F, 0x00, 0x00, 0x3C, 0x00]
      (.fadd { cls := .var, len := .l96, d := 5, a := 6, b := 7, x := { clamp := .none, scale := 15, rnd := .rne } }) = true ∧
    decodesTo [0x1A, 0x48, 0x81, 0xC1, 0x01, 0x00, 0xC0, 0x1F, 0x00, 0x00, 0x79, 0x00]
      (.fsub { cls := .var, len := .l96, d := 5, a := 6, b := 7, x := { clamp := .unit, scale := 14, rnd := .rz } }) = true ∧
    decodesTo [0x2A, 0x48, 0x81, 0xC1, 0x01, 0x00, 0xC0, 0x1F, 0x00, 0x00, 0xB6, 0x00]
      (.fmul { cls := .var, len := .l96, d := 5, a := 6, b := 7, x := { clamp := .pm1, scale := 13, rnd := .rpi } }) = true ∧
    decodesTo [0x4A, 0x48, 0x81, 0xC1, 0x01, 0x00, 0xC0, 0x1F, 0x00, 0x00, 0xF3, 0x00]
      (.fmin { cls := .var, len := .l96, d := 5, a := 6, b := 7, x := { clamp := .sat, scale := 12, rnd := .rmi } }) = true ∧
    decodesTo [0x5A, 0x48, 0x81, 0xC1, 0x01, 0x00, 0xC0, 0x1F, 0x00, 0x00, 0x2C, 0x00]
      (.fmax { cls := .var, len := .l96, d := 5, a := 6, b := 7, x := { clamp := .none, scale := 11, rnd := .rne } }) = true ∧
    decodesTo [0x32, 0x48, 0x81, 0xC1, 0x01, 0x00, 0xC0, 0x1F, 0x08, 0x06, 0x00, 0x00]
      (.ffma { cls := .uni, len := .l96, d := 5, a := 6, b := 7, x := { c := 8, absA := true, negB := true } }) = true ∧
    decodesTo [0x8A, 0xC8, 0x80, 0xC1, 0x01, 0x00, 0xC0, 0x1F, 0x00, 0x08, 0x00, 0x00]
      (.fcmpEq { cls := .var, len := .l96, d := 3, a := 6, b := 7, x := { absB := true } }) = true ∧
    decodesTo [0x9A, 0xC8, 0x80, 0xC1, 0x01, 0x00, 0xC0, 0x1F, 0x00, 0x08, 0x00, 0x00]
      (.fcmpNe { cls := .var, len := .l96, d := 3, a := 6, b := 7, x := { absB := true } }) = true ∧
    decodesTo [0xAA, 0xC8, 0x80, 0xC1, 0x01, 0x00, 0xC0, 0x1F, 0x00, 0x08, 0x00, 0x00]
      (.fcmpLt { cls := .var, len := .l96, d := 3, a := 6, b := 7, x := { absB := true } }) = true ∧
    decodesTo [0xBA, 0xC8, 0x80, 0xC1, 0x01, 0x00, 0xC0, 0x1F, 0x00, 0x08, 0x00, 0x00]
      (.fcmpLe { cls := .var, len := .l96, d := 3, a := 6, b := 7, x := { absB := true } }) = true ∧
    decodesTo [0xCA, 0xC8, 0x80, 0xC1, 0x01, 0x00, 0xC0, 0x1F, 0x00, 0x08, 0x00, 0x00]
      (.fcmpGt { cls := .var, len := .l96, d := 3, a := 6, b := 7, x := { absB := true } }) = true ∧
    decodesTo [0xDA, 0xC8, 0x80, 0xC1, 0x01, 0x00, 0xC0, 0x1F, 0x00, 0x08, 0x00, 0x00]
      (.fcmpGe { cls := .var, len := .l96, d := 3, a := 6, b := 7, x := { absB := true } }) = true ∧
    decodesTo [0xEA, 0xC8, 0x80, 0xC1, 0x01, 0x00, 0xC0, 0x1F, 0x00, 0x08, 0x00, 0x00]
      (.fcmpUn { cls := .var, len := .l96, d := 3, a := 6, b := 7, x := { absB := true } }) = true ∧
    decodesTo [0x0A, 0x4C, 0x81, 0x01, 0x00, 0x00, 0xC0, 0x1F, 0x00, 0x01, 0x0C, 0x00]
      (.rcp { cls := .var, len := .l96, d := 5, a := 6, x := { negA := true, scale := 3 } }) = true ∧
    decodesTo [0x1A, 0x4C, 0x81, 0x01, 0x00, 0x00, 0xC0, 0x1F, 0x00, 0x01, 0x0C, 0x00]
      (.rsqrt { cls := .var, len := .l96, d := 5, a := 6, x := { negA := true, scale := 3 } }) = true ∧
    decodesTo [0x2A, 0x4C, 0x81, 0x01, 0x00, 0x00, 0xC0, 0x1F, 0x00, 0x01, 0x0C, 0x00]
      (.sqrt { cls := .var, len := .l96, d := 5, a := 6, x := { negA := true, scale := 3 } }) = true ∧
    decodesTo [0x3A, 0x4C, 0x81, 0x01, 0x00, 0x00, 0xC0, 0x1F, 0x00, 0x01, 0x0C, 0x00]
      (.exp2 { cls := .var, len := .l96, d := 5, a := 6, x := { negA := true, scale := 3 } }) = true ∧
    decodesTo [0x4A, 0x4C, 0x81, 0x01, 0x00, 0x00, 0xC0, 0x1F, 0x00, 0x01, 0x0C, 0x00]
      (.log2 { cls := .var, len := .l96, d := 5, a := 6, x := { negA := true, scale := 3 } }) = true ∧
    decodesTo [0x5A, 0x4C, 0x81, 0x01, 0x00, 0x00, 0xC0, 0x1F, 0x00, 0x01, 0x0C, 0x00]
      (.sin { cls := .var, len := .l96, d := 5, a := 6, x := { negA := true, scale := 3 } }) = true ∧
    decodesTo [0x6A, 0x4C, 0x81, 0x01, 0x00, 0x00, 0xC0, 0x1F, 0x00, 0x01, 0x0C, 0x00]
      (.cos { cls := .var, len := .l96, d := 5, a := 6, x := { negA := true, scale := 3 } }) = true ∧
    decodesTo [0x0A, 0x50, 0x81, 0xC1, 0x00, 0x00, 0xC0, 0x1F, 0x00, 0x00, 0x40, 0x38]
      (.cvt { cls := .var, len := .l96, d := 5, a := 6, b := 3, x := { rnd := .rz, ty := .f8e4, qual := 3 } }) = true ∧
    decodesTo [0x8A, 0x50, 0x81, 0xC1, 0x01, 0x00, 0xC0, 0x1F, 0x08, 0x00, 0x00, 0x00]
      (.pack4 { cls := .var, len := .l96, d := 5, a := 6, b := 7, x := { c := 8 } }) = true ∧
    decodesTo [0x9B, 0x50, 0x81, 0x01, 0x00, 0x00, 0xC0, 0x1F, 0x09, 0x00, 0x00, 0x00, 0x07, 0x00, 0x00, 0x00]
      (.unpk4 { cls := .var, len := .l128, d := 5, a := 6, x := { c := 9 }, imm := 7 }) = true ∧
    decodesTo [0xAA, 0x50, 0x81, 0x81, 0x00, 0x00, 0xC0, 0x5F, 0x00, 0x00, 0x00, 0x20]
      (.mksc { cls := .var, len := .l96, d := 5, a := 6, b := 2, kb := true, x := { qual := 2 } }) = true ∧
    decodesTo [0xC9, 0x50, 0x81, 0x01, 0x00, 0x00, 0xC0, 0x1F]
      (.tagrd { cls := .var, len := .l64, d := 5, a := 6 }) = true ∧
    decodesTo [0xD9, 0x50, 0x81, 0x81, 0x02, 0x00, 0xC0, 0x1F]
      (.tagset { cls := .var, len := .l64, d := 5, a := 6, b := 10 }) = true := by decide +kernel

/-- Words of every control instruction, written out from R26, R31, R35 and R36. -/
theorem test_decode_control :
    decodesTo [0x03, 0x14, 0x00, 0x00, 0x00, 0x00, 0xC0, 0x1F, 0x00, 0x00, 0x00, 0x00, 0xF0, 0xFF, 0xFF, 0xFF]
      (.bra { cls := .uni, len := .l128, imm := 4294967280 }) = true ∧
    decodesTo [0x13, 0x54, 0x02, 0x00, 0x00, 0x00, 0xC0, 0x1F, 0x00, 0x00, 0x00, 0x00, 0x40, 0x00, 0x00, 0x00]
      (.brc { cls := .uni, len := .l128, d := 9, imm := 64 }) = true ∧
    decodesTo [0x23, 0x14, 0x00, 0x00, 0x00, 0x00, 0xC0, 0x1F, 0x00, 0x00, 0x00, 0x00, 0x00, 0x10, 0x00, 0x00]
      (.call { cls := .uni, len := .l128, imm := 4096 }) = true ∧
    decodesTo [0x31, 0x14, 0x00, 0x03, 0x00, 0x00, 0xC0, 0x1F]
      (.calli { cls := .uni, len := .l64, a := 12 }) = true ∧
    decodesTo [0x41, 0x14, 0x00, 0x00, 0x00, 0x00, 0xC0, 0x1F]
      (.ret { cls := .uni, len := .l64 }) = true ∧
    decodesTo [0x51, 0x14, 0x00, 0x00, 0x00, 0x00, 0xC0, 0x1F]
      (.exit { cls := .uni, len := .l64 }) = true ∧
    decodesTo [0x91, 0x14, 0x00, 0x00, 0x00, 0x00, 0xC0, 0x1F]
      (.rfe { cls := .uni, len := .l64 }) = true ∧
    decodesTo [0x63, 0x14, 0x00, 0x00, 0x00, 0x00, 0xC0, 0x1F, 0x00, 0x00, 0x00, 0x00, 0xCD, 0xAB, 0x00, 0x00]
      (.trap { cls := .uni, len := .l128, imm := 43981 }) = true ∧
    decodesTo [0x72, 0x14, 0x00, 0x00, 0xC0, 0xFF, 0xFF, 0x1F, 0x00, 0x00, 0x00, 0x00]
      (.nop { cls := .uni, len := .l96, stall := 15, wait := 4095 }) = true ∧
    decodesTo [0x81, 0x14, 0x00, 0x00, 0x80, 0x14, 0xC0, 0x1F]
      (.runend { cls := .uni, len := .l64, stall := 2, wait := 5 }) = true ∧
    decodesTo [0x0B, 0x55, 0x80, 0xC0, 0x00, 0x00, 0xC0, 0x2B, 0x00, 0x00, 0x00, 0x00, 0x40, 0x00, 0x00, 0x00]
      (.brv { cls := .var, len := .l128, d := 1, a := 2, b := 3, guard := 10, imm := 64 }) = true ∧
    decodesTo [0x19, 0x15, 0x00, 0x00, 0x00, 0x00, 0xC0, 0x1F]
      (.join { cls := .var, len := .l64 }) = true ∧
    decodesTo [0x2B, 0x15, 0xC0, 0x01, 0x00, 0x00, 0xC0, 0x1F, 0x00, 0x00, 0x00, 0x00, 0x00, 0x01, 0x00, 0x00]
      (.jtab { cls := .var, len := .l128, a := 7, imm := 256 }) = true ∧
    decodesTo [0x39, 0x15, 0x00, 0x00, 0x00, 0x00, 0xC0, 0x0B]
      (.exitl { cls := .var, len := .l64, guard := 2 }) = true := by decide +kernel

/-- Words of every memory instruction, written out from R26, R31, R35 and R36. -/
theorem test_decode_memory :
    decodesTo [0x03, 0x98, 0x01, 0x02, 0x00, 0x00, 0xC0, 0x1F, 0x00, 0x00, 0x40, 0x44, 0x20, 0x00, 0x00, 0x00]
      (.ld { cls := .uni, len := .l128, d := 6, a := 8, x := { rnd := .rz, ty := .i64, qual := 4 }, imm := 32 }) = true ∧
    decodesTo [0x1A, 0x98, 0xC1, 0x01, 0x02, 0x00, 0xC0, 0x5F, 0x00, 0x00, 0x80, 0x1C]
      (.st { cls := .var, len := .l96, d := 6, a := 7, b := 8, kb := true, x := { rnd := .rpi, ty := .i16, qual := 1 } }) = true ∧
    decodesTo [0x2A, 0x98, 0xC1, 0x01, 0x02, 0x00, 0xC0, 0x5F, 0x00, 0x00, 0x00, 0x20]
      (.ldfe { cls := .var, len := .l96, d := 6, a := 7, b := 8, kb := true, x := { qual := 2 } }) = true ∧
    decodesTo [0x32, 0x98, 0x01, 0x42, 0x02, 0x00, 0xC0, 0x1F, 0x00, 0x00, 0x00, 0x10]
      (.stfe { cls := .uni, len := .l96, d := 6, a := 8, b := 9, x := { qual := 1 } }) = true ∧
    decodesTo [0x4A, 0x98, 0xC1, 0x01, 0x02, 0x00, 0xC0, 0x5F, 0x00, 0x00, 0x00, 0x30]
      (.ldline { cls := .var, len := .l96, d := 6, a := 7, b := 8, kb := true, x := { qual := 3 } }) = true ∧
    decodesTo [0x51, 0x18, 0x00, 0x42, 0x02, 0x00, 0xC0, 0x1F]
      (.pref { cls := .uni, len := .l64, a := 8, b := 9 }) = true ∧
    decodesTo [0x81, 0x18, 0x00, 0x42, 0x02, 0x00, 0xC0, 0x1F]
      (.cwb { cls := .uni, len := .l64, a := 8, b := 9 }) = true ∧
    decodesTo [0x91, 0x18, 0x00, 0x42, 0x02, 0x00, 0xC0, 0x1F]
      (.cinv { cls := .uni, len := .l64, a := 8, b := 9 }) = true ∧
    decodesTo [0xA1, 0xD8, 0x00, 0x42, 0x02, 0x00, 0xC0, 0x1F]
      (.pgrel { cls := .uni, len := .l64, d := 3, a := 8, b := 9 }) = true ∧
    decodesTo [0xB1, 0xD8, 0x00, 0x42, 0x02, 0x00, 0xC0, 0x1F]
      (.pgown { cls := .uni, len := .l64, d := 3, a := 8, b := 9 }) = true ∧
    decodesTo [0x0B, 0xA0, 0xC1, 0x01, 0x02, 0x00, 0xC0, 0x5F, 0x09, 0x00, 0xC0, 0x03, 0x08, 0x00, 0x00, 0x00]
      (.atom { cls := .var, len := .l128, d := 6, a := 7, b := 8, kb := true, x := { c := 9, rnd := .rmi, ty := .f32 }, imm := 8 }) = true ∧
    decodesTo [0x13, 0x20, 0x00, 0x42, 0x02, 0x00, 0xC0, 0x1F, 0x0A, 0x00, 0x80, 0x04, 0x05, 0x00, 0x00, 0x00]
      (.red { cls := .uni, len := .l128, a := 8, b := 9, x := { c := 10, rnd := .rpi, ty := .i64 }, imm := 5 }) = true ∧
    decodesTo [0x8D, 0x20, 0x00, 0x00, 0x00, 0x00, 0xC0, 0x1F]
      (.fence { cls := .sys, len := .l64 }) = true ∧
    decodesTo [0xCD, 0x20, 0x00, 0xC0, 0x01, 0x00, 0xC0, 0x1F]
      (.bar { cls := .sys, len := .l64, b := 7 }) = true ∧
    decodesTo [0xDD, 0x20, 0x00, 0xC0, 0x00, 0x00, 0xC0, 0x1F]
      (.barx { cls := .sys, len := .l64, b := 3 }) = true := by decide +kernel

/-- Words of every lanes instruction, written out from R26, R31, R35 and R36. -/
theorem test_decode_lanes :
    decodesTo [0x0A, 0x64, 0x01, 0x80, 0x01, 0x00, 0xC0, 0x5F, 0x00, 0x00, 0x00, 0x03]
      (.bcast { cls := .var, len := .l96, d := 5, b := 6, kb := true, x := { ty := .f32 } }) = true ∧
    decodesTo [0x19, 0x64, 0x81, 0x08, 0x00, 0x00, 0xC0, 0x9F]
      (.mata { cls := .var, len := .l64, d := 5, a := 34, ka := true }) = true ∧
    decodesTo [0x21, 0x64, 0x81, 0xC1, 0x01, 0x00, 0xC0, 0x1F]
      (.vfirst { cls := .uni, len := .l64, d := 5, a := 6, b := 7 }) = true ∧
    decodesTo [0x31, 0x64, 0x81, 0x01, 0x00, 0x00, 0xC0, 0x1F]
      (.vuni { cls := .uni, len := .l64, d := 5, a := 6 }) = true ∧
    decodesTo [0x32, 0x64, 0x81, 0x01, 0x01, 0x00, 0xC0, 0x1F, 0x00, 0x00, 0x00, 0x10]
      (.vuniTry { cls := .uni, len := .l96, d := 5, a := 6, b := 4, x := { qual := 1 } }) = true ∧
    decodesTo [0x45, 0x64, 0x81, 0x01, 0x01, 0x00, 0xC0, 0x1F]
      (.vaff { cls := .aff, len := .l64, d := 5, a := 6, b := 4 }) = true ∧
    decodesTo [0x56, 0x64, 0x01, 0x80, 0x01, 0x00, 0xC0, 0x5F, 0x07, 0x40, 0x00, 0x00]
      (.mkaff { cls := .aff, len := .l96, d := 5, b := 6, kb := true, x := { c := 7, kc := 1 } }) = true ∧
    decodesTo [0x8B, 0x64, 0x81, 0x01, 0x00, 0x00, 0xC0, 0x1F, 0x00, 0x00, 0x00, 0x20, 0x03, 0x00, 0x00, 0x00]
      (.shfl { cls := .var, len := .l128, d := 5, a := 6, x := { qual := 2 }, imm := 3 }) = true ∧
    decodesTo [0x92, 0x64, 0x81, 0x81, 0x00, 0x00, 0xC0, 0x1F, 0x00, 0x00, 0x00, 0x30]
      (.vote { cls := .uni, len := .l96, d := 5, a := 6, b := 2, x := { qual := 3 } }) = true ∧
    decodesTo [0xAA, 0x64, 0x81, 0x01, 0x00, 0x00, 0xC0, 0x1F, 0x00, 0x00, 0xC0, 0x80]
      (.vred { cls := .var, len := .l96, d := 5, a := 6, x := { rnd := .rmi, qual := 8 } }) = true ∧
    decodesTo [0xBA, 0x64, 0x81, 0x41, 0x00, 0x00, 0xC0, 0x1F, 0x00, 0x00, 0x00, 0x40]
      (.scan { cls := .var, len := .l96, d := 5, a := 6, b := 1, x := { qual := 4 } }) = true ∧
    decodesTo [0xC9, 0x64, 0x81, 0xC1, 0x01, 0x00, 0xC0, 0x1F]
      (.ishuf { cls := .var, len := .l64, d := 5, a := 6, b := 7 }) = true ∧
    decodesTo [0x09, 0x65, 0x81, 0x01, 0x01, 0x00, 0xC0, 0x5F]
      (.pand { cls := .var, len := .l64, d := 5, a := 6, b := 4, kb := true }) = true ∧
    decodesTo [0x19, 0x65, 0x81, 0x01, 0x01, 0x00, 0xC0, 0x5F]
      (.por { cls := .var, len := .l64, d := 5, a := 6, b := 4, kb := true }) = true ∧
    decodesTo [0x29, 0x65, 0x81, 0x01, 0x01, 0x00, 0xC0, 0x5F]
      (.pxor { cls := .var, len := .l64, d := 5, a := 6, b := 4, kb := true }) = true ∧
    decodesTo [0x31, 0x65, 0x81, 0x01, 0x00, 0x00, 0xC0, 0x1F]
      (.pnot { cls := .uni, len := .l64, d := 5, a := 6 }) = true ∧
    decodesTo [0x41, 0x65, 0x81, 0x01, 0x00, 0x00, 0xC0, 0x1F]
      (.pmov { cls := .uni, len := .l64, d := 5, a := 6 }) = true ∧
    decodesTo [0x83, 0x25, 0x00, 0x00, 0x00, 0x00, 0xC0, 0x1F, 0x00, 0x00, 0x00, 0x00, 0x04, 0x00, 0x00, 0x00]
      (.setpart { cls := .uni, len := .l128, imm := 4 }) = true ∧
    decodesTo [0xC3, 0x25, 0x00, 0x00, 0x00, 0x00, 0xC0, 0x1F, 0x00, 0x00, 0x00, 0x00, 0x1F, 0x00, 0x00, 0x00]
      (.rgacq { cls := .uni, len := .l128, imm := 31 }) = true ∧
    decodesTo [0xC3, 0xE5, 0x00, 0x00, 0x00, 0x00, 0xC0, 0x1F, 0x00, 0x00, 0x00, 0x10, 0x02, 0x00, 0x00, 0x00]
      (.rgacqTry { cls := .uni, len := .l128, d := 3, x := { qual := 1 }, imm := 2 }) = true ∧
    decodesTo [0xD3, 0x25, 0x00, 0x00, 0x00, 0x00, 0xC0, 0x1F, 0x00, 0x00, 0x00, 0x00, 0x01, 0x00, 0x00, 0x00]
      (.rgrel { cls := .uni, len := .l128, imm := 1 }) = true ∧
    decodesTo [0x09, 0x26, 0x80, 0xC1, 0x03, 0x00, 0xC0, 0x1F]
      (.rvsend { cls := .var, len := .l64, a := 6, b := 15 }) = true ∧
    decodesTo [0x19, 0xA6, 0x01, 0xC0, 0x03, 0x00, 0xC0, 0x1F]
      (.rvrecv { cls := .var, len := .l64, d := 6, b := 15 }) = true := by decide +kernel

/-- Words of every harvest instruction, written out from R26, R31, R35 and R36. -/
theorem test_decode_harvest :
    decodesTo [0x03, 0x68, 0x81, 0x01, 0x01, 0x00, 0xC0, 0x1F, 0x07, 0x40, 0x00, 0x00, 0x80, 0x00, 0x00, 0x00]
      (.recruit { cls := .uni, len := .l128, d := 5, a := 6, b := 4, x := { c := 7, kc := 1 }, imm := 128 }) = true ∧
    decodesTo [0x19, 0x68, 0x01, 0xC0, 0x00, 0x00, 0xC0, 0x1F]
      (.hnext { cls := .var, len := .l64, d := 5, b := 3 }) = true ∧
    decodesTo [0x2A, 0x68, 0x81, 0x01, 0x00, 0x00, 0xC0, 0x1F, 0x00, 0x00, 0x40, 0x60]
      (.hred { cls := .var, len := .l96, d := 5, a := 6, x := { rnd := .rz, qual := 6 } }) = true ∧
    decodesTo [0x31, 0x28, 0x01, 0x00, 0x00, 0x00, 0xC0, 0x1F]
      (.hwait { cls := .uni, len := .l64, d := 4 }) = true ∧
    decodesTo [0x41, 0x28, 0x00, 0x00, 0x00, 0x00, 0xC0, 0x1F]
      (.hrel { cls := .uni, len := .l64 }) = true ∧
    decodesTo [0x59, 0x28, 0x00, 0x00, 0x00, 0x00, 0xC0, 0x07]
      (.hexit { cls := .var, len := .l64, guard := 1 }) = true ∧
    decodesTo [0x09, 0x29, 0x80, 0xC1, 0x01, 0x00, 0xC0, 0x1F]
      (.xpand { cls := .var, len := .l64, a := 6, b := 7 }) = true ∧
    decodesTo [0x0A, 0x29, 0x82, 0xC1, 0x01, 0x00, 0xC0, 0x1F, 0x00, 0x00, 0x00, 0x10]
      (.xpandN { cls := .var, len := .l96, d := 8, a := 6, b := 7, x := { qual := 1 } }) = true ∧
    decodesTo [0x19, 0x69, 0x81, 0x81, 0x00, 0x00, 0xC0, 0x1F]
      (.xnext { cls := .var, len := .l64, d := 5, a := 6, b := 2 }) = true ∧
    decodesTo [0x2A, 0x69, 0x81, 0x01, 0x00, 0x00, 0xC0, 0x1F, 0x00, 0x00, 0x00, 0x20]
      (.segred { cls := .var, len := .l96, d := 5, a := 6, x := { qual := 2 } }) = true ∧
    decodesTo [0x31, 0x29, 0x00, 0x00, 0x00, 0x00, 0xC0, 0x1F]
      (.xend { cls := .uni, len := .l64 }) = true := by decide +kernel

/-- Words of every colours instruction, written out from R26, R31, R35 and R36. -/
theorem test_decode_colours :
    decodesTo [0x02, 0x6C, 0x81, 0xC1, 0x01, 0x00, 0xC0, 0x1F, 0x08, 0x40, 0x00, 0x00]
      (.tint { cls := .uni, len := .l96, d := 5, a := 6, b := 7, x := { c := 8, kc := 1 } }) = true ∧
    decodesTo [0x11, 0x6C, 0x81, 0xC1, 0x01, 0x00, 0xC0, 0x1F]
      (.untint { cls := .uni, len := .l64, d := 5, a := 6, b := 7 }) = true ∧
    decodesTo [0x21, 0x2C, 0x81, 0x01, 0x00, 0x00, 0xC0, 0x1F]
      (.tintq { cls := .uni, len := .l64, d := 4, a := 6 }) = true ∧
    decodesTo [0x22, 0x2C, 0x81, 0x01, 0x00, 0x00, 0xC0, 0x1F, 0x00, 0x00, 0x00, 0x10]
      (.tintqClr { cls := .uni, len := .l96, d := 4, a := 6, x := { qual := 1 } }) = true ∧
    decodesTo [0x31, 0x6C, 0x81, 0x01, 0x00, 0x00, 0xC0, 0x1F]
      (.mtry { cls := .uni, len := .l64, d := 5, a := 6 }) = true ∧
    decodesTo [0x41, 0x2C, 0x80, 0x01, 0x00, 0x00, 0xC0, 0x1F]
      (.mwait { cls := .uni, len := .l64, a := 6 }) = true ∧
    decodesTo [0x51, 0x2C, 0x80, 0x01, 0x00, 0x00, 0xC0, 0x1F]
      (.mnote { cls := .uni, len := .l64, a := 6 }) = true ∧
    decodesTo [0x61, 0x2C, 0x80, 0x01, 0x00, 0x00, 0xC0, 0x1F]
      (.mnall { cls := .uni, len := .l64, a := 6 }) = true ∧
    decodesTo [0x72, 0x6C, 0x81, 0xC1, 0x01, 0x00, 0xC0, 0x1F, 0x08, 0x40, 0x00, 0x30]
      (.watch { cls := .uni, len := .l96, d := 5, a := 6, b := 7, x := { c := 8, kc := 1, qual := 3 } }) = true := by decide +kernel

/-- Words of every engines instruction, written out from R26, R31, R35 and R36. -/
theorem test_decode_engines :
    decodesTo [0x03, 0xB0, 0x01, 0x00, 0x00, 0x00, 0xC0, 0x1F, 0x00, 0x00, 0x00, 0x70, 0x40, 0x00, 0x00, 0x00]
      (.tshape { cls := .uni, len := .l128, d := 6, x := { qual := 7 }, imm := 64 }) = true ∧
    decodesTo [0x12, 0x30, 0x81, 0xC1, 0x01, 0x00, 0xC0, 0x1F, 0x00, 0x00, 0x00, 0x90]
      (.tcopy { cls := .uni, len := .l96, d := 4, a := 6, b := 7, x := { qual := 9 } }) = true ∧
    decodesTo [0x81, 0x30, 0xC0, 0xC0, 0x0F, 0x00, 0xC0, 0x1F]
      (.waitcnt { cls := .uni, len := .l64, a := 3, b := 63 }) = true ∧
    decodesTo [0x91, 0x70, 0x41, 0x00, 0x00, 0x00, 0xC0, 0x1F]
      (.cntrd { cls := .uni, len := .l64, d := 5, a := 1 }) = true ∧
    decodesTo [0x02, 0x31, 0x80, 0xC1, 0x01, 0x00, 0xC0, 0x1F, 0x08, 0x40, 0x00, 0x00]
      (.card { cls := .uni, len := .l96, a := 6, b := 7, x := { c := 8, kc := 1 } }) = true ∧
    decodesTo [0x02, 0xB1, 0x80, 0xC1, 0x01, 0x00, 0xC0, 0x1F, 0x08, 0x40, 0x00, 0x10]
      (.cardTry { cls := .uni, len := .l96, d := 2, a := 6, b := 7, x := { c := 8, kc := 1, qual := 1 } }) = true ∧
    decodesTo [0x1B, 0x31, 0x00, 0x02, 0x00, 0x00, 0xC0, 0x1F, 0x00, 0x00, 0x00, 0x00, 0x00, 0x02, 0x00, 0x00]
      (.spawn { cls := .var, len := .l128, a := 8, imm := 512 }) = true ∧
    decodesTo [0x81, 0x31, 0x00, 0xC2, 0x0F, 0x00, 0xC0, 0x1F]
      (.eput { cls := .uni, len := .l64, a := 8, b := 63 }) = true ∧
    decodesTo [0x82, 0xF1, 0x00, 0xC2, 0x0F, 0x00, 0xC0, 0x1F, 0x00, 0x00, 0x00, 0x10]
      (.eputTry { cls := .uni, len := .l96, d := 3, a := 8, b := 63, x := { qual := 1 } }) = true ∧
    decodesTo [0x91, 0x31, 0x02, 0x80, 0x0F, 0x00, 0xC0, 0x1F]
      (.eget { cls := .uni, len := .l64, d := 8, b := 62 }) = true ∧
    decodesTo [0xA1, 0x71, 0x02, 0x40, 0x01, 0x00, 0xC0, 0x1F]
      (.qstat { cls := .uni, len := .l64, d := 9, b := 5 }) = true := by decide +kernel

/-- Words of every matrix instruction, written out from R26, R31, R35 and R36. -/
theorem test_decode_matrix :
    decodesTo [0x0D, 0x34, 0x40, 0x01, 0x00, 0x00, 0xC0, 0x1F]
      (.gang { cls := .sys, len := .l64, a := 5 }) = true ∧
    decodesTo [0x1D, 0xF4, 0x00, 0x00, 0x00, 0x00, 0xC0, 0x1F]
      (.macq { cls := .sys, len := .l64, d := 3 }) = true ∧
    decodesTo [0x1E, 0xF4, 0x00, 0x40, 0x01, 0x00, 0xC0, 0x1F, 0x00, 0x00, 0x00, 0x10]
      (.macqTry { cls := .sys, len := .l96, d := 3, b := 5, x := { qual := 1 } }) = true ∧
    decodesTo [0x2D, 0xB4, 0x00, 0x00, 0x00, 0x00, 0xC0, 0x1F]
      (.mrel { cls := .sys, len := .l64, d := 2 }) = true ∧
    decodesTo [0x3E, 0xF4, 0x81, 0x41, 0x02, 0x00, 0xC0, 0x5F, 0x00, 0x00, 0x00, 0x19]
      (.mldb { cls := .sys, len := .l96, d := 7, a := 6, b := 9, kb := true, x := { ty := .f8e5, qual := 1 } }) = true ∧
    decodesTo [0x4F, 0x34, 0x00, 0x00, 0x00, 0x00, 0xC0, 0x1F, 0x00, 0x00, 0x00, 0x00, 0xA5, 0x00, 0x00, 0x00]
      (.mswap { cls := .sys, len := .l128, imm := 165 }) = true ∧
    decodesTo [0x5D, 0x74, 0x00, 0x00, 0x00, 0x00, 0xC0, 0x1F]
      (.mzero { cls := .sys, len := .l64, d := 1 }) = true ∧
    decodesTo [0x8E, 0xF4, 0x00, 0x43, 0x02, 0x00, 0xC0, 0x5F, 0x00, 0x00, 0x00, 0x0A]
      (.mma { cls := .sys, len := .l96, d := 3, a := 12, b := 9, kb := true, x := { ty := .i8 } }) = true ∧
    decodesTo [0x9E, 0xB4, 0x00, 0x44, 0x02, 0x00, 0xC0, 0x5F, 0x05, 0x40, 0x00, 0x0F]
      (.mmas { cls := .sys, len := .l96, d := 2, a := 16, b := 9, kb := true, x := { c := 5, kc := 1, ty := .b4 } }) = true ∧
    decodesTo [0xAE, 0xF4, 0x80, 0x41, 0x02, 0x00, 0xC0, 0x5F, 0x07, 0x40, 0xA6, 0x26]
      (.mdrain { cls := .sys, len := .l96, d := 3, a := 6, b := 9, kb := true, x := { c := 7, kc := 1, clamp := .pm1, scale := 9, rnd := .rpi, ty := .bf16, qual := 2 } }) = true ∧
    decodesTo [0xCD, 0x74, 0x01, 0x40, 0x02, 0x00, 0xC0, 0x5F]
      (.mstat { cls := .sys, len := .l64, d := 5, b := 9, kb := true }) = true := by decide +kernel

/-- Words of every system instruction, written out from R26, R31, R35 and R36. -/
theorem test_decode_system :
    decodesTo [0x03, 0xB8, 0x01, 0x00, 0x00, 0x00, 0xC0, 0x1F, 0x00, 0x00, 0x00, 0x04, 0x20, 0x00, 0x00, 0x00]
      (.rdsr { cls := .uni, len := .l128, d := 6, x := { ty := .i64 }, imm := 32 }) = true ∧
    decodesTo [0x13, 0x38, 0x80, 0x01, 0x00, 0x00, 0xC0, 0x1F, 0x00, 0x00, 0x00, 0x04, 0x03, 0x00, 0x00, 0x00]
      (.wrsr { cls := .uni, len := .l128, a := 6, x := { ty := .i64 }, imm := 3 }) = true ∧
    decodesTo [0x21, 0xB8, 0x01, 0x00, 0x00, 0x00, 0xC0, 0x1F]
      (.rdtime { cls := .uni, len := .l64, d := 6 }) = true ∧
    decodesTo [0x31, 0x38, 0x00, 0x00, 0x00, 0x00, 0xC0, 0x1F]
      (.yield { cls := .uni, len := .l64 }) = true ∧
    decodesTo [0x81, 0x38, 0x80, 0x01, 0x00, 0x00, 0xC0, 0x1F]
      (.prog { cls := .uni, len := .l64, a := 6 }) = true ∧
    decodesTo [0x0F, 0x39, 0x00, 0x00, 0x00, 0x00, 0xC0, 0x1F, 0x00, 0x00, 0x00, 0x00, 0x77, 0x00, 0x00, 0x00]
      (.brk { cls := .sys, len := .l128, imm := 119 }) = true ∧
    decodesTo [0x12, 0x39, 0x02, 0x00, 0x00, 0x00, 0xC0, 0x1F, 0x00, 0x00, 0x00, 0x04]
      (.rdhlc { cls := .uni, len := .l96, d := 8, x := { ty := .i64 } }) = true := by decide +kernel

open Sys2Proof.Machine

/-! ### A small machine

One team of four lanes (team 3 of block 2 of launch 1, split 4) on core 0 of partition 0, context 0, at 0x100000, in a run; the first
1 GB of the address space maps to itself. -/

/-- What `Acts` and `Passes` ask, as computations. -/
def passesB (i : Instr) (f : Fmt) (s : State) : Bool :=
  decide (i.fmt? = some f) && (preCheck (s.issueCycle f) i f (usesOf i) true s).isNone

def actsB (i : Instr) (f : Fmt) (s : State) : Bool := passesB i f s && guardOn f (s.seen i f)

theorem passes_iff (i : Instr) (f : Fmt) (s : State) : Passes i f s ↔ passesB i f s = true := by
  simp only [passesB, Bool.and_eq_true, decide_eq_true_eq, Option.isNone_iff_eq_none]
  exact ⟨fun h => ⟨h.fields, h.checks⟩, fun h => ⟨h.1, h.2⟩⟩

theorem acts_iff (i : Instr) (f : Fmt) (s : State) : Acts i f s ↔ actsB i f s = true := by
  simp only [actsB, Bool.and_eq_true, ← passes_iff]
  exact ⟨fun h => ⟨h.toPasses, h.guard⟩, fun h => ⟨h.1, h.2⟩⟩

theorem single_iff (s : State) : Single s ↔ (decide (s.team.id ≠ 0) && s.others.all fun t => decide (t.id ≠ s.team.id)) = true := by
  simp [Single]

/-- Whether a check answers its good result. -/
def okB {α β : Type} : Except α β → Bool
  | .ok _ => true
  | .error _ => false

/-- The place of a device's own access, where it goes on. -/
def place? (v : State) (acc : Access) (a : Addr × Nat) : Option Place :=
  match v.pieces acc (splitPage a.1 a.2) with
  | .ok x => if (x.2.filterMap Phys.host).all v.owns then some { bytes := x.1, key := (x.2.head?.map Phys.kid).getD 0 } else none
  | .error _ => none

theorem reaches_of {v : State} {acc : Access} {a : Addr × Nat} {p : Place} (h : place? v acc a = some p) : Reaches v acc a p := by
  unfold place? at h
  unfold Reaches
  cases hx : v.pieces acc (splitPage a.1 a.2) with
  | ok x =>
    simp only [hx] at h
    split at h
    · cases h; exact ⟨x.2, rfl, rfl, List.all_eq_true.1 ‹_›⟩
    · cases h
  | error e => simp [hx] at h

/-- Whether the device reaches it. -/
def reachesB (v : State) (acc : Access) (a : Addr × Nat) : Bool := (place? v acc a).isSome

theorem reaches_some {v : State} {acc : Access} {a : Addr × Nat} (h : reachesB v acc a = true) : ∃ p, Reaches v acc a p :=
  (Option.isSome_iff_exists.1 h).imp fun _ => reaches_of

/-- The place of each slot of the executing team's deferred list. -/
def slotPlace (v : State) (i : Nat) : Place := (place? v .load (deferredSlot v.team i)).getD { bytes := [], key := 0 }

/-- What `ListReached` asks at those places. -/
def listB (v : State) (acc : Access) : Bool :=
  v.inHelper || (List.range v.team.dflen).all fun i =>
    let p := place? v .load (deferredSlot v.team i)
    p.isSome && (acc == .load || decide (place? v acc (deferredSlot v.team i) = p))

theorem list_of {v : State} {acc : Access} (h : listB v acc = true) : ListReached v acc (slotPlace v) := by
  intro hn i hi
  simp only [listB, hn, Bool.false_or, List.all_eq_true, Bool.and_eq_true, Bool.or_eq_true, beq_iff_eq, decide_eq_true_eq] at h
  obtain ⟨hp, h⟩ := h i (List.mem_range.2 hi)
  obtain ⟨p, hp⟩ := Option.isSome_iff_exists.1 hp
  have hs : slotPlace v i = p := by simp [slotPlace, hp]
  rw [hs]
  exact reaches_of (h.elim (fun e => e ▸ hp) fun e => e.trans hp)

/-- A main team's list has as many entries as its slots in use. -/
theorem length_deferredList {v : State} (h : v.inHelper = false) (ps : Nat → Place) : (deferredList v ps).length = v.team.dflen := by
  simp [deferredList, h]

def team0 : Team := { id := 3, launch := 1, block := 2, n := 4, live := 0xF, blocks := 31, fsbase := 0x200000, trapvec := 0x180000 }

def split0 : Split := { id := 4, pc := 0x100000, mask := 0xF, run := { active := true }, begun := 5, buffer := true }

def base : State :=
  { phase := 5, nextId := 16, team := team0, split := split0,
    blocks := [{ id := 2, launch := 1, core := 0, teams := [3] }],
    launches := [{ id := 1, card := {}, next := 1, live := 1 }],
    mem := fetchTree [],
    ctxs := [(0, { desc := { ptroot := 0x10000, valid := true, pvarena := 0x200001 } })],
    parts := [(0, { entry := { cores := 1, keys := 1, valid := true, ranges := [(0, 0x40000000)] } })] }

/-- The machine with its team, or its split, changed. -/
def on (g : Team → Team) (h : Split → Split := id) : State := { base with team := g team0, split := h split0 }

/-- Registers v1 to v3 hold numbers, with the tag. -/
def lanes (tag : Tag) : State :=
  on fun t => { t with tags := [(1, tag), (2, tag), (3, tag)],
                       v := [(1024, 7), (1025, 8), (1026, 9), (1027, 0x80000000), (2048, 1), (2049, 2), (2050, 3), (2051, 4), (3072, 5), (3073, 6)] }

/-- Uniform registers s1 to s8. -/
def words : State := on fun t => { t with s := [(1, 5), (2, 0x3F800000), (3, 7), (4, 0x100), (5, 0), (6, 0x180000), (8, 1)] }

/-- The split holds two of the four lanes. -/
def half (s : State) : State := { s with split := { s.split with mask := 0x3 } }

def fV : Fmt := { cls := .var, len := .l64, d := 4, a := 1, b := 2 }
def fU : Fmt := { cls := .uni, len := .l64, d := 4, a := 1, b := 2 }

/-! ### Witnesses -/

theorem witness_IntegerLanes : ∃ val : Nat → Word,
    Acts (.add fV) fV (lanes .i32) ∧ fV.cls = .var ∧ fV.x.ty.is64 = false ∧ integerSourcesFit (.add fV) fV ((lanes .i32).seen (.add fV) fV) = true ∧
    ∀ l, integerResult (.add fV) fV ((lanes .i32).seen (.add fV) fV) l = some (val l) := by
  refine ⟨_, (acts_iff ..).2 (by decide +kernel), rfl, rfl, by decide +kernel, fun l => rfl⟩

theorem witness_IntegerWord :
    (Acts (.idiv fU) fU words ∧ fU.cls = .uni ∧ fU.x.ty.is64 = false ∧
      integerResult (.idiv fU) fU (words.seen (.idiv fU) fU) 0 = some 0 ∧ (words.seen (.idiv fU) fU).diverged = false) ∧
    (Acts (.idiv fU) fU (half words) ∧ integerResult (.idiv fU) fU ((half words).seen (.idiv fU) fU) 0 = some 0 ∧
      ((half words).seen (.idiv fU) fU).diverged = true) := by
  simp only [acts_iff]; decide +kernel

def fP : Fmt := { cls := .uni, len := .l96, d := 4, a := 2, b := 4, x := { ty := .i64 } }

theorem witness_IntegerPair :
    (Acts (.sub fP) fP words ∧ fP.cls = .uni ∧ fP.x.ty.is64 = true ∧
      wideResult (.sub fP) fP (words.seen (.sub fP) fP) = some 0x73F7FFF00 ∧ (words.seen (.sub fP) fP).diverged = false) ∧
    (Acts (.sub fP) fP (half words) ∧ (wideResult (.sub fP) fP ((half words).seen (.sub fP) fP)).isSome = true ∧
      ((half words).seen (.sub fP) fP).diverged = true) := by
  simp only [acts_iff]; decide +kernel


theorem witness_IntegerCompare :
    (Acts (.cmpLt fV) fV (lanes .i32) ∧ tagsOk ((lanes .i32).seen (.cmpLt fV) fV) (varA fV ++ varB fV) [.i32] = true) ∧
    (Acts (.cmpLt fU) fU words ∧ (words.seen (.cmpLt fU) fU).diverged = false ∧ fU.d.toNat ≠ 7) ∧
    (Acts (.cmpLt fU) fU (half words) ∧ ((half words).seen (.cmpLt fU) fU).diverged = true) ∧
    (Acts (.cmpLt fP) fP words ∧ fP.x.ty.is64 = true ∧ (words.seen (.cmpLt fP) fP).diverged = false) ∧
    (integerCond (.cmpLt fV)).isSome = true ∧ fV.cls = .var ∧ fV.x.ty.is64 = false ∧ fU.cls = .uni ∧ fP.cls = .uni := by
  simp only [acts_iff]; decide +kernel

/-- a3 := a1 op a2, checked; the second field block takes a uniform source. -/
def fA : Fmt := { cls := .aff, len := .l96, d := 3, a := 1, b := 2, x := { qual := 1 } }
def fAU : Fmt := { cls := .aff, len := .l64, d := 3, a := 1, b := 3, kb := true }
def pairs (b : Word) : State := on fun t => { t with a := [(1, { base := b, stride := 2 }), (2, { base := 5, stride := 4 })], s := [(3, 3)] }

theorem witness_AffineForms :
    (Acts (.add fA) fA (pairs 0x10) ∧ fA.x.qual = 1 ∧ ((pairs 0x10).seen (.add fA) fA).diverged = false ∧
      ∀ l, l < 4 → -2 ^ 31 ≤ ((pairA fA ((pairs 0x10).seen (.add fA) fA)).at l).toInt + ((pairB fA ((pairs 0x10).seen (.add fA) fA)).at l).toInt ∧
        ((pairA fA ((pairs 0x10).seen (.add fA) fA)).at l).toInt + ((pairB fA ((pairs 0x10).seen (.add fA) fA)).at l).toInt < 2 ^ 31) ∧
    (Acts (.mul fAU) fAU (pairs 0x10) ∧ takesUniformB (.mul fAU) = true ∧ (pairB fAU ((pairs 0x10).seen (.mul fAU) fAU)).stride = 0 ∧ fAU.x.qual ≠ 1) ∧
    (Acts (.add fA) fA (pairs 0x7FFFFFF9) ∧ ((pairs 0x7FFFFFF9).seen (.add fA) fA).diverged = false ∧ 1 < ((pairs 0x7FFFFFF9).seen (.add fA) fA).team.n ∧
      2 ^ 31 ≤ ((pairA fA ((pairs 0x7FFFFFF9).seen (.add fA) fA)).at 1).toInt + ((pairB fA ((pairs 0x7FFFFFF9).seen (.add fA) fA)).at 1).toInt) ∧
    (∀ i ∈ [Instr.add fAU, .sub fAU, .mul fAU, .shl fAU], Acts i fAU (half (pairs 0x10)) ∧ (affineOp i).isSome = true ∧
      ((half (pairs 0x10)).seen i fAU).diverged = true) := by
  simp only [acts_iff]; decide +kernel

theorem witness_FloatLanes : ∃ val : Nat → Word,
    Acts (.fadd fV) fV (lanes .f32) ∧ fV.cls = .var ∧ floatSourcesFit (.fadd fV) fV ((lanes .f32).seen (.fadd fV) fV) = true ∧
    ∀ l, floatResult (.fadd fV) fV ((lanes .f32).seen (.fadd fV) fV) l = some (val l) := by
  refine ⟨_, (acts_iff ..).2 (by decide +kernel), rfl, by decide +kernel, fun l => rfl⟩

/-- A conversion of s2 from f32 to i64, in the uniform class. -/
def fC : Fmt := { cls := .uni, len := .l96, d := 4, a := 2, x := { ty := .i64, qual := 3 } }

theorem witness_FloatWord :
    (Acts (.rcp fU) fU words ∧ floatSourcesFit (.rcp fU) fU (words.seen (.rcp fU) fU) = true ∧
      (floatResult (.rcp fU) fU (words.seen (.rcp fU) fU) 0).isSome = true ∧ (words.seen (.rcp fU) fU).diverged = false) ∧
    (Acts (.cvt fC) fC words ∧ floatSourcesFit (.cvt fC) fC (words.seen (.cvt fC) fC) = true ∧ fC.cvtTypes.1.is64 = true ∧
      (words.seen (.cvt fC) fC).diverged = false) ∧
    (Acts (.fmul fU) fU (half words) ∧ floatSourcesFit (.fmul fU) fU ((half words).seen (.fmul fU) fU) = true ∧
      (floatResult (.fmul fU) fU ((half words).seen (.fmul fU) fU) 0).isSome = true ∧ ((half words).seen (.fmul fU) fU).diverged = true) ∧
    (Acts (.cvt fC) fC (half words) ∧ ((half words).seen (.cvt fC) fC).diverged = true) := by
  simp only [acts_iff]; decide +kernel

theorem witness_FloatCompare :
    (Acts (.fcmpLe fV) fV (lanes .f32) ∧ tagsOk ((lanes .f32).seen (.fcmpLe fV) fV) (varA fV ++ varB fV) [.f32] = true) ∧
    (Acts (.fcmpLe fU) fU words ∧ (words.seen (.fcmpLe fU) fU).diverged = false) ∧
    (Acts (.fcmpLe fU) fU (half words) ∧ ((half words).seen (.fcmpLe fU) fU).diverged = true) ∧ (floatCond (.fcmpLe fV)).isSome = true := by
  simp only [acts_iff]; decide +kernel

theorem witness_TagMismatch :
    (Acts (.add fV) fV (lanes .f32) ∧ integerSourcesFit (.add fV) fV ((lanes .f32).seen (.add fV) fV) = false ∧
      (integerResult (.add fV) fV ((lanes .f32).seen (.add fV) fV) 0).isSome = true) ∧
    (Acts (.fadd fV) fV (lanes .i32) ∧ floatSourcesFit (.fadd fV) fV ((lanes .i32).seen (.fadd fV) fV) = false ∧
      (floatResult (.fadd fV) fV ((lanes .i32).seen (.fadd fV) fV) 0).isSome = true) ∧
    (Acts (.cmpLt fV) fV (lanes .f32) ∧ (integerCond (.cmpLt fV)).isSome = true ∧
      tagsOk ((lanes .f32).seen (.cmpLt fV) fV) (varA fV ++ varB fV) [.i32] = false) ∧
    (Acts (.fcmpLe fV) fV (lanes .i32) ∧ (floatCond (.fcmpLe fV)).isSome = true ∧
      tagsOk ((lanes .i32).seen (.fcmpLe fV) fV) (varA fV ++ varB fV) [.f32] = false) := by
  simp only [acts_iff]; decide +kernel

theorem witness_Rounding :
    (FFmt.f16 ∈ [FFmt.f32, FFmt.bf16, FFmt.f16, FFmt.f8e4, FFmt.f8e5, FFmt.f48] ∧ 0x3C00 < 2 ^ (1 + FFmt.f16.ebits + FFmt.f16.fbits) ∧
      FFmt.f16.decode 0x3C00 ≠ .nan) ∧ (0 : Int) < 3 := by decide +kernel

/-! Control transfer -/

def fBra : Fmt := { cls := .uni, len := .l128, imm := 0x40 }
def fBrc : Fmt := { cls := .uni, len := .l128, d := 1, imm := 0x40 }

/-- The split stands 0x10 below the lowest address that is not canonical. -/
def high (s : State) : State := { s with split := { s.split with pc := 0xFFFFFFFFFFFFF0 } }

theorem witness_Branch :
    (Acts (.bra fBra) fBra base ∧ canonical (pcRel base.split.pc fBra.imm) = true) ∧
    (Acts (.bra fBra) fBra (high base) ∧ canonical (pcRel (high base).split.pc fBra.imm) = false) := by
  simp only [acts_iff]; decide +kernel

theorem witness_CountedBranch :
    (Acts (.brc fBrc) fBrc (half words) ∧ ((half words).seen (.brc fBrc) fBrc).diverged = true) ∧
    (Acts (.brc fBrc) fBrc (high words) ∧ ((high words).seen (.brc fBrc) fBrc).diverged = false ∧
      ((high words).seen (.brc fBrc) fBrc).readS 1 - 1 ≠ 0 ∧ canonical (pcRel (high words).split.pc fBrc.imm) = false) ∧
    (Acts (.brc fBrc) fBrc words ∧ (words.seen (.brc fBrc) fBrc).diverged = false ∧ (words.seen (.brc fBrc) fBrc).readS 1 - 1 ≠ 0 ∧
      canonical (pcRel words.split.pc fBrc.imm) = true) ∧
    (Acts (.brc { fBrc with d := 8 }) { fBrc with d := 8 } (high words) ∧ ((high words).seen (.brc { fBrc with d := 8 }) { fBrc with d := 8 }).readS 8 - 1 = 0) := by
  simp only [acts_iff]; decide +kernel

def fCall : Fmt := { cls := .uni, len := .l128, imm := 0x800 }
def fCalli : Fmt := { cls := .uni, len := .l64, a := 6 }
def xlOk : Xl → Bool
  | .ok _ => true
  | _ => false

theorem witness_Calls :
    (Acts (.call fCall) fCall words ∧ (words.seen (.call fCall) fCall).diverged = false ∧
      canonical (callTarget (.call fCall) fCall (words.seen (.call fCall) fCall)) = true ∧ words.team.fdepth ≠ 256 ∧
      reachesB (words.seen (.call fCall) fCall) .store (frameAddr words, 16) = true) ∧
    (Acts (.calli fCalli) fCalli words ∧ (callTarget (.calli fCalli) fCalli (words.seen (.calli fCalli) fCalli)).toNat % 4 = 0 ∧
      reachesB (words.seen (.calli fCalli) fCalli) .store (frameAddr words, 16) = true) ∧
    (Acts (.call fCall) fCall (half words) ∧ ((half words).seen (.call fCall) fCall).diverged = true) ∧
    (Acts (.call fCall) fCall (high words) ∧ ((high words).seen (.call fCall) fCall).diverged = false ∧
      canonical (callTarget (.call fCall) fCall ((high words).seen (.call fCall) fCall)) = false) ∧
    (let s := on fun t => { t with s := [(6, 0x180002)] }
     Acts (.calli fCalli) fCalli s ∧ (s.seen (.calli fCalli) fCalli).diverged = false ∧
       canonical (callTarget (.calli fCalli) fCalli (s.seen (.calli fCalli) fCalli)) = true ∧
       (callTarget (.calli fCalli) fCalli (s.seen (.calli fCalli) fCalli)).toNat % 4 ≠ 0) ∧
    (let s := on fun t => { t with fdepth := 256 }
     Acts (.call fCall) fCall s ∧ (s.seen (.call fCall) fCall).diverged = false ∧ s.team.fdepth = 256) := by
  simp only [acts_iff]; decide +kernel

def fRet : Fmt := { cls := .uni, len := .l64 }

/-- The machine inside one call, holding colour 9 of that depth and colour 4 of depth 0. -/
def called : State := on fun t => { t with fdepth := 1, held := [(4, 0), (9, 1)] }

/-- The device reaches the frame record, whose return address is canonical, or is not. -/
def recordB (s : State) (c : Bool) : Bool :=
  let v := s.seen (.ret fRet) fRet
  match v.pieces .load (splitPage (recordAddr s.team (s.team.fdepth - 1)) 16) with
  | .ok (k :: ks, ps) =>
    canonical (BitVec.ofNat 64 (leNat 8 (s.bytesAs ((ps.head?.map Phys.kid).getD 0) (k :: ks)))) == c && (ps.filterMap Phys.host).all s.owns
  | _ => false

theorem witness_ReturnPopsFrame :
    (Acts (.ret fRet) fRet (half called) ∧ ((half called).seen (.ret fRet) fRet).diverged = true) ∧
    (Acts (.ret fRet) fRet base ∧ (base.seen (.ret fRet) fRet).diverged = false ∧ lendingOpen base.team = false ∧ base.team.fdepth = 0) ∧
    (let s := on fun t => { t with recruit := { state := .active } }
     Acts (.ret fRet) fRet s ∧ (s.seen (.ret fRet) fRet).diverged = false ∧ lendingOpen s.team = true ∧ s.team.fdepth = 0) ∧
    (∀ r ∈ [RecruitState.none, .active], let s := { on (fun t => { t with fdepth := 1, recruit := { state := r } }) with
                                                    mem := (fetchTree []).setList unlistedByte 0x200000 (leBytes 8 (2 ^ 60)) }
      Acts (.ret fRet) fRet s ∧ (s.seen (.ret fRet) fRet).diverged = false ∧ s.team.fdepth ≠ 0 ∧ recordB s false = true) ∧
    (let s := on fun t => { t with fdepth := 1, recruit := { state := .active } }
     Acts (.ret fRet) fRet s ∧ (s.seen (.ret fRet) fRet).diverged = false ∧ lendingOpen s.team = true ∧ s.team.fdepth ≠ 0 ∧ recordB s true = true) ∧
    (Acts (.ret fRet) fRet called ∧ (called.seen (.ret fRet) fRet).diverged = false ∧ lendingOpen called.team = false ∧ called.team.fdepth ≠ 0 ∧
      recordB called true = true ∧ (called.team.held.filter fun h => h.2 == called.team.fdepth) ≠ [] ∧
      called.markedCommands called.team.id = false) := by
  simp only [acts_iff]; decide +kernel

theorem witness_RunControl :
    Acts (.nop fRet) fRet base ∧ Acts (.runend fRet) fRet base ∧ Acts (.yield fRet) fRet base := by
  simp only [acts_iff]; decide +kernel

theorem witness_TrapAndBreak :
    Acts (.trap { fBra with imm := 0xABCD }) { fBra with imm := 0xABCD } base ∧ Acts (.brk { cls := .sys, len := .l64 }) { cls := .sys, len := .l64 } base := by
  simp only [acts_iff]; decide +kernel

theorem witness_FaultTaken :
    (base.inHelper = false ∧ base.team.handler = none ∧ base.team.trapvec ≠ 0 ∧ base.debugAttached = false) ∧
    (let s := on fun t => { t with trapvec := 0 }
     s.inHelper = false ∧ s.team.trapvec = 0 ∧ s.debugAttached = false) ∧
    (let s := on fun t => { t with handler := some { fault := {}, held := [] } }
     s.inHelper = false ∧ s.team.handler ≠ none) := by decide +kernel

def handled (h : Handler) : State := on fun t => { t with handler := some h, frpc := 0x100010 }

theorem witness_ReturnFromHandler :
    (let s := on fun t => { t with frpc := 0x100000000000000 }
     Acts (.rfe fRet) fRet s ∧ canonical s.team.frpc = false) ∧
    (Acts (.rfe fRet) fRet base ∧ canonical base.team.frpc = true ∧ base.team.handler = none) ∧
    (let h : Handler := { fault := { id := 4, pc := 0x100010, mask := 0x7, run := { active := true, count := 5 } }, held := [{ id := 6, mask := 0x8 }] }
     Acts (.rfe fRet) fRet (handled h) ∧ canonical (handled h).team.frpc = true ∧ (handled h).team.handler = some h ∧ h.fault.mask ≠ 0) ∧
    (let h : Handler := { fault := { id := 4, pc := 0x100010, mask := 0 }, held := [{ id := 6, mask := 0x8 }] }
     Acts (.rfe fRet) fRet (handled h) ∧ canonical (handled h).team.frpc = true ∧ (handled h).team.handler = some h ∧ h.fault.mask = 0 ∧
       Single (handled h)) := by
  simp only [acts_iff, single_iff]; decide +kernel

/-! Divergence, encodings, issue -/

def fBrv : Fmt := { cls := .var, len := .l128, guard := 1, imm := 0x40 }

/-- Predicate p1 holds in lanes 0 and 2. -/
def preds : State := on fun t => { t with p := [(1, 0x5), (2, 0xF), (3, 0)], q := [(1, true)], s := [(6, 9)] }

/-- Every split entry is taken; the deferred list has `n` entries. -/
def crowded (n : Nat) : State :=
  { preds with team := { preds.team with splits := (List.range 15).map fun k => { id := 100 + k, mask := 0 }, dflen := n } }

def fBrvJ : Fmt := { fBrv with imm := 0, d := 32 }
def fBrvNone : Fmt := { fBrv with guard := 3 }
def fBrvAll : Fmt := { fBrv with guard := 2 }

theorem witness_DivergentBranch :
    let v := preds.seen (.brv fBrv) fBrv
    let room := fun s : State => roomToSplit s (s.split.pc + joinOffset fBrv)
    (Passes (.brv fBrv) fBrv (high preds) ∧ canonical (pcRel (high preds).split.pc fBrv.imm) = false) ∧
    (Passes (.brv fBrvJ) fBrvJ (high preds) ∧ canonical (pcRel (high preds).split.pc fBrvJ.imm) = true ∧
      canonical ((high preds).split.pc + joinOffset fBrvJ) = false) ∧
    (Passes (.brv fBrv) fBrv preds ∧ canonical (pcRel preds.split.pc fBrv.imm) = true ∧ canonical (preds.split.pc + joinOffset fBrv) = true ∧
      listB v .load = true ∧ activeMask fBrv v ≠ 0 ∧ preds.split.mask &&& ~~~activeMask fBrv v ≠ 0 ∧ room preds = true) ∧
    (Passes (.brv fBrvNone) fBrvNone preds ∧ activeMask fBrvNone (preds.seen (.brv fBrvNone) fBrvNone) = 0) ∧
    (Passes (.brv fBrvAll) fBrvAll preds ∧ preds.split.mask &&& ~~~activeMask fBrvAll (preds.seen (.brv fBrvAll) fBrvAll) = 0) ∧
    (∀ n ∈ [0, 2], let s := crowded n
      let w := s.seen (.brv fBrv) fBrv
      Passes (.brv fBrv) fBrv s ∧ canonical (pcRel s.split.pc fBrv.imm) = true ∧ canonical (s.split.pc + joinOffset fBrv) = true ∧
        listB w .load = true ∧ activeMask fBrv w ≠ 0 ∧ s.split.mask &&& ~~~activeMask fBrv w ≠ 0 ∧ room s = false ∧
        (deferredList w (slotPlace w)).length < deferLimit s ∧ reachesB w .store (deferredSlot s.team n) = true) ∧
    (let s := crowded 256
     let w := s.seen (.brv fBrv) fBrv
     Passes (.brv fBrv) fBrv s ∧ canonical (pcRel s.split.pc fBrv.imm) = true ∧ canonical (s.split.pc + joinOffset fBrv) = true ∧
       listB w .load = true ∧ activeMask fBrv w ≠ 0 ∧ s.split.mask &&& ~~~activeMask fBrv w ≠ 0 ∧ room s = false ∧
       w.inHelper = false ∧ deferLimit s ≤ w.team.dflen) := by
  simp only [passes_iff]; decide +kernel

/-- A jump table of two entries at 0x100100 (R118): the count, the join, the targets, as offsets from the `jtab`. -/
def fJtab : Fmt := { cls := .var, len := .l128, a := 1, imm := 0x100 }
def tabled (x : Word) : State :=
  { on (fun t => { t with tags := [(1, .i32)], v := [(1024, 1), (1026, x)], plbase := [(0, 0x100100)], pllim := [(0, 0x100200)] }) with
    mem := (fetchTree []).setList unlistedByte 0x100100 (leBytes 4 2 ++ leBytes 4 0x80 ++ leBytes 4 0x40 ++ leBytes 4 0x60) }

/-- The `jtab` stands 0x10 below the lowest address that is not canonical, its table 0x100 below it, with these words 1 and 2. -/
def fJtabFar : Fmt := { fJtab with imm := 0xFFFFFF00 }
def tabledFar (w1 w2 : Nat) : State :=
  { on (fun t => { t with tags := [(1, .i32)], plbase := [(0, 0xFFFFFFFFFFFEF0)], pllim := [(0, 0xFFFFFFFFFFFFF0)] }) (fun x => { x with pc := 0xFFFFFFFFFFFFF0 }) with
    mem := ((((fetchTree []).setList unlistedByte 0x107F8 (leBytes 8 0x40001)).setList unlistedByte 0x40FF8 (leBytes 8 0x50001)).setList
      unlistedByte 0x50FF8 [0x3B]).setList unlistedByte 0x3FFFFEF0 (leBytes 4 2 ++ leBytes 4 w1 ++ leBytes 4 w2 ++ leBytes 4 w2) }

/-- The table in a team all of whose split entries are taken, with `n` deferred ones. -/
def tabledCrowded (n : Nat) : State := { tabled 1 with team := { (tabled 1).team with splits := (crowded 0).team.splits, dflen := n } }

/-- What `JumpTable` asks: three words of the table, each index in range. -/
def tableB (f : Fmt) (s : State) (w1 w2 : Word) : Bool :=
  let v := s.seen (.jtab f) f
  let table := pcRel s.split.pc f.imm
  let holds := fun a w => match tableWord v s a with | .ok x => decide (x.2 = w) | .error _ => false
  tagsOk v (varA f) [.i32, .raw] && holds table 2 && holds (table + 4) w1 && holds (table + 8) w2 &&
    ((lanesOf s.team.n s.split.mask).all fun l => decide ((rawA f v l).toNat < 2)) && decide ((rawA f v 1).toNat = 0)

theorem witness_JumpTable :
    (let v := (tabled 2).seen (.jtab fJtab) fJtab
     Acts (.jtab fJtab) fJtab (tabled 2) ∧ tagsOk v (varA fJtab) [.i32, .raw] = true ∧
       (match tableWord v (tabled 2) 0x100100 with | .ok w => decide (w.2 = 2) | .error _ => false) = true ∧
       2 ∈ lanesOf (tabled 2).team.n (tabled 2).split.mask ∧ 2 ≤ (rawA fJtab v 2).toNat ∧
       (rawA fJtab v 0).toNat < 2 ∧ (rawA fJtab v 1).toNat < 2) ∧
    (Acts (.jtab fJtabFar) fJtabFar (tabledFar 0x40 0x40) ∧ tableB fJtabFar (tabledFar 0x40 0x40) 0x40 0x40 = true ∧
      canonical (tableAddr (tabledFar 0x40 0x40).split.pc 0x40) = false) ∧
    (Acts (.jtab fJtabFar) fJtabFar (tabledFar 0x40 0) ∧ tableB fJtabFar (tabledFar 0x40 0) 0x40 0 = true ∧
      canonical (tableAddr (tabledFar 0x40 0).split.pc 0) = true ∧ canonical (tableAddr (tabledFar 0x40 0).split.pc 0x40) = false) ∧
    (∀ s ∈ [tabled 1, tabledCrowded 0, tabledCrowded 256],
     let v := s.seen (.jtab fJtab) fJtab
     Acts (.jtab fJtab) fJtab s ∧ tableB fJtab s 0x80 0x40 = true ∧ listB v .load = true ∧
       canonical (tableAddr 0x100000 0x40) = true ∧ canonical (tableAddr 0x100000 0x80) = true) ∧
    roomToSplit (tabled 1) (tableAddr 0x100000 0x80) = true ∧
    (roomToSplit (tabledCrowded 0) (tableAddr 0x100000 0x80) = false ∧ 0 < deferLimit (tabledCrowded 0) ∧
      reachesB ((tabledCrowded 0).seen (.jtab fJtab) fJtab) .store (deferredSlot (tabledCrowded 0).team 0) = true) ∧
    (let s := tabledCrowded 256
     let v := s.seen (.jtab fJtab) fJtab
     roomToSplit s (tableAddr 0x100000 0x80) = false ∧ v.inHelper = false ∧ deferLimit s ≤ v.team.dflen ∧
       s.split.mask &&& ~~~(maskOf ((lanesOf s.team.n s.split.mask).filter fun l => (rawA fJtab v l).toNat == 0)) ≠ 0) := by
  simp only [acts_iff]; decide +kernel

def fJoin : Fmt := { cls := .var, len := .l64 }

/-- Half of a divided team stands at its join; `arrived` lanes are there already. -/
def record0 (arrived : Mask) : Join := { addr := 0x100000, expects := 0xF, arrived := arrived, outer := none }
def joining (arrived : Mask) : State :=
  half (on (fun t => { t with joins := [(0, some (record0 arrived))],
                              splits := [{ id := 6, pc := 0x100040, mask := 0xC &&& ~~~arrived, link := some 0 }] }) fun x => { x with link := some 0 })

/-- The same with a record inside it, whose own join lies elsewhere. -/
def nested : State :=
  { joining 0 with split := { (joining 0).split with link := some 1 },
                   team := { (joining 0).team with joins := [(0, some (record0 0)), (1, some { record0 0 with addr := 0x100200, outer := some 0 })] } }

/-- A side of a serialised divergence, the first of two entries of the deferred list; the second is another split's. -/
def side : Deferred := { pc := some 0x100080, mask := 0xC, addr := 0x100000, arrived := 0, split := 0 }
def serialOf (d : Deferred) : State :=
  { half (on fun t => { t with dflen := 2 }) with
    mem := (fetchTree []).setList unlistedByte 0x201000 (deferredBytes d ++ deferredBytes { d with split := 3 }) }

/-- It waits; or it has been taken, and its lanes are gathered. -/
def serial : State := serialOf side
def gathered? : State := serialOf { side with pc := none, arrived := 0xC }

/-- With the record of the gathered lanes' join. -/
def gatheredJoin : State :=
  { gathered? with split := { gathered?.split with link := some 0 }, team := { gathered?.team with joins := [(0, some (record0 0))] } }

/-- What `Joins` asks of a join that is a record's, or no record's: the lanes that come to it. -/
def comesB (s : State) (m : Mask) : Bool :=
  let v := s.seen (.join fJoin) fJoin
  listB v .load && listB v .store && decide (comesWith s (deferredList v (slotPlace v)) = some m)

theorem witness_Joins :
    (∀ y ∈ [(joining 0, (0x3 : Mask)), (joining 0xC, 0x3), (nested, 0x3), (gatheredJoin, 0xF)], let s := y.1
      Acts (.join fJoin) fJoin s ∧ Single s ∧ comesB s y.2 = true ∧
        ((findRecord s.team s.split.pc 17 s.split.link []).map Prod.fst = some 0) ∧
        (∀ e ∈ s.team.joins, e.1 ≠ 0 → e = (1, some { record0 0 with addr := 0x100200, outer := some 0 }))) ∧
    (findRecord nested.team nested.split.pc 17 nested.split.link [] = some (0, [1]) ∧
      ({ record0 0 with addr := 0x100200, outer := some 0, expects := 0xF &&& ~~~0x3 } : Join).complete nested.team.live = false) ∧
    ((joining 0).team.joins.get none 0 = some (record0 0) ∧ (record0 0).addr = (joining 0).split.pc ∧
      (record0 0).expects &&& (joining 0).team.live &&& ~~~((record0 0).arrived ||| 0x3) ≠ 0) ∧
    ((joining 0xC).team.joins.get none 0 = some (record0 0xC) ∧
      (record0 0xC).expects &&& (joining 0xC).team.live &&& ~~~((record0 0xC).arrived ||| 0x3) = 0 ∧
      ((record0 0xC).arrived ||| 0x3) &&& (joining 0xC).team.live ≠ 0) ∧
    (∀ y ∈ [(half base, (0x3 : Mask)), (gathered?, 0xF)], let s := y.1
      Acts (.join fJoin) fJoin s ∧ comesB s y.2 = true ∧ findRecord s.team s.split.pc 17 s.split.link [] = none) ∧
    (let v := gathered?.seen (.join fJoin) fJoin
     (deferredList v (slotPlace v)).map (fun d => (d.split == gathered?.split.entry, d.addr == gathered?.split.pc)) = [(true, true), (false, true)]) ∧
    (let v := serial.seen (.join fJoin) fJoin
     Acts (.join fJoin) fJoin serial ∧ listB v .load = true ∧ listB v .store = true ∧
       (match deferredList v (slotPlace v) with
        | [d, e] => decide (d.split = serial.split.entry ∧ d.addr = serial.split.pc ∧ d.pc = some 0x100080 ∧ d.mask ≠ 0 ∧
            e.split ≠ serial.split.entry)
        | _ => false) = true) := by
  simp only [acts_iff, single_iff]; decide +kernel

def fExitl : Fmt := { cls := .var, len := .l64, guard := 1 }

theorem witness_Exits :
    (Acts (.exit fRet) fRet (half base) ∧ Single (half base) ∧ (half base).team.ended = false) ∧
    (∀ g ∈ [(1 : BitVec 4), 2], let f := { fExitl with guard := g }
     let s := preds
     Acts (.exitl f) f s ∧ Single s ∧ s.team.ended = false ∧
       (s.team.live &&& ~~~activeMask f (s.seen (.exitl f) f) ≠ 0 ∨ g = 2) ∧
       (s.team.live &&& ~~~activeMask f (s.seen (.exitl f) f) = 0 ∨ g = 1) ∧ s.team.dflen = 0) ∧
    (let f := { fExitl with guard := 1 }
     let s := { serial with team := { serial.team with p := [(1, 0x5)] } }
     let v := s.seen (.exitl f) f
     Acts (.exitl f) f s ∧ Single s ∧ s.team.ended = false ∧ s.team.dflen = 2 ∧ listB v .load = true ∧ listB v .store = true) := by
  simp only [acts_iff, single_iff]; decide +kernel

theorem witness_DecodeOfEncode : (Instr.add fV).isEvent = false ∧ (Instr.add fV).wellFormed = true := by decide +kernel

theorem witness_EncodeOfDecode : okB (decodeWords 0x1FC0000000002C61 0 0) = true := by decide +kernel

theorem witness_EncodingFates :
    (∀ i : Instr, i.opcode? ≠ some (BitVec.extractLsb' 4 10 (0x1FC0000000003C01 : BitVec 64))) ∧
    (Fmt.ofWords 0x1FC0000000003C01 0 0).isSome = true ∧
    (∃ f, Fmt.ofWords 0x1FC000000000003D 0 0 = some f ∧ (Instr.mulhi f).classes.contains f.cls = false) ∧
    (∃ f, Fmt.ofWords 0x1F00000000000001 0 0 = some f ∧ (Instr.add f).classes.contains f.cls = true ∧ (Instr.add f).wellFormed = false ∧ f.cls = .uni) ∧
    BitVec.extractLsb' 0 2 (0x1FC0000000000000 : BitVec 64) = 0 := by
  refine ⟨fun i => ?_, by decide +kernel, ⟨_, rfl, by decide +kernel⟩, ⟨_, rfl, by decide +kernel, by decide +kernel, by decide +kernel⟩, by decide +kernel⟩
  cases i <;> exact of_decide_eq_true rfl

/-- A ready device whose one team has come to a word; the team, its split and memory as given. -/
def fetching (w : Nat) (g : Team → Team := id) (h : Split → Split := id) (m : SMap Byte → SMap Byte := id) : State :=
  let s := State.reset.withFetchWord 64 w
  { s with others := s.others.map fun t => g { t with splits := t.splits.map h }, mem := m s.mem }

/-- The same with the team a helper group of another, which waits. -/
def fetchingHelper (w : Nat) (h : Split → Split := id) (m : SMap Byte → SMap Byte := id) : State :=
  let s := fetching w (fun t => { t with role := .helper 9 }) h m
  { s with others := s.others ++ [{ team0 with id := 9, splits := [{ split0 with id := 5, park := .barrier 0 }], recruit := { state := .active, group := some 3 } }] }

/-- The split that issues next in that device: the state whose instruction the step runs. -/
def issuing (s : State) : State :=
  (({ s.unfocus.tick with free := s.unfocus.tick.free + 1 } : State).focus 3 4).modTeam fun w => { w with fetchOff := none }

/-- What `StepRunsDecodedInstruction` asks before its clauses. -/
def issuesB (s : State) : Bool :=
  let u := s.unfocus.tick
  !s.stopped && u.forced.isNone && u.agenda.isEmpty && decide (u.openMoves = [.issue 3 4]) && decide ((issuing s).split.owed = 0)

/-- The translation of the fetch, and the words of the fetched instruction. -/
def fetched (s : State) : Xl :=
  let v := issuing s
  v.translate v.team.ctx v.team.launch v.team.part v.team.core .fetch v.split.pc
def fetchedBytes (s : State) (n : Nat) : List Byte :=
  match fetched s with
  | .ok p => (List.range n).map fun k => (issuing s).byteAs p.kid (p.key + k)
  | _ => []
def nopWord : Nat := 0x1FC0000000001471

/-- The fetch has come to the bytes: canonical, translated, its first word outside the pools, with that length. -/
def lengthB (s : State) (len : Option Len) : Bool :=
  let v := issuing s
  issuesB s && canonical v.split.pc && xlOk (fetched s) && !meetsPool v.owner v.split.pc 4 &&
    decide (Len.ofCode? (((fetchedBytes s 1).headD 0).extractLsb' 0 2) = len)

/-- And the rest is in order. -/
def comeB (s : State) : Bool :=
  let v := issuing s
  lengthB s (some .l64) && decide (v.split.pc.toNat % 32 + 8 ≤ 32) && !meetsPool v.owner (v.split.pc + 4) 4

theorem witness_StepRunsDecodedInstruction :
    (let s := fetching nopWord (h := fun x => { x with pc := 0x100000000000000 })
     issuesB s = true ∧ canonical (issuing s).split.pc = false) ∧
    (let s := fetching nopWord (h := fun x => { x with pc := 0x40000000 })
     issuesB s = true ∧ canonical (issuing s).split.pc = true ∧ (match fetched s with | .fault _ => true | _ => false) = true) ∧
    (let s := fetching nopWord (g := fun t => { t with plbase := [(0, 0x100000)], pllim := [(0, 0x100004)] })
     issuesB s = true ∧ xlOk (fetched s) = true ∧ meetsPool (issuing s).owner 0x100000 4 = true) ∧
    lengthB (fetching 0x1FC0000000001470) none = true ∧
    (let s := fetching nopWord (h := fun x => { x with pc := 0x10001C }) (m := fun m => m.setList unlistedByte 0x10001C (leBytes 8 nopWord))
     lengthB s (some .l64) = true ∧ 32 < (issuing s).split.pc.toNat % 32 + 8) ∧
    (let s := fetching nopWord (g := fun t => { t with plbase := [(0, 0x100004)], pllim := [(0, 0x100100)] })
     lengthB s (some .l64) = true ∧ meetsPool (issuing s).owner 0x100004 4 = true) ∧
    (let s := fetching nopWord
     comeB s = true ∧ decodesTo (fetchedBytes s 8) (.nop { cls := .uni, len := .l64 }) = true ∧ (issuing s).split.run.count < 24) ∧
    (let s := fetching nopWord (h := fun x => { x with run := { x.run with count := 24 } })
     comeB s = true ∧ decodesTo (fetchedBytes s 8) (.nop { cls := .uni, len := .l64 }) = true ∧ 24 ≤ (issuing s).split.run.count ∧
       (issuing s).forbidden (.nop { cls := .uni, len := .l64 }) = false) ∧
    (let s := fetching 0x1FC0000000003C01
     comeB s = true ∧ meets (fetchedBytes s 8) .ILLOP = true) ∧
    (let s := fetchingHelper 0x1FC0000000001451 (h := fun x => { x with run := { x.run with count := 24 } })
     comeB s = true ∧ decodesTo (fetchedBytes s 8) (.exit { cls := .uni, len := .l64 }) = true ∧
       (issuing s).forbidden (.exit { cls := .uni, len := .l64 }) = true) ∧
    (let s := fetchingHelper 0x1FC0000000001491 (m := fun m => m.set unlistedByte 0x100001 0x54)
     comeB s = true ∧ meets (fetchedBytes s 8) .ILLENC = true ∧ (issuing s).inHelper = true ∧ (issuing s).namedHere.any (issuing s).forbidden = true) := by
  decide +kernel

theorem witness_StepKeepsMemoryCanonical :
    Memory.wf (fetching nopWord).mem = true ∧ (∃ t, step (fetching nopWord) = .next t) := by
  refine ⟨by decide +kernel, ?_⟩
  have h : (match step (fetching nopWord) with | .next _ => true | _ => false) = true := by decide +kernel
  revert h
  cases step (fetching nopWord) <;> simp

theorem witness_GuardedOff :
    (let i : Instr := .bra { fBra with guard := 3 }
     preCheck (base.issueCycle { fBra with guard := 3 }) i { fBra with guard := 3 } (usesOf i) false base = none ∧
       guardOn { fBra with guard := 3 } (base.seen i { fBra with guard := 3 }) = false ∧ endsRun i = true) ∧
    (let i : Instr := .add { fV with guard := 3 }
     preCheck (base.issueCycle { fV with guard := 3 }) i { fV with guard := 3 } (usesOf i) false base = none ∧
       guardOn { fV with guard := 3 } (base.seen i { fV with guard := 3 }) = false ∧ endsRun i = false) ∧ base.split.gated = none := by decide +kernel

/-- A helper group of one lane, lent by team 3. -/
def helping : State :=
  { base with team := { id := 7, role := .helper 3, launch := 1, block := 2, n := 1, live := 1, lent := [{ team := 3, lane := 1, helper := 0 }] },
              split := { id := 8, pc := 0x100100, mask := 1, run := { active := true }, begun := 5, buffer := true },
              others := [{ team0 with splits := [half base |>.split], recruit := { state := .active, total := 3, group := some 7 } }] }

def fTemp : Fmt := { cls := .var, len := .l64, d := 4, a := 248, b := 2 }

theorem witness_EarlyFaults :
    (base.split.gated = none ∧ helping.split.gated = none ∧ ∀ g : Team → Team, (on g).split.gated = none) ∧
    (let i : Instr := .mov fU
     helping.inHelper = true ∧ guardOn fU (helping.seen i fU) = true ∧ helperMay i fU = false) ∧
    (let s := on fun t => { t with tctl := 1, fresh := [{ reg := .s 1, old := .word 1 0, readyAt := 9, ranks := 1 }] }
     s.inHelper = false ∧ stallCheck (s.issueCycle fU) (.add fU) fU (usesOf (.add fU)).reads (usesOf (.add fU)).writes s = true ∧
       guardOn fU (s.seen (.add fU) fU) = true) ∧
    (let f := { fU with guard := 1 }
     let s := on fun t => { t with tctl := 1, fresh := [{ reg := .q 1, old := .bit 1 false, readyAt := 9, ranks := 1 }] }
     s.inHelper = false ∧ stallCheck (s.issueCycle f) (.add f) f f.guardReg [] s = true) ∧
    (base.inHelper = false ∧ stallCheck (base.issueCycle fTemp) (.add fTemp) fTemp fTemp.guardReg [] base = false ∧
      stallCheck (base.issueCycle fTemp) (.add fTemp) fTemp (usesOf (.add fTemp)).reads (usesOf (.add fTemp)).writes base = false ∧
      guardOn fTemp (base.seen (.add fTemp) fTemp) = true ∧ tempDead (usesOf (.add fTemp)) base = true) ∧
    (∀ g ∈ [(0 : BitVec 4), 3], let f := { fV with guard := g }
     let s := on fun t => { t with blocks := 0 }
     stallCheck (s.issueCycle f) (.add f) f f.guardReg [] s = false ∧ stallCheck (s.issueCycle f) (.add f) f (usesOf (.add f)).reads (usesOf (.add f)).writes s = false ∧
       tempDead (usesOf (.add f)) s = false ∧ outsideBlocks (usesOf (.add f)) s = true) ∧
    (let f := { fV with d := 16, a := 1, b := 2 }
     let u := usesOf (.add f)
     helping.inHelper = true ∧ helperMay (.add f) f = true ∧ stallCheck (helping.issueCycle f) (.add f) f (u.reads ++ f.guardReg) u.writes helping = false ∧
       tempDead u helping = false ∧ outsideBlocks u helping = false ∧ guardOn f (helping.seen (.add f) f) = true ∧
       namesBadly (.add f) f u helping = true) := by
  refine ⟨⟨rfl, rfl, fun _ => rfl⟩, ?_⟩
  decide +kernel

def fBcast : Fmt := { cls := .var, len := .l64, d := 4, b := 1, kb := true }
def fMata : Fmt := { cls := .var, len := .l64, d := 4, a := 1, ka := true }
def fMkaff : Fmt := { cls := .aff, len := .l96, d := 4, b := 1, kb := true, x := { c := 3, kc := 1 } }

theorem witness_LaneCopies :
    Acts (.bcast fBcast) fBcast words ∧ fBcast.cls = .var ∧ Acts (.mata fMata) fMata (pairs 0x10) ∧ fMata.cls = .var ∧
    (Acts (.mkaff fMkaff) fMkaff words ∧ (words.seen (.mkaff fMkaff) fMkaff).diverged = false) ∧
    (Acts (.mkaff fMkaff) fMkaff (half words) ∧ ((half words).seen (.mkaff fMkaff) fMkaff).diverged = true) := by
  simp only [acts_iff]; decide +kernel

def fVuni : Fmt := { cls := .uni, len := .l64, d := 4, a := 1 }
def fVu2 : Fmt := { cls := .uni, len := .l64, d := 4, a := 1, b := 2 }

/-- The forms of this family: each issues with a result, alone or team-wide. -/
def laneForms : List (Instr × Fmt) :=
  [(.vfirst fVu2, fVu2), (.vuni fVuni, fVuni), (.vuniTry fVu2, fVu2), (.vaff fVu2, fVu2), (.shfl fV, fV), (.ishuf fV, fV), (.vred fV, fV), (.scan fV, fV),
   (.vote { fV with x := { qual := 3 } }, { fV with x := { qual := 3 } }), (.vote fV, fV), (.vote fVuni, fVuni),
   (.vote { fU with x := { qual := 3 } }, { fU with x := { qual := 3 } })]

theorem witness_CrossLaneResults :
    let same := on fun t => { t with tags := [(1, .i32)], v := (List.range 4).map fun l => (1024 + l, 5) }
    let steps := on fun t => { t with tags := [(1, .i32)], v := [(1024, 7), (1025, 10), (1026, 13), (1027, 16)] }
    let raised := fun v => match agree fVuni v with | .error l => decide (l = 1) | .ok _ => false
    (∀ x ∈ laneForms, let v := same.seen x.1 x.2
      Acts x.1 x.2 same ∧ (laneResult x.1 x.2 v).isSome = true ∧ laneSourceFits x.1 x.2 v = true ∧ v.diverged = false) ∧
    (∀ x ∈ laneForms, let v := (half same).seen x.1 x.2
      Acts x.1 x.2 (half same) ∧ (laneResult x.1 x.2 v).isSome = true ∧ laneSourceFits x.1 x.2 v = true ∧ v.diverged = true) ∧
    (∀ x ∈ laneForms.take 4, laneTeamWide x.1 x.2 = true) ∧ laneTeamWide (.vote fVuni) fVuni = true ∧ laneTeamWide (.vote fV) fV = false ∧
    (∀ x ∈ [(Instr.vaff fVu2, fVu2), (.vred fV, fV), (.scan fV, fV)], let v := (lanes .f32).seen x.1 x.2
      Acts x.1 x.2 (lanes .f32) ∧ (laneResult x.1 x.2 v).isSome = true ∧ laneSourceFits x.1 x.2 v = false) ∧
    (let v := steps.seen (.vuni fVuni) fVuni
     Acts (.vuni fVuni) fVuni steps ∧ v.diverged = false ∧ raised v = true) ∧
    okB (agree fVuni (same.seen (.vuni fVuni) fVuni)) = true ∧ okB (agree fVu2 (steps.seen (.vuniTry fVu2) fVu2)) = false ∧
    (progression fVu2 (steps.seen (.vaff fVu2) fVu2)).isSome = true := by
  simp only [acts_iff]; decide +kernel

/-- The four positions that `shfl` may ask for: inside the tile and the split, below it, past it, a lane that is not in the split. -/
theorem witness_ShuffleSource :
    let v := half (lanes .i32)
    let f := fun (q : BitVec 4) => { fV with len := .l96, x := { qual := q } }
    (1 < 1024 ∧ (0 : Int) ≤ (rawB (f 3) v 0).toNat ∧ (0 ^^^ (rawB (f 3) v 0).toNat) < tileSize v.team ∧ 1 < v.team.n ∧ v.split.mask.getLsbD 1 = true) ∧
    ((0 : Int) % tileSize v.team - (rawB (f 1) v 0).toNat < 0) ∧ ((rawB { f 0 with b := 1 } v 3).toNat ≥ tileSize v.team) ∧
    v.split.mask.getLsbD 2 = false := by decide +kernel

def fPand : Fmt := { cls := .var, len := .l64, d := 4, a := 1, b := 2 }

theorem witness_PredicateLogic :
    (Acts (.pxor fPand) fPand preds ∧ fPand.cls = .var ∧ (predicateOp (.pxor fPand)).isSome = true) ∧
    (Acts (.pnot fU) fU preds ∧ fU.cls ≠ .var ∧ (preds.seen (.pnot fU) fU).diverged = false ∧ fU.d.toNat ≠ 7) ∧
    (Acts (.pnot fU) fU (half preds) ∧ ((half preds).seen (.pnot fU) fU).diverged = true) := by
  simp only [acts_iff]; decide +kernel

/-! Memory

From 0x40000000 on the entry is a demand entry, from 0x80000000 on the page is host memory, from 0xC0000000 on it lies outside the
partition's ranges. -/

def tree : SMap Byte :=
  (((fetchTree []).setList unlistedByte 0x30008 [4]).setList unlistedByte 0x30010 [0x3B, 1]).setList unlistedByte 0x30018 [0x3B, 0, 0, 0x40]

/-- Lane l of v1 holds 4 × l, or 8 × l; the pair d2 holds the base, s6 a value. -/
def mapped (b : Word) : State :=
  { on (fun t => { t with tags := [(1, .i32), (2, .i32)], v := [(1025, 4), (1026, 8), (1027, 12), (2048, 0x11), (2049, 0x22), (2050, 0x33), (2051, 0x44)],
                          s := [(4, b), (6, 7), (8, b)], q := [(1, true)], vwin := 0x20 }) with mem := tree }

/-- `[d2 + v1]` with data or result v2. -/
def fM : Fmt := { cls := .var, len := .l96, d := 2, a := 1, b := 4, kb := true }
def fMU : Fmt := { cls := .uni, len := .l64, d := 6, a := 4, b := 5 }

/-- Whether the check of the lanes answers locations with the property, or a stop with it. -/
def locsB (x : Except (Stop × Nat × Addr) (List Loc)) (p : List Loc → Bool) : Bool :=
  match x with
  | .ok ls => p ls
  | .error _ => false

def stopB (x : Except (Stop × Nat × Addr) (List Loc)) (p : Stop → Bool) : Bool :=
  match x with
  | .ok _ => false
  | .error e => p e.1

/-- What `AccessesEnter` asks of an access, beside `Acts`. -/
def entersB (i : Instr) (f : Fmt) (s : State) : Bool :=
  let v := s.seen i f
  match accessForm i f v with
  | none => false
  | some a => locsB (v.checkLanes (spaceOf f) a.acc a.size true a.quiet a.lanes) fun ls =>
      (ls.all fun x => decide (x.hosts = [] ∧ x.drop = none)) && decide (spaceOf f = .g → v.newColours ls = []) &&
        (watchStore v (spaceOf f) a.size ls).isNone

theorem witness_AccessesEnter :
    let f1 : Fmt := { fM with x := { qual := 3 } }
    let fa : Fmt := { fM with len := .l128, x := { c := 2 }, imm := 8 }
    let s := mapped 0x300000
    (Acts (.ld fM) fM s ∧ entersB (.ld fM) fM s = true) ∧ (Acts (.st fM) fM s ∧ entersB (.st fM) fM s = true) ∧
    (Acts (.ldfe f1) f1 (mapped 0) ∧ entersB (.ldfe f1) f1 (mapped 0) = true) ∧ (Acts (.stfe f1) f1 (mapped 0) ∧ entersB (.stfe f1) f1 (mapped 0) = true) ∧
    (Acts (.atom { fa with imm := 0 }) { fa with imm := 0 } s ∧ entersB (.atom { fa with imm := 0 }) { fa with imm := 0 } s = true) ∧
    (Acts (.red { fa with imm := 0 }) { fa with imm := 0 } s ∧ entersB (.red { fa with imm := 0 }) { fa with imm := 0 } s = true) ∧
    (Acts (.ld fMU) fMU s ∧ entersB (.ld fMU) fMU s = true) := by
  simp only [acts_iff]; decide +kernel

/-- The access has passed its colours before, and waits no more. -/
def passedStage (i : Instr) (f : Fmt) (s : State) : State :=
  let v := s.seen i f
  match (accessForm i f v).map fun a => v.checkLanes (spaceOf f) a.acc a.size true a.quiet a.lanes with
  | some (.ok ls) => s.modSplit fun x => { x with gated := some ls }
  | _ => s

theorem witness_AccessesEnter_again :
    let s := passedStage (.st fM) fM (mapped 0x300000)
    Acts (.st fM) fM s ∧ entersB (.st fM) fM s = true ∧
      (match accessForm (.st fM) fM (s.seen (.st fM) fM) with
        | none => false
        | some a => locsB ((s.seen (.st fM) fM).checkLanes (spaceOf fM) a.acc a.size true a.quiet a.lanes) fun ls =>
            decide (s.split.gated = some ls) && ls.all fun x => x.met.all (s.seen (.st fM) fM).owns) = true := by
  simp only [acts_iff]; decide +kernel

/-- The way to the page table crosses a link that is being retrained. -/
def cutOff : State := { mapped 0x300000 with homes := [(0, some { die := 1 })], links := [(0, 2)] }

theorem witness_AccessStops :
    let chk := fun (i : Instr) (f : Fmt) (s : State) (p : Stop → Bool) =>
      match accessForm i f (s.seen i f) with
      | none => false
      | some a => stopB ((s.seen i f).checkLanes (spaceOf f) a.acc a.size true a.quiet a.lanes) p
    (Acts (.ld fM) fM (mapped 0x300002) ∧ chk (.ld fM) fM (mapped 0x300002) (fun x => x == .fault .ALIGN) = true) ∧
    (Acts (.ld fM) fM (mapped 0xC0000000) ∧ chk (.ld fM) fM (mapped 0xC0000000) (fun x => match x with | .refused _ => true | _ => false) = true) ∧
    (Acts (.ld fM) fM (mapped 0x40000000) ∧ chk (.ld fM) fM (mapped 0x40000000) (fun x => x == .driver) = true ∧ (mapped 0x40000000).inHelper = false) ∧
    (Acts (.ld fM) fM cutOff ∧ chk (.ld fM) fM cutOff (fun x => x == .wait) = true ∧ cutOff.split.gated = none) ∧
    (Acts (.ld fM) fM (mapped 0x80000000) ∧ (match accessForm (.ld fM) fM ((mapped 0x80000000).seen (.ld fM) fM) with
      | none => false
      | some a => locsB (((mapped 0x80000000).seen (.ld fM) fM).checkLanes (spaceOf fM) a.acc a.size true a.quiet a.lanes) fun ls =>
          (ls.find? fun x => !x.hosts.isEmpty).isSome) = true) := by
  simp only [acts_iff]; decide +kernel

/-- The words at 0x300000 are of colour 9, held by team 40 where `taken`; the team holds `held`. -/
def coloured (held : List (Nat × Nat)) (taken : Bool) : State :=
  let s := mapped 0x300000
  { s with team := { s.team with held := held },
           ctxs := [(0, { desc := { ptroot := 0x10000, valid := true, pvarena := 0x200001 }, ranges := [{ base := 0x300000, len := 64, colour := 9 }],
                          monitors := if taken then [(9, { holder := some 40 })] else [] })],
           others := [{ team0 with id := 40, number := 1, held := [(9, 0)], splits := [] }] }

/-- What `ColourStage` asks, beside `Acts`: the new colours of the access. -/
def meetsColours (i : Instr) (f : Fmt) (s : State) (p : List (Nat × Loc) → Bool) : Bool :=
  let v := s.seen i f
  match accessForm i f v with
  | none => false
  | some a => a.colours && decide (spaceOf f = .g) && locsB (v.checkLanes (spaceOf f) a.acc a.size true a.quiet a.lanes) fun ls =>
      (ls.all fun y => decide (y.hosts = [] ∧ y.drop = none)) && p (v.newColours ls)

def hCols : Fmt := { cls := .var, len := .l96, d := 3, a := 1, b := 4, kb := true }

/-- The helper group beside coloured words. -/
def helperCols : State :=
  { helping with mem := tree, ctxs := (coloured [] false).ctxs,
                 team := { helping.team with v := [(1024, 0)], tags := [(1, .i32)] },
                 others := [{ team0 with splits := [split0], s := [(4, 0x300000)], recruit := { state := .active, total := 3, group := some 7 } }] }

theorem witness_ColourStage :
    (Acts (.ld hCols) hCols helperCols ∧ meetsColours (.ld hCols) hCols helperCols (fun cs => decide (cs.map Prod.fst = [9])) = true ∧ helperCols.inHelper = true) ∧
    (let s := coloured ((List.range 16).map fun k => (20 + k, 0)) false
     Acts (.ld fM) fM s ∧ meetsColours (.ld fM) fM s (fun cs => decide (cs.map Prod.fst = [9] ∧ 16 < s.team.held.length + cs.length)) = true) ∧
    (let s := coloured [(10, 0)] false
     Acts (.ld fM) fM s ∧ meetsColours (.ld fM) fM s (fun cs => decide (cs.map Prod.fst = [9] ∧ 9 < topColour s.team)) = true) ∧
    (∀ y ∈ [(coloured [(8, 0)] true, false), (coloured ((List.range 8).map fun k => (k, 0)) false, true), (coloured [] false, true)], let s := y.1
     Acts (.st fM) fM s ∧ meetsColours (.st fM) fM s (fun cs => decide (cs.map Prod.fst = [9] ∧ s.team.held.length + cs.length ≤ 16)) = true ∧
       (s.team.held = [] ∨ topColour s.team ≤ 9) ∧ s.colourFree 9 = y.2 ∧ s.split.gated = none ∧
       (match accessForm (.st fM) fM (s.seen (.st fM) fM) with
        | none => false
        | some a => locsB ((s.seen (.st fM) fM).checkLanes (spaceOf fM) a.acc a.size true a.quiet a.lanes) fun ls =>
            (watchStore (s.seen (.st fM) fM) (spaceOf fM) a.size ls).isNone) = true) ∧
    (let s := { coloured [] true with ctxs := [(0, { ((coloured [] true).ctx 0) with
                  ranges := [{ base := 0x300000, len := 4, colour := 7 }, { base := 0x300004, len := 60, colour := 9 }] })] }
     meetsColours (.st fM) fM s (fun cs => decide (cs.map Prod.fst = [7, 9])) = true ∧ s.colourFree 7 = true ∧ s.colourFree 9 = false) := by
  simp only [acts_iff]; decide +kernel

theorem witness_FenceAndLineControls :
    Acts (.fence { cls := .sys, len := .l64 }) { cls := .sys, len := .l64 } base ∧
    (Acts (.pref fM) fM (mapped 0x300000) ∧ addrTags fM ((mapped 0x300000).seen (.pref fM) fM) = true) ∧
    (Acts (.cwb fM) fM (mapped 0x300000) ∧ addrTags fM ((mapped 0x300000).seen (.cwb fM) fM) = true ∧
      locsB (((mapped 0x300000).seen (.cwb fM) fM).checkLanes .g .load 1 false false (accessLanes fM ((mapped 0x300000).seen (.cwb fM) fM)))
        (fun ls => decide ((byLine (ls.filter fun x => x.hosts.isEmpty)).length = 1)) = true) := by
  simp only [acts_iff]; decide +kernel

def fPg : Fmt := { cls := .uni, len := .l64, d := 3, a := 4, b := 5 }

/-- The host page at 0x80000000 belongs to the device where `mine`. -/
def hostPage (mine : Bool) : State :=
  { mapped 0x80000000 with pages := if mine then [(1, { device := true })] else [] }

theorem witness_PageControls :
    let xl := fun (i : Instr) (s : State) (p : Phys → Bool) =>
      match (s.seen i fPg).translate 0 s.team.launch 0 0 .other (baseAddr fPg (s.seen i fPg)) with | .ok x => p x | _ => false
    (Acts (.pgrel fPg) fPg (half (mapped 0x300000)) ∧ ((half (mapped 0x300000)).seen (.pgrel fPg) fPg).diverged = true) ∧
    (let s := on fun t => { t with s := [(5, 0x01000000)] }
     Acts (.pgown fPg) fPg s ∧ (s.seen (.pgown fPg) fPg).diverged = false ∧ canonical (baseAddr fPg (s.seen (.pgown fPg) fPg)) = false) ∧
    (Acts (.pgrel fPg) fPg (mapped 0x300000) ∧ xl (.pgrel fPg) (mapped 0x300000) (fun p => p.host.isNone) = true ∧ (mapped 0x300000).split.answer = none) ∧
    (Acts (.pgown fPg) fPg (mapped 0x300000) ∧ xl (.pgown fPg) (mapped 0x300000) (fun p => p.host.isNone) = true) ∧
    (Acts (.pgrel fPg) fPg (hostPage true) ∧ xl (.pgrel fPg) (hostPage true) (fun p => p.host == some 1) = true ∧ (hostPage true).owns 1 = true) ∧
    (Acts (.pgown fPg) fPg (hostPage true) ∧ xl (.pgown fPg) (hostPage true) (fun p => p.host == some 1) = true ∧ (hostPage true).split.answer = none) ∧
    (Acts (.pgrel fPg) fPg (hostPage false) ∧ xl (.pgrel fPg) (hostPage false) (fun p => p.host == some 1) = true ∧ (hostPage false).owns 1 = false) ∧
    (Acts (.pgown fPg) fPg (hostPage false) ∧ xl (.pgown fPg) (hostPage false) (fun p => p.host == some 1) = true ∧
      (hostPage false).split.answer ≠ some false) := by
  simp only [acts_iff]; decide +kernel

def fLit : Fmt := { cls := .uni, len := .l128, d := 4, imm := 0x100 }
def fLitV : Fmt := { cls := .var, len := .l128, d := 4, imm := 0x104 }

theorem witness_LiteralLoad :
    (Acts (.lit fLit) fLit (half (tabled 1)) ∧ ((half (tabled 1)).seen (.lit fLit) fLit).diverged = true) ∧
    (Acts (.lit { fLitV with imm := 0x102 }) { fLitV with imm := 0x102 } (tabled 1) ∧ (pcRel (tabled 1).split.pc 0x102).toNat % 4 ≠ 0) ∧
    (Acts (.lit { fLit with imm := 0x200 }) { fLit with imm := 0x200 } (tabled 1) ∧ ((tabled 1).seen (.lit { fLit with imm := 0x200 }) { fLit with imm := 0x200 }).diverged = false ∧
      inPool (tabled 1).team (pcRel (tabled 1).split.pc 0x200) 4 = false) ∧
    (Acts (.lit fLit) fLit (tabled 1) ∧ inPool ((tabled 1).seen (.lit fLit) fLit).owner (pcRel (tabled 1).split.pc 0x100) 4 = true ∧
      (match ((tabled 1).seen (.lit fLit) fLit).checkLane .g .load 4 true 0 0x100100 with | .ok x => x.hosts.isEmpty | .error _ => false) = true) ∧
    (let f := { fLit with x := { ty := .i64 } }
     Acts (.lit f) f (tabled 1) ∧ inPool (tabled 1).team (pcRel (tabled 1).split.pc 0x100) 8 = true ∧ ((tabled 1).seen (.lit f) f).diverged = false ∧
       (match ((tabled 1).seen (.lit f) f).checkLane .g .load 8 true 0 0x100100 with | .ok x => x.hosts.isEmpty | .error _ => false) = true) ∧
    (Acts (.lit fLitV) fLitV (tabled 1) ∧ fLitV.cls = .var ∧ inPool (tabled 1).team (pcRel (tabled 1).split.pc 0x104) 4 = true) := by
  simp only [acts_iff]; decide +kernel

/-- The machine with one entry in its queues. -/
def queued (e : Entry) : State := { mapped 0x300000 with entries := [e] }
def entry0 : Entry :=
  { id := 11, team := 3, core := 0, split := 4, flight := 12, kind := .load, locs := [0x300000, 0x300001, 0x300002, 0x300003], va := 0x300000,
    dest := some { var := true, reg := 5, lane := 2, tag := some .i32 } }

/-- What `Commits` asks of any entry. -/
def commitsB (e : Entry) : Bool :=
  let u := (queued e).unfocus
  decide ((u.entries.find? fun y => y.id == e.id) = some e) && u.canCommit e && !u.targetRefuses e && decide e.locs.Nodup &&
    u.others.any fun t => t.id == e.team

theorem witness_Commits :
    commitsB entry0 = true ∧ commitsB { entry0 with kind := .store, dest := none, data := [1, 2, 3, 4] } = true ∧
    commitsB { entry0 with kind := .stfe, dest := none, data := [1, 2, 3, 4] } = true ∧
    commitsB { entry0 with kind := .atomic 0 .i32 5 true } = true ∧ memSize .i32 = 4 ∧
    (let u := (queued { entry0 with kind := .atomic 0 .i32 5 true }).unfocus
     watched (u.part (u.teamOf entry0).part) (u.teamOf entry0).ctx ((List.range 4).map (entry0.va.toNat + ·)) = []) := by decide +kernel

theorem witness_AtomicValues :
    let sum := fun m x : Nat => (FFmt.f32.decode m).add .rne (FFmt.f32.decode x)
    (.i64 : Ty) ∈ [Ty.i32, .z32, .i64, .z64] ∧ 2 ^ 63 < 2 ^ (8 * memSize .i64) ∧ 5 < 2 ^ (8 * memSize .i64) ∧
    sum 0x7F800000 0xFF800000 = .nan ∧ 0xFF800000 < 2 ^ 32 ∧ sum 0x7F7FFFFF 0x7F7FFFFF ≠ .nan ∧ 0x7F7FFFFF < 0x7F800000 ∧
    0xFF7FFFFF = 0x7F7FFFFF + 2 ^ 31 := by decide +kernel

/-- A copy command of 8 scratchpad bytes, one element (R242). -/
def copyShape : List Byte := [1, 8] ++ List.replicate 14 0 ++ leBytes 8 1 ++ List.replicate 232 0

/-- An engine machine: a command of one element that copies 8 bytes of the scratchpad, and one update on its way to core 0. -/
def copying : Command :=
  { id := 13, team := 3, core := 0, ctx := 0, part := 0, block := 2, cls := 0, kind := .copy copyShape .sp 0 .sp 64 false false, total := 1, counts := [3] }
def update0 : Update := { core := 0, line := 0x300000 / 128, fill := true, bytes := [(0, 7)], store := 21 }
def moving : State :=
  { mapped 0x300000 with commands := [copying], updates := [update0], shares := [{ core := 0, line := 0x300000 / 128, ready := false }],
                         blocks := [{ id := 2, launch := 1, core := 0, teams := [3], spsize := 1024 }],
                         entries := [{ entry0 with kind := .fence, locs := [], dest := none }] }

/-- The same with elements of 32 bytes, of which 16 move at once. -/
def copyingLong : Command := { copying with kind := .copy ([1, 32] ++ copyShape.drop 2) .sp 0 .sp 64 false false }

theorem witness_QueueAndEngineMoves :
    moving.unfocus.headUpdate (moving.unfocus.homeOf (0x300000 / 128)) 0 = some update0 ∧ (moving.unfocus.share 0 0 update0.line).isSome = true ∧
    (let e : Entry := { entry0 with kind := .fence, locs := [], dest := none }
     (moving.unfocus.entries.find? fun y => y.id == e.id) = some e ∧ moving.unfocus.canRetire e = true ∧ ∀ x ∈ moving.unperf, x.store ≠ e.id) ∧
    ((moving.unfocus.commands.find? fun c => c.id == 13) = some copying ∧ moving.unfocus.mayMove copying 0 = true ∧ copying.elems.get .todo 0 = .todo ∧
      (elementOf copying 0).read = some (.sp, 0) ∧ (elementOf copying 0).write = some (.sp, 64) ∧ copying.elems = [] ∧ copying.olds = [] ∧
      (elementOf copying 0).bytes = 8 ∧ pieceAt 0 8 0 = 8 ∧ pieceAt 64 8 0 = 8 ∧ moving.unfocus.links = [] ∧
      (match moving.unfocus.reach copying (.sp, 0) 8 false false with | .ok _ _ => true | _ => false) = true ∧
      (match moving.unfocus.reach copying (.sp, 64) 8 true false with | .ok _ _ => true | _ => false) = true) ∧
    (let s := { moving with commands := [copyingLong] }
     s.unfocus.mayMove copyingLong 0 = true ∧ (elementOf copyingLong 0).read = some (.sp, 0) ∧ (elementOf copyingLong 0).write = some (.sp, 64) ∧
       (elementOf copyingLong 0).bytes = 32 ∧ pieceAt 0 32 0 = 16 ∧
       (match s.unfocus.reach copyingLong (.sp, 0) 32 false false with | .ok _ _ => true | _ => false) = true ∧
       (match s.unfocus.reach copyingLong (.sp, 64) 32 true false with | .ok _ _ => true | _ => false) = true ∧
       (match s.unfocus.reach copyingLong (.sp, 0) 16 false false with | .ok _ _ => true | _ => false) = true) := by
  refine ⟨?_, by decide +kernel, by decide +kernel, by decide +kernel, by decide +kernel⟩
  have hu : moving.unfocus.updates = [update0] := by decide +kernel
  have hd : moving.unfocus.homeDie (128 * (0x300000 / 128)) = 0 := by decide +kernel
  have hr : moving.unfocus.routeOpen 0 0 = true := by decide +kernel
  have hc : moving.unfocus.dieOf 0 = 0 := by decide +kernel
  have hh : moving.unfocus.homeOf (0x300000 / 128) / 16 = 0 := by simp only [State.homeOf, hd]; omega
  have hf : (moving.unfocus.updates.find? fun q => q.core == 0 && moving.unfocus.homeOf q.line == moving.unfocus.homeOf (0x300000 / 128)) =
      some update0 := by rw [hu]; simp [update0]
  simp only [State.headUpdate, hf, hh, hc, hr]
  simp

/-! Lanes: blocks, rendezvous, barriers -/

def fSetpart (n : Word) : Fmt := { cls := .uni, len := .l128, imm := n }
def fTry (k : Word) : Fmt := { cls := .uni, len := .l128, d := 3, x := { qual := 1 }, imm := k }

/-- The team holds `m` register blocks. -/
def blocked (m : Nat) : State := on fun t => { t with blocks := m }

theorem witness_RegisterBlocks :
    (Acts (.setpart (fSetpart 5)) (fSetpart 5) base ∧ Acts (.setpart (fSetpart 4)) (fSetpart 4) (half base) ∧
      ((half base).seen (.setpart (fSetpart 4)) (fSetpart 4)).diverged = true ∧ Acts (.setpart (fSetpart 4)) (fSetpart 4) base ∧
      (base.seen (.setpart (fSetpart 4)) (fSetpart 4)).diverged = false) ∧
    (Acts (.rgacq (fSetpart 2)) (fSetpart 2) (half (blocked 4)) ∧ Acts (.rgacq (fSetpart 0)) (fSetpart 0) (blocked 4) ∧
      Acts (.rgacqTry (fTry 0)) (fTry 0) (blocked 4) ∧ Acts (.rgacq (fSetpart 27)) (fSetpart 27) (blocked 4) ∧ Acts (.rgacqTry (fTry 27)) (fTry 27) (blocked 4) ∧
      (let v := (blocked 4).seen (.rgacq (fSetpart 27)) (fSetpart 27)
       (v.core 0).acquirers = [] ∧ (blocked 4).team.blocks + 27 ≤ 31 ∧ v.rankBlocks 0 + 27 * ranksOf 4 ≤ 512) ∧
      Acts (.rgacq (fSetpart 28)) (fSetpart 28) (blocked 4) ∧ ¬ (blocked 4).team.blocks + 28 ≤ 31 ∧ Acts (.rgacqTry (fTry 28)) (fTry 28) (blocked 4)) ∧
    (Acts (.rgrel (fSetpart 2)) (fSetpart 2) (half (blocked 4)) ∧
      (let s := on fun t => { t with recruit := { state := .active } }
       Acts (.rgrel (fSetpart 2)) (fSetpart 2) s ∧ s.team.recruit.state ≠ .none) ∧
      (let s := on fun t => { t with pending := [{ id := 9, flight := 8, regs := [.v 245], value := none, split := 4 }] }
       Acts (.rgrel (fSetpart 2)) (fSetpart 2) s ∧ ∃ p ∈ s.team.pending, Reg.v 245 ∈ p.regs ∧ 8 * (31 - 2) ≤ 245 ∧ 245 < 248) ∧
      (let s := blocked 4
       Acts (.rgrel (fSetpart 2)) (fSetpart 2) s ∧ s.team.recruit.state = .none ∧ s.team.expand = none ∧ s.team.pending = [])) := by
  simp only [acts_iff]; decide +kernel

def fSend : Fmt := { cls := .var, len := .l64, a := 1, b := 15 }
def fRecv : Fmt := { cls := .var, len := .l64, d := 5, b := 15 }

/-- Team 40 of the block waits in slot 15: as a receiver into v6, or as a sender. -/
def meeting (send : Bool) : State :=
  let p : Party := { team := 40, split := 41, flight := 42, reg := 6, active := 0x7, vals := [(0, 5), (1, 6)], tag := .i32 }
  let s := lanes .i32
  { s with others := [{ team0 with id := 40, number := 1, splits := [{ split0 with id := 41, park := .rendezvous 15 send }] }],
           blocks := [{ id := 2, launch := 1, core := 0, teams := [3, 40], slots := [(15, if send then { senders := [p] } else { receivers := [p] })] }] }

theorem witness_RendezvousAndBarriers :
    (Acts (.rvsend fSend) fSend (lanes .i32) ∧ ((lanes .i32).block.slots.get {} 15).receivers = []) ∧
    (Acts (.rvsend fSend) fSend (meeting false) ∧ Single (meeting false) ∧ ∃ r : Party, ∃ w : Team, ((meeting false).block.slots.get {} 15).receivers = [r] ∧
      ((meeting false).others.find? fun t => t.id == r.team) = some w ∧
      r.team ≠ (meeting false).team.id ∧ r.team ≠ 0 ∧ r.reg < 248 ∧ ∀ x ∈ w.every, x.id = r.split → x.wave = none) ∧
    (Acts (.rvrecv fRecv) fRecv (lanes .i32) ∧ ((lanes .i32).block.slots.get {} 15).senders = []) ∧
    (Acts (.rvrecv fRecv) fRecv (meeting true) ∧ ((meeting true).block.slots.get {} 15).senders ≠ []) ∧
    (Acts (.bar { cls := .sys, len := .l64, b := 7 }) { cls := .sys, len := .l64, b := 7 } (half base) ∧
      ((half base).seen (.bar { cls := .sys, len := .l64, b := 7 }) { cls := .sys, len := .l64, b := 7 }).diverged = true) ∧
    Acts (.barx { cls := .sys, len := .l64, b := 7 }) { cls := .sys, len := .l64, b := 7 } (meeting true) ∧
    (let s := (meeting true).unfocus
     let b := (meeting true).block
     s.findBlock b.id = some b ∧ ∃ t ∈ s.liveTeams b, ∀ k, k < 8 → ((b.barriers.get {} k).arrived.map Arrival.team).Nodup ∧
       ∀ a ∈ (b.barriers.get {} k).arrived, a.team ≠ t.id) := by
  simp only [acts_iff, single_iff]
  refine ⟨by decide +kernel, ⟨by decide +kernel, by decide +kernel, _, _, rfl, rfl, by decide +kernel⟩, by decide +kernel, by decide +kernel,
    by decide +kernel, by decide +kernel, by decide +kernel, by decide +kernel⟩

/-! Harvest -/

def fRecruit : Fmt := { cls := .uni, len := .l128, d := 2, a := 1, b := 3, x := { c := 3, kc := 1 }, imm := 0x80 }

/-- A partner team of the block waits at a barrier: its lanes are idle. -/
def idle : State :=
  { words with others := [{ team0 with id := 40, number := 1, splits := [{ split0 with id := 41, park := .barrier 2, run := {}, buffer := false }] }],
               blocks := [{ id := 2, launch := 1, core := 0, teams := [3, 40] }] }

def fNext : Fmt := { cls := .var, len := .l64, d := 4, b := 3 }
def fHred : Fmt := { cls := .var, len := .l96, d := 5, a := 1, x := { qual := 0 } }
def fWait : Fmt := { cls := .uni, len := .l64, d := 3 }

/-- The team has released its recruitment, and works itself: v5 is the target, lanes hold iterations 0 to 3. -/
def released : State :=
  { lanes .i32 with team := { (lanes .i32).team with
      tags := [(1, .i32), (5, .i32)],
      recruit := { state := .released, total := 6, next := 4, returned := [2], mine := [(0, 0), (1, 1), (2, 2), (3, 3)] } } }

/-- The recruitment with its state, next iteration and fault. -/
def waiting (st : RecruitState) (next : Nat) (fault : Option (Nat × Code × Nat × Addr)) (group : Option Nat := none) : State :=
  on fun t => { t with recruit := { state := st, total := 6, next := next, fault := fault, group := group } }

theorem witness_Recruitment :
    (Acts (.recruit fRecruit) fRecruit (half idle) ∧ ((half idle).seen (.recruit fRecruit) fRecruit).diverged = true) ∧
    (Acts (.recruit fRecruit) fRecruit words ∧ (words.seen (.recruit fRecruit) fRecruit).diverged = false ∧ words.inHelper = false ∧
      (words.seen (.recruit fRecruit) fRecruit).refusal = none ∧ (words.seen (.recruit fRecruit) fRecruit).idleLanes false = []) ∧
    (Acts (.recruit fRecruit) fRecruit { idle with team := { idle.team with recruit := { state := .active } } } ∧
      (({ idle with team := { idle.team with recruit := { state := .active } } } : State).seen (.recruit fRecruit) fRecruit).refusal ≠ none) ∧
    (let v := idle.seen (.recruit fRecruit) fRecruit
     Acts (.recruit fRecruit) fRecruit idle ∧ v.diverged = false ∧ idle.inHelper = false ∧ v.refusal = none ∧
       (v.idleLanes false).take (min (min (min (v.readS 3).toNat 1024) (v.readS 1).toNat) (v.freeSets 0)) ≠ []) ∧
    (let f : Fmt := { fRecruit with d := 0, a := 0, x := { c := 0, kc := 1 } }
     Acts (.recruit f) f helping ∧ (helping.seen (.recruit f) f).diverged = false ∧ helping.inHelper = true) ∧
    (Acts (.hnext fNext) fNext base ∧ dealSource base = none) ∧
    (Acts (.hnext fNext) fNext released ∧ (dealSource released).isSome = true ∧ released.inHelper = false) ∧
    (Acts (.hnext fNext) fNext helping ∧ (dealSource helping).isSome = true ∧ leaving helping.team &&& helping.split.mask = 0) ∧
    released.team.recruit.state ≠ .cancelled ∧
    (let v := released.seen (.hred fHred) fHred
     Acts (.hred fHred) fHred released ∧ redHeld fHred released = true ∧ ∃ r, redSource released = some r ∧
       (r.targets.find? fun g => g.reg == redReg fHred released) = none ∧ r.targets.length < 4 ∧
       (∀ l ∈ activeLanes fHred v, (iterOf released r l).isSome = true) ∧ tagIn v 1 [.i32] = true ∧ v.owner.tags.get .raw (redReg fHred released) = .i32) ∧
    (Acts (.hwait fWait) fWait (half base) ∧ Acts (.hwait fWait) fWait base ∧ base.team.recruit.state = .none ∧ fWait.d.toNat ≠ 7) ∧
    (Acts (.hwait fWait) fWait (waiting .active 6 none (some 7)) ∧ (waiting .active 6 none (some 7)).team.recruit.group.isSome = true) ∧
    (Acts (.hwait fWait) fWait (waiting .active 6 (some (0, .ALIGN, 2, 4))) ∧ (waiting .active 6 (some (0, .ALIGN, 2, 4))).team.recruit.group = none) ∧
    (Acts (.hwait fWait) fWait (waiting .active 3 none) ∧ (waiting .active 3 none).team.recruit.remains = true) ∧
    (Acts (.hwait fWait) fWait (waiting .active 6 none) ∧ (waiting .active 6 none).team.recruit.remains = false) ∧
    (Acts (.hrel fRet) fRet (half base) ∧ Acts (.hrel fRet) fRet base ∧ Acts (.hrel fRet) fRet (waiting .active 3 none)) ∧
    (let f : Fmt := { cls := .var, len := .l64 }
     Acts (.hexit f) f base ∧ base.inHelper = false ∧ Acts (.hexit f) f helping ∧ helping.inHelper = true) := by
  simp only [acts_iff]
  refine ⟨by decide +kernel, by decide +kernel, by decide +kernel, by decide +kernel, by decide +kernel, by decide +kernel, by decide +kernel, by decide +kernel,
    by decide +kernel, ⟨by decide +kernel, by decide +kernel, _, rfl, by decide +kernel⟩, by decide +kernel, by decide +kernel, by decide +kernel, by decide +kernel,
    by decide +kernel, by decide +kernel, by decide +kernel⟩

def fXp : Fmt := { cls := .var, len := .l64, a := 1, b := 2 }
def fXpN : Fmt := { cls := .var, len := .l96, d := 6, a := 1, b := 2, x := { qual := 1 } }
def fXn : Fmt := { cls := .var, len := .l64, d := 4, a := 6, b := 3 }
def fSeg : Fmt := { cls := .var, len := .l64, d := 5, a := 1 }

/-- An open expansion of the whole team: each lane owns two iterations. -/
def expansion0 : Expansion :=
  { w := 4, workers := 0xF, total := 8, next := 1, current := some 0,
    owners := (List.range 4).map fun l => { lane := l, start := 100, base := 2 * l, len := 2 } }
def expanding (g : Expansion → Expansion := id) : State :=
  { lanes .i32 with team := { (lanes .i32).team with tags := [(1, .i32), (5, .i32)], expand := some (g expansion0), own := [(2, 1), (3, 1)] } }

/-- A drafted group of one lane. -/
def drafted : State :=
  { base with team := { id := 7, role := .drafted 3, launch := 1, block := 2, n := 1, live := 1, lent := [{ team := 40, lane := 0, helper := 0, reclaimed := some 9 }] },
              split := { id := 8, pc := 0x100100, mask := 1, run := { active := true }, begun := 5, buffer := true },
              others := [{ team0 with splits := [split0], expand := some { expansion0 with group := some 7, gcurrent := some 0 } }] }

/-- Lengths of 2^31 − 1 in every lane. -/
def longLanes : State :=
  { lanes .i32 with team := { (lanes .i32).team with v := [(2048, 0x7FFFFFFF), (2049, 0x7FFFFFFF), (2050, 1), (2051, 1)] } }

theorem witness_Expansions :
    let fits := fun (s : State) => tagsOk (s.seen (.xpand fXp) fXp) (varA fXp ++ varB fXp) [.i32, .raw]
    let total := fun (s : State) => (ownersOf ((activeLanes fXp (s.seen (.xpand fXp) fXp)).map fun l =>
      (l, rawA fXp (s.seen (.xpand fXp) fXp) l, lengthOf (rawB fXp (s.seen (.xpand fXp) fXp) l))) 0).2
    (Acts (.xpand fXp) fXp (lanes .f32) ∧ fits (lanes .f32) = false) ∧
    (Acts (.xpand fXp) fXp (expanding fun e => e) ∧ fits (expanding fun e => e) = true ∧ (expanding fun e => e).team.expand.isSome = true) ∧
    (Acts (.xpand fXp) fXp longLanes ∧ fits longLanes = true ∧ longLanes.team.expand = none ∧ 2 ^ 31 ≤ total longLanes) ∧
    (let s := { lanes .i32 with cores := [(0, { expanders := [{ team := 77, split := 78 }] })] }
     Acts (.xpand fXp) fXp s ∧ total s < 2 ^ 31 ∧ (s.seen (.xpand fXp) fXp).mayOpen = false) ∧
    (Acts (.xpand fXp) fXp (lanes .i32) ∧ total (lanes .i32) < 2 ^ 31 ∧ ((lanes .i32).seen (.xpand fXp) fXp).mayOpen = true) ∧
    (let s := { idle with team := (lanes .i32).team }
     let v := s.seen (.xpandN fXpN) fXpN
     Acts (.xpandN fXpN) fXpN s ∧ v.mayOpen = true ∧ v.refusal = none ∧ 4 ≤ (v.idleLanes true).length ∧ 4 ≤ v.freeSets 0) ∧
    (0 < (ownersOf [(0, 5, 3), (1, 6, 0), (2, 7, 2)] 0).2 ∧ 4 < (ownersOf [(0, 5, 3), (1, 6, 0), (2, 7, 2)] 0).2) ∧
    (Acts (.xnext fXn) fXn base ∧ base.expansion = none) ∧
    (Acts (.xnext fXn) fXn (half (expanding id)) ∧ (half (expanding id)).expansion.isSome = true ∧ (half (expanding id)).split.mask ≠ 0xF) ∧
    (let s := expanding fun e => { e with current := some 65, gcurrent := some 0, next := 66, closed := (List.range 64).map (· + 1) }
     Acts (.xnext fXn) fXn s ∧ s.split.mask = 0xF ∧ 64 < ((s.closeCurrent.expansion.map Expansion.closed).getD []).length) ∧
    (let s := expanding fun e => { e with current := some 64, gcurrent := some 0, next := 65, closed := (List.range 63).map (· + 1) }
     Acts (.xnext fXn) fXn s ∧ s.split.mask = 0xF ∧ ((s.closeCurrent.expansion.map Expansion.closed).getD []).length = 64) ∧
    (Acts (.xnext fXn) fXn drafted ∧ drafted.inHelper = true ∧ leaving drafted.team ≠ 0 ∧ drafted.split.mask = drafted.team.live ∧
      ((drafted.closeCurrent.expansion.map Expansion.closed).getD []).length ≤ 64 ∧ drafted.closeCurrent.expansion.isSome = true) ∧
    (let s := { drafted with team := { drafted.team with lent := [{ team := 40, lane := 0, helper := 0 }] } }
     Acts (.xnext fXn) fXn s ∧ s.inHelper = true ∧ leaving s.team = 0 ∧ s.split.mask = s.team.live ∧ s.closeCurrent.expansion.isSome = true) ∧
    (Acts (.xnext fXn) fXn (expanding id) ∧ (expanding id).inHelper = false ∧ (expanding id).closeCurrent.expansion.isSome = true) ∧
    (Acts (.segred fSeg) fSeg (expanding id) ∧ currentWave (expanding id) expansion0 = some 0 ∧ redHeld fSeg (expanding id) = true ∧
      tagIn ((expanding id).seen (.segred fSeg) fSeg) 1 [.i32] = true ∧ ((expanding id).seen (.segred fSeg) fSeg).owner.tags.get .raw (redReg fSeg (expanding id)) = .i32) ∧
    (Acts (.xend fRet) fRet base ∧ base.team.expand = none) ∧
    (Acts (.xend fRet) fRet (half (expanding id)) ∧ (half (expanding id)).split.mask ≠ expansion0.workers) ∧
    (Acts (.xend fRet) fRet (expanding fun e => { e with group := some 7 }) ∧ (expanding fun e => { e with group := some 7 }).split.mask = expansion0.workers) ∧
    (Acts (.xend fRet) fRet (expanding id) ∧ expansion0.group = none ∧ expansion0.fault = none) ∧
    Acts (.xend fRet) fRet (expanding fun e => { e with fault := some (0, .ALIGN, 2, 4) }) := by
  simp only [acts_iff]; decide +kernel

/-! Colours -/

def fTint : Fmt := { cls := .uni, len := .l96, d := 3, a := 4, b := 6, x := { c := 7, kc := 1 } }
def fTq : Fmt := { cls := .uni, len := .l96, d := 8, a := 4, x := { qual := 1 } }
def fMt : Fmt := { cls := .uni, len := .l64, d := 3, a := 7 }
def fMw : Fmt := { cls := .uni, len := .l64, a := 7 }
def fWatch : Fmt := { cls := .uni, len := .l96, d := 8, a := 4, b := 5, x := { c := 6, kc := 1 } }

/-- d2 = 0x300000, s6 a length, s7 a colour; the first 64 bytes are of colour 9. -/
def tinting (n colour : Word) (held : List (Nat × Nat) := []) (taken : Bool := false) : State :=
  let s := coloured held taken
  { s with team := { s.team with s := [(4, 0x300000), (6, n), (7, colour)] } }

theorem witness_Colours :
    (Acts (.tint fTint) fTint (half (tinting 64 9)) ∧ ((half (tinting 64 9)).seen (.tint fTint) fTint).diverged = true) ∧
    (Acts (.tint fTint) fTint (tinting 8 9) ∧ (rangeFault 0x300000 8).isSome = true) ∧
    (Acts (.tint fTint) fTint (tinting 64 9) ∧ rangeFault 0x300000 64 = none ∧ ∃ r ∈ ((tinting 64 9).ctx 0).ranges, r.meets 0x300000 64 = true) ∧
    (Acts (.untint fTint) fTint (tinting 64 9) ∧ ¬ ∃ r ∈ ((tinting 64 9).ctx 0).ranges, r.meets 0x300000 64 = true ∧ r.within 0x300000 64 = false) ∧
    (let s := { tinting 64 9 with ctxs := (mapped 0).ctxs }
     Acts (.tint fTint) fTint s ∧ (s.ctx 0).ranges = []) ∧
    (Acts (.tintq fTq) fTq (half (tinting 64 9)) ∧ Acts (.tintq fTq) fTq (tinting 64 9) ∧ Acts (.tintqClr fTq) fTq (tinting 64 9) ∧
      holdsColour (tinting 64 9).team 9 = false ∧ Acts (.tintqClr fTq) fTq (tinting 64 9 [(9, 0)]) ∧ (tinting 64 9 [(9, 0)]).colourOf 0 0x300000 = 9 ∧
      holdsColour (tinting 64 9 [(9, 0)]).team 9 = true) ∧
    (let s := on fun t => { t with s := [(5, 0x01000000)] }
     Acts (.tintq fTq) fTq s ∧ (s.seen (.tintq fTq) fTq).diverged = false ∧ canonical ((s.seen (.tintq fTq) fTq).readD 4) = false) ∧
    (Acts (.mtry fMt) fMt (half base) ∧ Acts (.mtry fMt) fMt base ∧ (base.seen (.mtry fMt) fMt).readS 7 = 0 ∧
      Acts (.mtry fMt) fMt (tinting 64 9 [(9, 0)]) ∧
      (let s := tinting 64 9 ((List.range 16).map fun k => (20 + k, 0))
       Acts (.mtry fMt) fMt s ∧ holdsColour s.team 9 = false ∧ s.team.held.length = 16) ∧
      (Acts (.mtry fMt) fMt (tinting 64 9 [] true) ∧ (tinting 64 9 [] true).colourFree 9 = false) ∧
      (Acts (.mtry fMt) fMt (tinting 64 9) ∧ (tinting 64 9).colourFree 9 = true)) ∧
    (Acts (.mwait fMw) fMw (tinting 64 9) ∧ ((tinting 64 9).team.held.find? fun h => h.1 == 9) = none) ∧
    (let s := tinting 64 9 [(9, 2)]
     (s.team.held.find? fun h => h.1 == 9) = some (9, 2) ∧ Acts (.mwait fMw) fMw (half s) ∧ ((half s).seen (.mwait fMw) fMw).diverged = true ∧
       Acts (.mwait fMw) fMw s ∧ (s.seen (.mwait fMw) fMw).diverged = false ∧ lendingOpen s.team = false ∧ s.markedCommands s.team.id = false ∧
       Acts (.mwait fMw) fMw { s with team := { s.team with recruit := { state := .active } } } ∧
       Acts (.mwait fMw) fMw { s with commands := [{ copying with held := [9] }] } ∧
       ({ s with commands := [{ copying with held := [9] }] } : State).markedCommands s.team.id = true) ∧
    (Acts (.mnote fMw) fMw (tinting 64 9) ∧ holdsColour (tinting 64 9).team 9 = false ∧ Acts (.mnall fMw) fMw (tinting 64 9 [(9, 0)])) ∧
    (Acts (.watch fWatch) fWatch (mapped 0x300000) ∧ ((mapped 0x300000).seen (.watch fWatch) fWatch).diverged = false ∧
      locsB (((mapped 0x300000).seen (.watch fWatch) fWatch).checkLanes .g .load 4 true false [(0, baseAddr fWatch ((mapped 0x300000).seen (.watch fWatch) fWatch))])
        (fun ls => ls.all fun y => y.hosts.isEmpty) = true) := by
  simp only [acts_iff]; decide +kernel

/-! Engines and queues -/

def fLine : Fmt := { cls := .var, len := .l96, d := 5, a := 1, b := 4, kb := true }
def fShape : Fmt := { cls := .uni, len := .l96, d := 3, a := 4, b := 5, x := { qual := 7 } }
def fShapeP : Fmt := { cls := .uni, len := .l128, d := 3, imm := 0x100 }
def fCopy : Fmt := { cls := .uni, len := .l96, d := 8, a := 4, b := 7, x := { qual := 1 } }
def fWc : Fmt := { cls := .uni, len := .l64, a := 2, b := 0 }
def fCr : Fmt := { cls := .uni, len := .l64, d := 6, a := 2 }

/-- Sixty-three commands of a class count for the team. -/
def busy (s : State) (cls : Nat) : State := { s with commands := (List.range 63).map fun k => { copying with id := 100 + k, cls := cls } }

/-- What `PartsReady` asks. -/
def partsB (v : State) : List (Addr × Nat) → Bool
  | [] => true
  | p :: r => locsB (v.checkLanes .g .load p.2 false false [(0, p.1)]) (fun ls => ls.all fun x => x.hosts.isEmpty) && partsB v r

theorem parts_of {v : State} : ∀ (ps : List (Addr × Nat)) (i : Nat), partsB v ps = true → ∃ ls, PartsReady v i ps ls
  | [], _, _ => ⟨[], rfl⟩
  | p :: r, i, h => by
    simp only [partsB, Bool.and_eq_true] at h
    obtain ⟨more, hm⟩ := parts_of r (i + 1) h.2
    cases hx : v.checkLanes .g .load p.2 false false [(0, p.1)] with
    | error e => simp [locsB, hx] at h
    | ok xs =>
      simp only [locsB, hx, List.all_eq_true, List.isEmpty_iff] at h
      exact ⟨_, xs, more, hx, h.1, hm, rfl⟩

/-- What `RecordReady` asks. -/
def readyB (v : State) (va : Addr) (n : Nat) : Bool :=
  canonical va && decide (va.toNat % 64 = 0) && v.split.gated.isNone && partsB v (splitPage va n) &&
    ((List.range n).all fun i => let c := v.colourOf v.team.ctx (va + BitVec.ofNat 64 i); c == 0 || (v.team.held.map Prod.fst).contains c)

theorem ready_of {v : State} {va : Addr} {n : Nat} (h : readyB v va n = true) : ∃ ls, RecordReady v va n ls := by
  simp only [readyB, Bool.and_eq_true, decide_eq_true_eq, List.all_eq_true, List.mem_range, Bool.or_eq_true, beq_iff_eq, List.contains_iff_mem,
    Option.isNone_iff_eq_none] at h
  obtain ⟨⟨⟨⟨hc, ha⟩, hg⟩, hp⟩, hk⟩ := h
  obtain ⟨ls, hl⟩ := parts_of _ 0 hp
  exact ⟨ls, hc, ha, hg, hl, hk⟩

/-- A shape slot of the block is set; the machine's words are the copy's addresses. -/
def shaped : State := { mapped 0x300000 with blocks := [{ id := 2, launch := 1, core := 0, teams := [3], shapes := [(7, copyShape)] }] }

theorem witness_EngineInstructions :
    (Acts (.ldline fLine) fLine (lanes .f32) ∧ addrTags fLine ((lanes .f32).seen (.ldline fLine) fLine) = false) ∧
    (Acts (.ldline fLine) fLine (busy (mapped 0x300000) 2) ∧ addrTags fLine ((busy (mapped 0x300000) 2).seen (.ldline fLine) fLine) = true ∧
      63 ≤ (busy (mapped 0x300000) 2).counter 3 2) ∧
    (Acts (.ldline fLine) fLine (mapped 0x300000) ∧ (mapped 0x300000).counter (mapped 0x300000).owner.id 2 < 63 ∧
      locsB (((mapped 0x300000).seen (.ldline fLine) fLine).checkLanes (spaceOf fLine) .load 128 false false [(0, 0x300000)]) (fun _ => true) = true) ∧
    (let s := mapped 0x40000000
     Acts (.ldline fLine) fLine s ∧ addrTags fLine (s.seen (.ldline fLine) fLine) = true ∧ s.counter s.owner.id 2 < 63 ∧
       (match (s.seen (.ldline fLine) fLine).checkLane (spaceOf fLine) .load 128 false 0 0x40000000 with | .error .driver => true | _ => false) = true) ∧
    (Acts (.tshape fShape) fShape (half (mapped 0x300000)) ∧ ((half (mapped 0x300000)).seen (.tshape fShape) fShape).diverged = true) ∧
    (let f := { fShapeP with imm := 0x200 }
     Acts (.tshape f) f (tabled 1) ∧ f.len = .l128 ∧ (pcRel (tabled 1).split.pc f.imm).toNat % 64 = 0 ∧
       inPool (tabled 1).team (pcRel (tabled 1).split.pc f.imm) 256 = false) ∧
    (Acts (.tshape fShape) fShape (mapped 0x300000) ∧ ((mapped 0x300000).seen (.tshape fShape) fShape).diverged = false ∧
      ∃ ls, RecordReady ((mapped 0x300000).seen (.tshape fShape) fShape) (baseAddr fShape ((mapped 0x300000).seen (.tshape fShape) fShape)) 256 ls) ∧
    (let s := { tabled 1 with team := { (tabled 1).team with pllim := [(0, 0x100200)] } }
     Acts (.tshape fShapeP) fShapeP s ∧ inPool s.team (pcRel s.split.pc 0x100) 256 = true ∧
       ∃ ls, RecordReady (s.seen (.tshape fShapeP) fShapeP) (pcRel s.split.pc fShapeP.imm) 256 ls) ∧
    (Acts (.tcopy fCopy) fCopy (mapped 0x300000) ∧ ((mapped 0x300000).block.shapes.get [] 7) = []) ∧
    (Acts (.tcopy fCopy) fCopy (busy shaped 0) ∧ ((busy shaped 0).block.shapes.get [] 7) ≠ [] ∧ 63 ≤ (busy shaped 0).counter 3 0) ∧
    (Acts (.tcopy fCopy) fCopy shaped ∧ shaped.counter 3 0 < 63 ∧ shaped.counter 3 3 < 63) ∧
    (Acts (.waitcnt fWc) fWc (busy base 2) ∧ 0 < (busy base 2).counter (busy base 2).team.id 2) ∧
    (let s := on fun t => { t with engst := 4, engaddr := 0x300000 }
     Acts (.waitcnt fWc) fWc s ∧ s.counter s.team.id 2 ≤ 0 ∧ s.team.engst.getLsbD 2 = true) ∧
    (let s := on fun t => { t with watchHits := [(1, 0x200000), (2, 0x300000)] }
     Acts (.waitcnt fWc) fWc s ∧ s.counter s.team.id 2 ≤ 0 ∧ s.team.engst.getLsbD 2 = false ∧
       (s.team.watchHits.find? fun h => h.1 == 2) = some (2, 0x300000)) ∧
    (let s := on fun t => { t with watchHits := [(1, 0x200000)] }
     Acts (.waitcnt fWc) fWc s ∧ s.counter s.team.id 2 ≤ 0 ∧ s.team.engst.getLsbD 2 = false ∧ ∀ h ∈ s.team.watchHits, h.1 ≠ 2) ∧
    (Acts (.cntrd fCr) fCr (half base) ∧ Acts (.cntrd fCr) fCr base) := by
  simp only [acts_iff]
  refine ⟨by decide +kernel, by decide +kernel, by decide +kernel, by decide +kernel, by decide +kernel, by decide +kernel,
    ⟨by decide +kernel, by decide +kernel, ready_of (by decide +kernel)⟩, ⟨by decide +kernel, by decide +kernel, ready_of (by decide +kernel)⟩,
    by decide +kernel, by decide +kernel, by decide +kernel, by decide +kernel, by decide +kernel, by decide +kernel, by decide +kernel, by decide +kernel⟩

def fCard : Fmt := { cls := .uni, len := .l96, a := 4, b := 5, x := { c := 5, kc := 1 } }
def fCardT : Fmt := { cls := .uni, len := .l96, d := 3, a := 4, b := 5, x := { c := 5, kc := 1, qual := 1 } }
def fSpawn : Fmt := { cls := .var, len := .l128, a := 4, imm := 0x200 }
def fEput : Fmt := { cls := .uni, len := .l64, a := 8, b := 63 }
def fEputT : Fmt := { cls := .uni, len := .l96, d := 3, a := 8, b := 63, x := { qual := 1 } }
def fEget : Fmt := { cls := .uni, len := .l64, d := 8, b := 63 }

/-- Core 0's queue holds 64 cards. -/
def cardsFull : State := { mapped 0x300000 with cores := [(0, { cards := List.replicate 64 { card := {} } })] }

/-- Edge 63 of the context: two slots at 0x300000; counts as given. -/
def edged (valid : Bool) (tail freed : Nat) (filled : List Nat) : State :=
  let c : Ctx := { desc := { ptroot := 0x10000, valid := true, pvarena := 0x200001 } }
  let e : Edge := { entry := { base := 0x300000, cap := 2, valid := valid }, tail := tail, freed := freed, filled := filled }
  { mapped 0x300000 with ctxs := [(0, { c with edges := [(63, e)] })] }

theorem witness_Posting :
    (Acts (.cardTry fCardT) fCardT (half (mapped 0x300000)) ∧ ((half (mapped 0x300000)).seen (.cardTry fCardT) fCardT).diverged = true) ∧
    (let f := { fCard with x := { c := 6, kc := 1 } }
     Acts (.card f) f (mapped 0x300000) ∧ (∃ ls, RecordReady ((mapped 0x300000).seen (.card f) f) (baseAddr f ((mapped 0x300000).seen (.card f) f)) 128 ls) ∧
       ¬ (((mapped 0x300000).seen (.card f) f).readS 6 = partitionTarget ∨
         ((((mapped 0x300000).seen (.card f) f).readS 6).toNat < 256 ∧ ((mapped 0x300000).part 0).entry.cores.getLsbD (((mapped 0x300000).seen (.card f) f).readS 6).toNat = true))) ∧
    (let v := (mapped 0x300000).seen (.card fCard) fCard
     Acts (.card fCard) fCard (mapped 0x300000) ∧ (∃ ls, RecordReady v (baseAddr fCard v) 128 ls) ∧ v.readS 5 = 0 ∧ ((mapped 0x300000).part 0).entry.cores.getLsbD 0 = true ∧
       v.queueRoom 0 0 0 = true ∧ v.myTurn (v.postersOf 0 0 0) = true) ∧
    (let v := cardsFull.seen (.card fCard) fCard
     Acts (.card fCard) fCard cardsFull ∧ (∃ ls, RecordReady v (baseAddr fCard v) 128 ls) ∧ v.queueRoom 0 0 0 = false) ∧
    (let v := cardsFull.seen (.cardTry fCardT) fCardT
     Acts (.cardTry fCardT) fCardT cardsFull ∧ v.diverged = false ∧ (∃ ls, RecordReady v (baseAddr fCardT v) 128 ls) ∧ v.queueRoom 0 0 0 = false) ∧
    (Acts (.spawn fSpawn) fSpawn base ∧ base.card.csize = 0) ∧
    (let s := { base with launches := [{ id := 1, card := { csize := 4 }, next := 1, live := 1 }] }
     Acts (.spawn fSpawn) fSpawn s ∧ s.card.csize ≠ 0 ∧ canonical (pcRel s.split.pc fSpawn.imm) = true) ∧
    (Acts (.eputTry fEputT) fEputT (half (mapped 0x300000)) ∧ Acts (.eput fEput) fEput (mapped 0x300000) ∧ ((mapped 0x300000).edge 0 63).entry.valid = false) ∧
    (let s := edged true 1 0 []
     let v := s.seen (.eput fEput) fEput
     Acts (.eput fEput) fEput s ∧ (s.edge 0 63).entry.valid = true ∧ edgeRoom (s.edge 0 63) = true ∧ v.myTurn (s.edge 0 63).producers = true ∧
       locsB (v.checkLanes .g .store 16 false false [(0, slotAddr (s.edge 0 63) 1)]) (fun ls => (ls.all fun y => y.hosts.isEmpty) && (watchStore v .g 16 ls).isNone) = true) ∧
    (Acts (.eput fEput) fEput (edged true 2 0 []) ∧ edgeRoom ((edged true 2 0 []).edge 0 63) = false ∧ Acts (.eputTry fEputT) fEputT (edged true 2 0 []) ∧
      ((edged true 2 0 []).seen (.eputTry fEputT) fEputT).diverged = false) ∧
    (Acts (.eget fEget) fEget (half (mapped 0x300000)) ∧ Acts (.eget fEget) fEget (mapped 0x300000)) ∧
    (let s := edged true 2 0 [0]
     Acts (.eget fEget) fEget s ∧ edgeReady (s.edge 0 63) = true ∧ (s.seen (.eget fEget) fEget).myTurn (s.edge 0 63).consumers = true ∧
       locsB ((s.seen (.eget fEget) fEget).checkLanes .g .load 16 false false [(0, slotAddr (s.edge 0 63) 0)]) (fun ls => ls.all fun y => y.hosts.isEmpty) = true) ∧
    (Acts (.eget fEget) fEget (edged true 2 0 []) ∧ edgeReady ((edged true 2 0 []).edge 0 63) = false) ∧
    (Acts (.qstat fEget) fEget (half base) ∧ Acts (.qstat fEget) fEget base ∧ Acts (.qstat fEget) fEget (edged true 2 0 [])) := by
  simp only [acts_iff]
  refine ⟨by decide +kernel, ⟨by decide +kernel, ready_of (by decide +kernel), by decide +kernel⟩, ⟨by decide +kernel, ready_of (by decide +kernel), by decide +kernel⟩,
    ⟨by decide +kernel, ready_of (by decide +kernel), by decide +kernel⟩, ⟨by decide +kernel, by decide +kernel, ready_of (by decide +kernel), by decide +kernel⟩,
    by decide +kernel, by decide +kernel, by decide +kernel, by decide +kernel, by decide +kernel, by decide +kernel, by decide +kernel, by decide +kernel, by decide +kernel⟩

/-! The matrix unit -/

def fGang : Fmt := { cls := .sys, len := .l64, a := 3 }
def fTile : Fmt := { cls := .sys, len := .l64, d := 1 }
def fTileT : Fmt := { cls := .sys, len := .l96, d := 1, b := 2, x := { qual := 1 } }
def fMldb : Fmt := { cls := .sys, len := .l96, d := 7, a := 4, b := 5, kb := true, x := { ty := .i8, qual := 2 } }
def fMswap : Fmt := { cls := .sys, len := .l128, imm := 5 }
def fMma (ctl : Word) : Fmt := { cls := .sys, len := .l128, d := 1, a := 8, x := { ty := .i8 }, imm := ctl }
def fDrain (c : BitVec 8) : Fmt := { cls := .sys, len := .l96, d := 1, a := 4, b := 5, kb := true, x := { c := c, kc := 1, ty := .i32, qual := 2 } }
def fMstat : Fmt := { cls := .sys, len := .l64, d := 6, b := 5, kb := true }

/-- Teams 3 and 40 are numbers 0 and 1 of block 2; team 3 may have the gang of both; the pair s4, s5 holds the address. -/
def ganged (m : Matrix) (gang : Word := 0x02000010) (va : Word := 0) : State :=
  { mapped va with team := { (mapped va).team with gang := gang, s := [(3, 0x02000010), (4, va), (6, 0), (7, 0x10), (9, 0x2F)] },
                   blocks := [{ id := 2, launch := 1, core := 0, teams := [3, 40], nteams := 2, spsize := 65536 }],
                   others := [{ team0 with id := 40, number := 1 }], cores := [(0, { matrix := m })] }

/-- The unit is bound to block 2; the gang holds tile 1. -/
def bound2 : Matrix := { bound := some 2, tokens := [(1, .gang [0, 1])] }
def bound9 : Matrix := { bound := some 9 }
def otherGang : Matrix := { bound := some 2, tokens := [(1, .gang [1, 2])] }
def floats : Matrix := { bound2 with tiles := [(1, { kind := .float })] }

theorem witness_MatrixInstructions :
    (Acts (.gang fGang) fGang (half base) ∧ ((half base).seen (.gang fGang) fGang).diverged = true) ∧
    (Acts (.gang fGang) fGang base ∧ gangValid (base.readS 3) base.team.number base.block.nteams = false) ∧
    (Acts (.gang fGang) fGang (ganged {}) ∧ gangValid ((ganged {}).readS 3) (ganged {}).team.number (ganged {}).block.nteams = true) ∧
    (Acts (.macqTry fTileT) fTileT (half (ganged {})) ∧ ((half (ganged {})).seen (.macqTry fTileT) fTileT).diverged = true) ∧
    (Acts (.macq fTile) fTile (ganged {} 0) ∧ hasGang ((ganged {} 0).seen (.macq fTile) fTile) = false) ∧
    (∀ s ∈ [ganged {}, ganged bound2], Acts (.macq fTile) fTile s ∧ Acts (.macqTry fTileT) fTileT s ∧
      hasGang (s.seen (.macq fTile) fTile) = true ∧ (s.seen (.macq fTile) fTile).unitOpen 0 2 3 = true ∧
      ((s.matrix 0).bound.isNone || (s.seen (.macq fTile) fTile).tokenOpen 0 1 3 (gangSet s.team.gang)) = true) ∧
    (∀ s ∈ [ganged bound9, ganged otherGang], Acts (.macq fTile) fTile s ∧ Acts (.macqTry fTileT) fTileT s ∧
      hasGang (s.seen (.macq fTile) fTile) = true ∧ ((s.seen (.macq fTile) fTile).unitOpen 0 2 3 = false ∨
        ((s.matrix 0).bound.isNone || (s.seen (.macq fTile) fTile).tokenOpen 0 1 3 (gangSet s.team.gang)) = false)) ∧
    (∀ i ∈ [Instr.mrel fTile, .mzero fTile],
      (Acts i fTile (ganged {}) ∧ ((ganged {}).seen i fTile).holdsTile 1 = false) ∧
      (Acts i fTile (busy (ganged bound2) 1) ∧ ((busy (ganged bound2) 1).seen i fTile).holdsTile 1 = true ∧
        63 ≤ (busy (ganged bound2) 1).counter 3 1) ∧
      (Acts i fTile (ganged bound2) ∧ ((ganged bound2).seen i fTile).holdsTile 1 = true ∧ (ganged bound2).counter 3 1 < 63)) ∧
    (let v := fun s : State => s.seen (.mldb fMldb) fMldb
     (Acts (.mldb fMldb) fMldb (ganged bound9) ∧ (v (ganged bound9)).unitOpen 0 2 3 = false) ∧
     (Acts (.mldb fMldb) fMldb (ganged {} 0 64) ∧ (v (ganged {} 0 64)).unitOpen 0 2 3 = true ∧
       (baseAddr fMldb (v (ganged {} 0 64))).toNat % 128 ≠ 0) ∧
     (∀ s ∈ [ganged {}, busy (ganged {}) 1], Acts (.mldb fMldb) fMldb s ∧ (v s).unitOpen 0 2 3 = true ∧ (baseAddr fMldb (v s)).toNat % 128 = 0 ∧
       locsB ((v s).checkLanes (spaceOf fMldb) .load (imageBytes .i8 7) false false [(0, baseAddr fMldb (v s))]) (fun _ => true) = true) ∧
     (Acts (.mldb fMldb) fMldb (ganged {} 0 65536) ∧ (v (ganged {} 0 65536)).unitOpen 0 2 3 = true ∧
       stopB ((v (ganged {} 0 65536)).checkLanes (spaceOf fMldb) .load (imageBytes .i8 7) false false [(0, baseAddr fMldb (v (ganged {} 0 65536)))])
         (fun x => x == .fault .PERM) = true) ∧
     (ganged {}).counter 3 1 < 63 ∧ 63 ≤ (busy (ganged {}) 1).counter 3 1) ∧
    (Acts (.mswap fMswap) fMswap (ganged {}) ∧ ((ganged {}).matrix 0).bound ≠ some 2) ∧
    (∀ s ∈ [ganged bound2, busy (ganged bound2) 1], Acts (.mswap fMswap) fMswap s ∧ (s.matrix 0).bound = some 2) ∧
    (∀ i ∈ [Instr.mma (fMma 0xFF), .mmas (fMma 0xFF)], let f := fMma 0xFF
      (Acts i f (ganged bound2 0) ∧ hasGang ((ganged bound2 0).seen i f) = false) ∧
      (Acts i f (ganged {}) ∧ hasGang ((ganged {}).seen i f) = true ∧ ((ganged {}).seen i f).holdsTile 1 = false) ∧
      (Acts i f (ganged bound2) ∧ hasGang ((ganged bound2).seen i f) = true ∧ ((ganged bound2).seen i f).holdsTile 1 = true ∧
        0 + (gangOf 0x02000010).length * 4 ≤ 16 ∧ 0 < ranksOf (ganged bound2).team.n ∧
        ((List.range 4).all fun j => tagIn ((ganged bound2).seen i f) (8 + j) [quadTag .i8, .raw]) = true ∧
        metaOffset 0xFF 4 ≤ (ganged bound2).block.spsize ∧ (bound2.latches.get none 1) = none ∧ (ganged bound2).counter 3 1 < 63) ∧
      (Acts i f (busy (ganged bound2) 1) ∧ ((busy (ganged bound2) 1).seen i f).holdsTile 1 = true ∧ 63 ≤ (busy (ganged bound2) 1).counter 3 1)) ∧
    (Acts (.mma (fMma 0xDFF)) (fMma 0xDFF) (ganged bound2) ∧ ¬ (0xD + (gangOf 0x02000010).length * rowsPer false .i8 ≤ 16)) ∧
    (Acts (.mma (fMma 0x10FF)) (fMma 0x10FF) (ganged bound2) ∧ ¬ (1 < ranksOf (ganged bound2).team.n)) ∧
    (let s := { ganged bound2 with team := { (ganged bound2).team with tags := [(11, .f32)] } }
     Acts (.mma (fMma 0xFF)) (fMma 0xFF) s ∧ tagIn (s.seen (.mma (fMma 0xFF)) (fMma 0xFF)) 11 [quadTag .i8, .raw] = false) ∧
    (let f := fDrain 7
     let v := fun s : State => s.seen (.mdrain f) f
     (Acts (.mdrain f) f (ganged {}) ∧ (v (ganged {})).holdsTile 1 = false) ∧
     (Acts (.mdrain (fDrain 6)) (fDrain 6) (ganged bound2) ∧ drainCount (0 : Word) = 0 ∧ 16 < drainRow 0x2F + drainCount 0x2F) ∧
     (Acts (.mdrain f) f (ganged floats) ∧ ((projected floats).tiles.get {} 1).kind = .float) ∧
     (Acts (.mdrain f) f (ganged bound2 0x02000010 8) ∧ (baseAddr f (v (ganged bound2 0x02000010 8))).toNat % 16 ≠ 0) ∧
     (Acts (.mdrain f) f (ganged bound2) ∧ (v (ganged bound2)).holdsTile 1 = true ∧ (baseAddr f (v (ganged bound2))).toNat % 16 = 0 ∧
       locsB ((v (ganged bound2)).checkLanes (spaceOf f) .store (drainCols 0x10 * drainSize .i32) false false
         ((List.range (drainCount 0x10)).map fun i => (0, baseAddr f (v (ganged bound2)) + BitVec.ofNat 64 (i * drainPitch 0x10)))) (fun _ => true) = true)) ∧
    (Acts (.mstat fMstat) fMstat (half base) ∧ Acts (.mstat fMstat) fMstat base) := by
  simp only [acts_iff]
  refine ⟨?_, ?_, ?_, ?_, ?_, ?_, ?_, ?_, ?_, ?_, ?_, ?_, ?_, ?_, ?_, ?_⟩
  all_goals decide +kernel

def gangHeads : List UnitOp := [.op [5] 1 .i8 [], .zero 5 1, .release 5 1, .drain 5 1, .swap 5 0xFF [7]]

/-- A latch of tile 1: open since cycle 1, or full since then and waiting for metadata; the clock as given. -/
def latched (full : Bool) (cycle : Nat) : State :=
  let l : Latch := if full then { sparse := true, ty := .i8, gang := [0, 1], full := some 1,
                                  members := [{ team := 3, split := 4, flight := 0, fmt := fMma 0xFF, ctl := 0xFF }] }
                   else { gang := [0, 1], opened := 1 }
  { ganged { bound2 with latches := [(1, some l)] } with cycle := cycle }

theorem witness_MatrixUnit :
    (∀ u ∈ gangHeads, ((ganged { bound2 with queue := [u] }).matrix 0).queue = [u]) ∧
    (ganged { bound2 with queue := [.release 5 1] }).unfocus.draining 0 1 = false ∧
    (let s := { ganged { bound2 with queue := [.swap 5 0xFF [7]] } with commands := [{ copying with id := 7, complete := true }] }
     ∀ c ∈ s.commands, c.id ∈ [7] → c.complete = true) ∧
    (let s := latched false (2 ^ 20 + 1)
     ((s.matrix 0).latches.get none 1).map (fun l => (l.opened, l.full)) = some (1, none) ∧ 1 + 2 ^ 20 ≤ s.cycle) ∧
    (latched false (2 ^ 20)).cycle < 1 + 2 ^ 20 ∧
    (let s := latched true (2 ^ 20 + 1)
     ((s.matrix 0).latches.get none 1).map (fun l => (l.sparse, l.full)) = some (true, some 1) ∧ 1 + 2 ^ 20 ≤ s.cycle ∧
       s.unfocus.swapWaits (s.matrix 0) = false ∧
       (((s.matrix 0).latches.get none 1).map fun l => (captureAll s.unfocus l).isNone) = some true) ∧
    (latched true (2 ^ 20)).cycle < 1 + 2 ^ 20 := by
  refine ⟨?_, ?_, ?_, ?_, ?_, ?_, ?_⟩
  all_goals decide +kernel

/-! System registers and time -/

def fRdsr (n : Word) (ty : Ty := .dflt) : Fmt := { cls := .uni, len := .l128, d := 8, x := { ty := ty }, imm := n }
def fWrsr (n : Word) (ty : Ty := .dflt) (a : BitVec 8 := 4) : Fmt := { cls := .uni, len := .l128, a := a, x := { ty := ty }, imm := n }
def fTime : Fmt := { cls := .uni, len := .l64, d := 8 }
def fProg : Fmt := { cls := .uni, len := .l64, a := 4 }

/-- The pair s4, s5 holds a value whose high word is `hi`. -/
def paired (hi : Word) : State := on fun t => { t with s := [(4, 3), (5, hi), (6, 9)] }

theorem witness_SystemRegisters :
    (Acts (.rdsr (fRdsr 0x1B)) (fRdsr 0x1B) (half base) ∧ Acts (.rdsr (fRdsr 0x1B)) (fRdsr 0x1B) base) ∧
    (Acts (.rdsr (fRdsr 5 .i64)) (fRdsr 5 .i64) base ∧ (fRdsr 5 .i64).x.ty.is64 = true ∧ (base.seen (.rdsr (fRdsr 5 .i64)) (fRdsr 5 .i64)).diverged = false) ∧
    (∀ n ∈ [3, 5], ∀ hi ∈ [0, 0x1000000], let f := fWrsr (BitVec.ofNat 32 n) .i64
      Acts (.wrsr f) f (paired (BitVec.ofNat 32 hi)) ∧ (canonical ((paired (BitVec.ofNat 32 hi)).readD 4) = false ↔ hi = 0x1000000)) ∧
    (∀ n ∈ [0, 4, 0x1E, 0x10, 1, 2, 0x21, 0x1B], let f := fWrsr (BitVec.ofNat 32 n)
      Acts (.wrsr f) f (paired 0)) ∧
    (Acts (.wrsr (fWrsr 6 .i64)) (fWrsr 6 .i64) (paired 0)) ∧
    (Acts (.wrsr (fWrsr 0x10 .dflt 6)) (fWrsr 0x10 .dflt 6) (paired 0) ∧ 4 < ((paired 0).readS 6).toNat ∧ ((paired 0).readS 4).toNat ≤ 4) ∧
    (Acts (.wrsr (fWrsr 0x10)) (fWrsr 0x10) (half (paired 0)) ∧ ((half (paired 0)).seen (.wrsr (fWrsr 0x10)) (fWrsr 0x10)).diverged = true) ∧
    (Acts (.rdtime fTime) fTime (half base) ∧ Acts (.rdtime fTime) fTime base ∧ Acts (.rdhlc fTime) fTime (half base) ∧ Acts (.rdhlc fTime) fTime base) ∧
    Acts (.prog fProg) fProg base := by
  simp only [acts_iff]
  refine ⟨?_, ?_, ?_, ?_, ?_, ?_, ?_, ?_, ?_⟩
  all_goals decide +kernel

/-! The host and the device -/

def plainPart : PartEntry := { cores := 2, valid := true }

/-- The machine, with what the host has done to it. -/
def hosting (g : State → State) : State := g base

theorem witness_RegisterSpace :
    (isHostCommand (.keyCreate 3) = true ∧ State.reset.phase ≠ 5) ∧
    ((State.reset.phase ≠ 5 ∧ (HostRead.rqRead 0 0).early = false) ∧ HostRead.phase.early = true ∧ base.mayRead (.driver 0) (.violationLog 0) = false ∧
      base.mayRead (.driver 0) (.rqRead 0 0) = true) ∧
    (base.phase = 5 ∧ base.frozen = .no ∧ { base with frozen := .frozen }.frozen ≠ .no ∧ base.unfocus.mayWrite (.driver 0) (.deviceNumber 3) = false ∧
      base.unfocus.mayWrite (.driver 0) (.dbgctl 0 7) = true) ∧
    (mayReach (.driver 1) 0 = false ∧ mayReach (.driver 0) 0 = true ∧ State.partOf 0 base = 0 ∧ ¬ obeyed (.driver 1) (State.partOf 0 base) base ∧
      obeyed (.driver 0) (State.partOf 0 base) base ∧ obeyed .hypervisor 0 base ∧ ¬ obeyed .hypervisor 0 { base with frozen := .frozen }) ∧
    (let d := (base.ctx 0).desc
     base.windowBad 1 0 0x43F = true ∧ base.windowBad 0 0 0x40 = false ∧ d.valid = true ∧ { d with valid := false }.valid = false ∧ d.vwin ≠ 0x40 ∧
       (base.part 0).entry.cores.getLsbD 0 = true ∧ 65536 * windowBase 0x40 ≤ 131071 ∧ 131071 < 65536 * (windowBase 0x40 + windowSize 0x40) ∧
       131071 < 2 ^ 21 ∧ (({ base with launches := [{ id := 1, card := {} }] } : State).findLaunch 1).isSome = true) ∧
    (let s := { base with cores := [(3, { bank := { owner := some (.driver 0) } })] }
     s.phase = 5 ∧ (s.claimOf (.counterBank 3)).owner = some (.driver 0) ∧ (base.claimOf (.counterBank 3)).owner = none ∧
       ∀ die n, ClaimUnit.counterBank 3 = .traceUnit die n → n < 4) := by
  refine ⟨by decide +kernel, by decide +kernel, by decide +kernel,
    ⟨by decide +kernel, by decide +kernel, by decide +kernel, (by decide +kernel : ¬ mayReach (.driver 1) (State.partOf 0 base) = true),
      (by decide +kernel : mayReach (.driver 0) (State.partOf 0 base) = true), (rfl : base.frozen = .no), fun h => nomatch h⟩, by decide +kernel,
    by decide +kernel, by decide +kernel, by decide +kernel, fun _ _ h => nomatch h⟩

def element (write : Bool) : PeerElement := { device := 1, part := 2, write := write, addr := 0x300000, bytes := [1, 2], stamp := 5 }

/-- Partition 0 has a window of 2 MB at 0x200000 for partition 2 of device 1. -/
def windowed : State :=
  { base with parts := [(0, { entry := { cores := 1, keys := 1, valid := true, ranges := [(0, 0x40000000)],
                                         windows := [{ device := 1, part := 2, writes := true, key := 0, units := 1, base := 0x200000 }] } })] }

/-- The addresses from 0x200000 to 0x3FFFFF are of the system domain. -/
def systemRange : State :=
  { base with parts := [(0, { entry := { cores := 1, keys := 1, valid := true, ranges := [(0, 0x40000000)] },
                              regions := [(0, BitVec.ofNat _ (7 + 2 ^ 21 + 2 ^ 86))] })] }

/-- The unit of 2 MB at 0x200000 has its home on die 1, behind a link that is being retrained. -/
def away (s : State) : State := { s with homes := [(1, some { die := 1 })], links := [(0, 2)] }

/-- No link is being retrained. -/
theorem way_open {s : State} (h : s.links = []) (d k : Nat) : s.wayBetween d k = true := by
  simp [State.wayBetween, State.routeOpen, h]

theorem unwatched_base : Unwatched base := by
  intro e he
  simp only [base, List.mem_singleton] at he
  subst he
  exact fun i => rfl

theorem unwatched_windowed : Unwatched windowed := by
  intro e he
  simp only [windowed, List.mem_singleton] at he
  subst he
  exact fun i => rfl

theorem unwatched_systemRange : Unwatched systemRange := by
  intro e he
  simp only [systemRange, List.mem_singleton] at he
  subst he
  exact fun i => rfl

theorem witness_PartitionsAndKeys :
    (base.phase = 5 ∧ base.frozen = .no ∧ (∃ n, n < 32 ∧ n ≠ 1 ∧ entriesMeet { cores := 1, valid := true } (base.unfocus.part n).entry = true)) ∧
    ((base.unfocus.part 1).busy = none ∧ ((List.range 32).all fun n => n == 1 || (!entriesMeet plainPart (base.unfocus.part n).entry && (base.unfocus.part n).busy.isNone)) = true ∧
      base.unfocus.occupied (coresLeaving (base.unfocus.part 1).entry plainPart) = false) ∧
    (base.unfocus.occupied (coresLeaving (base.unfocus.part 0).entry plainPart) = true) ∧
    (let s := { base with frozen := .frozen }
     s.phase = 5 ∧ s.frozen ≠ .no ∧ plainPart.valid = true ∧ s.frozen.frosted = true ∧ (s.part 0).entry.valid = true ∧
       { plainPart with valid := false }.valid = false) ∧
    (let s := base.modPart 0 fun q => { q with busy := some plainPart }
     (s.part 0).busy = some plainPart ∧ s.occupied (coresLeaving (s.part 0).entry plainPart) = true ∧
       { s with blocks := [] }.occupied (coresLeaving (s.part 0).entry plainPart) = false) ∧
    (base.keysLive.getLsbD 63 = false ∧ { base with keysLive := 0x20 }.keysLive.getLsbD 5 = true ∧ 5 ∉ base.retiring) ∧
    (let s : State := { base with keysLive := 0x20, retiring := [5] }
     5 ∈ s.retiring ∧ s.unfocus.keyBusy 5 = false ∧
       { s with entries := [{ id := 11, team := 3, core := 0, kind := .load, locs := [0x300000], key := 5 }] }.unfocus.keyBusy 5 = true) ∧
    (Unwatched base ∧ base.arrived = [] ∧ base.unfocus.holderOf 0x3FFFFFFF = some 0 ∧ base.unfocus.holderOf 0x40000000 = none ∧
      base.wayBetween 0 0x300000 = true ∧ base.hostNeeds = []) ∧
    (away base).wayBetween 0 0x300000 = false ∧
    (let s := { systemRange with hostNeeds := [21], unperf := [{ store := 21, locs := [0x300000] }] }
     Unwatched systemRange ∧ s.unfocus.holderOf 0x300000 = some 0 ∧ s.hostDomain 0 0x300000 = .system ∧ s.wayBetween 0 0x300000 = true ∧
       ∃ m ∈ s.hostNeeds, ∃ u ∈ s.unperf, u.store = m) ∧
    (Unwatched windowed ∧ windowed.arrived = [] ∧ (windowed.unfocus.windowFor (element true)).isSome = true ∧
      (away windowed).wayBetween ((away windowed).arrivalDie (element true)) 0x300000 = false ∧
      windowed.wayBetween (windowed.arrivalDie (element true)) 0x300000 = true) ∧
    base.unfocus.windowFor (element true) = none := by
  refine ⟨⟨rfl, rfl, 0, by decide +kernel⟩, by decide +kernel, by decide +kernel, by decide +kernel, by decide +kernel, by decide +kernel, by decide +kernel,
    ⟨unwatched_base, rfl, by decide +kernel⟩, by decide +kernel, ⟨unwatched_systemRange, by decide +kernel⟩,
    ⟨unwatched_windowed, rfl, by decide +kernel, by decide +kernel, ?_⟩, by decide +kernel⟩
  exact way_open rfl _ _

/-- An image of the reset device, unchanged where it was written, in a peer's aperture; every partition is empty. -/
def emptied : State := { phase := 5, parts := [(0, {})] }
def imageAddr : Addr := 0x8000000000000
def written : State :=
  let g := State.reset.image
  { emptied with images := [(imageAddr, g)], peerBytes := SMap.setList [] 0 imageAddr.toNat (emptied.imageBytes g) }

theorem written_good : (written.unfocus.goodImage imageAddr).isSome = true := by
  have hb : written.imageBytes State.reset.image = emptied.imageBytes State.reset.image := rfl
  have hp : inPeer imageAddr = true := by decide +kernel
  have hs : written.imageAtAddr imageAddr (emptied.imageBytes State.reset.image).length = emptied.imageBytes State.reset.image := by
    simp only [State.imageAtAddr, hp, if_true, written, SMap.getList_setList]
  have hg : written.imageGood imageAddr State.reset.image = true := by
    have hi : State.reset.image.identity = written.identityHash := rfl
    have hr : State.reset.image.grade = written.grade := rfl
    have he : State.reset.image.enum = written.enumHash := rfl
    simp only [State.imageGood, hb, hs, hi, hr, he, beq_self_eq_true, Bool.and_self]
  show (Option.filter (written.imageGood imageAddr) (some State.reset.image)).isSome = true
  simp [Option.filter, hg]

/-- Whether a signature verifies is opaque (log entry 56): of an image either holds. -/
theorem witness_DeviceStates :
    (State.reset.phase = 0 ∧ State.reset.error = 0 ∧ ∀ c, configGood c = true ∨ configGood c = false) ∧
    ({ State.reset with phase := 3 }.error = 0 ∧ { State.reset with phase := 4 }.phase = 4) ∧
    (base.phase = 5 ∧ base.frozen = .no ∧ base.unfocus.frostOpen (.cxlTier 0x1000) = true ∧ base.unfocus.frostOpen (.peer 1 0) = false) ∧
    (let s : State := { phase := 5, frozen := .freezing (.cxlTier 0x1000) }
     s.frozen = .freezing (.cxlTier 0x1000) ∧ s.unfocus.still = true ∧ Unwatched s) ∧
    ({ base with frozen := .freezing (.cxlTier 0x1000) }.unfocus.still = false) ∧
    ((∀ e ∈ written.parts, e.2.entry.valid = false) ∧ (written.unfocus.goodImage imageAddr).isSome = true ∧ written.frozen = .no ∧ written.phase = 5) ∧
    (¬ (∀ e ∈ base.parts, e.2.entry.valid = false) ∧ { base with frozen := .frozen }.frozen ≠ .no) ∧
    (let g := State.reset.image
     let s : State := { phase := 5, images := [(0x1000, g)], frozen := .thawing 0x1000 }
     (s.images.find? fun x => x.1 == 0x1000) = some (0x1000, g) ∧ Memory.wf s.mem = true ∧ Memory.wf g.mem = true ∧
       (∀ k, 2 ^ 54 ≤ k → g.mem.get 0 k = 0) ∧ (g.clocks.getD 3 0).toNat < 2 ^ 64 - 1) := by
  refine ⟨⟨rfl, rfl, fun c => (Bool.eq_false_or_eq_true _)⟩, by decide +kernel, by decide +kernel, ⟨rfl, by decide +kernel, fun e he => nomatch he⟩, by decide +kernel,
    ⟨by decide, written_good, rfl, rfl⟩, by decide +kernel, rfl, by decide +kernel, by decide +kernel, ?_, by decide +kernel⟩
  exact fun k _ => rfl

/-- A host page of 64 KB, and the 2 MB page at the same address; each as given. -/
def paged (n : Nat) (p : HostPage) : State := { base with pages := [(n, p)], cycle := 100000 }

/-- The split waits for the driver. -/
def driven : State := on id fun x => { x with park := .driver { code := .XLATE, addr := 0x400000, lane := 0 } }

/-- An invalidation of 128 KB from 0x300000 on, beside a load that starts two bytes below it and reaches into it, or ends there. -/
def invalidating (n : Nat) : State :=
  { base with invals := [(0, 0x300000, 2)], tlb := [{ place := .l1 0, ctx := 0, page := 0x310000, shift := 16, entry := 1 }],
              entries := [{ entry0 with spans := [(0x2FFFFE, n)] }] }

theorem witness_PagesAndPeriods :
    (∀ n ∈ [2 ^ 39, 2 ^ 39 + 1], ((paged n { asked := true }).pages.get {} n).asked = true ∧
      (paged n { device := true, recalled := true }).unfocus.mayHandBack n = true ∧ (paged n {}).unfocus.mayHandBack n = false) ∧
    (∃ x, driven.unfocus.driverParks 0 0 0 = [(3, x)] ∧ x.park = .driver { code := .XLATE, addr := 0x400000, lane := 0 }) ∧
    base.unfocus.driverParks 0 0 1 = [] ∧ driven.phase = 5 ∧ mayReach (.driver 0) (State.partOf 0 driven) = true ∧
    mayReach (.driver 1) (State.partOf 0 driven) = false ∧ mayReach .hypervisor 31 = true ∧
    ((invalidating 4).invals.find? fun i => i.1 == 0) = some (0, 0x300000, 2) ∧ (invalidating 4).unfocus.rangeBusy 0 0x300000 2 = true ∧
    (invalidating 2).unfocus.rangeBusy 0 0x300000 2 = false ∧
    (placeUnit 0 false { counts := [(0, 1), (2, 5)], hot := [2] }).die = 2 := by
  refine ⟨by decide +kernel, ⟨driven.split, by decide +kernel, rfl⟩, by decide +kernel, by decide +kernel, by decide +kernel, by decide +kernel, by decide +kernel⟩

/-! Launches and teams -/

/-- A ring of four slots at 0x300000. -/
def ringed (door read stale : Nat) : State :=
  base.modPart 0 fun p => { p with rings := [(0, { base := 0x300000, en := true, door := door, read := read, stale := stale })] }

/-- A card for one team of four lanes at 0x108100, with its code object. -/
def cardA : Card := { entry := 0x108100, code := 0x108000, size := 4, blocks := 1 }
def header : List Byte :=
  leBytes 4 1 ++ leBytes 4 256 ++ leBytes 8 256 ++ leBytes 8 256 ++ leBytes 16 0 ++ leBytes 2 4 ++ leBytes 1 1 ++ leBytes 1 0 ++ leBytes 212 0
def carded (c : Card) : State :=
  { base with mem := (fetchTree []).setList unlistedByte 0x108000 header, cores := [(0, { cards := [{ card := c, order := 5 }] })] }

/-- Its one launch is done, and its card names a completion record. -/
def launchA : Launch := { id := 1, card := { done := 0x300000 }, next := 1 }
def recorded : State := { base with launches := [launchA] }

theorem witness_LaunchEvents :
    (let s := ringed 1 0 0
     let bs := (List.range 128).map fun k => s.byte (0x300000 + k)
     ((s.ring 0 0).en = true ∧ slotOf (s.ring 0 0) 0 = 0x300000 ∧ field bs 48 8 = 0) ∧ (ringed 1 0 3 |>.ring 0 0).stale = 3) ∧
    (let r := (ringed 5 4 15).ring 0 0
     r.door - r.read ≤ 2 ^ r.lsize ∧ 0 ≠ r.read ∧ 0 < r.read ∧ 0 % 2 ^ r.lsize = r.read % 2 ^ r.lsize ∧ r.stale < 16) ∧
    (let r := (ringed 6 5 0).ring 0 0
     ¬ (0 % 2 ^ r.lsize = r.read % 2 ^ r.lsize)) ∧
    (let due := fun s : State => decide ((s.ring 0 0).stale ≠ 0 ∧ (s.ring 0 0).since + cyclesOf 1000 ≤ s.cycle)
     due (ringed 5 4 15) = false ∧ due { ringed 5 4 15 with cycle := cyclesOf 1000 } = true) ∧
    (let r := (ringed 5 0 0).ring 0 0
     2 ^ r.lsize < r.door - r.read) ∧
    (State.reset.phase ≠ 5 ∧ base.unfocus.decide? 0 = none) ∧
    ((carded { cardA with valid := false }).unfocus.decide? 0 = some (12, { card := { cardA with valid := false }, order := 5 }, none)) ∧
    (let s := carded cardA
     s.frozen = .no ∧ s.phase = 5 ∧ (s.part 0).entry.valid = true ∧ s.unfocus.decide? 0 = some (12, { card := cardA, order := 5 }, some 0) ∧
       (∀ l ∈ s.launches, l.order ≠ 5 ∧ l.id < s.nextId) ∧ ∀ y ∈ s.unfocus.others, y.block ≤ s.nextId) ∧
    (let l : Launch := { id := 1, card := {}, next := 1 }
     let s := { base with launches := [l] }
     s.unfocus.findLaunch 1 = some l ∧ s.unfocus.launchDone l = true ∧ l.card.done = 0) ∧
    (recorded.unfocus.findLaunch 1 = some launchA ∧ recorded.unfocus.launchDone launchA = true ∧ launchA.card.done ≠ 0 ∧
      recorded.unfocus.recordOpen 0 1 0 0x300000 32 0 = true ∧ Unwatched recorded ∧ canonical launchA.card.done = true ∧
      launchA.card.done.toNat % 65536 + 32 ≤ 65536 ∧ (match recorded.unfocus.translate 0 1 0 0 .store 0x300000 with | .ok p => p.host.isNone | _ => false) = true) ∧
    (away recorded).unfocus.recordOpen 0 1 0 0x300000 32 0 = false ∧
    (let b : Bin := { id := 8, ctx := 0, entry := 0, launch := 1, items := [], opened := 1, core := 0 }
     let s := { base with dies := [(0, { bins := [b] })], cycle := 4097 }
     b ∈ (s.die 0).bins ∧ b.opened + 4096 ≤ s.cycle) ∧
    ({ base with cycle := 100 }.pastDeadline 1 = true) := by
  refine ⟨?_, ?_, ?_, ?_, ?_, ?_, ?_, ?_, ?_, ⟨?_, ?_, ?_, ?_, unwatched_base, ?_⟩, ?_, ?_, ?_⟩
  all_goals decide +kernel

/-- What holds of a team of the unfocused machine. -/
def teamB (s : State) (tid : Nat) (p : Team → Bool) : Bool := match s.unfocus.findTeam tid with | some w => p w | none => false

/-- The split of the machine stands outside a run. -/
def resting (g : Team → Team := id) : State := on g fun x => { x with run := {} }

/-- A split in two halves that both stand at 0x100010 after a wave split. -/
def waved : State :=
  on (fun t => { t with splits := [{ id := 9, pc := 0x100010, mask := 0xC, run := { active := true, temps := [(2, 7)] },
                                     wave := some { other := 4, hit := false, flight := 0, lanes := 0xC, stop := 0x100010 } }] })
    fun x => { x with mask := 0x3, pc := 0x100010, wave := some { other := 9, hit := true, flight := 0, lanes := 0x3, stop := 0x100010 } }

/-- Team 3's block gives up its core. -/
def leaving (p : Preempt) : State := { resting with blocks := [{ id := 2, launch := 1, core := 0, teams := [3], preempt := p }], cycle := 1000 }

/-- Partition 0 records, with images of counts 4 and 6. -/
def imaged (stop : Option Nat) : State :=
  let g := base.imageOf 0
  { base with past := [{ g with count := 4 }, { g with count := 6 }] }.modPart 0 fun q => { q with dbgctl := 4, interval := some 4, retired := 9, replayTo := stop }

theorem witness_TeamEvents :
    (teamB resting 3 fun w => w.splits.any fun x => x.id == 4 && resting.unfocus.mayStart w x) = true ∧
    (teamB base 3 fun w => w.splits.any fun x => x.id == 4 && !base.unfocus.mayStart w x) = true ∧ (resting.unfocus.focus 3 4).pendingFault = none ∧
    ((resting fun t => { t with late := some 0x300000 }).unfocus.focus 3 4).pendingFault.isSome = true ∧
    (∀ xs ∈ [[Landing.word 5 7], [.bit 5 true], [.lanes 5 (some .i32) [(0, 7), (3, 9)]]],
      (teamB (on fun t => { t with pending := [{ id := 8, regs := xs.map regOf, value := some xs, flight := 0, split := 4 }] }) 3 fun w =>
        decide ((w.pending.find? fun p => p.id == 8).bind Pending.value = some xs ∧ ∀ y ∈ w.every, y.id = 4 → y.wave = none)) = true) ∧
    (teamB waved 3 fun w => w.splits.any fun x => x.id == 4 && x.mask == 0x3 && x.pc == 0x100010 && x.wave.any fun a => a.hit && a.stop == 0x100010 &&
      w.splits.any fun y => y.id == a.other && y.wave.isSome && y.run.temps.wf 0) = true ∧
    (let s := on (fun t => { t with id := 7, role := .helper 9 })
     teamB s 7 fun g => decide (g.role = .helper 9) && !g.ended) = true ∧
    (teamB base 3 fun w => decide (w.role = .main) && !w.ended) = true ∧
    (∃ b, (leaving (.draining 5)).findBlock 2 = some b ∧ b.preempt = .draining 5 ∧ (leaving (.draining 5)).cycle < 5 + cyclesOf 200000) ∧
    (∃ b, { leaving (.draining 5) with cycle := 5 + cyclesOf 200000 }.findBlock 2 = some b ∧ b.preempt = .draining 5) ∧
    (∃ b, (leaving .saving).findBlock 2 = some b ∧ b.preempt = .saving ∧
      ((leaving .saving).unfocus.teamsOf b).all (fun y => y.id != 0 && (leaving .saving).unfocus.savable b y && (y.expand.bind Expansion.current).isNone) = true ∧
      ((leaving .saving).unfocus.matrix b.core).bound ≠ some 2 ∧
      (leaving .saving).parts.all (fun p => (List.range 4).all fun i => !(p.2.wps.get {} i).en) = true) ∧
    (∃ b, (leaving (.saved 5)).findBlock 2 = some b ∧ b.preempt = .saved 5 ∧ (leaving (.saved 5)).frozen = .no ∧
      (leaving (.saved 5)).unfocus.coreBack b = some 0) ∧
    (let s := on (fun t => { t with stopped := true, stopAt := some 4, frpc := 0x100020 }) fun x => { x with park := .stop }
     teamB s 3 fun w => w.stopped && w.stopAt == some 4 && canonical w.frpc && w.every.any fun y => y.id == 4 && y.park == .stop) = true ∧
    (base.phase = 5 ∧ base.frozen = .no ∧ { base with frozen := .frozen }.frozen ≠ .no) ∧
    ((base.part 0).dbgctl.getLsbD 2 = false ∧ (base.part 0).checking = false ∧ ((imaged none).part 0).dbgctl.getLsbD 2 = true ∧
      ((base.modPart 0 fun q => { q with checking := true }).part 0).checking = true) ∧
    ((imaged none).blocksOf 0 ≠ [] ∧ ({ imaged none with blocks := [] }).blocksOf 0 = []) ∧
    (((imaged none).part 0).interval = some 4 ∧ ((imaged none).imageAt 0 4).isSome = true ∧ ((imaged none).imageAt 0 6).isSome = true ∧
      6 ≤ ((imaged none).part 0).retired) ∧ (((imaged (some 6)).part 0).replayTo = some 6 ∧ ((imaged (some 6)).imageAt 0 6).isSome = true) ∧
    (let s := { base with cores := [(0, { sampling := [(1, { claim := { owner := some .hypervisor }, interval := 1024 })] })] }
     (s.unit 0 1).expired = true ∧ (base.unit 0 1).expired = false) := by
  refine ⟨by decide +kernel, by decide +kernel, by decide +kernel, by decide +kernel, by decide +kernel, by decide +kernel, by decide +kernel, by decide +kernel,
    ⟨_, rfl, by decide +kernel⟩, ⟨_, rfl, by decide +kernel⟩, ⟨_, rfl, by decide +kernel⟩, ⟨_, rfl, by decide +kernel⟩, by decide +kernel, by decide +kernel,
    by decide +kernel, by decide +kernel, by decide +kernel, by decide +kernel, by decide +kernel⟩

/-- R308: bytes 5:4 the team's size, 6 `rgcnt`, 7 the state, 9:8 the wait kind (5 a barrier), 91:88 the first held colour and its depth. -/
theorem test_teamRecord :
    let t : Team := { n := 300, blocks := 7, held := [(0x105, 2)], splits := [{ park := .barrier 1 }] }
    ((base.recordFields t).take 10).drop 4 = [0x2C, 1, 7, 1, 5, 0] ∧ ((base.recordFields t).take 92).drop 88 = [5, 1, 2, 0] := by
  decide +kernel

/-! ### Single steps

Expected values are hand calculations from the named rules, or the manual's own examples. -/

/-- The word that register `r` holds after an instruction, on uniform registers s2 and s3. -/
def after (i : Instr) (a b : Word) (r : Nat := 1) : Option Word :=
  match exec i (on fun t => { t with s := [(2, a), (3, b)] }) with
  | .next t => some (t.regS r)
  | _ => none

def bin : Fmt := { cls := .uni, len := .l64, d := 1, a := 2, b := 3 }
def binX (x : XWord) : Fmt := { bin with len := .l96, x := x }

/-- R52's example: 0x7FFFFFF0 + 0x20 saturates with the clamp and wraps without it. -/
theorem test_add_example :
    after (.add (binX { clamp := .sat })) 0x7FFFFFF0 0x20 = some 0x7FFFFFFF ∧ after (.add bin) 0x7FFFFFF0 0x20 = some 0x80000010 := by decide +kernel

/-- R52: the signed high word of -1 × 2 is -1, the unsigned one is 1. -/
theorem test_mulhi_signs :
    after (.mulhi bin) 0xFFFFFFFF 2 = some 0xFFFFFFFF ∧ after (.mulhi (binX { ty := .z32 })) 0xFFFFFFFF 2 = some 1 := by decide +kernel

/-- R52: 3 − 5 as z32 wraps, and is 0 with clamp 11. -/
theorem test_sub_unsigned :
    after (.sub (binX { ty := .z32 })) 3 5 = some 0xFFFFFFFE ∧ after (.sub (binX { ty := .z32, clamp := .sat })) 3 5 = some 0 := by decide +kernel

/-- R53: a count of the width or more empties a shift, or fills it with the sign. -/
theorem test_shift_full :
    after (.shl bin) 1 32 = some 0 ∧ after (.shr bin) 0x80000000 32 = some 0 ∧ after (.sar bin) 0x80000000 99 = some 0xFFFFFFFF ∧
    after (.shl bin) 1 31 = some 0x80000000 := by decide +kernel

/-- R54: leading zeros of 0; a field cut off at bit 31, sign- and zero-extended; no field at position 32. -/
theorem test_bit_fields :
    after (.clz { bin with b := 0 }) 0 0 = some 32 ∧ after (.brev { bin with b := 0 }) 1 0 = some 0x80000000 ∧
    after (.bfe bin) 0xF0000000 0x081C = some 0xFFFFFFFF ∧ after (.bfe (binX { ty := .z32 })) 0xF0000000 0x081C = some 0xF ∧
    after (.bfe bin) 0xF0000000 0x0820 = some 0 := by decide +kernel

/-- R56: −1 is below 1 as i32 and above it as z32. -/
theorem test_compare_signs :
    let q := fun ty => match exec (.cmpLt (binX { ty := ty })) (on fun t => { t with s := [(2, 0xFFFFFFFF), (3, 1)] }) with
      | .next t => some (t.regQ 1)
      | _ => none
    q .i32 = some true ∧ q .z32 = some false := by decide +kernel

/-- R61: 1 + 2^-24 is a tie, which goes to the even significand, and up with rounding up; −0 + 0 is +0. -/
theorem test_fadd_rounds :
    after (.fadd bin) 0x3F800000 0x33800000 = some 0x3F800000 ∧ after (.fadd (binX { rnd := .rpi })) 0x3F800000 0x33800000 = some 0x3F800001 ∧
    after (.fadd bin) 0x80000000 0 = some 0 := by decide +kernel

/-- R57: `movi` of 64 bits sign-extends its immediate. -/
theorem test_movi_pair :
    let f : Fmt := { cls := .uni, len := .l128, d := 2, x := { ty := .i64 }, imm := 0xFFFFFFFE }
    after (.movi f) 0 0 2 = some 0xFFFFFFFE ∧ after (.movi f) 0 0 3 = some 0xFFFFFFFF ∧ after (.movi { f with x := { ty := .z64 } }) 0 0 3 = some 0 := by decide +kernel

/-- R66, R67: a branch goes to its own address plus the immediate. -/
theorem test_bra_target :
    (match exec (.bra { fBra with imm := 0xFFFFFFF0 }) base with | .next t => some t.split.pc | _ => none) = some 0xFFFF0 := by decide +kernel

/-- The machine runs an instruction that stands where it fetches: the first one after a reset. -/
theorem test_first_instruction :
    (match step (State.reset.withFetchWord 128 ((encode (.movi { cls := .uni, len := .l128, d := 5, imm := 77 })).foldr (fun b w => b.toNat + 256 * w) 0)) with
      | .next t => some (t.unfocus.others.map fun w => w.s.get 0 5)
      | _ => none) = some [77] := by decide +kernel

/-- R20, R71: `trap` enters the handler at `trapvec`; `frpc` is the address of the trap, `fraddr` its immediate. -/
theorem test_trap_enters :
    (match exec (.trap { cls := .uni, len := .l128, imm := 9 }) base with
      | .next t => some (t.split.pc, t.team.frpc, t.team.fraddr, t.team.frcode)
      | _ => none) = some (0x180000, 0x100000, 9, 0x3E) := by decide +kernel

end Sys2Proof.Tests
end

section
/-! The values of the integer instructions of 64 bits (R51 to R53, R55, R57). -/
namespace Sys2Proof.Machine

/-! ### Exact values and words -/

theorem two_pow_eq_double {w : Nat} (hw : 0 < w) : (2 : Int) ^ w = 2 * 2 ^ (w - 1) := by
  obtain ⟨n, rfl⟩ : ∃ n, w = n + 1 := ⟨w - 1, by omega⟩
  rw [Nat.add_sub_cancel, Int.pow_succ, Int.mul_comm]

@[simp] theorem ofInt_valOf {w : Nat} (u : Bool) (a : BitVec w) : BitVec.ofInt w (valOf u a) = a := by
  cases u <;> simp [valOf]

/-- The word of an exact sum is the sum of the words. -/
theorem ofInt_valOf_add {w : Nat} (u : Bool) (a b : BitVec w) : BitVec.ofInt w (valOf u a + valOf u b) = a + b := by
  rw [BitVec.ofInt_add, ofInt_valOf, ofInt_valOf]

theorem ofInt_valOf_sub {w : Nat} (u : Bool) (a b : BitVec w) : BitVec.ofInt w (valOf u a - valOf u b) = a - b := by
  rw [Int.sub_eq_add_neg, BitVec.ofInt_add, BitVec.ofInt_neg, ofInt_valOf, ofInt_valOf, BitVec.sub_eq_add_neg]

/-- A word's value lies in the range of its type (R51). -/
theorem valOf_range {w : Nat} (hw : 0 < w) (u : Bool) (a : BitVec w) : loOf w u ≤ valOf u a ∧ valOf u a ≤ hiOf w u := by
  have hp := two_pow_eq_double hw
  cases u with
  | true =>
    have h : (a.toNat : Int) < 2 ^ w := by exact_mod_cast a.isLt
    simp only [loOf, hiOf, valOf, if_true]
    omega
  | false =>
    have h := BitVec.le_two_mul_toInt (x := a)
    have h' := BitVec.two_mul_toInt_lt (x := a)
    simp only [loOf, hiOf, valOf, Bool.false_eq_true, if_false]
    omega

/-- Confining a word's own value changes nothing. -/
theorem wrapsat_valOf {w : Nat} (hw : 0 < w) (u sat : Bool) (a : BitVec w) : wrapsat w u sat (valOf u a) = a := by
  obtain ⟨h, h'⟩ := valOf_range hw u a
  have hc : clampInt (loOf w u) (hiOf w u) (valOf u a) = valOf u a := by
    rw [clampInt, if_neg (by omega), if_neg (by omega)]
  rw [wrapsat, hc, ite_self, ofInt_valOf]

/-- `wrapsat` is what R51 states: the wrapped word, or the end of the range that the exact value lies past. -/
theorem wrapsat_eq_confined {w : Nat} (f : Fmt) (exact : Int) :
    wrapsat w f.x.ty.unsigned (f.x.clamp = .sat) exact = confined f exact (BitVec.ofInt w exact) := by
  unfold wrapsat confined clampInt
  by_cases h : f.x.clamp = .sat
  · simp only [h, decide_true, if_true]
    split
    · rfl
    · split <;> rfl
  · simp only [h, decide_false, Bool.false_eq_true, if_false]

theorem shiftOp_apply_shl {w : Nat} (a : BitVec w) (n : Nat) : ShiftOp.shl.apply a n = a <<< n := by
  unfold ShiftOp.apply
  dsimp only
  split
  · exact (BitVec.shiftLeft_eq_zero (by omega)).symm
  · rfl

theorem shiftOp_apply_shr {w : Nat} (a : BitVec w) (n : Nat) : ShiftOp.shr.apply a n = a >>> n := by
  unfold ShiftOp.apply
  dsimp only
  split
  · exact (BitVec.ushiftRight_eq_zero (by omega)).symm
  · rfl

theorem shiftOp_apply_sar {w : Nat} (a : BitVec w) (n : Nat) : ShiftOp.sar.apply a n = a.sshiftRight n := by
  unfold ShiftOp.apply
  dsimp only
  split
  · rename_i h
    refine BitVec.eq_of_getLsbD_eq fun k hk => ?_
    rw [BitVec.getLsbD_sshiftRight]
    have hn : ¬ n + k < w := by omega
    cases a.msb <;> simp [BitVec.neg_one_eq_allOnes, hn, hk]
  · rfl

/-! ### The instructions of 64 bits -/

/-- An instruction of one cycle whose body writes the pair `w`: it has stepped with both halves written, or raises UDIV (R91). -/
theorem one_wide {i : Instr} {f : Fmt} {s : State} {w : Addr} (h : Acts i f s) (body : Fmt → State → State → Res)
    (hb : ∀ t, body f (s.seen i f) t = putWide 1 f w (s.seen i f) t) :
    ((s.seen i f).diverged = false →
      ∃ t, one i f body s = .next t ∧ Stepped f [.s f.d.toNat, .s (f.d.toNat + 1)] s t ∧
        t.regS (f.d.toNat + 1) ++ t.regS f.d.toNat = w) ∧
    ((s.seen i f).diverged = true → one i f body s = .next (s.takeFault (wholeFlt .UDIV))) := by
  refine ⟨fun hd => ?_, fun hd => ?_⟩
  · obtain ⟨t, he, ht, hlo, hhi⟩ := straight_wide h 1 (.fixed 1) w hd (fun _ v s => body f v s) fun _ t => hb t
    refine ⟨t, he, ht, ?_⟩
    rw [hlo, hhi]
    exact BitVec.extractLsb'_append_extractLsb'_eq_extractLsb' (by rfl) |>.trans (by simp)
  · exact straight_raise h _ _ _ fun _ t => (hb t).trans (by rw [putWide, hd]; rfl)

/-- In the uniform class no source is a varying register, and R88 checks nothing. -/
theorem tagsOk_uni {f : Fmt} (h : f.cls = .uni) (v : State) (ts : List Tag) : tagsOk v (varA f ++ varB f) ts = true := by
  simp [varA, varB, h, tagsOk]

theorem putAny_wide {f : Fmt} (h : f.x.ty.is64 = true) (tag : Tag) (val : Nat → Word) (wide : Addr) (v s : State) :
    putAny 1 f tag val wide v s = putWide 1 f wide v s := if_pos h

theorem byClass_uni {f : Fmt} (h : f.cls = .uni) (aff other : Fmt → State → State → Res) : byClass f aff other = other f := by
  rw [byClass, h]

theorem intOp_wide {f : Fmt} (hu : f.cls = .uni) (h : f.x.ty.is64 = true) (op : IntOp) (v s : State) :
    intOp op f v s = putWide 1 f (wrapsat 64 f.x.ty.unsigned (f.x.clamp = .sat)
      (op.exact (valOf f.x.ty.unsigned (intA64 f v)) (valOf f.x.ty.unsigned (intB64 f v)))) v s := by
  unfold intOp
  dsimp only
  rw [tagsOk_uni hu, tagged, if_pos rfl, putAny_wide h]

theorem shiftOp_wide {f : Fmt} (hu : f.cls = .uni) (h : f.x.ty.is64 = true) (op : ShiftOp) (v s : State) :
    shiftOp op f v s = putWide 1 f (op.apply (rawA64 f v) (rawB f v 0).toNat) v s := by
  rw [shiftOp, tagsOk_uni hu, tagged, if_pos rfl, putAny_wide h]

theorem bitOp_wide {f : Fmt} (h : f.x.ty.is64 = true) (op : BitOp) (v s : State) :
    bitOp op f v s = putWide 1 f (op.apply (rawA64 f v) (rawB64 f v)) v s := putAny_wide h _ _ _ v s

/-- An instruction of one cycle, the body of which writes the pair `w` where its format names 64 bits in the uniform class. -/
def WritesPair (i : Instr) (f : Fmt) (v : State) (w : Addr) : Prop :=
  ∃ body, (∀ s, exec i s = one i f body s) ∧ ∀ t, body f v t = putWide 1 f w v t

/-- The instructions that have a 32-bit and a 64-bit width write the pair of `plainValue`. -/
theorem writesPair_plain {i : Instr} {f : Fmt} {v : State} {w : Addr} (hf : i.fmt? = some f) (hu : f.cls = .uni)
    (h : f.x.ty.is64 = true) (hw : plainValue i (if takesModifiers i then intA64 f v else rawA64 f v)
      (if takesModifiers i then intB64 f v else rawB64 f v) (rawB f v 0) = some w) : WritesPair i f v w := by
  unfold plainValue at hw
  split at hw
  case h_13 => simp at hw
  all_goals
    rename_i g
    obtain rfl : g = f := Option.some.inj hf
    obtain rfl := Option.some.inj hw
    dsimp only [takesModifiers]
    simp only [if_true, Bool.false_eq_true, if_false]
  case h_1 =>      -- add
    refine ⟨fun f => byClass f (pairOp .add) (intOp .add), fun _ => rfl, fun t => ?_⟩
    dsimp only
    rw [byClass_uni hu, intOp_wide hu h, wrapsat_eq_confined, IntOp.exact, ofInt_valOf_add]
  case h_2 =>      -- sub
    refine ⟨fun f => byClass f (pairOp .sub) (intOp .sub), fun _ => rfl, fun t => ?_⟩
    dsimp only
    rw [byClass_uni hu, intOp_wide hu h, wrapsat_eq_confined, IntOp.exact, ofInt_valOf_sub]
  case h_3 =>      -- min
    refine ⟨intOp .min, fun _ => rfl, fun t => ?_⟩
    rw [intOp_wide hu h, IntOp.exact, ← apply_ite, wrapsat_valOf (by decide)]
  case h_4 =>      -- max
    refine ⟨intOp .max, fun _ => rfl, fun t => ?_⟩
    rw [intOp_wide hu h, IntOp.exact, ← apply_ite, wrapsat_valOf (by decide)]
  case h_5 => exact ⟨bitOp .and, fun _ => rfl, bitOp_wide h .and v⟩
  case h_6 => exact ⟨bitOp .or, fun _ => rfl, bitOp_wide h .or v⟩
  case h_7 => exact ⟨bitOp .xor, fun _ => rfl, bitOp_wide h .xor v⟩
  case h_8 => exact ⟨fun f v => putAny 1 f (bitTag v (varA f)) (fun l => ~~~(rawA f v l)) (~~~(rawA64 f v)) v, fun _ => rfl,
      fun t => putAny_wide h _ _ _ v t⟩
  case h_9 =>      -- shl
    refine ⟨fun f => byClass f (pairOp .shl) (shiftOp .shl), fun _ => rfl, fun t => ?_⟩
    dsimp only
    rw [byClass_uni hu, shiftOp_wide hu h, shiftOp_apply_shl]
  case h_10 =>     -- shr
    exact ⟨shiftOp .shr, fun _ => rfl, fun t => by rw [shiftOp_wide hu h, shiftOp_apply_shr]⟩
  case h_11 =>     -- sar
    exact ⟨shiftOp .sar, fun _ => rfl, fun t => by rw [shiftOp_wide hu h, shiftOp_apply_sar]⟩
  case h_12 =>     -- mov
    exact ⟨fun f v => putAny 1 f (((varA f).head?.map v.tagOf).getD .i32) (fun l => rawA f v l) (rawA64 f v) v, fun _ => rfl,
      fun t => putAny_wide h _ _ _ v t⟩

/-- Each integer instruction that has a 64-bit form writes the pair of `wideResult`. -/
theorem writesPair_wideResult {i : Instr} {f : Fmt} {v : State} {w : Addr} (hf : i.fmt? = some f) (hu : f.cls = .uni)
    (h : f.x.ty.is64 = true) (hw : wideResult i f v = some w) : WritesPair i f v w := by
  unfold wideResult at hw
  dsimp only at hw
  split at hw
  case h_1 g =>      -- sel
    obtain rfl : g = f := Option.some.inj hf
    obtain rfl := Option.some.inj hw
    refine ⟨fun f v s => tagged (tagsOk v (varA f ++ varB f) [.i32])
      (putAny 1 f .i32 (fun l => if selects f v l then rawA f v l else rawB f v l)
        (if selects f v 0 then rawA64 f v else rawB64 f v) v s), fun _ => rfl, fun t => ?_⟩
    dsimp only
    rw [tagsOk_uni hu, tagged, if_pos rfl, putAny_wide h]
  case h_2 g =>      -- movi
    obtain rfl : g = f := Option.some.inj hf
    obtain rfl := Option.some.inj hw
    exact ⟨fun f v => putAny 1 f (if f.x.ty = .f32 then .f32 else .i32) (fun _ => f.imm)
      (if f.x.ty.unsigned then f.imm.zeroExtend 64 else f.imm.signExtend 64) v, fun _ => rfl, fun t => putAny_wide h _ _ _ v t⟩
  case h_3 => exact writesPair_plain hf hu h hw

/-- Settles O3: the branches of `wideResult` are the instructions, and each writes its pair through `putWide`. -/
theorem integerPair : Obligations.IntegerPair := by
  intro i f s w h hu h64 hw
  obtain ⟨body, he, hb⟩ := writesPair_wideResult h.fields hu h64 hw
  rw [he]
  exact one_wide h body hb

end Sys2Proof.Machine
end

section
/-! Control transfers, and the device's own accesses to memory: the shared laws. -/
namespace Sys2Proof.Machine
open State

/-! ### Control transfers -/

/-- The issue of an instruction changes of its team the flags and flights, the count of retired instructions and `tctl`. -/
def Team.IssuedFrom (t u : Team) : Prop := u = { t with c := u.c, flights := u.flights, tctl := u.tctl, retired := u.retired }

theorem launch_team (f : Fmt) (u : Uses) (lat : Lat) (ends : Bool) (s : State) :
    s.team.IssuedFrom (launch f u lat ends s).2.team := by
  have hf (n m : Nat) (d : Option Nat) :
      s.team.IssuedFrom ({ s.account f ends with nextId := n }.launchFlight m f.sig 1 d).team := by
    unfold Team.IssuedFrom
    rw [launchFlight_team]
    simp only [account_team]
    rfl
  unfold launch
  dsimp only
  split
  · rw [account_team]; rfl
  · split <;> exact hf _ _ _

theorem Charged.fields {f : Fmt} {ws : List Reg} {s t : State} (h : Charged f ws s t) :
    t.mem = s.mem ∧ t.seals = s.seals ∧ t.keyNo = s.keyNo ∧ t.entries = s.entries := by
  rw [h.rest]
  exact ⟨rfl, rfl, rfl, rfl⟩

/-- A control transfer whose body is done: what the body starts from, and what the instruction answers. -/
theorem ctl_done {i : Instr} {f : Fmt} {s : State} (h : Acts i f s) (body : Fmt → State → State → Res) (g : State → State)
    (hb : ∀ t, body f (s.seen i f) t = .done (g t)) :
    ∃ u n, ctl i f body s = .next { g u with free := n } ∧ Moved f [] (s.split.pc + BitVec.ofNat 64 f.len.bytes) s u ∧
      s.team.IssuedFrom u.team := by
  obtain ⟨n, he⟩ := issue_done h (.fixed 0) true (fun _ v t => body f v t) (fun _ => g) fun _ => hb
  exact ⟨_, n, he, launch_moved f (usesOf i) (.fixed 0) s, launch_team f (usesOf i) (.fixed 0) true s⟩

theorem ctl_raise {i : Instr} {f : Fmt} {s : State} (h : Acts i f s) (x : Flt) (body : Fmt → State → State → Res)
    (hb : ∀ t, body f (s.seen i f) t = .raise x) : ctl i f body s = .next (s.takeFault x) :=
  issue_raise h (.fixed 0) true x (fun _ v t => body f v t) fun _ => hb

/-! ### What an access leaves in TLBs, homes and clocks -/

/-- `t` differs from `s` only in the TLBs, the homes of units and the clocks of dies. -/
def Noted (s t : State) : Prop := t = { s with dies := t.dies, homes := t.homes, tlb := t.tlb }

theorem Noted.refl (s : State) : Noted s s := rfl

theorem Noted.trans {s t u : State} (h : Noted s t) (h' : Noted t u) : Noted s u := by
  unfold Noted at *
  rw [h] at h'
  exact h'

theorem Noted.fields {s t : State} (h : Noted s t) : t.team = s.team ∧ t.split = s.split ∧ t.mem = s.mem ∧ t.seals = s.seals ∧
    t.keyNo = s.keyNo ∧ t.entries = s.entries := by
  unfold Noted at h
  rw [h]
  exact ⟨rfl, rfl, rfl, rfl, rfl, rfl⟩

theorem keepEntry_noted (s : State) (x : Cached) : Noted s (s.keepEntry x) := by
  unfold keepEntry
  split <;> rfl

theorem noteTlb_noted (s : State) (cx launch core : Nat) (va : Addr) : Noted s (s.noteTlb cx launch core va) := by
  unfold noteTlb
  dsimp only
  generalize passed s va.toNat _ _ = l
  generalize s.dieOf core = d
  induction l generalizing s with
  | nil => exact Noted.refl s
  | cons e r ih =>
    refine Noted.trans ?_ (ih _)
    obtain ⟨e, sh⟩ := e
    dsimp only
    split
    · exact (keepEntry_noted s _).trans (keepEntry_noted _ _)
    · exact keepEntry_noted s _

theorem touch_noted (s : State) (k d : Nat) (pin : Option (Nat × Nat)) : Noted s (s.touch k d pin) := by
  unfold touch
  split <;> rfl

theorem message_noted (s : State) (a b : Nat) : Noted s (s.message a b) := by
  unfold message
  split <;> rfl

theorem roundTrip_noted (s : State) (d k : Nat) : Noted s (s.roundTrip d k) := by
  unfold roundTrip
  split
  · exact (message_noted s _ _).trans (message_noted _ _ _)
  · exact Noted.refl s

/-! ### Lines under a key (R337) -/

/-- `t` differs from `s` only in bytes, their keys and their history. -/
def Resealed (s t : State) : Prop := t = { s with mem := t.mem, seals := t.seals, hist := t.hist }

theorem Resealed.refl (s : State) : Resealed s s := rfl

theorem Resealed.trans {s t u : State} (h : Resealed s t) (h' : Resealed t u) : Resealed s u := by
  unfold Resealed at *
  rw [h] at h'
  exact h'

theorem sealLine_resealed (s : State) (kid l : Nat) : Resealed s (s.sealLine kid l) := by
  unfold sealLine
  split
  · rfl
  · dsimp only
    split
    · rfl
    · generalize SMap.setList (α := Byte) _ _ _ _ = m
      generalize List.foldl _ _ _ = c
      rfl

/-- A byte outside the stacks, of a line under no key, or of a line under the reader's own keys reads as it stands. -/
theorem byteAs_eq_byte {s : State} {kid k : Nat}
    (h : 2 ^ 51 ≤ k ∨ s.seals.get none (lineOf k) = none ∨ s.seals.get none (lineOf k) = some (s.sealOf kid)) :
    s.byteAs kid k = s.byte k := by
  unfold byteAs
  by_cases hk : k < 2 ^ 51
  · rw [if_pos hk]
    rcases h with h | h | h
    · omega
    · rw [h]
    · rw [h]
      simp
  · rw [if_neg hk]

theorem sealLine_of_sealed {s : State} {kid l : Nat} (h : 2 ^ 51 ≤ 128 * l ∨ s.seals.get none l = some (s.sealOf kid)) :
    s.sealLine kid l = s := by
  unfold sealLine
  rw [if_pos (by simpa using h)]

/-- A line after it is put under a key: each byte of it is what the key reads. -/
theorem byte_sealLine (s : State) (kid l k : Nat) :
    (s.sealLine kid l).byte k = if lineOf k = l then s.byteAs kid k else s.byte k := by
  have hk : lineOf k = l → 2 ^ 51 ≤ 128 * l → 2 ^ 51 ≤ k := by unfold lineOf; omega
  by_cases hs : 2 ^ 51 ≤ 128 * l ∨ s.seals.get none l = some (s.sealOf kid)
  · rw [sealLine_of_sealed hs]
    split
    · rename_i hl
      exact (byteAs_eq_byte (hs.imp (hk hl) fun h => .inr (hl ▸ h))).symm
    · rfl
  · by_cases hn : s.seals.get none l = none
    · have e : (s.sealLine kid l).mem = s.mem := by
        unfold sealLine
        rw [if_neg (by simpa using hs)]
        dsimp only
        rw [if_pos hn]
      simp only [byte, e]
      split
      · rename_i hl
        exact (byteAs_eq_byte (.inr (.inl (hl ▸ hn)))).symm
      · rfl
    · have e : (s.sealLine kid l).mem =
          s.mem.setList unlistedByte (128 * l) (s.bytesAs kid ((List.range 128).map (128 * l + ·))) := by
        unfold sealLine
        rw [if_neg (by simpa using hs)]
        dsimp only
        rw [if_neg hn]
      have hlen : (s.bytesAs kid ((List.range 128).map (128 * l + ·))).length = 128 := by simp [bytesAs]
      simp only [byte, e]
      split
      · rename_i hl
        obtain ⟨i, hi, rfl⟩ : ∃ i, i < 128 ∧ k = 128 * l + i := ⟨k - 128 * l, by unfold lineOf at hl; omega, by unfold lineOf at hl; omega⟩
        rw [SMap.get_setList_same _ _ _ _ _ (by rw [hlen]; exact hi)]
        simp [bytesAs]
      · rename_i hl
        exact SMap.get_setList_other _ _ _ _ _ (by rw [hlen]; unfold lineOf at hl; omega)

theorem sealLine_seals {s : State} {kid l : Nat} (h : ¬ (2 ^ 51 ≤ 128 * l ∨ s.seals.get none l = some (s.sealOf kid))) :
    (s.sealLine kid l).seals = s.seals.set none l (some (s.sealOf kid)) := by
  unfold sealLine
  rw [if_neg (by simpa using h)]
  dsimp only
  split <;> rfl

/-- Putting a line under a key leaves what the key reads, of this line and of any other. -/
theorem byteAs_sealLine (s : State) (kid l k : Nat) : (s.sealLine kid l).byteAs kid k = s.byteAs kid k := by
  by_cases hs : 2 ^ 51 ≤ 128 * l ∨ s.seals.get none l = some (s.sealOf kid)
  · rw [sealLine_of_sealed hs]
  have hno : (s.sealLine kid l).sealOf kid = s.sealOf kid := by
    have e := sealLine_resealed s kid l
    unfold Resealed at e
    rw [e]
    rfl
  by_cases h : lineOf k = l
  · refine (byteAs_eq_byte (.inr (.inr ?_))).trans ((byte_sealLine s kid l k).trans (if_pos h))
    rw [hno, h, sealLine_seals hs, SMap.get_set_same]
  · have hseal : (s.sealLine kid l).seals.get none (lineOf k) = s.seals.get none (lineOf k) := by
      rw [sealLine_seals hs, SMap.get_set_other _ _ _ (Ne.symm h)]
    have hblock : (s.sealLine kid l).blockBytes k = s.blockBytes k := by
      unfold blockBytes bytes
      rw [List.map_map, List.map_map]
      refine List.map_congr_left fun i hi => ?_
      have hi := List.mem_range.1 hi
      exact (byte_sealLine s kid l (k / 16 * 16 + i)).trans (if_neg (by unfold lineOf at *; omega))
    unfold byteAs
    rw [hseal, hno, hblock, byte_sealLine, if_neg h]

theorem sealLines_resealed (s : State) (kid : Nat) (ks : List Nat) : Resealed s (s.sealLines kid ks) := by
  unfold sealLines
  generalize (ks.map lineOf).eraseDups = l
  induction l generalizing s with
  | nil => exact Resealed.refl s
  | cons x r ih => exact (sealLine_resealed s kid x).trans (ih _)

theorem byte_sealLines (s : State) (kid : Nat) (ks : List Nat) (k : Nat) :
    (s.sealLines kid ks).byte k = if lineOf k ∈ ks.map lineOf then s.byteAs kid k else s.byte k := by
  have hfold (l : List Nat) (s : State) :
      (l.foldl (fun s l => s.sealLine kid l) s).byte k = if lineOf k ∈ l then s.byteAs kid k else s.byte k := by
    induction l generalizing s with
    | nil => simp
    | cons x r ih =>
      rw [List.foldl_cons, ih, byteAs_sealLine, byte_sealLine]
      by_cases hk : lineOf k = x <;> simp [hk]
  unfold sealLines
  rw [hfold]
  simp

/-! ### Writes that commit (R198, R204) -/

/-- `t` differs from `s` only in bytes, in what a committed write changes of copies, updates and the marks of entries, and in serial numbers. -/
def Wrote (s t : State) : Prop :=
  t = { s with nextId := t.nextId, mem := t.mem, seals := t.seals, hist := t.hist, l1 := t.l1, entries := t.entries, shares := t.shares,
               updates := t.updates, unperf := t.unperf } ∧
    t.entries.map Entry.asks = s.entries.map Entry.asks

theorem Wrote.refl (s : State) : Wrote s s := ⟨rfl, rfl⟩

theorem Wrote.trans {s t u : State} (h : Wrote s t) (h' : Wrote t u) : Wrote s u := by
  obtain ⟨h, ha⟩ := h
  obtain ⟨h', ha'⟩ := h'
  refine ⟨?_, ha'.trans ha⟩
  rw [h] at h'
  exact h'

theorem Wrote.fields {s t : State} (h : Wrote s t) : t.team = s.team ∧ t.split = s.split := by
  obtain ⟨h, -⟩ := h
  rw [h]
  exact ⟨rfl, rfl⟩

theorem Resealed.wrote {s t : State} (h : Resealed s t) : Wrote s t := by
  unfold Resealed at h
  rw [h]
  exact ⟨rfl, rfl⟩

theorem putBytes_wrote (s : State) (bs : List (Nat × Byte)) : Wrote s (s.putBytes bs) := by
  rw [putBytes_rest]
  exact ⟨rfl, rfl⟩

theorem fresh_wrote (s : State) : Wrote s s.fresh.2 := ⟨rfl, rfl⟩

/-- The mark of R197 is no part of what an entry asks for. -/
@[simp] theorem wakeBy_asks (w : Writer) (bs : List (Nat × Byte)) (e : Entry) : (wakeBy w bs e).asks = e.asks := by
  unfold wakeBy
  split
  · split <;> rfl
  · rfl

/-- A write that goes to a sharer changes copies and updates only. -/
def Sent (s t : State) : Prop := t = { s with shares := t.shares, updates := t.updates }

theorem sendTo_sent (w : Writer) (store : Nat) (bs : List (Nat × Byte)) (s : State) (x : Share) : Sent s (sendTo w store bs s x) := by
  unfold sendTo
  dsimp only
  split
  · rfl
  · split <;> rfl

theorem Sent.trans {s t u : State} (h : Sent s t) (h' : Sent t u) : Sent s u := by
  unfold Sent at *
  rw [h] at h'
  exact h'

theorem foldl_sendTo_sent (w : Writer) (store : Nat) (bs : List (Nat × Byte)) (l : List Share) (s : State) :
    Sent s (l.foldl (sendTo w store bs) s) := by
  induction l generalizing s with
  | nil => rfl
  | cons x r ih => exact (sendTo_sent w store bs s x).trans (ih _)

/-- What a committed write leaves: the bytes, and what it changes of copies, updates and marks. -/
theorem commitWrite_rest (s : State) (w : Writer) (store : Nat) (bs : List (Nat × Byte)) :
    let t := s.commitWrite w store bs
    t = { s.putBytes bs with l1 := ownCopies w bs s.l1, entries := s.entries.map (wakeBy w bs), shares := t.shares, updates := t.updates,
                             unperf := t.unperf } := by
  dsimp only
  unfold commitWrite
  dsimp only
  have h := foldl_sendTo_sent w store bs s.shares
    { s.putBytes bs with l1 := ownCopies w bs s.l1, entries := s.entries.map (wakeBy w bs) }
  unfold Sent at h
  simp only [putBytes_fields] at h ⊢
  split
  · unfold standsOver
    rw [h]
  · rw [h]

theorem commitWrite_wrote (s : State) (w : Writer) (store : Nat) (bs : List (Nat × Byte)) : Wrote s (s.commitWrite w store bs) := by
  refine (putBytes_wrote s bs).trans ?_
  rw [commitWrite_rest]
  exact ⟨rfl, by simp⟩

theorem byte_commitWrite (s : State) (w : Writer) (store : Nat) (bs : List (Nat × Byte)) (k : Nat) :
    (s.commitWrite w store bs).byte k = (s.putBytes bs).byte k := by
  rw [commitWrite_rest]
  rfl

/-- Bytes written at places leave every other byte alone. -/
theorem byte_putBytes_zip_other {ks : List Nat} {k : Nat} (h : k ∉ ks) (bs : List Byte) (s : State) :
    (s.putBytes (ks.zip bs)).byte k = s.byte k :=
  byte_putBytes_other _ _ _ fun x hx e => by
    obtain ⟨j, b⟩ := x
    obtain rfl : j = k := e
    exact h (List.of_mem_zip hx).1

/-- What a write leaves of memory rests on memory alone. -/
theorem byte_putBytes_congr {s t : State} (bs : List (Nat × Byte)) (h : ∀ k, s.byte k = t.byte k) (k : Nat) :
    (s.putBytes bs).byte k = (t.putBytes bs).byte k := by
  induction bs generalizing s t with
  | nil => exact h k
  | cons x r ih =>
    obtain ⟨j, b⟩ := x
    exact ih fun k => by rw [byte_putByte, byte_putByte, h]

/-- Reading back bytes written at places that are all different. -/
theorem bytes_putBytes_zip (ks : List Nat) (bs : List Byte) (s : State) (hn : ks.Nodup) (hl : ks.length = bs.length) :
    (s.putBytes (ks.zip bs)).bytes ks = bs := by
  induction ks generalizing bs s with
  | nil => cases bs with
    | nil => rfl
    | cons => simp at hl
  | cons k r ih => cases bs with
    | nil => simp at hl
    | cons b bs =>
      obtain ⟨hk, hr⟩ := List.nodup_cons.1 hn
      have hb : ((s.putByte k b).putBytes (r.zip bs)).byte k = b := by
        rw [byte_putBytes_zip_other hk, byte_putByte, if_pos rfl]
      simp only [List.zip_cons_cons, putBytes, bytes, List.map_cons]
      rw [hb]
      exact congrArg _ (ih bs _ hr (by simpa using hl))

/-- What an access reads rests on the bytes, their keys and the creations of keys. -/
theorem byteAs_congr {s t : State} (hm : t.mem = s.mem) (hs : t.seals = s.seals) (hk : t.keyNo = s.keyNo) (kid k : Nat) :
    t.byteAs kid k = s.byteAs kid k := by
  have hb : t.byte = s.byte := funext fun k => by rw [byte, byte, hm]
  have ho : t.sealOf kid = s.sealOf kid := by rw [sealOf, sealOf, hk]
  unfold byteAs blockBytes bytes
  rw [hs, ho, hb]

/-- Bytes written over lines that are put under the writer's key first are stored at their place (R337). -/
theorem bytesStored_of_sealed {p : Place} {bs : List Byte} {s u t : State} (hl : p.bytes.length = bs.length)
    (hm : u.mem = s.mem) (hs : u.seals = s.seals) (hk : u.keyNo = s.keyNo)
    (ht : ∀ k, t.byte k = ((u.sealLines p.key p.bytes).putBytes (p.bytes.zip bs)).byte k) : BytesStored p bs s t := by
  refine ⟨fun k hk' => ?_, fun hn => ?_⟩
  · rw [ht, byte_putBytes_zip_other hk', byte_sealLines, byteAs_congr hm hs hk]
    simp only [kept, byte, hm]
  · rw [bytes, List.map_congr_left fun k _ => ht k]
    exact bytes_putBytes_zip _ _ _ hn hl

/-! ### The device's own accesses to a team's memory (R69, R99) -/

theorem hwWrite_wrote (s : State) (core : Nat) (ks : List Nat) (kid : Nat) (bs : List Byte) : Wrote s (s.hwWrite core ks kid bs) := by
  unfold hwWrite
  split
  · exact Wrote.refl s
  · exact ((sealLines_resealed s kid ks).wrote.trans (fresh_wrote _)).trans (commitWrite_wrote _ _ _ _)

theorem byte_hwWrite (s : State) (core : Nat) (ks : List Nat) (kid : Nat) (bs : List Byte) (h : ks ≠ []) (k : Nat) :
    (s.hwWrite core ks kid bs).byte k = ((s.sealLines kid ks).putBytes (ks.zip bs)).byte k := by
  unfold hwWrite
  rw [if_neg (by simpa using h)]
  exact (byte_commitWrite (s.sealLines kid ks).fresh.2 _ _ _ k).trans (byte_putBytes_congr (s := (s.sealLines kid ks).fresh.2) (t := s.sealLines kid ks) _
    (fun _ => rfl) k)

/-- What the device's own access at an address leaves in TLBs, homes and clocks, `k` being the first byte that it reaches. -/
def noteAccess (v : State) (a : Addr) (k : Nat) (s : State) : State :=
  ((s.noteTlb v.team.ctx v.team.launch v.team.core a).touch k (s.dieOf v.team.core) (v.pins v.team.part a)).roundTrip (s.dieOf v.team.core) k

theorem noteAccess_noted (v : State) (a : Addr) (k : Nat) (s : State) : Noted s (noteAccess v a k s) :=
  ((noteTlb_noted _ _ _ _ _).trans (touch_noted _ _ _ _)).trans (roundTrip_noted _ _ _)

/-- Where nothing stops the device's access, the gate lets it go on, and notes it. -/
theorem hwGate_go {v : State} {acc : Access} {a : Addr} {n : Nat} {ks : List Nat} {ps : List Phys}
    (hp : v.pieces acc (splitPage a n) = .ok (ks, ps)) (ho : ∀ h ∈ ps.filterMap Phys.host, v.owns h = true) (flt : Code → Flt) (s : State) :
    v.hwGate s acc a n flt = .go (noteAccess v a (ks.headD (2 ^ 60)) s) ks ((ps.head?.map Phys.kid).getD 0) := by
  have hf : (ps.filterMap Phys.host).find? (fun h => !v.owns h) = none := List.find?_eq_none.2 fun x hx => by simp [ho x hx]
  unfold hwGate
  simp only [hp, hf]
  rfl

theorem hwGate_reaches {v : State} {acc : Access} {a : Addr} {n : Nat} {p : Place} (h : Reaches v acc (a, n) p) (flt : Code → Flt)
    (s : State) : v.hwGate s acc a n flt = .go (noteAccess v a (p.bytes.headD (2 ^ 60)) s) p.bytes p.key := by
  obtain ⟨ps, hp, hk, ho⟩ := h
  rw [hwGate_go hp ho, hk]

/-- The bytes of an access are as many as its pieces hold. -/
theorem pieces_length {v : State} {acc : Access} {l : List (Addr × Nat)} {ks : List Nat} {ps : List Phys}
    (h : v.pieces acc l = .ok (ks, ps)) : ks.length = (l.map Prod.snd).sum := by
  unfold pieces at h
  induction l generalizing ks ps with
  | nil => simp [piecesBy] at h; simp [h]
  | cons a r ih =>
    obtain ⟨va, n⟩ := a
    unfold piecesBy at h
    split at h <;> try contradiction
    split at h
    · contradiction
    · rename_i he
      obtain ⟨rfl, -⟩ := Prod.mk.inj (Except.ok.inj h)
      simp [ih he]

theorem splitPage_sum (va : Addr) (n : Nat) : ((splitPage va n).map Prod.snd).sum = n := by
  unfold splitPage
  dsimp only
  split
  · simp
  · simp; omega

theorem Reaches.length {v : State} {acc : Access} {a : Addr × Nat} {p : Place} (h : Reaches v acc a p) : p.bytes.length = a.2 := by
  obtain ⟨ps, hp, -, -⟩ := h
  rw [pieces_length hp, splitPage_sum]

/-! ### Calls (R19, R68) -/

/-- `call` and `calli` differ in their target and in the check of ALIGN. -/
structure CallBody (i : Instr) (f : Fmt) (v : State) (body : Fmt → State → State → Res) : Prop where
  runs      : ∀ s, exec i s = ctl i f body s
  diverged  : v.diverged = true → ∀ t, body f v t = .raise (wholeFlt .UDIV)
  leaves    : v.diverged = false → canonical (callTarget i f v) = false → ∀ t, body f v t = .raise (laneFlt .XLATE (callTarget i f v) 0)
  aligned   : v.diverged = false → canonical (callTarget i f v) = true → i = .calli f → (callTarget i f v).toNat % 4 ≠ 0 →
    ∀ t, body f v t = .raise (laneFlt .ALIGN (callTarget i f v) 0)
  goes      : v.diverged = false → canonical (callTarget i f v) = true → (i = .calli f → (callTarget i f v).toNat % 4 = 0) →
    ∀ t, body f v t = callTo (callTarget i f v) f v t

theorem exec_call (i : Instr) (f : Fmt) (v : State) (h : i = .call f ∨ i = .calli f) : ∃ body, CallBody i f v body := by
  rcases h with rfl | rfl
  · refine ⟨callBody, fun _ => rfl, fun hd t => ?_, fun hd hc t => ?_, fun _ _ hi => (nomatch hi), fun hd hc _ t => ?_⟩ <;>
      unfold callTarget at * <;> simp [callBody, *]
  · refine ⟨calliBody, fun _ => rfl, fun hd t => ?_, fun hd hc t => ?_, fun hd hc _ ha t => ?_, fun hd hc ha t => ?_⟩ <;>
      unfold callTarget at * <;> simp [calliBody, *]

/-- A call whose frame record the device reaches: the record is written, the depth counted, and the split at the target. -/
theorem callTo_reaches {f : Fmt} {v : State} {p : Place} (target : Addr) (hd : v.team.fdepth ≠ 256)
    (hr : Reaches v .store (recordAddr v.team v.team.fdepth, 16) p) (s : State) : callTo target f v s =
      .done ((((noteAccess v (recordAddr v.team v.team.fdepth) (p.bytes.headD (2 ^ 60)) s).hwWrite v.team.core p.bytes p.key
        (frameRecord (v.split.pc.toNat + f.len.bytes) (v.team.fdepth + 1))).modTeam fun t => { t with fdepth := t.fdepth + 1 }).jump target) := by
  unfold callTo
  simp only [hd, if_false, hwGate_reaches hr]
  rfl

/-- What an instruction sees of its team's frame records is what the state holds. -/
theorem seen_recordAddr (s : State) (i : Instr) (f : Fmt) (n : Nat) : recordAddr (s.seen i f).team n = recordAddr s.team n := by
  have h := seen_files s i f
  unfold FilesOnly at h
  rw [h]
  rfl

theorem leBytes_length (n x : Nat) : (leBytes n x).length = n := by
  induction n generalizing x <;> simp [leBytes, *]

theorem frameRecord_length (ret depth : Nat) : (frameRecord ret depth).length = 16 := by
  simp [frameRecord, leBytes_length]

/-- A call that nothing stops (R68). -/
theorem call_stores_record {i : Instr} {f : Fmt} {s : State} {p : Place} (h : Acts i f s) {body : Fmt → State → State → Res}
    (hb : CallBody i f (s.seen i f) body) (hd : (s.seen i f).diverged = false) (hc : canonical (callTarget i f (s.seen i f)) = true)
    (ha : i = .calli f → (callTarget i f (s.seen i f)).toNat % 4 = 0) (h256 : s.team.fdepth ≠ 256)
    (hr : Reaches (s.seen i f) .store (frameAddr s, 16) p) :
     ∃ t, exec i s = .next t ∧ t.split.pc = callTarget i f (s.seen i f) ∧ t.split.run = {} ∧ t.team.fdepth = s.team.fdepth + 1 ∧
       FilesKept [] s t ∧ BytesStored p (frameRecord (s.split.pc.toNat + f.len.bytes) (s.team.fdepth + 1)) s t ∧
       t = { s with team := t.team, split := t.split, cycle := t.cycle, nextId := t.nextId, free := t.free, parts := t.parts,
                    cores := t.cores, dies := t.dies, mem := t.mem, seals := t.seals, hist := t.hist, homes := t.homes, tlb := t.tlb, l1 := t.l1,
                    entries := t.entries, shares := t.shares, updates := t.updates, unperf := t.unperf } ∧
       t.entries.map Entry.asks = s.entries.map Entry.asks ∧
       t.team = { s.team with c := t.team.c, flights := t.team.flights, tctl := t.team.tctl, retired := t.team.retired,
                              fdepth := t.team.fdepth } := by
  obtain ⟨hpc, -, -, -, -, hdep, -⟩ := (seen_files s i f).fields
  have hr' : Reaches (s.seen i f) .store (recordAddr (s.seen i f).team (s.seen i f).team.fdepth, 16) p := by
    rw [seen_recordAddr, hdep]
    exact hr
  obtain ⟨u, n, he, hu, hteam⟩ := ctl_done h body _ fun t =>
    (hb.goes hd hc ha t).trans (callTo_reaches _ (by rw [hdep]; exact h256) hr' t)
  rw [hb.runs, he, hpc, hdep]
  have hw := noteAccess_noted (s.seen i f) (recordAddr (s.seen i f).team s.team.fdepth) (p.bytes.headD (2 ^ 60)) u
  generalize noteAccess _ _ _ u = w at hw
  have hbytes (k : Nat) := byte_hwWrite w (s.seen i f).team.core p.bytes p.key
    (frameRecord (s.split.pc.toNat + f.len.bytes) (s.team.fdepth + 1)) (List.ne_nil_of_length_eq_add_one hr.length) k
  have hx := hwWrite_wrote w (s.seen i f).team.core p.bytes p.key
    (frameRecord (s.split.pc.toNat + f.len.bytes) (s.team.fdepth + 1))
  generalize w.hwWrite _ _ _ _ = x at hx hbytes
  obtain ⟨hum, hus, huk, hue⟩ := hu.fields
  obtain ⟨hwt, hws, hwm, hwe, hwk, hwn⟩ := hw.fields
  obtain ⟨hxt, hxs⟩ := hx.fields
  rw [hwt] at hxt
  rw [hws] at hxs
  refine ⟨_, rfl, rfl, ?_, ?_, ?_, ?_, ?_, ?_, ?_⟩
  · show x.split.run = {}
    rw [hxs, hu.split]
  · show x.team.fdepth + 1 = _
    rw [hxt, hteam]
  · refine (hu.files.trans (FilesKept.of_team (ws := []) ?_)).mono (by simp)
    show x.team.s = _ ∧ x.team.q = _ ∧ x.team.a = _ ∧ x.team.v = _ ∧ x.team.tags = _ ∧ x.team.p = _
    rw [hxt]
    simp
  · exact bytesStored_of_sealed (hr.length.trans (frameRecord_length _ _).symm)
      (hwm.trans hum) (hwe.trans hus) (hwk.trans huk) hbytes
  · have hu' := hu.rest
    have hx' := hx.1
    unfold Noted at hw
    rw [hu'] at hw
    rw [hw] at hx'
    rw [hx']
    rfl
  · exact hx.2.trans (by rw [hwn, hue])
  · show { x.team with fdepth := x.team.fdepth + 1 } =
      { s.team with c := x.team.c, flights := x.team.flights, tctl := x.team.tctl, retired := x.team.retired, fdepth := x.team.fdepth + 1 }
    rw [hxt, hteam]

/-- Settles O13: a call passes its checks in order, and `callTo` stores the record where the device reaches its place. -/
theorem calls : Obligations.Calls := by
  refine ⟨fun i f s p h hi hd hc ha h256 hr => ?_, fun i f s h hi => ?_⟩
  · obtain ⟨body, hb⟩ := exec_call i f (s.seen i f) hi
    exact call_stores_record h hb hd hc ha h256 hr
  · obtain ⟨body, hb⟩ := exec_call i f (s.seen i f) hi
    obtain ⟨-, -, -, -, -, hdep, -⟩ := (seen_files s i f).fields
    dsimp only
    rw [hb.runs]
    refine ⟨fun hd => ctl_raise h _ body (hb.diverged hd), fun hd hc => ctl_raise h _ body (hb.leaves hd hc),
      fun hd hc hi ha => ctl_raise h _ body (hb.aligned hd hc hi ha), fun hd hc ha h256 => ctl_raise h _ body fun t => ?_⟩
    rw [hb.goes hd hc ha, callTo]
    exact if_pos (hdep.trans h256)

end Sys2Proof.Machine
end

section
/-! The return from a call (R69, R145, R186). -/
namespace Sys2Proof.Machine
open State

/-! ### Releases of colours (R186, R214) -/

/-- The colours `cs` have been released: they are no longer held, and a release of each has entered the lane queue, in order. -/
structure Released (cs : List Nat) (s t : State) : Prop where
  rest    : t = { s with team := t.team, split := t.split, entries := t.entries, nextId := t.nextId }
  team    : t.team = { s.team with held := s.team.held.filter fun h => !cs.contains h.1 }
  split   : t.split = { s.split with older := t.split.older }
  entries : t.entries.map (fun e => (e.team, e.kind)) =
    s.entries.map (fun e => (e.team, e.kind)) ++ cs.map fun c => (s.team.id, EntryKind.release c)

theorem Released.nil (s : State) : Released [] s s where
  rest := rfl
  team := by
    have hheld : (s.team.held.filter fun h => !([] : List Nat).contains h.1) = s.team.held := List.filter_eq_self.mpr fun _ _ => rfl
    rw [hheld]
  split := rfl
  entries := by simp only [List.map_nil, List.append_nil]

theorem Released.cons {c : Nat} {cs : List Nat} {s t u : State} (h : Released [c] s t) (h' : Released cs t u) : Released (c :: cs) s u where
  rest := by
    have e := h'.rest
    rw [h.rest] at e
    exact e
  team := by
    rw [h'.team, h.team]
    simp only [List.filter_filter]
    congr 2
    funext x
    simp [Bool.and_comm]
  split := by
    have e := h'.split
    rw [h.split] at e
    exact e
  entries := by
    rw [h'.entries, h.entries, h.team]
    simp

theorem releaseAll_released (cs : List Nat) (s : State) : Released cs s (s.releaseAll cs) := by
  induction cs generalizing s with
  | nil => exact Released.nil s
  | cons c r ih =>
    refine Released.cons (t := s.releaseAll [c]) ⟨rfl, ?_, rfl, ?_⟩ (ih _)
    · simp [releaseAll, fresh, bne]
      rfl
    · simp [releaseAll, fresh]

/-! ### `ret` -/

/-- What a view of the registers leaves of the state: all that `ret` reads. -/
theorem FilesOnly.ret_reads {s v : State} (h : FilesOnly s v) :
    v.team.id = s.team.id ∧ v.team.held = s.team.held ∧ lendingOpen v.team = lendingOpen s.team ∧
    (∀ n, recordAddr v.team n = recordAddr s.team n) ∧ (∀ kid ks, v.bytesAs kid ks = s.bytesAs kid ks) ∧ (∀ h, v.owns h = s.owns h) ∧
    (∀ t, v.markedCommands t = s.markedCommands t) := by
  unfold FilesOnly at h
  rw [h]
  exact ⟨rfl, rfl, rfl, fun _ => rfl, fun _ _ => List.map_congr_left fun k _ => byteAs_congr (t := { s with team := _, split := _ }) rfl rfl rfl _ k, fun _ => rfl, fun _ => rfl⟩

/-- The colours taken at a team's depth, ascending (R186). -/
def coloursOfDepth (t : Team) : List Nat := sortNats ((t.held.filter fun h => h.2 == t.fdepth).map Prod.fst)

/-- The return address in a frame record whose first byte is `k` (R19). -/
def returnAddr (v : State) (k : Nat) (ks : List Nat) (ps : List Phys) : Addr :=
  BitVec.ofNat 64 (leNat 8 (v.bytesAs ((ps.head?.map Phys.kid).getD 0) (k :: ks)))

section
variable {f : Fmt} {v : State} {k : Nat} {ks : List Nat} {ps : List Phys}

theorem retBody_diverged (hd : v.diverged = true) (s : State) : retBody f v s = .raise (wholeFlt .UDIV) := by
  simp [retBody, hd]

theorem retBody_depth0 (hd : v.diverged = false) (h0 : v.team.fdepth = 0) (s : State) :
    retBody f v s = .raise (wholeFlt (if lendingOpen v.team then .PERM else .STACK)) := by
  simp [retBody, hd, h0]

/-- What `ret` does once its record is read (R69). -/
theorem retBody_record (hd : v.diverged = false) (h0 : v.team.fdepth ≠ 0)
    (hp : v.pieces .load (splitPage (recordAddr v.team (v.team.fdepth - 1)) 16) = .ok (k :: ks, ps)) (s : State) :
    retBody f v s =
      if canonical (returnAddr v k ks ps) = false then .raise (laneFlt .XLATE (returnAddr v k ks ps) 0)
      else if lendingOpen v.team then .raise (wholeFlt .PERM)
      else match v.hwGate s .load (recordAddr v.team (v.team.fdepth - 1)) 16
          (fun c => laneFlt c (recordAddr v.team (v.team.fdepth - 1)) 0) with
        | .res r => r
        | .go s _ _ =>
          if !(coloursOfDepth v.team).isEmpty && v.markedCommands v.team.id then again s
          else .done (((s.releaseAll (coloursOfDepth v.team)).modTeam fun t => { t with fdepth := t.fdepth - 1 }).jump
            (returnAddr v k ks ps &&& ~~~3)) := by
  unfold retBody
  simp only [hd, h0, hp, Bool.false_eq_true, if_false, Bool.not_eq_true']
  rfl

/-- A return that nothing stops. -/
theorem retBody_done (hd : v.diverged = false) (h0 : v.team.fdepth ≠ 0)
    (hp : v.pieces .load (splitPage (recordAddr v.team (v.team.fdepth - 1)) 16) = .ok (k :: ks, ps))
    (hc : canonical (returnAddr v k ks ps) = true) (hl : lendingOpen v.team = false) (ho : ∀ h ∈ ps.filterMap Phys.host, v.owns h = true)
    (hm : coloursOfDepth v.team = [] ∨ v.markedCommands v.team.id = false) (s : State) :
    retBody f v s = .done ((((noteAccess v (recordAddr v.team (v.team.fdepth - 1)) k s).releaseAll (coloursOfDepth v.team)).modTeam
      fun t => { t with fdepth := t.fdepth - 1 }).jump (returnAddr v k ks ps &&& ~~~3)) := by
  have hw : (!(coloursOfDepth v.team).isEmpty && v.markedCommands v.team.id) = false := by
    rcases hm with hm | hm <;> simp [hm]
  rw [retBody_record hd h0 hp, hwGate_go hp ho]
  simp only [hc, hl, hw, Bool.true_eq_false, Bool.false_eq_true, if_false]
  rfl

end

/-- A return that nothing stops, from the state that its body starts from. -/
theorem ret_pops {f : Fmt} {s : State} (h : Acts (.ret f) f s) {cs : List Nat} {back : Addr} (note : State → State)
    (hnote : ∀ t, Noted t (note t))
    (hb : ∀ t, retBody f (s.seen (.ret f) f) t =
      .done ((((note t).releaseAll cs).modTeam fun t => { t with fdepth := t.fdepth - 1 }).jump back)) :
    ∃ t, exec (.ret f) s = .next t ∧ t.split.pc = back ∧ t.split.run = {} ∧ t.team.fdepth = s.team.fdepth - 1 ∧ FilesKept [] s t ∧
      (∀ k, t.byte k = s.byte k) ∧ t.team.held = s.team.held.filter (fun h => !cs.contains h.1) ∧
      t.entries.map (fun e => (e.team, e.kind)) =
        s.entries.map (fun e => (e.team, e.kind)) ++ cs.map fun c => (s.team.id, EntryKind.release c) := by
  obtain ⟨u, n, he, hu, hteam⟩ := ctl_done h retBody _ hb
  have hw := hnote u
  generalize note u = w at hw he
  have hx := releaseAll_released cs w
  generalize w.releaseAll cs = x at hx he
  obtain ⟨hum, -, -, hue⟩ := hu.fields
  obtain ⟨hwt, hws, hwm, -, -, hwe⟩ := hw.fields
  have hxt := hx.team
  rw [hwt] at hxt
  have hxm : x.mem = s.mem := by rw [hx.rest]; exact hwm.trans hum
  refine ⟨_, he, rfl, ?_, ?_, ?_, fun k => ?_, ?_, ?_⟩
  · show x.split.run = {}
    rw [hx.split, hws, hu.split]
  · show x.team.fdepth - 1 = _
    rw [hxt, hteam]
  · refine (hu.files.trans (FilesKept.of_team (ws := []) ?_)).mono (by simp)
    show x.team.s = _ ∧ x.team.q = _ ∧ x.team.a = _ ∧ x.team.v = _ ∧ x.team.tags = _ ∧ x.team.p = _
    rw [hxt]
    simp
  · show x.mem.get unlistedByte k = _
    rw [hxm]
    rfl
  · show x.team.held = _
    rw [hxt, hteam]
  · show x.entries.map _ = _
    rw [hx.entries, hwe, hue, hwt, hteam]

/-- Settles O14: `retBody` takes its faults by lower code; a return that nothing stops releases the colours of its depth by `releaseAll`. -/
theorem returnPopsFrame : Obligations.ReturnPopsFrame := by
  intro f s h
  have hv := seen_files s (.ret f) f
  obtain ⟨-, -, -, -, -, hdep, -⟩ := hv.fields
  obtain ⟨hid, hheld, hlend, haddr, hread, howns, hmark⟩ := hv.ret_reads
  have hcs : coloursOfDepth (s.seen (.ret f) f).team = coloursOfDepth s.team := by rw [coloursOfDepth, hheld, hdep]; rfl
  refine ⟨fun hd => ?_, fun hd h0 => ?_, fun k ks ps hd h0 hp => ?_⟩
  · exact ctl_raise h _ retBody (retBody_diverged hd)
  · rw [← hlend]
    exact ctl_raise h _ retBody (retBody_depth0 hd (hdep.trans h0))
  · rw [← hdep] at h0
    rw [← haddr, ← hdep] at hp
    rw [← hread, ← hlend]
    refine ⟨fun hc => ctl_raise h _ retBody fun t => ?_, fun hc hl => ctl_raise h _ retBody fun t => ?_, fun hc hl ho hm => ?_⟩
    · rw [retBody_record hd h0 hp]
      exact if_pos hc
    · rw [retBody_record hd h0 hp]
      exact (if_neg (ne_false_of_eq_true hc)).trans (if_pos hl)
    · exact ret_pops h (noteAccess (s.seen (.ret f) f) _ k) (fun t => noteAccess_noted _ _ _ t) fun t =>
        (retBody_done hd h0 hp hc hl (fun x hx => (howns x).trans (ho x hx)) (by rw [hcs, hid, hmark]; exact hm) t).trans (by rw [hcs]; rfl)

end Sys2Proof.Machine
end

section
/-! Taking a fault (R20, R42, R303, R304). -/
namespace Sys2Proof.Machine
open State

/-- The fault registers are all that recording a fault writes (R20, R156, R303). -/
theorem recordFault_eq (s : State) (x : Flt) : ∃ o off, s.recordFault x =
    { s with team := { s.team with frcode := BitVec.ofNat 8 (faultCode x.code), frpc := s.split.pc, fraddr := x.addr, frlane := x.lane,
                                   xfown := o, xfoff := off } } := by
  unfold recordFault recordOwner
  split
  · exact ⟨_, _, rfl⟩
  · split <;> exact ⟨_, _, rfl⟩

/-- A fault of a team that is no helper group, which no debugger takes: the handler, or the end of the team (R20, R304). -/
theorem takeFault_own {s : State} {x : Flt} (hh : s.inHelper = false)
    (hd : (x.code = .BRK ∨ x.code = .WATCHPT) → s.debugAttached = false) :
    s.takeFault x =
      if s.team.handler.isSome || s.team.trapvec = 0 then
        (s.recordFault x).unfocus.endTeam s.team.id (.fault (faultCode x.code) s.split.pc)
      else (s.recordFault x).enterHandler := by
  have hb : ((x.code = .BRK || x.code = .WATCHPT) && s.debugAttached) = false := by
    by_cases h : x.code = .BRK ∨ x.code = .WATCHPT
    · rw [hd h, Bool.and_false]
    · simp [not_or.1 h]
  obtain ⟨o, off, he⟩ := recordFault_eq s x
  unfold takeFault
  simp only [hh, hb, Bool.false_eq_true, if_false, he]

/-- Settles O17: recording the fault writes the fault registers only, and the handler's start keeps the rest. -/
theorem faultTaken : Obligations.FaultTaken := by
  refine ⟨fun s x hh hn ht hd => ?_, fun s x hh hn hd => ?_⟩
  · have hc : (s.team.handler.isSome || decide (s.team.trapvec = 0)) = false := by
      rw [hn, decide_eq_false ht]
      rfl
    obtain ⟨o, off, he⟩ := recordFault_eq s x
    rw [takeFault_own hh hd, if_neg (ne_true_of_eq_false hc), he]
    exact ⟨rfl, rfl, rfl, rfl, rfl, rfl, rfl, rfl, ⟨_, rfl, rfl, rfl⟩, rfl, FilesKept.of_team ⟨rfl, rfl, rfl, rfl, rfl, rfl⟩, rfl, rfl⟩
  · have hc : (s.team.handler.isSome || decide (s.team.trapvec = 0)) = true := by
      rcases hn with hn | hn
      · simp [Option.isSome_iff_ne_none.2 hn]
      · simp [hn]
    rw [takeFault_own hh hd, if_pos hc]

end Sys2Proof.Machine
end

section
/-! System registers and time (R74 to R76, R240, R311, R326 to R328). -/
namespace Sys2Proof.Machine
open State

/-! ### Straight instructions -/

/-- A straight instruction whose body does `op` performs it. -/
theorem straight_performs {i : Instr} {f : Fmt} {s : State} (h : Acts i f s) (lat : Lat) (body : Nat → State → State → Res) (op : State → State)
    (he : exec i s = straight i f lat body s) (hb : ∀ fl t, body fl (s.seen i f) t = .done (op t)) : Performs i f s op := by
  obtain ⟨n, hn⟩ := issue_done h lat false body (fun _ => op) hb
  exact ⟨_, n, launch_stepped f (usesOf i) lat s, he.trans hn⟩

/-! ### `rdsr` (R75, R240) -/

/-- Clearing `engst.more` and writing a uniform register do not meet. -/
theorem putFixed_afterRead (n d : Nat) (f : Fmt) (w : Word) (s : State) :
    putFixed 1 f (.word d w) (afterRead n s) = afterRead n (putFixed 1 f (.word d w) s) := by
  unfold afterRead
  split <;> rfl

theorem rdsrBody_word {f : Fmt} {v : State} (hc : f.cls = .uni) (hd : v.diverged = false) (h : f.x.ty.is64 = false) (s : State) :
    rdsrBody f v s = .done (afterRead f.imm.toNat (putFixed 1 f (.word f.d.toNat (BitVec.ofNat 32 (sysReg v f.imm.toNat))) s)) := by
  simp [rdsrBody, put, hc, hd, h, putFixed_afterRead]

theorem rdsrBody_pair {f : Fmt} {v : State} (hd : v.diverged = false) (h : f.x.ty.is64 = true) (s : State) :
    rdsrBody f v s = .done (afterRead f.imm.toNat
      (putFixed 1 f (.word (f.d.toNat + 1) ((BitVec.ofNat 64 (sysReg v f.imm.toNat)).extractLsb' 32 32))
        (putFixed 1 f (.word f.d.toNat ((BitVec.ofNat 64 (sysReg v f.imm.toNat)).extractLsb' 0 32)) s))) := by
  simp [rdsrBody, putWide, hd, h, putFixed_afterRead]

theorem rdsrBody_diverged {f : Fmt} {v : State} (hc : f.cls = .uni) (hd : v.diverged = true) (s : State) :
    rdsrBody f v s = .raise (wholeFlt .UDIV) := by
  cases h : f.x.ty.is64 <;> simp [rdsrBody, put, putWide, hc, hd, h]

theorem rdsr_reads {f : Fmt} {s : State} (h : Acts (.rdsr f) f s) (hc : f.cls = .uni) :
    let v := s.seen (.rdsr f) f
    let n := f.imm.toNat
    (v.diverged = true → exec (.rdsr f) s = .next (s.takeFault (wholeFlt .UDIV))) ∧
    (v.diverged = false → f.x.ty.is64 = false →
      ∃ u k, Stepped f [.s f.d.toNat] s u ∧ u.regS f.d.toNat = BitVec.ofNat 32 (sysReg v n) ∧
        exec (.rdsr f) s = .next { afterRead n u with free := k }) ∧
    (v.diverged = false → f.x.ty.is64 = true →
      ∃ u k, Stepped f [.s f.d.toNat, .s (f.d.toNat + 1)] s u ∧
        u.regS (f.d.toNat + 1) ++ u.regS f.d.toNat = BitVec.ofNat 64 (sysReg v n) ∧ exec (.rdsr f) s = .next { afterRead n u with free := k }) := by
  have hu := launch_stepped f (usesOf (.rdsr f)) (.fixed 1) s
  refine ⟨fun hd => straight_raise h _ _ _ fun _ => rdsrBody_diverged hc hd, fun hd h64 => ?_, fun hd h64 => ?_⟩
  · obtain ⟨k, he⟩ := issue_done h (.fixed 1) false (fun _ v t => rdsrBody f v t) _ fun _ => rdsrBody_word hc hd h64
    exact ⟨_, k, hu.touch (putFixed_touched 1 f (.word _ _) trivial _), by rw [putFixed_regS, if_pos rfl], he⟩
  · obtain ⟨k, he⟩ := issue_done h (.fixed 1) false (fun _ v t => rdsrBody f v t) _ fun _ => rdsrBody_pair hd h64
    refine ⟨_, k, hu.touch ((putFixed_touched 1 f (.word _ _) trivial _).trans (putFixed_touched 1 f (.word _ _) trivial _)), ?_, he⟩
    rw [putFixed_regS, if_pos rfl, putFixed_regS, if_neg (by omega), putFixed_regS, if_pos rfl]
    exact (BitVec.extractLsb'_append_extractLsb'_eq_extractLsb' (by rfl)).trans (by simp)

/-! ### `wrsr` (R75) -/

theorem wrsr_writes {f : Fmt} {s : State} (h : Acts (.wrsr f) f s) (g : Team → Team)
    (hb : ∀ t, wrsrBody f (s.seen (.wrsr f) f) t = .done (t.modTeam g)) : Performs (.wrsr f) f s fun u => u.modTeam g :=
  straight_performs h (.fixed 0) (fun _ v t => wrsrBody f v t) _ rfl fun _ => hb

theorem wrsr_raises {f : Fmt} {s : State} (h : Acts (.wrsr f) f s) (x : Flt)
    (hb : ∀ t, wrsrBody f (s.seen (.wrsr f) f) t = .raise x) : exec (.wrsr f) s = .next (s.takeFault x) :=
  straight_raise h (.fixed 0) x (fun _ v t => wrsrBody f v t) fun _ => hb

theorem wrsrBody_other {f : Fmt} {v : State} (h : f.imm.toNat ∉ [0, 3, 4, 5, 6, 0x10, 0x1E]) (s : State) :
    wrsrBody f v s = .raise (wholeFlt .PERM) := by
  unfold wrsrBody
  dsimp only
  split
  case h_8 => rfl
  all_goals
    rename_i hn
    simp [hn] at h

theorem wrsr_checks {f : Fmt} {s : State} (h : Acts (.wrsr f) f s) :
    let v := s.seen (.wrsr f) f
    let w := v.readS f.a.toNat
    let x := v.readD f.a.toNat
    let n := f.imm.toNat
    let P := fun (g : Team → Team) => Performs (.wrsr f) f s fun u => u.modTeam g
    (n = 0 → P fun t => { t with tctl := w &&& 15 }) ∧
    ((n = 3 ∨ n = 5) → canonical x = false → exec (.wrsr f) s = .next (s.takeFault (laneFlt .XLATE x 0))) ∧
    (n = 3 → canonical x = true → P fun t => { t with trapvec := x &&& ~~~3 }) ∧
    (n = 5 → canonical x = true → P fun t => { t with frpc := x &&& ~~~3 }) ∧
    (n = 4 → P fun t => { t with frcode := w.extractLsb' 0 8 }) ∧
    (n = 6 → P fun t => { t with fraddr := x }) ∧
    (n = 0x10 → 4 < w.toNat → exec (.wrsr f) s = .next (s.takeFault (laneFlt .ILLENC 0 0))) ∧
    (n = 0x10 → w.toNat ≤ 4 → v.diverged = true → exec (.wrsr f) s = .next (s.takeFault (wholeFlt .UDIV))) ∧
    (n = 0x10 → w.toNat ≤ 4 → v.diverged = false → P fun t => { t with tile := w.extractLsb' 0 3 }) ∧
    (n = 0x1E → P fun t => { t with frlane := w }) ∧
    (n ∉ [0, 3, 4, 5, 6, 0x10, 0x1E] → exec (.wrsr f) s = .next (s.takeFault (wholeFlt .PERM))) := by
  refine ⟨fun hn => wrsr_writes h _ fun t => ?_, fun hn hc => wrsr_raises h _ fun t => ?_, fun hn hc => wrsr_writes h _ fun t => ?_,
    fun hn hc => wrsr_writes h _ fun t => ?_, fun hn => wrsr_writes h _ fun t => ?_, fun hn => wrsr_writes h _ fun t => ?_,
    fun hn hw => wrsr_raises h _ fun t => ?_, fun hn hw hd => wrsr_raises h _ fun t => ?_, fun hn hw hd => wrsr_writes h _ fun t => ?_,
    fun hn => wrsr_writes h _ fun t => ?_, fun hn => wrsr_raises h _ (wrsrBody_other hn)⟩
  case refine_2 => rcases hn with hn | hn <;> simp [wrsrBody, hn, writeAddr, hc]
  case refine_3 | refine_4 => simp [wrsrBody, hn, writeAddr, hc]
  case refine_7 => simp [wrsrBody, hn, hw]
  case refine_8 | refine_9 => simp [wrsrBody, hn, Nat.not_lt.2 hw, hd]
  all_goals simp only [wrsrBody, hn]

/-! ### `rdtime` and `rdhlc` (R76, R327, R328) -/

theorem Team.IssuedFrom.pending {t u : Team} (h : t.IssuedFrom u) : u.pending = t.pending := by
  unfold IssuedFrom at h
  rw [h]

/-- Results whose values are known, put on their way after an issue. -/
theorem awaits_putLater {f : Fmt} {s u : State} (hu : Stepped f [] s u) (hp : u.team.pending = s.team.pending) (fl : Nat)
    (xs : List Landing) : Awaits f xs s (putLater fl xs u) where
  toStepped := (hu.touch (putLater_touched fl xs u)).mono (by simp)
  result := by
    refine ⟨{ id := u.nextId, flight := fl, regs := xs.map regOf, value := some xs, split := u.split.id, run := u.split.begun },
      ?_, rfl, rfl, ?_, ?_⟩
    · show u.team.pending ++ _ = _
      rw [hp]
    · show u.split.id = _
      rw [hu.split]
    · show u.split.begun = _
      rw [hu.split]

/-- A straight instruction of variable latency whose body puts known results on their way and does `op`. -/
theorem straight_performsAwaiting {i : Instr} {f : Fmt} {s : State} (h : Acts i f s) (body : Nat → State → State → Res) {xs : List Landing}
    {op : State → State} (he : exec i s = straight i f .later body s)
    (hb : body (launch f (usesOf i) .later false s).1 (s.seen i f) (launch f (usesOf i) .later false s).2 =
      .done (op (putLater (launch f (usesOf i) .later false s).1 xs (launch f (usesOf i) .later false s).2))) :
    PerformsAwaiting i f s xs op := by
  obtain ⟨n, hn⟩ : ∃ n, straight i f .later body s =
      .next { op (putLater (launch f (usesOf i) .later false s).1 xs (launch f (usesOf i) .later false s).2) with free := n } :=
    ⟨_, (issue_acts h .later false body).trans (by rw [hb]; exact congrArg Host.Outcome.next (bumpFree_eq _ _ _ _ _ _))⟩
  exact ⟨_, n, awaits_putLater (launch_stepped f (usesOf i) .later s) (launch_team f (usesOf i) .later false s).pending _ xs, he.trans hn⟩

/-- The issue of an instruction leaves contexts and dies, and takes a cycle for each rank. -/
theorem launch_clocks (f : Fmt) (u : Uses) (lat : Lat) (ends : Bool) (s : State) :
    let t := (launch f u lat ends s).2
    t.ctxs = s.ctxs ∧ t.dies = s.dies ∧ t.grade = s.grade ∧ t.cycle = s.issueCycle f + s.ranksNow (max 1 (sweepLen f s)) := by
  have ha : (s.account f ends).cycle = s.issueCycle f + s.ranksNow (max 1 (sweepLen f s)) := by simp [account]
  unfold launch
  dsimp only
  split
  · simp [ha]
  · split <;> simp [ha, awaitFlight]

theorem popcount_le (x n : Nat) : popcount x n ≤ n := by
  induction n with
  | zero => simp [popcount]
  | succ n ih => unfold popcount; split <;> omega

/-- A sweep is of 32 ranks at most (R81). -/
theorem ranksNow_le (s : State) (n : Nat) : s.ranksNow n ≤ n := by
  unfold ranksNow Budget.afford
  split
  · exact Nat.le_refl n
  · split <;> exact Nat.min_le_left _ _

/-- A context's time never runs backward (R76). -/
theorem guestTime_ge (s : State) (cx : Nat) : (s.ctx cx).last.toNat ≤ (guestTime s cx).toNat := by
  unfold guestTime
  dsimp only
  generalize BitVec.ofInt 64 _ = g
  split
  · exact Nat.le_refl _
  · omega

/-- A local event advances a clock that is not about to overflow (R327). -/
theorem hlcLocal_gt {now : Nat} {h : Addr} (hh : h.toNat < 2 ^ 63) (hn : now < 2 ^ 47) : h.toNat < (hlcLocal now h).toNat := by
  unfold hlcLocal hlcOf
  split
  · simp
    omega
  · split <;> (simp; omega)

theorem seen_place (s : State) (i : Instr) (f : Fmt) : (s.seen i f).team.ctx = s.team.ctx ∧ (s.seen i f).team.core = s.team.core := by
  have h := seen_files s i f
  unfold FilesOnly at h
  rw [h]
  exact ⟨rfl, rfl⟩

/-- The two halves of a 64-bit result for a uniform pair. -/
def halves (f : Fmt) (x : Addr) : List Landing := [.word f.d.toNat (x.extractLsb' 0 32), .word (f.d.toNat + 1) (x.extractLsb' 32 32)]

theorem rdtime_reads {f : Fmt} {s : State} (h : Acts (.rdtime f) f s) (hd : (s.seen (.rdtime f) f).diverged = false) :
    ∃ g : Addr, (s.ctx s.team.ctx).last.toNat ≤ g.toNat ∧
      PerformsAwaiting (.rdtime f) f s (halves f g) fun u => u.modCtx s.team.ctx fun c => { c with last := g } := by
  obtain ⟨hctx, -⟩ := seen_place s (.rdtime f) f
  obtain ⟨hcs, -⟩ := launch_clocks f (usesOf (.rdtime f)) .later false s
  refine ⟨guestTime (launch f (usesOf (.rdtime f)) .later false s).2 s.team.ctx, ?_,
    straight_performsAwaiting h (rdtimeBody f) rfl ?_⟩
  · have hg := guestTime_ge (launch f (usesOf (.rdtime f)) .later false s).2 s.team.ctx
    rw [ctx, hcs] at hg
    exact hg
  · unfold rdtimeBody
    rw [hd, hctx]
    rfl

theorem rdhlc_advances {f : Fmt} {s : State} (h : Acts (.rdhlc f) f s) (hd : (s.seen (.rdhlc f) f).diverged = false) :
    ∃ x : Addr, ((s.die (s.dieOf s.team.core)).hlc.toNat < 2 ^ 63 → s.issueCycle f + 64 < 2 ^ 50 →
        (s.die (s.dieOf s.team.core)).hlc.toNat < x.toNat) ∧
      PerformsAwaiting (.rdhlc f) f s (halves f x) fun u => u.modDie (s.dieOf s.team.core) fun y => { y with hlc := x } := by
  obtain ⟨-, hcore⟩ := seen_place s (.rdhlc f) f
  obtain ⟨-, hdies, hgrade, hcycle⟩ := launch_clocks f (usesOf (.rdhlc f)) .later false s
  generalize ht : (launch f (usesOf (.rdhlc f)) .later false s).2 = t at *
  refine ⟨hlcLocal t.hlcTime (s.die (s.dieOf s.team.core)).hlc, fun hh hc => hlcLocal_gt hh ?_,
    straight_performsAwaiting h (rdhlcBody f) rfl ?_⟩
  · have hr := ranksNow_le s (max 1 (sweepLen f s))
    have hl : sweepLen f s ≤ 32 := popcount_le _ 32
    have hm : t.deviceTime ≤ t.cycle * 10 / 11 := Nat.mod_le _ _
    unfold hlcTime
    omega
  · have hdie : t.dieOf s.team.core = s.dieOf s.team.core := by rw [dieOf, dieOf, hgrade]
    have hhlc : t.die (s.dieOf s.team.core) = s.die (s.dieOf s.team.core) := by rw [die, die, hdies]
    unfold rdhlcBody stamp
    rw [hd, hcore, ht, hdie, hhlc]
    rfl

theorem time_diverged {i : Instr} {f : Fmt} {s : State} (h : Acts i f s) (hi : i = .rdtime f ∨ i = .rdhlc f)
    (hd : (s.seen i f).diverged = true) : exec i s = .next (s.takeFault (wholeFlt .UDIV)) := by
  rcases hi with rfl | rfl
  · exact straight_raise h .later _ (rdtimeBody f) fun fl t => if_pos hd
  · exact straight_raise h .later _ (rdhlcBody f) fun fl t => if_pos hd

/-- Settles O54: each instruction's body, from the state that an issue leaves; the clocks are read after the issue. -/
theorem systemRegisters : Obligations.SystemRegisters := by
  refine ⟨fun f s h hc => rdsr_reads h hc, fun f s h => wrsr_checks h, fun i f s h hi => ?_, fun f s h => ?_⟩
  · refine ⟨time_diverged h hi, ?_, ?_⟩
    · rintro rfl hd
      exact rdtime_reads h hd
    · rintro rfl hd
      exact rdhlc_advances h hd
  · exact straight_performs h (.fixed 1) (fun _ v t => progBody f v t) _ rfl fun _ _ => rfl

end Sys2Proof.Machine
end

section
/-! Dispatch (R82, R244, R249): the state that refutes O59. -/
namespace Sys2Proof.Machine

/-! ### A device on which a decision to place a block places none

In `descOf` and `launchAt` launch number 0 stands for "no launch". A state that lists a launch of number 0 with a descriptor of its own
gives that number a second meaning: the decision about a card that has not begun looks for room by that launch's descriptor, while the
block is added by the context's. Below, the context's arena is full and the other one has room. -/
namespace LaunchZero

/-- The header of a code object of 256 bytes of code, for teams of 4 lanes and one register block. -/
def codeHeader : List Byte :=
  leBytes 4 1 ++ leBytes 4 256 ++ leBytes 8 256 ++ leBytes 8 256 ++ leBytes 16 0 ++ leBytes 2 4 ++ leBytes 1 1 ++ leBytes 213 0

/-- The card that waits at core 0: one block of one team. -/
def waiting : Posted := { card := { entry := 0x108100, code := 0x108000, size := 4, blocks := 1 }, order := 5 }

/-- The context's descriptor, with its arena at 0x200000. -/
def ctxDesc : CtxDesc := { ptroot := 0x10000, valid := true, pvarena := 0x200001 }

/-- Launch number 0, with a descriptor of its own and so an arena elsewhere. -/
def launchZero : Launch := { id := 0, card := {}, next := 1, order := 0, desc := some { ctxDesc with pvarena := 0x8000001 } }

/-- A ready device that is idle but for the waiting card; the context's arena is taken whole. -/
def device : State :=
  { phase := 5, nextId := 16, launches := [launchZero], ctxs := [(0, { desc := ctxDesc, arena := [(0x200000, 2 ^ 26)] })],
    parts := [(0, { entry := { cores := 1, keys := 1, valid := true, ranges := [(0, 0x40000000)] } })],
    mem := (fetchTree []).setList unlistedByte 0x108000 codeHeader, cores := [(0, { cards := [waiting] })] }

/-- The decision takes the waiting card and gives it core 0, since launch 0's arena has room. -/
theorem decide_device : device.unfocus.decide? 0 = some (12, waiting, some 0) := by decide +kernel

/-- Whether an outcome is a next state without a block. -/
def placesNone : Host.Outcome State Fault Refusal → Bool
  | .next t => t.blocks.isEmpty
  | _ => false

/-- So dispatching leaves the device without a block. -/
theorem dispatch_device : placesNone (exec (.dispatch 0) device) = true := by decide +kernel

end LaunchZero

open LaunchZero in
/-- Refutes O59: nothing in the clause on a block put on a core excludes a launch of number 0 with a descriptor of its own
(`LaunchZero.device`), by whose arena the decision is taken; the context's arena is full, and no block is added. The device itself numbers
its launches from 1 (`State.nextId`); the statement has no hypothesis that says so. -/
theorem not_launchEvents : ¬ Obligations.LaunchEvents := by
  unfold Obligations.LaunchEvents
  rintro ⟨-, hdispatch, -⟩
  obtain ⟨-, -, hplaced⟩ := hdispatch 0 device
  have hlaunches : ∀ l ∈ device.launches, l.order ≠ waiting.order ∧ l.id < device.nextId := by decide
  have hothers : ∀ y ∈ device.unfocus.others, y.block ≤ device.nextId := by decide
  obtain ⟨t, b, hexec, hblocks, -⟩ := hplaced 12 waiting 0 rfl rfl rfl decide_device hlaunches hothers
  have hnone : placesNone (.next t) = true := hexec ▸ dispatch_device
  simp [placesNone, hblocks] at hnone

end Sys2Proof.Machine
end

section
/-! Copies between the files of registers, and the source lane of `shfl` (R108, R109, R113, R122). -/
namespace Sys2Proof.Machine

/-! ### `bcast`, `mata` and `mkaff` -/

/-- An instruction of one cycle whose body writes an affine register: it has stepped with the pair written, or raises UDIV (R91). -/
theorem one_pair {i : Instr} {f : Fmt} {s : State} {x : Affine} (h : Acts i f s) (body : Fmt → State → State → Res)
    (hb : ∀ t, body f (s.seen i f) t = putPair f x (s.seen i f) t) :
    ((s.seen i f).diverged = false → ∃ t, one i f body s = .next t ∧ Stepped f [.a f.d.toNat] s t ∧ t.regA f.d.toNat = x) ∧
    ((s.seen i f).diverged = true → one i f body s = .next (s.takeFault (wholeFlt .UDIV))) := by
  refine ⟨fun hd => straight_pair h (.fixed 1) x hd (fun _ v t => body f v t) fun _ => hb, fun hd => ?_⟩
  exact straight_raise h (.fixed 1) _ (fun _ v t => body f v t) fun _ t => (hb t).trans (if_pos hd)

/-- Settles O32: `bcast` and `mata` write the active lanes through `put`, `mkaff` its pair through `putPair`. -/
theorem laneCopies : Obligations.LaneCopies := by
  refine ⟨fun f s h hv => ?_, fun f s h hv => ?_, fun f s h => ?_⟩
  · exact straight_lanes h 1 (.fixed 1) _ _ hv (fun _ v t => bcastBody f v t) fun _ _ => rfl
  · exact straight_lanes h 1 (.fixed 1) _ _ hv (fun _ v t => mataBody f v t) fun _ _ => rfl
  · exact one_pair h mkaffBody fun _ => rfl

/-! ### `shfl` -/

theorem tileSize_cases (t : Team) : tileSize t = 2 ∨ tileSize t = 4 ∨ tileSize t = 8 ∨ tileSize t = 16 ∨ tileSize t = 32 := by
  unfold tileSize
  split <;> simp

/-- The position in its tile that a lane at position `j` asks for with operand `k` (R122). -/
def shflPosition (mode j k : Nat) : Int :=
  match mode with
  | 0 => k
  | 1 => (j : Int) - k
  | 2 => (j : Int) + k
  | _ => (j ^^^ k : Nat)

/-- A lane reads the position that it asks for, where the tile has that position and the split its lane, and else itself. -/
theorem shflLane_eq (f : Fmt) (v : State) (l : Nat) :
    let j := l % tileSize v.team
    let pos := shflPosition f.x.qual.toNat j (rawB f v l).toNat
    shflLane f v l =
      if 0 ≤ pos ∧ pos < tileSize v.team ∧ present v (l - j + pos.toNat) = true then l - j + pos.toNat else l := by
  have key (j' : Nat) (pos : Int) (h : pos = j' ∨ pos < 0 ∧ j' = tileSize v.team) :
      (if (decide (j' < tileSize v.team) && present v (l - l % tileSize v.team + j')) = true then l - l % tileSize v.team + j' else l) =
      if 0 ≤ pos ∧ pos < tileSize v.team ∧ present v (l - l % tileSize v.team + pos.toNat) = true
        then l - l % tileSize v.team + pos.toNat else l := by
    rcases h with rfl | ⟨hneg, rfl⟩
    · simp
    · rw [if_neg (by simp), if_neg (by omega)]
  unfold shflLane shflPosition
  dsimp only
  generalize l % tileSize v.team = j at key ⊢
  generalize (rawB f v l).toNat = k at key ⊢
  match f.x.qual.toNat with
  | 0 => exact key _ _ (.inl rfl)
  | 1 => exact key (if k ≤ j then j - k else tileSize v.team) ((j : Int) - k) (by split <;> omega)
  | 2 => exact key _ _ (.inl rfl)
  | _ + 3 => exact key _ _ (.inl rfl)

/-- Settles O34: `shflLane_eq`, whose condition is that the lane at the position is `present`. -/
theorem shuffleSource : Obligations.ShuffleSource := by
  intro f v l _
  refine ⟨tileSize_cases v.team, fun h0 ht hin => (shflLane_eq f v l).trans (if_pos ⟨h0, ht, ?inside⟩),
    fun hout => (shflLane_eq f v l).trans (if_neg ?outside)⟩
  case inside =>
    obtain ⟨hn, hm⟩ := hin
    exact Bool.and_eq_true_iff.2 ⟨decide_eq_true hn, hm⟩
  case outside =>
    rintro ⟨h0, ht, hp⟩
    obtain ⟨hn, hm⟩ := Bool.and_eq_true_iff.1 hp
    rcases hout with h | h | h | h
    · exact absurd h0 (Int.not_le.2 h)
    · exact absurd ht (Int.not_lt.2 h)
    · exact absurd (of_decide_eq_true hn) (Nat.not_lt.2 h)
    · exact absurd hm (ne_true_of_eq_false h)

end Sys2Proof.Machine
end

section
/-! Rendezvous moves and barriers (R129 to R132, R210, R211). -/
namespace Sys2Proof.Machine
open State

/-! ### Teams by their number -/

/-- `u` has the number and the varying registers, with their tags, of `t`. -/
structure Team.FilesAs (t u : Team) : Prop where
  id   : u.id = t.id
  v    : u.v = t.v
  tags : u.tags = t.tags

theorem Team.FilesAs.refl (t : Team) : t.FilesAs t := ⟨rfl, rfl, rfl⟩

theorem Team.FilesAs.trans {t u w : Team} (h : t.FilesAs u) (h' : u.FilesAs w) : t.FilesAs w :=
  ⟨h'.id.trans h.id, h'.v.trans h.v, h'.tags.trans h.tags⟩

theorem find?_insertTeam_of_ne {t : Team} {id : Nat} (h : t.id ≠ id) (l : List Team) :
    (insertTeam t l).find? (fun y => y.id == id) = l.find? fun y => y.id == id := by
  induction l with
  | nil => simp [insertTeam, h]
  | cons y r ih =>
    unfold insertTeam
    split
    · exact List.find?_cons_of_neg (by simpa using h)
    · rw [List.find?_cons, List.find?_cons, ih]

theorem find?_map_of_id {g : Team → Team} (hg : ∀ t, (g t).id = t.id) (id : Nat) (l : List Team) :
    (l.map g).find? (fun y => y.id == id) = (l.find? fun y => y.id == id).map g := by
  rw [List.find?_map]
  congr 2
  funext t
  simp [hg]

theorem find?_filter_of_ne {tid id : Nat} (h : id ≠ tid) (l : List Team) :
    (l.filter fun y => y.id != tid).find? (fun y => y.id == id) = l.find? fun y => y.id == id := by
  rw [List.find?_filter]
  congr 1
  funext t
  by_cases ht : t.id = id <;> simp [ht, h]

/-- Another team than the executing one is found where it was once the executing one is put back. -/
theorem findTeam_unfocus {s : State} {id : Nat} (h0 : id ≠ 0) (h : s.team.id ≠ id) : s.unfocus.findTeam id = s.findTeam id := by
  unfold unfocus
  split
  · rfl
  · unfold findTeam
    rw [if_neg h, if_neg (Ne.symm h0)]
    refine find?_insertTeam_of_ne ?_ _
    split <;> exact h

theorem unfocus_vacant (s : State) : s.unfocus.team.id = 0 := by
  unfold unfocus
  split
  · assumption
  · rfl

theorem findTeam_modTeamId {g : Team → Team} (hg : ∀ t, (g t).id = t.id) (s : State) (id : Nat) :
    (s.modTeamId id g).findTeam id = (s.findTeam id).map g := by
  unfold modTeamId
  by_cases h : s.team.id = id
  · simp [findTeam, h, hg]
  · simp only [findTeam, h, if_false]
    rw [find?_map_of_id fun t => by split <;> simp [hg]]
    cases hf : s.others.find? fun t => t.id == id with
    | none => rfl
    | some w =>
      have hw : w.id = id := by simpa using List.find?_some hf
      simp [hw]

/-! ### What leaves a team's varying registers alone -/

/-- `t` has the memory of `s`, and team `id` the varying registers, with their tags, that it has in `s`; it does not come to execute. -/
structure FilesStand (id : Nat) (s t : State) : Prop where
  mem   : t.mem = s.mem
  file  : ∀ w, s.findTeam id = some w → ∃ y, t.findTeam id = some y ∧ w.FilesAs y
  apart : s.team.id ≠ id → t.team.id ≠ id

theorem FilesStand.of_eq {id : Nat} {s t : State} (hm : t.mem = s.mem) (hf : t.findTeam id = s.findTeam id)
    (ha : s.team.id ≠ id → t.team.id ≠ id) : FilesStand id s t :=
  ⟨hm, fun w hw => ⟨w, hf.trans hw, .refl w⟩, ha⟩

theorem FilesStand.refl (id : Nat) (s : State) : FilesStand id s s := .of_eq rfl rfl fun h => h

theorem FilesStand.trans {id : Nat} {s t u : State} (h : FilesStand id s t) (h' : FilesStand id t u) : FilesStand id s u := by
  refine ⟨h'.mem.trans h.mem, fun w hw => ?_, fun ha => h'.apart (h.apart ha)⟩
  obtain ⟨y, hy, hwy⟩ := h.file w hw
  obtain ⟨z, hz, hyz⟩ := h'.file y hy
  exact ⟨z, hz, hwy.trans hyz⟩

theorem modTeamId_rest (s : State) (id : Nat) (g : Team → Team) :
    (s.modTeamId id g).mem = s.mem ∧ (s.team.id ≠ id → (s.modTeamId id g).team = s.team) := by
  unfold modTeamId
  split
  · exact ⟨rfl, fun h => absurd ‹_› h⟩
  · exact ⟨rfl, fun _ => rfl⟩

theorem modTeamId_stand {g : Team → Team} (hg : ∀ t : Team, t.FilesAs (g t)) (s : State) (id : Nat) :
    FilesStand id s (s.modTeamId id g) where
  mem := (modTeamId_rest s id g).1
  file w hw := ⟨g w, by rw [findTeam_modTeamId (fun t => (hg t).id), hw]; rfl, hg w⟩
  apart h := by rwa [(modTeamId_rest s id g).2 h]

theorem modEvery_filesAs (sid : Nat) (g : Split → Split) (t : Team) : t.FilesAs (Team.modEvery sid g t) := ⟨rfl, rfl, rfl⟩

theorem modSplitId_stand (s : State) (tid sid : Nat) (g : Split → Split) : FilesStand tid s (s.modSplitId tid sid g) := by
  unfold modSplitId
  split
  · exact .of_eq rfl rfl fun h => h
  · exact modTeamId_stand (modEvery_filesAs sid g) s tid

theorem unparkSplit_stand (s : State) (tid sid : Nat) : FilesStand tid s (s.unparkSplit tid sid) :=
  (FilesStand.of_eq (s := s) (t := s.fresh.2) rfl rfl fun h => h).trans (modSplitId_stand s.fresh.2 tid sid _)

theorem mapTeams_stand {g : Team → Team} (hg : ∀ t : Team, t.FilesAs (g t)) (s : State) (id : Nat) :
    FilesStand id s { s with team := g s.team, others := s.others.map g } where
  mem := rfl
  file w hw := by
    refine ⟨g w, ?_, hg w⟩
    unfold findTeam at hw ⊢
    dsimp only
    rw [(hg s.team).id]
    split at hw
    · rw [if_pos ‹_›, Option.some.inj hw]
    · rw [if_neg ‹_›, find?_map_of_id fun t => (hg t).id, hw]
      rfl
  apart h := fun e => h ((hg s.team).id.symm.trans e)

/-- What `reclaimLanes` does to each team: its lanes that team `tid` has lent are marked with the cycle. -/
def Team.reclaimed (cycle tid : Nat) (t : Team) : Team :=
  { t with lent := t.lent.map fun x => if x.team = tid && x.reclaimed.isNone then { x with reclaimed := some cycle } else x }

theorem reclaimLanes_stand (s : State) (tid : Nat) : FilesStand tid s (s.reclaimLanes tid) :=
  mapTeams_stand (g := Team.reclaimed s.cycle tid) (fun _ => ⟨rfl, rfl, rfl⟩) s tid

theorem clearPark_stand (s : State) (tid sid : Nat) : FilesStand tid s (s.clearPark tid sid) := by
  unfold clearPark
  split
  · exact unparkSplit_stand s tid sid
  · exact (reclaimLanes_stand s tid).trans (modSplitId_stand _ tid sid _)

theorem endFlight_filesAs (t : Team) (fl : Nat) : t.FilesAs (endFlight t fl) := by
  unfold endFlight
  split
  · exact .refl t
  · dsimp only
    split <;> exact ⟨rfl, rfl, rfl⟩

theorem landFlight_filesAs (t : Team) (fl : Nat) : t.FilesAs (landFlight t fl) := by
  unfold landFlight
  split
  · exact .refl t
  · split
    · exact endFlight_filesAs t fl
    · exact ⟨rfl, rfl, rfl⟩

theorem landEffect_filesAs (fl : Nat) (t : Team) : t.FilesAs (landEffect fl t) := by
  refine (landFlight_filesAs t fl).trans ?_
  unfold landEffect
  dsimp only
  split
  · exact .refl _
  · exact ⟨rfl, rfl, rfl⟩

theorem partyDone_stand (s : State) (p : Party) : FilesStand p.team s (s.partyDone p) :=
  (modTeamId_stand (landEffect_filesAs p.flight) s p.team).trans (clearPark_stand _ p.team p.split)

theorem unfocus_mem (s : State) : s.unfocus.mem = s.mem := by
  unfold unfocus
  split <;> rfl

theorem unfocus_stand {s : State} {id : Nat} (h0 : id ≠ 0) (h : s.team.id ≠ id) : FilesStand id s s.unfocus :=
  .of_eq (unfocus_mem s) (findTeam_unfocus h0 h) fun _ e => h0 (e.symm.trans (unfocus_vacant s))

/-- Taking out a split of another team. -/
theorem focus_stand {s : State} {id tid : Nat} (h0 : id ≠ 0) (h : s.team.id ≠ id) (ht : id ≠ tid) (sid : Nat) :
    FilesStand id s (s.focus tid sid) := by
  have hu := unfocus_stand h0 h
  refine hu.trans ?_
  have hv := hu.apart h
  unfold focus
  generalize s.unfocus = u at hv ⊢
  dsimp only
  split
  · exact .refl id u
  · rename_i t hf
    have hid : t.id ≠ id := fun e => ht (e.symm.trans (by simpa using List.find?_some hf))
    split
    · exact .refl id u
    · refine .of_eq rfl ?_ fun _ => hid
      unfold findTeam
      rw [if_neg hv, if_neg hid]
      exact find?_filter_of_ne ht _

/-! ### A landing in the registers of a waiting receiver (R46, R170) -/

theorem readable_filesAs (t : Team) (sid : Nat) (x : Landing) : t.FilesAs (t.readable sid x) := ⟨rfl, rfl, rfl⟩

theorem FilesOnly.team_id {s t : State} (h : FilesOnly s t) : t.team.id = s.team.id := by
  unfold FilesOnly at h
  rw [h]

theorem FilesOnly.split_wave {s t : State} (h : FilesOnly s t) : t.split.wave = s.split.wave := by
  unfold FilesOnly at h
  rw [h]

/-- The state in which one landing is written to the registers of team `t`, for its split `sid`. -/
def landingState (s : State) (sid : Nat) (x : Landing) (t : Team) : State :=
  { s with team := t.readable sid x, split := (t.every.find? fun y => y.id == sid).getD {} }

/-- Lanes of a team's own register land by one write. -/
theorem landIn_lanes {n : Nat} (hn : n < 248) (s : State) (sid run : Nat) (tag : Option Tag) (vals : List (Nat × Word)) (t : Team) :
    let s1 := (landingState s sid (.lanes n tag vals) t).land (.lanes n tag vals)
    s.landIn sid run false [.lanes n tag vals] t = Team.modEvery sid (fun y => { y with run := s1.split.run }) s1.team := by
  simp [State.landIn, landingState, hn, landAll]

theorem landIn_lanes_id {n : Nat} (hn : n < 248) (s : State) (sid run : Nat) (tag : Option Tag) (vals : List (Nat × Word)) (t : Team) :
    (s.landIn sid run false [.lanes n tag vals] t).id = t.id := by
  rw [landIn_lanes hn]
  exact (land_files _ _).team_id

/-- What a team's register holds once lanes of it have landed for a split that is no half of a wave. -/
theorem landIn_lanes_holds {n : Nat} (hn : n < 248) (s : State) (sid run : Nat) (tag : Tag) (ls : List Nat) (hls : ∀ l ∈ ls, l < 1024)
    (val : Nat → Word) {t : Team} (hw : ∀ x ∈ t.every, x.id = sid → x.wave = none) :
    let u := s.landIn sid run false [.lanes n (some tag) (ls.map fun l => (l, val l))] t
    u.tags.get .raw n = tag ∧
      ∀ l, l < 1024 → u.v.get 0 (1024 * n + l) = if l ∈ ls then val l else t.v.get 0 (1024 * n + l) := by
  have hn' : ¬ 248 ≤ n := Nat.not_le.2 hn
  dsimp only
  rw [landIn_lanes hn]
  generalize hx : Landing.lanes n (some tag) (ls.map fun l => (l, val l)) = x
  have hwave : (landingState s sid x t).split.wave = none := by
    unfold landingState
    dsimp only
    cases hf : t.every.find? fun y => y.id == sid with
    | none => rfl
    | some y => exact hw y (List.mem_of_find?_eq_some hf) (by simpa using List.find?_some hf)
  have hwave' := (land_files x (landingState s sid x t)).split_wave.trans hwave
  have hteam : (landingState s sid x t).team.v = t.v := rfl
  generalize landingState s sid x t = s0 at hwave' hteam
  subst hx
  refine ⟨?_, fun l hl => ?_⟩
  · have htag : (s0.land (.lanes n (some tag) (ls.map fun l => (l, val l)))).regTag n = tag := by simp [land, writeVar]
    unfold regTag at htag
    rw [if_neg hn', Split.tagSeen, hwave'] at htag
    exact htag
  · have hlane := regV_writeLanes n n l hl val ls hls s0
    rw [← regV_setTag _ n n l tag] at hlane
    unfold regV at hlane
    rw [if_neg hn', if_neg hn', hteam] at hlane
    simpa [land, writeVar, Team.modEvery] using hlane

/-- Results for a split that is no half of a wave land in its team alone. -/
theorem landFor_whole {s : State} {tid sid : Nat} {w : Team} (h0 : s.team.id = 0) (hf : (s.others.find? fun t => t.id == tid) = some w)
    (hw : ∀ x ∈ w.every, x.id = sid → x.wave = none) (run fl : Nat) (ls : List Landing) :
    s.landFor tid sid run fl ls = s.modTeamId tid fun t => s.landIn sid run false ls t := by
  have hnone : ((w.every.find? fun x => x.id == sid).bind Split.wave) = none := by
    cases hx : w.every.find? fun x => x.id == sid with
    | none => rfl
    | some x => exact hw x (List.mem_of_find?_eq_some hx) (by simpa using List.find?_some hx)
  have hu : s.unfocus = s := if_pos h0
  unfold landFor
  simp only [hu, hf, hnone]
  rfl

/-! ### What an instruction sees of its block and its partners -/

/-- What a rendezvous or a barrier reads besides the registers. -/
theorem FilesOnly.block_reads {s v : State} (h : FilesOnly s v) :
    v.team.id = s.team.id ∧ v.team.block = s.team.block ∧ v.split.id = s.split.id ∧ v.split.older = s.split.older ∧ v.block = s.block ∧
    (∀ e, v.entryGone e = s.entryGone e) := by
  unfold FilesOnly at h
  rw [h]
  exact ⟨rfl, rfl, rfl, rfl, rfl, fun _ => rfl⟩

theorem FilesOnly.findTeam_n {s v : State} (h : FilesOnly s v) (id : Nat) : (v.findTeam id).map Team.n = (s.findTeam id).map Team.n := by
  obtain ⟨hid, -⟩ := h.block_reads
  obtain ⟨-, -, -, -, hn, -, -, -, -, -, ho⟩ := h.fields
  unfold findTeam
  rw [hid, ho]
  split
  · exact congrArg some hn
  · rfl

/-- The flight of an instruction of variable latency has the next serial number. -/
theorem launch_later_flight (f : Fmt) (u : Uses) (ends : Bool) (s : State) : (launch f u .later ends s).1 = s.nextId := by
  simp [launch, dueAt]

/-- An instruction of variable latency whose body is done with an effect that knows its flight. -/
theorem later_performs {i : Instr} {f : Fmt} {s : State} (h : Acts i f s) (body : Fmt → Nat → State → State → Res) (g : Nat → State → State)
    (he : exec i s = later i f body s) (hb : ∀ fl t, body f fl (s.seen i f) t = .done (g fl t)) : Performs i f s (g s.nextId) := by
  obtain ⟨n, hn⟩ := issue_done h .later false (body f) g hb
  rw [launch_later_flight] at hn
  exact ⟨_, n, launch_stepped f (usesOf i) .later s, he.trans hn⟩

/-- Registers await values that are not known yet, after an issue. -/
theorem expects_putUnknown {f : Fmt} {s u : State} (hu : Stepped f [] s u) (hp : u.team.pending = s.team.pending) (fl : Nat)
    (rs : List Reg) : Expects f rs s (putUnknown fl rs u) where
  toStepped := (hu.touch (putUnknown_touched fl rs u)).mono (by simp)
  result := by
    refine ⟨{ id := u.nextId, flight := fl, regs := rs, value := none, split := u.split.id, run := u.split.begun }, ?_, rfl, rfl, ?_, ?_⟩
    · exact congrArg (· ++ _) hp
    · show u.split.id = s.split.id
      rw [hu.split]
    · show u.split.begun = s.split.begun
      rw [hu.split]

/-! ### `rvsend` and `rvrecv` (R129, R130) -/

/-- The party of a sender, as its instruction sees its registers. -/
def sendingParty (f : Fmt) (v : State) (fl : Nat) : Party :=
  { team := v.team.id, split := v.split.id, flight := fl, reg := f.a.toNat, active := activeMask f v,
    vals := (activeLanes f v).map fun l => (l, rawA f v l), tag := copyTag f v }

/-- The party of a receiver. -/
def receivingParty (f : Fmt) (v : State) (fl : Nat) : Party :=
  { team := v.team.id, split := v.split.id, flight := fl, reg := f.d.toNat, active := activeMask f v }

/-- The lanes to which a sender of `ns` lanes sends, of a receiver of `nr` lanes. -/
def reachedLanes (ns nr : Nat) (recv : Party) : List Nat := (lanesOf nr recv.active).filter fun l => decide (l < ns)

theorem mem_reachedLanes {ns nr : Nat} {recv : Party} {l : Nat} :
    l ∈ reachedLanes ns nr recv ↔ l < nr ∧ l < ns ∧ recv.active.getLsbD l = true := by
  simp only [reachedLanes, lanesOf, List.mem_filter, List.mem_range, decide_eq_true_eq]
  exact and_assoc.trans (and_congr_right fun _ => and_comm)

/-- What a sender's lane sends: 0 where it is not active (R130). -/
theorem sent_value (f : Fmt) (v : State) (fl l : Nat) :
    (((sendingParty f v fl).vals.find? fun p => p.1 == l).map Prod.snd).getD 0 = if l ∈ activeLanes f v then rawA f v l else 0 := by
  unfold sendingParty
  dsimp only
  induction activeLanes f v with
  | nil => rfl
  | cons x r ih =>
    rw [List.map_cons, List.find?_cons]
    by_cases hx : x = l
    · simp [hx]
    · have hb : (x == l) = false := beq_eq_false_iff_ne.2 hx
      simp only [hb, List.mem_cons, Ne.symm hx, false_or]
      exact ih

theorem transferred_sent (f : Fmt) (v : State) (fl ns nr : Nat) (recv : Party) :
    transferred ns nr (sendingParty f v fl) recv =
      .lanes recv.reg (some (copyTag f v)) ((reachedLanes ns nr recv).map fun l => (l, if l ∈ activeLanes f v then rawA f v l else 0)) := by
  unfold transferred reachedLanes
  congr 1
  exact List.map_congr_left fun l _ => congrArg _ (sent_value f v fl l)

/-- Puts the queues of a slot in a block. -/
def Block.withSlot (k : Nat) (x : Slot) (b : Block) : Block := { b with slots := b.slots.set {} k x }

/-- The slot that a rendezvous instruction names. -/
def meetingSlot (f : Fmt) (v : State) : Slot := v.block.slots.get {} f.b.toNat

/-- A sender that meets a receiver `r` (R130): its values land, the receiver goes on. `run` is when the receiver's run began. -/
def meetReceiver (f : Fmt) (v : State) (r : Party) (rest : List Party) (nr run fl : Nat) (s : State) : State :=
  let s := s.modBlock v.team.block (Block.withSlot f.b.toNat { meetingSlot f v with receivers := rest })
  let s := s.modTeam fun t => endFlight t fl
  ((s.unfocus.landFor r.team r.split run r.flight [transferred v.team.n nr (sendingParty f v fl) r]).partyDone r).focus v.team.id v.split.id

theorem rvsendBody_meets {f : Fmt} {v : State} {r : Party} {rest : List Party} (h : (meetingSlot f v).receivers = r :: rest) :
    ∃ run, ∀ fl s, rvsendBody f fl v s =
      .done (meetReceiver f v r rest (((v.findTeam r.team).map Team.n).getD 0) run fl s) := by
  refine ⟨(((v.findTeam r.team).bind fun x => x.every.find? fun y => y.id == r.split).map Split.begun).getD 0, fun fl s => ?_⟩
  unfold meetingSlot at h
  unfold rvsendBody
  simp only [h]
  rfl

theorem rvsendBody_waits {f : Fmt} {v : State} (h : (meetingSlot f v).receivers = []) (fl : Nat) (s : State) :
    rvsendBody f fl v s = .done ((s.modBlock v.team.block
        (Block.withSlot f.b.toNat { meetingSlot f v with senders := (meetingSlot f v).senders ++ [sendingParty f v fl] })).modSplit
      fun x => { x with park := .rendezvous f.b.toNat true, buffer := false }) := by
  unfold meetingSlot at h ⊢
  unfold rvsendBody
  simp only [h]
  rfl

theorem rvrecvBody_meets {f : Fmt} {v : State} {p : Party} {rest : List Party} (h : (meetingSlot f v).senders = p :: rest)
    (fl : Nat) (s : State) : rvrecvBody f fl v s =
      .done ((((putLater fl [transferred (((v.findTeam p.team).map Team.n).getD 0) v.team.n p (receivingParty f v fl)] s).modBlock v.team.block
        (Block.withSlot f.b.toNat { meetingSlot f v with senders := rest })).unfocus.partyDone p).focus v.team.id v.split.id) := by
  unfold meetingSlot at h
  unfold rvrecvBody
  simp only [h]
  rfl

theorem rvrecvBody_waits {f : Fmt} {v : State} (h : (meetingSlot f v).senders = []) (fl : Nat) (s : State) :
    rvrecvBody f fl v s = .done (((putUnknown fl [.v f.d.toNat] s).modBlock v.team.block
        (Block.withSlot f.b.toNat { meetingSlot f v with receivers := (meetingSlot f v).receivers ++ [receivingParty f v fl] })).modSplit
      fun x => { x with park := .rendezvous f.b.toNat false, buffer := false }) := by
  unfold meetingSlot at h ⊢
  unfold rvrecvBody
  simp only [h]
  rfl

/-- What a receiver's team holds once a sender's values have landed: the sender's active lanes in the lanes that it reaches, 0 in those that
it reaches but that are not active at the sender, and the sender's tag (R130). -/
structure Received (f : Fmt) (v : State) (r : Party) (nr : Nat) (w y : Team) : Prop where
  tag  : y.tags.get .raw r.reg = copyTag f v
  lane : ∀ l, l < 1024 → y.v.get 0 (1024 * r.reg + l) =
    if l ∈ reachedLanes v.team.n nr r then (if l ∈ activeLanes f v then rawA f v l else 0) else w.v.get 0 (1024 * r.reg + l)

theorem Received.of_filesAs {f : Fmt} {v : State} {r : Party} {nr : Nat} {w y z : Team} (h : Received f v r nr w y) (hz : y.FilesAs z) :
    Received f v r nr w z :=
  ⟨by rw [hz.tags, h.tag], fun l hl => by rw [hz.v, h.lane l hl]⟩

section
variable {f : Fmt} {v : State} {r : Party} {w : Team} (h0 : r.team ≠ 0) (hreg : r.reg < 248)
  (hw : ∀ x ∈ w.every, x.id = r.split → x.wave = none)
include h0 hreg hw

/-- The landing of a sender's values, where no team executes. -/
theorem landFor_received (nr run fl : Nat) {s : State} (hs : s.team.id = 0) (hf : s.findTeam r.team = some w) :
    let t := s.landFor r.team r.split run r.flight [transferred v.team.n nr (sendingParty f v fl) r]
    t.mem = s.mem ∧ t.team.id = 0 ∧ ∃ y, t.findTeam r.team = some y ∧ Received f v r nr w y := by
  have hne : s.team.id ≠ r.team := fun e => h0 (e.symm.trans hs)
  have hof : (s.others.find? fun t => t.id == r.team) = some w := by
    unfold findTeam at hf
    rwa [if_neg hne] at hf
  dsimp only
  rw [transferred_sent, landFor_whole hs hof hw]
  obtain ⟨hmem, hteam⟩ := modTeamId_rest s r.team (s.landIn r.split run false [.lanes r.reg (some (copyTag f v))
    ((reachedLanes v.team.n nr r).map fun l => (l, if l ∈ activeLanes f v then rawA f v l else 0))])
  obtain ⟨htag, hlane⟩ := landIn_lanes_holds hreg s r.split run (copyTag f v) (reachedLanes v.team.n nr r)
    (fun l hl => BitVec.lt_of_getLsbD (mem_reachedLanes.1 hl).2.2) (fun l => if l ∈ activeLanes f v then rawA f v l else 0) hw
  exact ⟨hmem, by rw [hteam hne, hs], _, (findTeam_modTeamId (landIn_lanes_id hreg s r.split run _ _) s r.team).trans
    (congrArg _ hf), htag, hlane⟩

/-- A sender that meets a receiver of another team. -/
theorem meetReceiver_received (rest : List Party) (nr run fl : Nat) {u : State} (hu : u.team.id ≠ r.team) (hv : r.team ≠ v.team.id)
    (hf : u.findTeam r.team = some w) :
    let t := meetReceiver f v r rest nr run fl u
    t.mem = u.mem ∧ ∃ y, t.findTeam r.team = some y ∧ Received f v r nr w y := by
  unfold meetReceiver
  dsimp only
  generalize hs : (u.modBlock v.team.block _).modTeam _ = s
  have hid : s.team.id ≠ r.team := by
    rw [← hs]
    exact fun e => hu ((endFlight_filesAs u.team fl).id.symm.trans e)
  have hsf : s.findTeam r.team = some w := by
    rw [← hf]
    unfold findTeam
    rw [if_neg hid, if_neg hu, ← hs]
    rfl
  have hmem : s.unfocus.mem = u.mem := by rw [unfocus_mem, ← hs]; rfl
  obtain ⟨hlmem, hlteam, y, hy, hrec⟩ := landFor_received (f := f) (v := v) h0 hreg hw nr run fl (unfocus_vacant s)
    ((findTeam_unfocus h0 hid).trans hsf)
  have hdone := partyDone_stand (s.unfocus.landFor r.team r.split run r.flight [transferred v.team.n nr (sendingParty f v fl) r]) r
  have hstand := hdone.trans (focus_stand h0 (hdone.apart fun e => h0 (e.symm.trans hlteam)) hv v.split.id)
  obtain ⟨z, hz, hyz⟩ := hstand.file y hy
  exact ⟨hstand.mem.trans (hlmem.trans hmem), z, hz, hrec.of_filesAs hyz⟩

end

/-! ### Barriers (R131, R132, R210, R211) -/

/-- An arrival at barrier `k` of a block, by `barx` or not. -/
def Block.withArrival (k : Nat) (me : Arrival) (x : Bool) (b : Block) : Block :=
  let bar := b.barriers.get {} k
  { b with barriers := b.barriers.set {} k { bar with arrived := bar.arrived ++ [me], x := bar.x || x } }

theorem barrierBody_arrives {f : Fmt} {v : State} (x : Bool) (hd : v.diverged = false) (s : State) :
    barrierBody x f v s = .done (((s.modBlock v.team.block (Block.withArrival f.b.toNat
        { team := v.team.id, entries := v.split.older.filter fun e => !v.entryGone e } x)).modSplit
      fun y => { y with park := .barrier f.b.toNat, buffer := false }).unfocus.checkBarriers v.team.block) := by
  unfold barrierBody
  simp only [hd]
  rfl

/-- Teams of different arrivals that are among the live ones, one of which has not arrived, are fewer than those. -/
theorem length_arrived_lt {here live : List Nat} {t : Nat} (hn : here.Nodup) (hs : ∀ a ∈ here, a ∈ live) (ht : t ∈ live) (hm : t ∉ here) :
    here.length < live.length :=
  (List.nodup_cons.2 ⟨hm, hn⟩).length_le_of_subset (List.cons_subset.2 ⟨ht, hs⟩)

/-- A generation that a live team of the block is missing from does not complete (R132). -/
theorem checkBarriers_incomplete {s : State} {b : Block} {t : Team} (hb : s.findBlock b.id = some b) (ht : t ∈ s.liveTeams b)
    (hm : ∀ k, k < 8 → ((b.barriers.get {} k).arrived.map Arrival.team).Nodup ∧ ∀ a ∈ (b.barriers.get {} k).arrived, a.team ≠ t.id) :
    s.checkBarriers b.id = s := by
  unfold checkBarriers
  rw [hb]
  refine List.foldlRecOn (motive := (· = s)) _ _ rfl ?_
  intro u hu k hk
  rw [hu]
  obtain ⟨hn, hout⟩ := hm k (List.mem_range.1 hk)
  refine if_neg fun hc => ?_
  simp only [Bool.and_eq_true, decide_eq_true_eq] at hc
  obtain ⟨⟨-, hlen⟩, -⟩ := hc
  generalize (b.barriers.get {} k).arrived = arrived at hn hout hlen
  have hsub : (arrived.filter fun a => ((s.liveTeams b).map Team.id).contains a.team).Sublist arrived := List.filter_sublist
  have hlt := length_arrived_lt (hn.sublist (hsub.map Arrival.team)) (live := (s.liveTeams b).map Team.id) (t := t.id)
    (fun n hn => by
      obtain ⟨a, ha, rfl⟩ := List.mem_map.1 hn
      simpa using (List.mem_filter.1 ha).2)
    (List.mem_map_of_mem ht)
    (fun hn => by
      obtain ⟨a, ha, hat⟩ := List.mem_map.1 hn
      exact hout a (hsub.subset ha) hat)
  rw [List.length_map] at hlt
  exact absurd hlen (Nat.ne_of_lt hlt)

/-! ### The instructions -/

section
variable {f : Fmt} {s : State}

theorem rvsend_waits (h : Acts (.rvsend f) f s) (hs : (meetingSlot f s).receivers = []) :
    Performs (.rvsend f) f s fun u =>
      (u.modBlock s.team.block (Block.withSlot f.b.toNat { meetingSlot f s with senders := (meetingSlot f s).senders ++
          [{ sendingParty f (s.seen (.rvsend f) f) s.nextId with team := s.team.id, split := s.split.id }] })).modSplit
        fun x => { x with park := .rendezvous f.b.toNat true, buffer := false } := by
  obtain ⟨hid, hblk, hsid, -, hb, -⟩ := (seen_files s (.rvsend f) f).block_reads
  have hslot : meetingSlot f (s.seen (.rvsend f) f) = meetingSlot f s := congrArg (fun b : Block => b.slots.get {} f.b.toNat) hb
  have hp := later_performs h rvsendBody _ rfl (rvsendBody_waits (hslot ▸ hs))
  rw [hblk, hslot] at hp
  rw [← hid, ← hsid]
  exact hp

theorem rvrecv_waits (h : Acts (.rvrecv f) f s) (hs : (meetingSlot f s).senders = []) :
    ∃ u n, Expects f [.v f.d.toNat] s u ∧ exec (.rvrecv f) s = .next
      { (u.modBlock s.team.block (Block.withSlot f.b.toNat { meetingSlot f s with receivers := (meetingSlot f s).receivers ++
          [{ receivingParty f (s.seen (.rvrecv f) f) s.nextId with team := s.team.id, split := s.split.id }] })).modSplit
        (fun x => { x with park := .rendezvous f.b.toNat false, buffer := false }) with free := n } := by
  obtain ⟨hid, hblk, hsid, -, hb, -⟩ := (seen_files s (.rvrecv f) f).block_reads
  have hslot : meetingSlot f (s.seen (.rvrecv f) f) = meetingSlot f s := congrArg (fun b : Block => b.slots.get {} f.b.toNat) hb
  obtain ⟨n, hn⟩ := issue_done h .later false (rvrecvBody f) _ (rvrecvBody_waits (hslot ▸ hs))
  rw [launch_later_flight, hblk, hslot] at hn
  rw [← hid, ← hsid]
  exact ⟨_, n, expects_putUnknown (launch_stepped f (usesOf (.rvrecv f)) .later s)
    (launch_team f (usesOf (.rvrecv f)) .later false s).pending s.nextId _, hn⟩

theorem rvrecv_meets (h : Acts (.rvrecv f) f s) {p : Party} {rest : List Party} (hs : (meetingSlot f s).senders = p :: rest) :
    PerformsAwaiting (.rvrecv f) f s [transferred (((s.findTeam p.team).map Team.n).getD 0) s.team.n p
        { receivingParty f (s.seen (.rvrecv f) f) s.nextId with team := s.team.id, split := s.split.id }] fun u =>
      ((u.modBlock s.team.block (Block.withSlot f.b.toNat { meetingSlot f s with senders := rest })).unfocus.partyDone p).focus
        s.team.id s.split.id := by
  have hv := seen_files s (.rvrecv f) f
  obtain ⟨hid, hblk, hsid, -, hb, -⟩ := hv.block_reads
  obtain ⟨-, -, -, -, hn, -⟩ := hv.fields
  have hslot : meetingSlot f (s.seen (.rvrecv f) f) = meetingSlot f s := congrArg (fun b : Block => b.slots.get {} f.b.toNat) hb
  refine straight_performsAwaiting h (rvrecvBody f) rfl ?_
  rw [rvrecvBody_meets (hslot ▸ hs), launch_later_flight, hblk, hslot, hv.findTeam_n, hn, hid, hsid]
  rfl

/-- A sender that meets a receiver of another team leaves its values in that team's register, and memory as it was. -/
theorem rvsend_meets (h : Acts (.rvsend f) f s) {r : Party} {rest : List Party} {w : Team} (hs : (meetingSlot f s).receivers = r :: rest)
    (hr : r.team ≠ s.team.id) (h0 : r.team ≠ 0) (hf : (s.others.find? fun t => t.id == r.team) = some w) (hreg : r.reg < 248)
    (hw : ∀ x ∈ w.every, x.id = r.split → x.wave = none) :
    ∃ t y, exec (.rvsend f) s = .next t ∧ t.findTeam r.team = some y ∧ t.mem = s.mem ∧ Received f (s.seen (.rvsend f) f) r w.n w y := by
  have hv := seen_files s (.rvsend f) f
  obtain ⟨hid, -, -, -, hb, -⟩ := hv.block_reads
  have hslot : meetingSlot f (s.seen (.rvsend f) f) = meetingSlot f s := congrArg (fun b : Block => b.slots.get {} f.b.toNat) hb
  have hsf : s.findTeam r.team = some w := (if_neg (Ne.symm hr)).trans hf
  have hn : ((((s.seen (.rvsend f) f).findTeam r.team).map Team.n).getD 0) = w.n := by rw [hv.findTeam_n, hsf]; rfl
  obtain ⟨run, hbody⟩ := rvsendBody_meets (hslot ▸ hs)
  rw [hn] at hbody
  obtain ⟨u, n, hu, he⟩ := later_performs h rvsendBody _ rfl hbody
  have hteam : u.team.id = s.team.id := by rw [hu.team]
  have huf : u.findTeam r.team = some w := by
    unfold findTeam
    rw [hteam, if_neg (Ne.symm hr), hu.rest]
    exact hf
  obtain ⟨hmem, y, hy, hrec⟩ := meetReceiver_received (f := f) (v := s.seen (.rvsend f) f) h0 hreg hw rest w.n run s.nextId
    (hteam ▸ Ne.symm hr) (hid.symm ▸ hr) huf
  generalize meetReceiver _ _ _ _ _ _ _ _ = t at he hmem hy
  exact ⟨_, y, he, hy, hmem.trans hu.fields.1, hrec⟩

end

theorem bar_arrives {i : Instr} {f : Fmt} {s : State} (h : Acts i f s) (hi : i = .bar f ∨ i = .barx f) (hd : (s.seen i f).diverged = false) :
    Performs i f s fun u => ((u.modBlock s.team.block (Block.withArrival f.b.toNat
        { team := s.team.id, entries := s.split.older.filter fun e => !s.entryGone e } (decide (i = .barx f)))).modSplit
      fun x => { x with park := .barrier f.b.toNat, buffer := false }).unfocus.checkBarriers s.team.block := by
  obtain ⟨hid, hblk, -, holder, -, hgone⟩ := (seen_files s i f).block_reads
  have hb (x : Bool) (t : State) := barrierBody_arrives (f := f) x hd t
  rw [hid, hblk, holder, funext hgone] at hb
  rcases hi with rfl | rfl
  · exact straight_performs h (.fixed 0) (fun _ v t => barrierBody false f v t) _ rfl fun _ => hb false
  · rw [decide_eq_true (rfl : Instr.barx f = Instr.barx f)]
    exact straight_performs h (.fixed 0) (fun _ v t => barrierBody true f v t) _ rfl fun _ => hb true

theorem bar_diverged {i : Instr} {f : Fmt} {s : State} (h : Acts i f s) (hi : i = .bar f ∨ i = .barx f) (hd : (s.seen i f).diverged = true) :
    exec i s = .next (s.takeFault (wholeFlt .UDIV)) := by
  rcases hi with rfl | rfl
  · exact straight_raise h (.fixed 0) _ (fun _ v t => barrierBody false f v t) fun _ _ => if_pos hd
  · exact straight_raise h (.fixed 0) _ (fun _ v t => barrierBody true f v t) fun _ _ => if_pos hd

/-- Settles O46: a party that meets none joins its slot's queue, and the first of the other queue is the one that it meets, whose team
`Received` the values; a barrier's arrivals are fewer than the live teams while one of these is missing (`length_arrived_lt`). -/
theorem rendezvousAndBarriers : Obligations.RendezvousAndBarriers := by
  refine ⟨fun f s h => ⟨rvsend_waits h, fun r rest w hs _ hr h0 hf hreg hw => ?_⟩, fun f s h => ⟨rvrecv_waits h, fun p rest => rvrecv_meets h⟩,
    fun i f s h hi => ⟨bar_diverged h hi, bar_arrives h hi⟩, fun s b t => checkBarriers_incomplete⟩
  obtain ⟨t, y, he, hy, hmem, hrec⟩ := rvsend_meets h hs hr h0 hf hreg hw
  obtain ⟨-, -, -, -, hn, -⟩ := (seen_files s (.rvsend f) f).fields
  refine ⟨t, y, he, hy, fun k => congrArg (fun m : SMap Byte => m.get unlistedByte k) hmem, hrec.tag, fun l hl => ?_⟩
  rw [hrec.lane l hl, hn]
  simp only [mem_reachedLanes]

end Sys2Proof.Machine
end

section
/-! What an instruction that enters entries leaves: the entries of its lanes at the end of the queues, and every register as it was (R199, R200). -/
namespace Sys2Proof.Machine
open State

/-- `t` differs from `s` by entries that ask for `es` and have joined the queues in this order, and by what such entries leave in flights,
flags, splits, homes, TLBs, clocks and the model's counters; no register and no byte of memory has changed. -/
structure Filed (es : List Asks) (s t : State) : Prop where
  rest    : t = { s with team := t.team, split := t.split, nextId := t.nextId, free := t.free, entries := t.entries, dies := t.dies,
                         homes := t.homes, tlb := t.tlb }
  team    : t.team = { s.team with c := t.team.c, pending := t.team.pending, flights := t.team.flights, splits := t.team.splits }
  pc      : t.split.pc = s.split.pc
  regs    : RegistersKept [] s t
  entries : t.entries.map Entry.asks = s.entries.map Entry.asks ++ es

theorem Filed.trans {es es' : List Asks} {s t u : State} (h : Filed es s t) (h' : Filed es' t u) : Filed (es ++ es') s u where
  rest := by
    have e := h'.rest
    rw [h.rest] at e
    exact e
  team := by
    have e := h'.team
    rw [h.team] at e
    exact e
  pc := h'.pc.trans h.pc
  regs := h.regs.trans h'.regs
  entries := by rw [h'.entries, h.entries, List.append_assoc]

/-- A step that changes no entry's request keeps the requests. -/
theorem Filed.then_nil {es : List Asks} {s t u : State} (h : Filed es s t) (h' : Filed [] t u) : Filed es s u :=
  List.append_nil es ▸ h.trans h'

theorem Filed.nil_then {es : List Asks} {s t u : State} (h : Filed [] s t) (h' : Filed es t u) : Filed es s u := h.trans h'

/-- A step that changes no register because it changes none of the files that registers are read from. -/
theorem Filed.of_files {es : List Asks} {s t : State}
    (rest : t = { s with team := t.team, split := t.split, nextId := t.nextId, free := t.free, entries := t.entries, dies := t.dies,
                         homes := t.homes, tlb := t.tlb })
    (team : t.team = { s.team with c := t.team.c, pending := t.team.pending, flights := t.team.flights, splits := t.team.splits })
    (split : t.split = { s.split with older := t.split.older, barred := t.split.barred })
    (entries : t.entries.map Entry.asks = s.entries.map Entry.asks ++ es) : Filed es s t where
  rest := rest
  team := team
  pc := by rw [split]
  regs := RegistersKept.of_eq _ (by rw [team, split]; exact ⟨rfl, rfl, rfl, rfl, rfl, rfl, rfl, rfl, rfl, rfl⟩)
  entries := entries

theorem Filed.refl (s : State) : Filed [] s s := .of_files rfl rfl rfl (List.append_nil _).symm

theorem Noted.filed {s t : State} (h : Noted s t) : Filed [] s t := by
  unfold Noted at h
  rw [h]
  exact .of_files rfl rfl rfl (List.append_nil _).symm

theorem free_filed (s : State) (n : Nat) : Filed [] s { s with free := n } := .of_files rfl rfl rfl (List.append_nil _).symm

/-- What a team's order machine knows of its splits is no register. -/
theorem modSplit_order_filed (s : State) (older : List Nat) (barred : Split → List Nat) :
    Filed [] s (s.modSplit fun x => { x with older := older, barred := barred x }) :=
  .of_files rfl rfl rfl (List.append_nil _).symm

/-- A change of a team's flights and flags. -/
theorem modTeam_flights_filed (s : State) {g : Team → Team} (hg : ∀ t, g t = { t with flights := (g t).flights, c := (g t).c }) :
    Filed [] s (s.modTeam g) := by
  refine .of_files rfl ?_ rfl (List.append_nil _).symm
  show g s.team = { s.team with c := (g s.team).c, pending := (g s.team).pending, flights := (g s.team).flights, splits := (g s.team).splits }
  rw [hg]

theorem endFlight_flights (t : Team) (fl : Nat) : endFlight t fl = { t with flights := (endFlight t fl).flights, c := (endFlight t fl).c } := by
  unfold endFlight
  split
  · rfl
  · dsimp only
    split <;> rfl

/-- What the entry of one lane asks for, in a group of team `tid`. -/
def Group.asks (g : Group) (tid : Nat) (x : Loc) : Asks :=
  { team := tid, kind := g.kind x, locs := x.keys, data := x.bytesOf (g.data x.lane), va := x.va, lane := x.lane,
    dest := (g.dest x.lane).map x.destOf, acq := g.acq, rel := g.rel, sp := g.sp }

theorem enterLane_filed {g : Group} {older : List Nat} {s : State} {x : Loc} (hx : x.drop = none) :
    Filed [g.asks s.team.id x] s (enterLane g older s x) := by
  unfold enterLane fresh
  simp only [hx]
  have ht := touch_noted { s with nextId := s.nextId + 1 } (x.keys.headD (2 ^ 60))
    (dieOf { s with nextId := s.nextId + 1 } s.team.core)
    (if x.dom = .die then pins { s with nextId := s.nextId + 1 } s.team.part x.va else none)
  generalize touch { s with nextId := s.nextId + 1 } _ _ _ = w at ht
  unfold Noted at ht
  rw [ht]
  exact .of_files rfl rfl rfl (by simp [Entry.asks, Group.asks])

theorem foldl_enterLane_filed {g : Group} {older : List Nat} {ls : List Loc} {s : State} (hls : ∀ x ∈ ls, x.drop = none) :
    Filed (ls.map (g.asks s.team.id)) s (ls.foldl (enterLane g older) s) := by
  induction ls generalizing s with
  | nil => exact .refl s
  | cons x r ih =>
    obtain ⟨hx, hr⟩ := List.forall_mem_cons.1 hls
    have h := enterLane_filed (g := g) (older := older) (s := s) hx
    have h' := ih (s := enterLane g older s x) hr
    have hid : (enterLane g older s x).team.id = s.team.id := by rw [h.team]
    rw [hid] at h'
    exact h.trans h'

theorem siblingYounger_filed (first : Nat) (s : State) : Filed [] s (siblingYounger first s) := by
  unfold siblingYounger
  split
  · refine .of_files rfl rfl rfl ?_
    dsimp only
    rw [List.map_map, List.append_nil]
    refine List.map_congr_left fun e _ => ?_
    dsimp only [Function.comp]
    split <;> rfl
  · exact .refl s

/-- The entries of lanes none of which is dropped. -/
theorem enterAll_filed {g : Group} {ls : List Loc} {s : State} (hls : ∀ x ∈ ls, x.drop = none) :
    Filed (ls.map (g.asks s.team.id)) s (enterAll g ls s) := by
  have hw := modSplit_order_filed s (unionIds (s.split.older.filter fun e => !s.entryGone e) (siblingOlder s))
    fun x => x.barred.filter fun e => !s.entryGone e
  have hx := hw.nil_then (foldl_enterLane_filed (g := g) (older := unionIds (s.split.older.filter fun e => !s.entryGone e) (siblingOlder s)) hls)
  unfold enterAll
  refine (hx.then_nil (siblingYounger_filed s.nextId _)).then_nil (modTeam_flights_filed (siblingYounger s.nextId _) fun t => ?_)
  split
  · exact endFlight_flights t g.flight
  · rfl

theorem putUnknown_filed (fl : Nat) (rs : List Reg) (s : State) : Filed [] s (putUnknown fl rs s) :=
  .of_files rfl rfl rfl (List.append_nil _).symm

theorem Entry.asks_moved (e : Entry) (p : Prop) [Decidable p] (sid : Nat) : (if p then { e with split := sid } else e).asks = e.asks := by
  split <;> rfl

/-- A wave split changes no register: both halves see the tags that the split saw (R169, R170). -/
theorem waveSplit_filed (f : Fmt) (fl : Nat) (v s : State) : Filed [] s (waveSplit f fl v s) := by
  unfold waveSplit
  split
  · exact .refl s
  · dsimp only
    generalize ht : (if (_ || _) = true then { s with free := _ } else s) = t
    have hfree : Filed [] s t := by
      rw [← ht]
      split
      · exact free_filed s _
      · exact .refl s
    refine hfree.nil_then ?_
    split
    · exact .refl t
    · split
      · exact .refl t
      · refine ⟨rfl, rfl, rfl, ⟨fun _ _ => rfl, fun _ _ => rfl, fun _ _ => rfl, fun _ _ => rfl, fun _ _ _ _ => rfl, fun n _ => ?tag,
          fun _ _ _ => rfl⟩, ?asks⟩
        case tag =>
          simp only [fresh, regTag, Split.tagSeen, Option.isSome_some, if_true]
          by_cases hw : t.split.wave.isSome = true <;> simp [hw]
        case asks =>
          rw [List.append_nil]
          exact (List.map_map ..).trans (List.map_congr_left fun e _ => e.asks_moved _ _)

end Sys2Proof.Machine
end

section
/-! Colours that a team takes, and those that an access meets (R184, R214). -/
namespace Sys2Proof.Machine
open State

/-! ### Taking colours (R184, R214) -/

/-- The monitor of a colour of the executing team's context. -/
def State.monitor (s : State) (c : Nat) : Monitor := (s.ctx s.team.ctx).monitors.get {} c

/-- What the acquire entry of a colour asks for. -/
def acquireAsks (tid c : Nat) : Asks := { team := tid, kind := .acquire c, locs := [], va := 0, lane := 0, acq := true }

/-- The executing team has taken the colours `ds`, in order: it holds each, at its depth, and an acquire entry of each has entered. -/
structure Taken (ds : List Nat) (s t : State) : Prop where
  rest    : t = { s with team := t.team, split := t.split, nextId := t.nextId, entries := t.entries, ctxs := t.ctxs }
  team    : t.team = { s.team with held := s.team.held ++ ds.map fun d => (d, s.team.fdepth) }
  split   : t.split = { s.split with older := t.split.older }
  entries : t.entries.map Entry.asks = s.entries.map Entry.asks ++ ds.map (acquireAsks s.team.id)
  holder  : ∀ d ∈ ds, (t.monitor d).holder = some s.team.id
  other   : ∀ d, d ∉ ds → t.monitor d = s.monitor d

theorem Taken.nil (s : State) : Taken [] s s where
  rest := rfl
  team := by simp
  split := rfl
  entries := by simp
  holder := by simp
  other _ _ := rfl

theorem Taken.cons {c : Nat} {ds : List Nat} {s t u : State} (h : Taken [c] s t) (h' : Taken ds t u) : Taken (c :: ds) s u where
  rest := by
    have e := h'.rest
    rw [h.rest] at e
    exact e
  team := by
    rw [h'.team, h.team]
    simp
  split := by
    have e := h'.split
    rw [h.split] at e
    exact e
  entries := by
    rw [h'.entries, h.entries, h.team]
    simp
  holder d hd := by
    by_cases hds : d ∈ ds
    · rw [h'.holder d hds, h.team]
    · rw [h'.other d hds]
      exact h.holder d (List.mem_singleton.2 ((List.mem_cons.1 hd).resolve_right hds))
  other d hd := by
    obtain ⟨hc, hds⟩ := not_or.1 (mt List.mem_cons.2 hd)
    rw [h'.other d hds, h.other d (by simpa using hc)]

theorem takeColour_taken (s : State) (c : Nat) : Taken [c] s (s.takeColour c s.team.fdepth) := by
  have hmon (d : Nat) : (s.takeColour c s.team.fdepth).monitor d =
      if c = d then { s.monitor c with holder := some s.team.id } else s.monitor d := by
    unfold takeColour takeColourFor modSplitId modTeamId fresh monitor
    simp [modCtx, ctx, SMap.get_set]
  refine ⟨?rest, ?team, ?split, ?entries, fun d hd => ?holder, fun d hd => ?other⟩
  case holder =>
    obtain rfl := List.mem_singleton.1 hd
    rw [hmon, if_pos rfl]
  case other => rw [hmon, if_neg fun e => hd (List.mem_singleton.2 e.symm)]
  all_goals
    unfold takeColour takeColourFor modSplitId modTeamId fresh
    simp [modCtx, Entry.asks, acquireAsks]

theorem colourFree_eq (s : State) (c : Nat) : s.colourFree c = ((s.monitor c).holder.isNone && (s.monitor c).entry.isEmpty) := rfl

theorem Taken.colourFree {ds : List Nat} {s t : State} (h : Taken ds s t) {d : Nat} (hd : d ∉ ds) : t.colourFree d = s.colourFree d := by
  rw [colourFree_eq, colourFree_eq, h.other d hd]

/-- The free colours at the head of those that are sought are taken; the rest is sought from there. -/
theorem acquireAll_append {pre : List Nat} (r : List Nat) {s : State} (hn : pre.Nodup) (hf : ∀ c ∈ pre, s.colourFree c = true) :
    ∃ t, Taken pre s t ∧ s.acquireAll (pre ++ r) = t.acquireAll r := by
  induction pre generalizing s with
  | nil => exact ⟨s, .nil s, rfl⟩
  | cons c pre ih =>
    obtain ⟨hc, hpre⟩ := List.nodup_cons.1 hn
    obtain ⟨hfc, hfpre⟩ := List.forall_mem_cons.1 hf
    have h := takeColour_taken s c
    obtain ⟨t, ht, he⟩ := ih (s := s.takeColour c s.team.fdepth) hpre fun d hd => by
      have hdc : d ∉ [c] := fun hm => hc (List.mem_singleton.1 hm ▸ hd)
      rw [h.colourFree hdc, hfpre d hd]
    refine ⟨t, h.cons ht, ?_⟩
    rw [← he, List.cons_append, acquireAll, if_pos hfc]

/-- The team joins the entry queue of colour `d`, and parks until it holds it and those after it. -/
def awaitColour (d : Nat) (post : List Nat) (s : State) : State :=
  (s.modCtx s.team.ctx fun x =>
    { x with monitors := x.monitors.set {} d { x.monitors.get {} d with entry := (x.monitors.get {} d).entry ++ [s.team.id] } }).parkHere
    (.colour (d :: post))

theorem acquireAll_free {ds : List Nat} {s : State} (hn : ds.Nodup) (hf : ∀ c ∈ ds, s.colourFree c = true) :
    ∃ t, Taken ds s t ∧ s.acquireAll ds = (true, t) := by
  obtain ⟨t, ht, he⟩ := acquireAll_append [] hn hf
  exact ⟨t, ht, (List.append_nil ds ▸ he :)⟩

theorem acquireAll_waits {pre post : List Nat} {d : Nat} {s : State} (hn : pre.Nodup) (hf : ∀ c ∈ pre, s.colourFree c = true)
    (hd : s.colourFree d = false) : ∃ t, Taken pre s t ∧ s.acquireAll (pre ++ d :: post) = (false, awaitColour d post t) := by
  obtain ⟨t, ht, he⟩ := acquireAll_append (d :: post) hn hf
  have hdt : t.colourFree d = false := by
    rw [ht.colourFree fun hm => ne_false_of_eq_true (hf d hm) hd, hd]
  refine ⟨t, ht, he.trans ?_⟩
  rw [acquireAll, if_neg (ne_true_of_eq_false hdt)]
  rfl

/-! ### The colours that an access meets (R184) -/

theorem insertBy_perm (x : Nat) (l : List Nat) : (insertBy id x l).Perm (x :: l) := by
  induction l with
  | nil => exact .refl _
  | cons y r ih =>
    unfold insertBy
    split
    · exact .refl _
    · exact (ih.cons y).trans (.swap x y r)

theorem sortNats_perm (l : List Nat) : (sortNats l).Perm l := by
  induction l with
  | nil => exact .refl _
  | cons x r ih => exact (insertBy_perm x _).trans (ih.cons x)

theorem nodup_eraseDups : (l : List Nat) → l.eraseDups.Nodup
  | [] => List.nodup_nil
  | x :: r => by
    rw [List.eraseDups_cons]
    refine List.nodup_cons.2 ⟨fun hx => ?_, nodup_eraseDups _⟩
    have hmem := List.mem_eraseDups.1 hx
    simp only [List.mem_filter, beq_self_eq_true, Bool.not_true, Bool.false_eq_true, and_false] at hmem
termination_by l => l.length
decreasing_by exact Nat.lt_succ_of_le (List.length_filter_le _ _)

/-- Each new colour of an access stands once among those that the team seeks. -/
theorem nodup_newColours (v : State) (ls : List Loc) : ((v.newColours ls).map Prod.fst).Nodup := by
  unfold newColours
  dsimp only
  generalize ls.filterMap _ = met
  rw [List.map_filterMap]
  have hfst {a b : Nat} (h : (met.find? fun m => m.1 == a).map Prod.fst = some b) : a = b := by
    obtain ⟨m, hm, rfl⟩ := Option.map_eq_some_iff.1 h
    exact (beq_iff_eq.1 (List.find?_some (p := fun m : Nat × Loc => m.1 == a) hm)).symm
  refine List.Pairwise.filterMap _ (fun a a' hne b hb b' hb' => ?_) ((sortNats_perm _).nodup_iff.2 (nodup_eraseDups _))
  rw [← hfst hb, ← hfst hb']
  exact hne

/-- The location at the lowest lane, of those that meet new colours. -/
def lowestMet (x : Loc) (l : List (Nat × Loc)) : Loc := l.foldl (fun m y => if y.2.lane < m.lane then y.2 else m) x

theorem lowestMet_le (x : Loc) (l : List (Nat × Loc)) : (lowestMet x l).lane ≤ x.lane ∧ ∀ z ∈ l, (lowestMet x l).lane ≤ z.2.lane := by
  induction l generalizing x with
  | nil => exact ⟨Nat.le_refl _, by simp⟩
  | cons y r ih =>
    obtain ⟨hle, hall⟩ := ih (if y.2.lane < x.lane then y.2 else x)
    have hmin : (if y.2.lane < x.lane then y.2 else x).lane ≤ x.lane ∧ (if y.2.lane < x.lane then y.2 else x).lane ≤ y.2.lane := by
      split <;> omega
    exact ⟨Nat.le_trans hle hmin.1, List.forall_mem_cons.2 ⟨Nat.le_trans hle hmin.2, hall⟩⟩

theorem lowestMet_mem (x : Loc) (l : List (Nat × Loc)) : lowestMet x l = x ∨ ∃ y ∈ l, y.2 = lowestMet x l := by
  induction l generalizing x with
  | nil => exact .inl rfl
  | cons y r ih =>
    have hstep : lowestMet x (y :: r) = lowestMet (if y.2.lane < x.lane then y.2 else x) r := rfl
    rw [hstep]
    rcases ih (if y.2.lane < x.lane then y.2 else x) with h | ⟨z, hz, h⟩
    · rw [h]
      split
      · exact .inr ⟨y, List.mem_cons_self, rfl⟩
      · exact .inl rfl
    · exact .inr ⟨z, List.mem_cons_of_mem y hz, h⟩

end Sys2Proof.Machine
end

section
/-! An access of colours that the team does not hold (R146, R184, R205, R214): the gate, and the instructions that pass it. -/
namespace Sys2Proof.Machine
open State

/-! ### The colour stage (R146, R184, R205) -/

section
variable {v : State} {ls : List Loc} {c : Nat} {x : Loc} {r : List (Nat × Loc)} (hn : v.newColours ls = (c, x) :: r)
include hn

theorem colourStage_helper (hh : v.inHelper = true) (s : State) (w : Option Res) :
    v.colourStage s ls w = .raise (laneFlt .HCOLOUR x.va x.lane) := by
  simp only [colourStage, hn, hh, if_true]

theorem colourStage_full (hh : v.inHelper = false) (h16 : 16 < v.team.held.length + r.length + 1) (s : State) (w : Option Res) :
    v.colourStage s ls w = .raise (laneFlt .CHELD (lowestMet x ((c, x) :: r)).va (lowestMet x ((c, x) :: r)).lane) := by
  have hlen : v.team.held.length + (c :: r.map Prod.fst).length > 16 := by simp; omega
  simp only [colourStage, hn, hh, hlen, Bool.false_eq_true, if_false, if_true]
  rfl

theorem colourStage_below (hh : v.inHelper = false) (h16 : v.team.held.length + r.length + 1 ≤ 16) (h0 : v.team.held ≠ [])
    (ht : c < topColour v.team) (s : State) (w : Option Res) : v.colourStage s ls w = .raise (laneFlt .CORDER x.va x.lane) := by
  have hlen : ¬ v.team.held.length + (c :: r.map Prod.fst).length > 16 := by simp; omega
  have hord : (!v.team.held.isEmpty && decide (c < topColour v.team)) = true := by simp [h0, ht]
  simp only [colourStage, hn, hh, hlen, hord, Bool.false_eq_true, if_false, if_true]

theorem colourStage_acquires (hh : v.inHelper = false) (h16 : v.team.held.length + r.length + 1 ≤ 16)
    (ht : v.team.held = [] ∨ topColour v.team ≤ c) (s : State) :
    v.colourStage s ls none = if (s.acquireAll (c :: r.map Prod.fst)).1 then .go (s.acquireAll (c :: r.map Prod.fst)).2
      else .park (s.acquireAll (c :: r.map Prod.fst)).2 := by
  have hlen : ¬ v.team.held.length + (c :: r.map Prod.fst).length > 16 := by simp; omega
  have hord : (!v.team.held.isEmpty && decide (c < topColour v.team)) = false := by
    rcases ht with h | h
    · simp [h]
    · simp [h]
  simp only [colourStage, hn, hh, hlen, hord, Bool.false_eq_true, if_false]
  generalize s.acquireAll (c :: r.map Prod.fst) = p
  obtain ⟨b, t⟩ := p
  cases b <;> rfl

end

/-! ### The gate of an access of global memory (R161, R176, R184) -/

/-- What the colour stage's answer means to the access whose locations are `ls`. -/
def afterColours (ls : List Loc) : Gate → Entry?
  | .go s => .go s ls
  | .raise f => .res (.raise f)
  | .stop r => .res r
  | .park s => .res (.stay (s.modSplit fun x => { x with gated := some ls }))

/-- An access whose locations are in device memory, with no error response, passes to the colour stage. -/
theorem gate_colours {v : State} {acc : Access} {n : Nat} {aligned quiet : Bool} {lanes : List (Nat × Addr)} {ls : List Loc}
    (hg : v.split.gated = none) (hc : v.checkLanes .g acc n aligned quiet lanes = .ok ls) (hfree : ∀ y ∈ ls, y.hosts = [] ∧ y.drop = none)
    (s : State) (watch : List Loc → Option Res) :
    v.gate s .g acc n aligned quiet true lanes watch = afterColours ls (v.colourStage (s.noteSpans v ls) ls (watch ls)) := by
  have hhosts : (ls.find? fun x => !x.hosts.isEmpty) = none := List.find?_eq_none.2 fun y hy => by simp [(hfree y hy).1]
  have hdrop : (ls.filter fun x => x.drop.isNone) = ls := List.filter_eq_self.2 fun y hy => by simp [(hfree y hy).2]
  unfold gate
  simp only [hg, hc, hhosts, hdrop]
  cases v.colourStage (s.noteSpans v ls) ls (watch ls) <;> rfl

theorem noteSpans_noted (s v : State) (ls : List Loc) : Noted s (s.noteSpans v ls) := by
  unfold noteSpans
  generalize ls.flatMap Loc.spans = l
  induction l generalizing s with
  | nil => exact Noted.refl s
  | cons a r ih => exact (noteTlb_noted s _ _ _ _).trans (ih _)

/-- A location of global memory is no word of another (R166). -/
theorem checkLane_word {v : State} {acc : Access} {n l : Nat} {aligned : Bool} {va : Addr} {x : Loc}
    (h : v.checkLane .g acc n aligned l va = .ok x) : x.word = none := by
  unfold checkLane at h
  dsimp only at h
  split at h
  · cases h
  · split at h
    · cases h
    · split at h
      · cases h
      · split at h
        · cases h
        · exact (Except.ok.inj h) ▸ rfl

theorem checkLanes_word {v : State} {acc : Access} {n : Nat} {aligned quiet : Bool} {lanes : List (Nat × Addr)} {ls : List Loc}
    (h : v.checkLanes .g acc n aligned quiet lanes = .ok ls) : ∀ x ∈ ls, x.word = none := by
  induction lanes generalizing ls with
  | nil =>
    obtain rfl := Except.ok.inj h
    simp
  | cons a r ih =>
    obtain ⟨l, va⟩ := a
    unfold checkLanes at h
    split at h
    · split at h
      · split at h
        · rename_i hr
          obtain rfl := Except.ok.inj h
          exact List.forall_mem_cons.2 ⟨rfl, ih hr⟩
        · rename_i hr
          exact absurd h (hr _)
      · cases h
    · cases h
    · rename_i hx
      split at h
      · rename_i hr
        obtain rfl := Except.ok.inj h
        exact List.forall_mem_cons.2 ⟨checkLane_word hx, ih hr⟩
      · rename_i hr
        exact absurd h (hr _)

/-! ### The instructions that meet colours (R220, R229, R230) -/

/-- What an access that has passed its gate leaves, where `enter` is what it does then. -/
def afterGate (enter : List Loc → State → State) : Entry? → Res
  | .res r => r
  | .go s ls => .done (enter ls s)

def loadGroup (f : Fmt) (fl : Nat) (after : List Nat) : Group :=
  { kind := fun _ => .load, acq := f.x.rnd = .rz, sp := spaceOf f = .sp, flight := fl, after := after, dest := fun l => some (destOf f l) }

def loadEnter (f : Fmt) (fl : Nat) (v : State) (ls : List Loc) (s : State) : State :=
  waveSplit f fl v (putUnknown fl (awaited f) (enterAll (loadGroup f fl (s.waveLanes ls)) (inWords f ls) s))

def storeGroup (f : Fmt) (fl : Nat) (v : State) : Group :=
  { kind := fun _ => .store, rel := f.x.rnd = .rpi, sp := spaceOf f = .sp, flight := fl,
    data := fun l => leBytes (memSize f.x.ty) (dataBits f v f.d l) }

def atomicGroup (ret : Bool) (f : Fmt) (fl : Nat) (v : State) : Group :=
  { kind := fun x => .atomic (f.imm.toNat % 16) (atomTy f) (atomData f v x.lane) ret, acq := ret && (f.x.rnd = .rz || f.x.rnd = .rmi),
    rel := f.x.rnd = .rpi || f.x.rnd = .rmi, sp := spaceOf f = .sp, flight := fl, origin := v.split.pc,
    data := fun l => if f.imm.toNat % 16 = 7 then leBytes (memSize (atomTy f)) (dataBits f v f.d l) else [],
    dest := fun l => if ret then some { destOf f l with bits := 8 * memSize (atomTy f), tag := some (if atomTy f = .f32 then .f32 else .i32) }
      else none }

def atomicEnter (ret : Bool) (f : Fmt) (fl : Nat) (v : State) (ls : List Loc) (s : State) : State :=
  if ret then putUnknown fl (awaited f) (enterAll (atomicGroup ret f fl v) ls s) else enterAll (atomicGroup ret f fl v) ls s

/-- The watchpoints that the gate of an access looks at: those of a store (R318). -/
def watchOf (i : Instr) (f : Fmt) (v : State) : List Loc → Option Res :=
  match i with
  | .st _ => watchStore v (spaceOf f) (memSize f.x.ty)
  | _ => fun _ => none

/-- An instruction whose access meets colours: it passes the gate, and `enter` is what it does past it. -/
structure MeetsColours (i : Instr) (f : Fmt) (v : State) (a : AccessForm) (body : Nat → State → State → Res)
    (enter : Nat → List Loc → State → State) : Prop where
  runs   : ∀ s, exec i s = straight i f .later body s
  gates  : ∀ fl s, body fl v s = afterGate (enter fl) (v.gate s (spaceOf f) a.acc a.size true a.quiet true a.lanes (watchOf i f v))
  watch  : ∀ ls, (i = .st f → watchStore v (spaceOf f) a.size ls = none) → watchOf i f v ls = none
  enters : ∀ fl ls s, spaceOf f = .g → s.team.id = v.team.id → (∀ x ∈ ls, x.drop = none ∧ x.word = none) →
    Filed (ls.map (accessAsks i f v)) s (enter fl ls s)

theorem inWords_global {f : Fmt} (h : spaceOf f = .g) (ls : List Loc) : inWords f ls = ls := by
  simp [inWords, h]

theorem unpassed_of_fresh {v : State} (h : v.split.gated = none) (b : Bool) : v.unpassed b = b := by
  simp [unpassed, h]

theorem load_meets {f : Fmt} {v : State} {a : AccessForm} (hg : v.split.gated = none) (ha : accessForm (.ld f) f v = some a) :
    MeetsColours (.ld f) f v a (load f) (fun fl => loadEnter f fl v) := by
  unfold accessForm at ha
  dsimp only at ha
  split at ha
  · rename_i h
    rw [Bool.and_eq_true_iff, Bool.not_eq_true'] at h
    obtain ⟨hw, ht⟩ := h
    obtain rfl := Option.some.inj ha
    refine ⟨fun _ => rfl, fun fl s => ?_, fun ls _ => rfl, fun fl ls s hsp hid hls => ?_⟩
    · unfold load watchOf
      simp only [unpassed_of_fresh hg, hw, ht, Bool.not_true, Bool.false_eq_true, if_false]
      generalize v.gate s _ _ _ _ _ _ _ _ = e
      cases e <;> rfl
    · have hasks : ls.map ((loadGroup f fl (s.waveLanes ls)).asks s.team.id) = ls.map (accessAsks (.ld f) f v) := by
        refine List.map_congr_left fun x hx => ?_
        obtain ⟨-, hword⟩ := hls x hx
        simp [Group.asks, loadGroup, accessAsks, Loc.bytesOf, hid, hword]
      unfold loadEnter
      rw [inWords_global hsp, ← hasks]
      exact ((enterAll_filed fun x hx => (hls x hx).1).then_nil (putUnknown_filed _ _ _)).then_nil (waveSplit_filed _ _ _ _)
  · cases ha

theorem store_meets {f : Fmt} {v : State} {a : AccessForm} (hg : v.split.gated = none) (ha : accessForm (.st f) f v = some a) :
    MeetsColours (.st f) f v a (store f) (fun fl ls => enterAll (storeGroup f fl v) (inWords f ls)) := by
  unfold accessForm at ha
  dsimp only at ha
  split at ha
  · rename_i h
    obtain ⟨ht, hd⟩ := Bool.and_eq_true_iff.1 h
    obtain rfl := Option.some.inj ha
    refine ⟨fun _ => rfl, fun fl s => ?_, fun ls hw => hw rfl, fun fl ls s hsp hid hls => ?_⟩
    · unfold store watchOf
      simp only [unpassed_of_fresh hg, ht, hd, Bool.not_true, Bool.or_false, Bool.false_eq_true, if_false]
      generalize v.gate s _ _ _ _ _ _ _ _ = e
      cases e <;> rfl
    · have hasks : ls.map ((storeGroup f fl v).asks s.team.id) = ls.map (accessAsks (.st f) f v) :=
        List.map_congr_left fun x _ => by simp [Group.asks, storeGroup, accessAsks, hid]
      rw [inWords_global hsp, ← hasks]
      exact enterAll_filed fun x hx => (hls x hx).1
  · cases ha

theorem atomic_gates {ret : Bool} {f : Fmt} {v : State} (hg : v.split.gated = none) (hw : (ret && teamWide f v) = false)
    (ht : (addrTags f v && atomTags f v) = true) (fl : Nat) (s : State) :
    atomic ret f fl v s = afterGate (atomicEnter ret f fl v)
      (v.gate s (spaceOf f) .atomic (memSize (atomTy f)) true (!ret) true (accessLanes f.registerOffset v)) := by
  obtain ⟨ha, hd⟩ := Bool.and_eq_true_iff.1 ht
  unfold atomic
  simp only [unpassed_of_fresh hg, hw, ha, hd, Bool.not_true, Bool.or_false, Bool.false_eq_true, if_false]
  generalize v.gate s _ _ _ _ _ _ _ _ = e
  cases e <;> rfl

theorem atomicEnter_filed {ret : Bool} {f : Fmt} {fl : Nat} {v s : State} {ls : List Loc} (hls : ∀ x ∈ ls, x.drop = none ∧ x.word = none) :
    Filed (ls.map ((atomicGroup ret f fl v).asks s.team.id)) s (atomicEnter ret f fl v ls s) := by
  have h := enterAll_filed (g := atomicGroup ret f fl v) (s := s) fun x hx => (hls x hx).1
  unfold atomicEnter
  split
  · exact h.then_nil (putUnknown_filed _ _ _)
  · exact h

theorem atom_meets {f : Fmt} {v : State} {a : AccessForm} (hg : v.split.gated = none) (ha : accessForm (.atom f) f v = some a) :
    MeetsColours (.atom f) f v a (atomic true f) (fun fl => atomicEnter true f fl v) := by
  unfold accessForm at ha
  dsimp only at ha
  split at ha
  · rename_i h
    rw [Bool.and_assoc, Bool.and_eq_true_iff, Bool.not_eq_true'] at h
    obtain ⟨hw, ht⟩ := h
    obtain rfl := Option.some.inj ha
    refine ⟨fun _ => rfl, atomic_gates hg hw ht, fun ls _ => rfl, fun fl ls s hsp hid hls => ?_⟩
    have hasks : ls.map ((atomicGroup true f fl v).asks s.team.id) = ls.map (accessAsks (.atom f) f v) := by
      refine List.map_congr_left fun x hx => ?_
      obtain ⟨-, hword⟩ := hls x hx
      simp [Group.asks, atomicGroup, accessAsks, Loc.bytesOf, Loc.destOf, hid, hword]
    rw [← hasks]
    exact atomicEnter_filed hls
  · cases ha

theorem red_meets {f : Fmt} {v : State} {a : AccessForm} (hg : v.split.gated = none) (ha : accessForm (.red f) f v = some a) :
    MeetsColours (.red f) f v a (atomic false f) (fun fl => atomicEnter false f fl v) := by
  unfold accessForm at ha
  dsimp only at ha
  split at ha
  · rename_i ht
    obtain rfl := Option.some.inj ha
    refine ⟨fun _ => rfl, atomic_gates hg rfl ht, fun ls _ => rfl, fun fl ls s hsp hid hls => ?_⟩
    have hasks : ls.map ((atomicGroup false f fl v).asks s.team.id) = ls.map (accessAsks (.red f) f v) := by
      refine List.map_congr_left fun x hx => ?_
      obtain ⟨-, hword⟩ := hls x hx
      simp [Group.asks, atomicGroup, accessAsks, Loc.bytesOf, hid, hword]
    rw [← hasks]
    exact atomicEnter_filed hls
  · cases ha

/-- Loads, stores and atomics are the accesses that meet colours. -/
theorem meetsColours_of_form {i : Instr} {f : Fmt} {v : State} {a : AccessForm} (hi : i.fmt? = some f) (hg : v.split.gated = none)
    (ha : accessForm i f v = some a) (hc : a.colours = true) : ∃ body enter, MeetsColours i f v a body enter := by
  have ha' := ha
  unfold accessForm at ha
  dsimp only at ha
  split at ha
  case h_1 g => obtain rfl : g = f := Option.some.inj hi; exact ⟨_, _, load_meets hg ha'⟩
  case h_2 g => obtain rfl : g = f := Option.some.inj hi; exact ⟨_, _, store_meets hg ha'⟩
  case h_5 g => obtain rfl : g = f := Option.some.inj hi; exact ⟨_, _, atom_meets hg ha'⟩
  case h_6 g => obtain rfl : g = f := Option.some.inj hi; exact ⟨_, _, red_meets hg ha'⟩
  case h_3 | h_4 =>
    split at ha
    · obtain rfl := Option.some.inj ha
      cases hc
    · cases ha
  case h_7 => cases ha

/-! ### The team before and after it takes the colours -/

/-- The executing team has issued its access and taken the colours `ds`; the access has not entered yet. -/
structure Acquired (f : Fmt) (ds : List Nat) (s t : State) : Prop where
  mem     : t.mem = s.mem
  team    : t.team = { s.team with c := t.team.c, flights := t.team.flights, tctl := t.team.tctl, retired := t.team.retired,
                                   held := s.team.held ++ ds.map fun d => (d, s.team.fdepth) }
  pc      : t.split.pc = s.split.pc + BitVec.ofNat 64 f.len.bytes
  regs    : RegistersKept [] s t
  entries : t.entries.map Entry.asks = s.entries.map Entry.asks ++ ds.map (acquireAsks s.team.id)
  holder  : ∀ d ∈ ds, (t.monitor d).holder = some s.team.id
  other   : ∀ d, d ∉ ds → t.monitor d = s.monitor d

/-- `t` differs from the state `s` before an issue by that issue and by the translations that it has noted. -/
structure Begun (f : Fmt) (s t : State) : Prop where
  mem     : t.mem = s.mem
  ctxs    : t.ctxs = s.ctxs
  entries : t.entries = s.entries
  team    : s.team.IssuedFrom t.team
  pc      : t.split.pc = s.split.pc + BitVec.ofNat 64 f.len.bytes
  regs    : RegistersKept [] s t

theorem launch_begun (f : Fmt) (u : Uses) (s v : State) (ls : List Loc) :
    Begun f s ((launch f u .later false s).2.noteSpans v ls) := by
  have hu := launch_stepped f u .later s
  have ht := launch_team f u .later false s
  generalize (launch f u .later false s).2 = t at hu ht
  have hw := noteSpans_noted t v ls
  have hr := hw.filed.regs
  unfold Noted at hw
  refine ⟨?_, ?_, ?_, ?_, ?_, hu.regs.trans hr⟩
  · rw [hw, hu.rest]
  · rw [hw, hu.rest]
  · rw [hw, hu.rest]
  · rw [hw]; exact ht
  · rw [hw, hu.split]

theorem Begun.monitor {f : Fmt} {s t : State} (h : Begun f s t) (d : Nat) : t.monitor d = s.monitor d := by
  have ht := h.team
  unfold Team.IssuedFrom at ht
  rw [State.monitor, State.monitor, ctx, ctx, h.ctxs, ht]

theorem Begun.colourFree {f : Fmt} {s t : State} (h : Begun f s t) (d : Nat) : t.colourFree d = s.colourFree d := by
  rw [colourFree_eq, colourFree_eq, h.monitor]

theorem Begun.acquired {f : Fmt} {ds : List Nat} {s t u : State} (h : Begun f s t) (h' : Taken ds t u) : Acquired f ds s u := by
  have ht := h.team
  unfold Team.IssuedFrom at ht
  have hid : t.team.id = s.team.id := by rw [ht]
  refine ⟨?_, ?_, ?_, (h.regs.trans (ws' := []) (RegistersKept.of_eq _ ?_)), ?_, fun d hd => ?_, fun d hd => ?_⟩
  · rw [h'.rest]; exact h.mem
  · rw [h'.team, ht]
  · rw [h'.split]; exact h.pc
  · rw [h'.team, h'.split]; exact ⟨rfl, rfl, rfl, rfl, rfl, rfl, rfl, rfl, rfl, rfl⟩
  · rw [h'.entries, h.entries, hid]
  · rw [h'.holder d hd, hid]
  · rw [h'.other d hd, h.monitor]

/-- The team holds the colours `ds` besides those that it held. -/
def HoldsBesides (ds : List Nat) (s t : State) : Prop :=
  t.team.held = s.team.held ++ ds.map (fun d => (d, s.team.fdepth)) ∧
    ∀ d ∈ ds, ((t.ctx s.team.ctx).monitors.get {} d).holder = some s.team.id

/-- The access has entered behind the acquires. -/
theorem Acquired.files {f : Fmt} {ds : List Nat} {es : List Asks} {s t u : State} (h : Acquired f ds s t) (h' : Filed es t u) :
    HoldsBesides ds s u ∧ RegistersKept [] s u ∧ (∀ k, u.byte k = s.byte k) ∧ u.split.pc = s.split.pc + BitVec.ofNat 64 f.len.bytes ∧
      u.entries.map Entry.asks = s.entries.map Entry.asks ++ ds.map (acquireAsks s.team.id) ++ es := by
  have hmem : u.mem = s.mem := by rw [h'.rest]; exact h.mem
  have hctx : u.ctxs = t.ctxs := by rw [h'.rest]
  have hteam : t.team.ctx = s.team.ctx := by rw [h.team]
  refine ⟨⟨?_, fun d hd => ?_⟩, h.regs.trans h'.regs, fun k => by rw [byte, byte, hmem], h'.pc.trans h.pc, by rw [h'.entries, h.entries]⟩
  · rw [h'.team, h.team]
  · rw [ctx, hctx, ← hteam]
    exact h.holder d hd

/-- A park leaves everything but the split, and where its team fetches no more. -/
theorem parkHere_eq (s : State) (p : Park) :
    s.parkHere p = { s with team := { s.team with fetchOff := (s.parkHere p).team.fetchOff },
                            split := { s.split with park := p, buffer := false } } := by
  unfold parkHere
  dsimp only
  split <;> rfl

theorem awaitColour_eq (d : Nat) (post : List Nat) (s : State) :
    awaitColour d post s = { s with team := { s.team with fetchOff := (awaitColour d post s).team.fetchOff },
                                    split := { s.split with park := .colour (d :: post), buffer := false },
                                    ctxs := (awaitColour d post s).ctxs } := by
  unfold awaitColour
  rw [parkHere_eq]
  rfl

theorem monitor_awaitColour (d : Nat) (post : List Nat) (s : State) (c : Nat) :
    (awaitColour d post s).monitor c =
      if d = c then { s.monitor d with entry := (s.monitor d).entry ++ [s.team.id] } else s.monitor c := by
  unfold awaitColour monitor
  rw [parkHere_eq]
  simp [ctx, modCtx, SMap.get_set]

/-- A withdrawn instruction leaves its park, what its split waits for and what it has entered; its flight has ended. -/
theorem withdrawIssue_team (s0 s : State) (fl : Nat) : ∃ c flights, (withdrawIssue s0 s fl).team =
    { s.team with c := c, flights := flights, retired := s0.team.retired, tctl := s0.team.tctl } := by
  refine ⟨(endFlight s.team fl).c, (endFlight s.team fl).flights, ?_⟩
  show { endFlight s.team fl with retired := s0.team.retired, tctl := s0.team.tctl } = _
  rw [endFlight_flights]

/-- The team waits for colour `d`, and its instruction is withdrawn. -/
theorem Acquired.awaits {f : Fmt} {pre : List Nat} {s t : State} (h : Acquired f pre s t) {d : Nat} (hd : d ∉ pre) (post : List Nat)
    (ls : List Loc) (fl : Nat) :
    let u := withdrawIssue s ((awaitColour d post t).modSplit fun x => { x with gated := some ls }) fl
    ParkedAt (.colour (d :: post)) s u ∧ HoldsBesides pre s u ∧ u.split.gated = some ls ∧
      u.entries.map Entry.asks = s.entries.map Entry.asks ++ pre.map (acquireAsks s.team.id) ∧ (∀ k, u.byte k = s.byte k) ∧
      ((u.ctx s.team.ctx).monitors.get {} d).entry = ((s.ctx s.team.ctx).monitors.get {} d).entry ++ [s.team.id] := by
  have hw := awaitColour_eq d post t
  have hm := monitor_awaitColour d post t
  generalize awaitColour d post t = w at hw hm
  obtain ⟨c, flights, hteam⟩ := withdrawIssue_team s (w.modSplit fun x => { x with gated := some ls }) fl
  have hwt : w.team = { t.team with fetchOff := w.team.fetchOff } := by rw [hw]
  have ht := h.team
  rw [ht] at hwt
  have hid : t.team.id = s.team.id := by rw [ht]
  have hmon (c : Nat) : (w.ctx s.team.ctx).monitors.get {} c = w.monitor c := by rw [monitor, hwt]
  generalize hu : withdrawIssue s (w.modSplit fun x => { x with gated := some ls }) fl = u at hteam
  have hctx : u.ctx s.team.ctx = w.ctx s.team.ctx := by rw [← hu]; rfl
  have hsplit : u.split = { s.split with park := w.split.park, buffer := w.split.buffer, older := w.split.older, gated := some ls } := by
    rw [← hu]; rfl
  have hut : u.team = { w.team with c := c, flights := flights, retired := s.team.retired, tctl := s.team.tctl } := hteam
  rw [hwt] at hut
  refine ⟨⟨?_, ?_, ?_, RegistersKept.of_eq _ ?_, ?_⟩, ⟨?_, fun y hy => ?_⟩, ?_, ?_, fun k => ?_, ?_⟩
  · rw [hsplit, hw]
  · rw [hsplit]
  · rw [hsplit]
  · rw [hut, hsplit]; exact ⟨rfl, rfl, rfl, rfl, rfl, rfl, rfl, rfl, rfl, rfl⟩
  · rw [hut]
  · rw [hut]
  · rw [hctx, hmon, hm, if_neg (ne_of_mem_of_not_mem hy hd).symm, h.holder y hy]
  · rw [hsplit]
  · have hent : u.entries = t.entries := by rw [← hu]; show w.entries = _; rw [hw]
    rw [hent, h.entries]
  · have hmem : u.mem = s.mem := by rw [← hu]; show w.mem = _; rw [hw]; exact h.mem
    rw [byte, byte, hmem]
  · rw [hctx, hmon, hm, if_pos rfl, hid, h.other d hd]
    rfl

/-! ### The instruction -/

/-- What a view of the registers leaves of the state: what the colour stage reads of its team. -/
theorem FilesOnly.colour_reads {s v : State} (h : FilesOnly s v) :
    v.inHelper = s.inHelper ∧ v.team.held = s.team.held ∧ topColour v.team = topColour s.team ∧ v.split.gated = s.split.gated := by
  unfold FilesOnly at h
  rw [h]
  exact ⟨rfl, rfl, rfl, rfl⟩

section
variable {i : Instr} {f : Fmt} {s : State} {a : AccessForm} {ls : List Loc} {body : Nat → State → State → Res}
  {enter : Nat → List Loc → State → State} (h : Acts i f s) (hm : MeetsColours i f (s.seen i f) a body enter)
  (hsp : spaceOf f = .g) (hg : s.split.gated = none) (hc : (s.seen i f).checkLanes .g a.acc a.size true a.quiet a.lanes = .ok ls)
  (hfree : ∀ y ∈ ls, y.hosts = [] ∧ y.drop = none)
include hm hsp hg hc hfree

/-- What the body of the access answers, by the answer of the colour stage. -/
theorem MeetsColours.body_eq (fl : Nat) (t : State) : body fl (s.seen i f) t =
    afterGate (enter fl) (afterColours ls ((s.seen i f).colourStage (t.noteSpans (s.seen i f) ls) ls (watchOf i f (s.seen i f) ls))) := by
  obtain ⟨-, -, -, hgated⟩ := (seen_files s i f).colour_reads
  rw [hm.gates, hsp, gate_colours (hgated.trans hg) hc hfree]

include h

/-- A fault of the colour stage is the instruction's. -/
theorem MeetsColours.raises {x : Flt} (hx : ∀ t w, (s.seen i f).colourStage t ls w = .raise x) : exec i s = .next (s.takeFault x) := by
  rw [hm.runs]
  refine straight_raise h .later x body fun fl t => ?_
  rw [hm.body_eq hsp hg hc hfree, hx]
  rfl

variable {ds : List Nat} (hwatch : watchOf i f (s.seen i f) ls = none)
  (hstage : ∀ t, (s.seen i f).colourStage t ls none = if (t.acquireAll ds).1 then .go (t.acquireAll ds).2 else .park (t.acquireAll ds).2)
include hwatch hstage

/-- A team that can take every colour takes them, and its access enters behind the acquires. -/
theorem MeetsColours.enters_behind (hn : ds.Nodup) (hfc : ∀ d ∈ ds, s.colourFree d = true) :
    ∃ t, exec i s = .next t ∧ HoldsBesides ds s t ∧ RegistersKept [] s t ∧ (∀ k, t.byte k = s.byte k) ∧
      t.split.pc = s.split.pc + BitVec.ofNat 64 f.len.bytes ∧
      t.entries.map Entry.asks = s.entries.map Entry.asks ++ ds.map (acquireAsks s.team.id) ++ ls.map (accessAsks i f (s.seen i f)) := by
  have he := issue_acts h .later false body
  have hb := launch_begun f (usesOf i) s (s.seen i f) ls
  rw [hm.body_eq hsp hg hc hfree, hwatch, hstage] at he
  generalize (launch f (usesOf i) .later false s).2.noteSpans (s.seen i f) ls = w at he hb
  obtain ⟨x, hx, hacq⟩ := acquireAll_free hn fun d hd => (hb.colourFree d).trans (hfc d hd)
  rw [hacq] at he
  have hid : x.team.id = (s.seen i f).team.id := by rw [(hb.acquired hx).team, (seen_files s i f).team_id]
  have hword := checkLanes_word hc
  have hf := hm.enters (launch f (usesOf i) .later false s).1 ls x hsp hid fun y hy => ⟨(hfree y hy).2, hword y hy⟩
  refine ⟨_, (hm.runs s).trans he, (hb.acquired hx).files (hf.then_nil ?_)⟩
  rw [bumpFree_eq]
  exact free_filed _ _

/-- At the first colour that is not free the team parks, with the colours before it taken. -/
theorem MeetsColours.parks {pre post : List Nat} {d : Nat} (hds : ds = pre ++ d :: post) (hn : pre.Nodup)
    (hfc : ∀ y ∈ pre, s.colourFree y = true) (hd : s.colourFree d = false) :
    ∃ t, exec i s = .next t ∧ ParkedAt (.colour (d :: post)) s t ∧ HoldsBesides pre s t ∧ t.split.gated = some ls ∧
      t.entries.map Entry.asks = s.entries.map Entry.asks ++ pre.map (acquireAsks s.team.id) ∧ (∀ k, t.byte k = s.byte k) ∧
      ((t.ctx s.team.ctx).monitors.get {} d).entry = ((s.ctx s.team.ctx).monitors.get {} d).entry ++ [s.team.id] := by
  have he := issue_acts h .later false body
  have hb := launch_begun f (usesOf i) s (s.seen i f) ls
  rw [hm.body_eq hsp hg hc hfree, hwatch, hstage] at he
  generalize (launch f (usesOf i) .later false s).2.noteSpans (s.seen i f) ls = w at he hb
  obtain ⟨x, hx, hacq⟩ := acquireAll_waits (post := post) hn (fun y hy => (hb.colourFree y).trans (hfc y hy)) ((hb.colourFree d).trans hd)
  rw [hds, hacq] at he
  have hpre : d ∉ pre := fun hm => ne_false_of_eq_true (hfc d hm) hd
  exact ⟨_, (hm.runs s).trans he, (hb.acquired hx).awaits hpre post ls _⟩

end

/-- Settles O38: the colour stage answers the faults in the order of its branches; else `acquireAll` takes the free colours at the head of
those that are sought, which are all different (`nodup_newColours`). -/
theorem colourStage : Obligations.ColourStage := by
  intro i f s a ls c x r h
  dsimp only
  intro ha hcol hsp hg hc hfree hnew
  obtain ⟨hhelp, hheld, htop, hgated⟩ := (seen_files s i f).colour_reads
  obtain ⟨body, enter, hm⟩ := meetsColours_of_form h.fields (hgated.trans hg) ha hcol
  rw [hsp] at hc
  have hn : (c :: r.map Prod.fst).Nodup := by
    have hnodup := nodup_newColours (s.seen i f) ls
    rwa [hnew] at hnodup
  rw [← hhelp, ← hheld, ← htop]
  refine ⟨fun hh => ?_, fun hh h16 => ?_, fun hh h16 h0 ht => ?_, fun hh h16 ht hw => ?_⟩
  · exact hm.raises h hsp hg hc hfree (colourStage_helper hnew hh)
  · have hraise := hm.raises h hsp hg hc hfree (colourStage_full hnew hh h16)
    obtain ⟨-, hlow⟩ := lowestMet_le x ((c, x) :: r)
    rcases lowestMet_mem x ((c, x) :: r) with he | ⟨y, hy, he⟩
    · rw [he] at hraise hlow
      exact ⟨(c, x), List.mem_cons_self, hlow, hraise⟩
    · rw [← he] at hraise hlow
      exact ⟨y, hy, hlow, hraise⟩
  · exact hm.raises h hsp hg hc hfree (colourStage_below hnew hh h16 h0 ht)
  · have hwatch := hm.watch ls hw
    have hstage := colourStage_acquires hnew hh h16 ht
    rw [hheld]
    refine ⟨fun pre d post hds hfc hd => ?_, fun hfc => ?_⟩
    · exact hm.parks h hsp hg hc hfree hwatch hstage hds (List.nodup_append.1 (hds ▸ hn)).1 hfc hd
    · exact hm.enters_behind h hsp hg hc hfree hwatch hstage hn hfc

end Sys2Proof.Machine
end

section
/-! Two flights of one serial number (R46, R47): the states that refute O47 and O48. -/
namespace Sys2Proof.Machine

/-! ### A team one of whose flights has the number that the next flight takes

`hwait`, `hred` and `segred` end their own flight by its number (`endFlight`), and ending a flight lowers the flag that the flight raised.
Where an earlier flight of the team has that number already, it is the one that is found: an instruction that names no completion flag
lowers the flag of the earlier flight, which `Stepped` excludes. The device takes its serial numbers from `State.nextId` and takes none twice;
the statements have no hypothesis that says so. -/
namespace FlightTwice

/-- A team with a flight of number 16, which has raised completion flag 3. -/
def team : Team := { id := 3, n := 4, live := 0xF, blocks := 1, flights := [{ id := 16, sig := some 3, left := 1 }], c := [(3, 1)] }

/-- The device is about to give the number 16 again; the team's whole live mask executes. -/
def device : State := { phase := 5, nextId := 16, team := team, split := { id := 4, mask := 0xF } }

/-- Completion flag 3 of the executing team, where an outcome is a next state. -/
def flag3 : Host.Outcome State Fault Refusal → Option Nat
  | .next t => some (t.team.c.get 0 3)
  | _ => none

/-- An instruction that leaves flag 3 at 0 has not only stepped, whatever of its team's other fields it changes besides. -/
theorem not_stepped {i : Instr} {f : Fmt} {s t u : State} {ws : List Reg} (hs : s.team.c = team.c) (hf : f.sig = 15)
    (hflag : flag3 (exec i s) = some 0) (he : exec i s = .next t) (hc : t.team.c = u.team.c) : ¬ Stepped f ws s u := by
  intro h
  have hkept := h.flags 3 (by rw [hf]; decide)
  rw [he, flag3, hc, hkept, hs] at hflag
  exact absurd hflag (by decide)

/-! #### `hwait` of a team without a recruitment -/

def hwaitFmt : Fmt := { cls := .uni, len := .l64, d := 3 }

theorem hwait_acts : Acts (.hwait hwaitFmt) hwaitFmt device := ⟨⟨rfl, by decide +kernel⟩, by decide +kernel⟩

theorem hwait_lowers_flag3 : flag3 (exec (.hwait hwaitFmt) device) = some 0 := by decide +kernel

/-! #### `segred` in an open expansion -/

def segredFmt : Fmt := { cls := .var, len := .l64, d := 5, a := 1 }

/-- An expansion of the four lanes, each of which owns two iterations; wave 0 is open. -/
def opened : Expansion :=
  { w := 4, workers := 0xF, total := 8, next := 1, current := some 0,
    owners := (List.range 4).map fun l => { lane := l, start := 100, base := 2 * l, len := 2 } }

/-- The team has it open; its source and destination registers hold numbers. -/
def expanding : State := { device with team := { team with tags := [(1, .i32), (5, .i32)], expand := some opened } }

theorem segred_acts : Acts (.segred segredFmt) segredFmt expanding := ⟨⟨rfl, by decide +kernel⟩, by decide +kernel⟩

theorem segred_lowers_flag3 : flag3 (exec (.segred segredFmt) expanding) = some 0 := by decide +kernel

end FlightTwice

/-- A change of the owning team that leaves the completion flags leaves the executing team's. -/
theorem modOwner_flags {g : Team → Team} (hg : ∀ t, (g t).c = t.c) (s : State) : (s.modOwner g).team.c = s.team.c := by
  unfold State.modOwner State.modTeamId
  split
  · exact hg s.team
  all_goals
    split
    · exact hg s.team
    · rfl

open FlightTwice in
/-- Refutes O47: `hwait` of a team without a recruitment lowers completion flag 3 in `FlightTwice.device`, while the statement has it write
uniform predicate d alone. -/
theorem not_recruitment : ¬ Obligations.Recruitment := by
  unfold Obligations.Recruitment
  rintro ⟨-, -, -, -, hhwait, -⟩
  obtain ⟨-, hnone, -⟩ := hhwait hwaitFmt device hwait_acts
  obtain ⟨t, he, hstepped, -⟩ := hnone (by decide +kernel) rfl
  exact not_stepped rfl rfl hwait_lowers_flag3 he rfl hstepped

open FlightTwice in
/-- Refutes O48: `segred` ends a flight that is not its own in `FlightTwice.expanding` and so lowers completion flag 3, while the statement has
it change the expansion alone. -/
theorem not_expansions : ¬ Obligations.Expansions := by
  unfold Obligations.Expansions
  rintro ⟨-, -, -, hsegred, -⟩
  obtain ⟨u, n, hstepped, he⟩ :=
    hsegred segredFmt expanding opened 0 segred_acts rfl rfl (by decide +kernel) (by decide +kernel) (by decide +kernel)
  refine not_stepped rfl rfl segred_lowers_flag3 he ?_ hstepped
  exact modOwner_flags (g := fun t => { t with expand := t.expand.map _ }) (fun _ => rfl) u

end Sys2Proof.Machine
end

section
/-! The colour instructions, the monitors and `watch` (R183, R193 to R197). -/
namespace Sys2Proof.Machine
open State

/-! ### Straight instructions -/

theorem Awaits.bump {f : Fmt} {xs : List Landing} {s t : State} (h : Awaits f xs s t) (n : Nat) : Awaits f xs s { t with free := n } :=
  ⟨h.toStepped.bump n, h.result⟩

/-- A straight instruction of variable latency whose body puts known results on their way, and does nothing else. -/
theorem straight_awaits {i : Instr} {f : Fmt} {s : State} (h : Acts i f s) (body : Nat → State → State → Res) {xs : List Landing}
    (he : exec i s = straight i f .later body s) (hb : ∀ fl t, body fl (s.seen i f) t = .done (putLater fl xs t)) :
    ∃ t, exec i s = .next t ∧ Awaits f xs s t := by
  obtain ⟨u, n, hu, hn⟩ := straight_performsAwaiting (op := id) h body he (hb _ _)
  exact ⟨_, hn, hu.bump n⟩

/-- A straight instruction whose body does `op` to the state that its issue leaves performs it. -/
theorem straight_performs_issued {i : Instr} {f : Fmt} {s : State} (h : Acts i f s) (lat : Lat) (body : Nat → State → State → Res)
    (op : State → State) (he : exec i s = straight i f lat body s)
    (hb : body (launch f (usesOf i) lat false s).1 (s.seen i f) (launch f (usesOf i) lat false s).2 =
      .done (op (launch f (usesOf i) lat false s).2)) : Performs i f s op := by
  obtain ⟨n, hn⟩ : ∃ n, straight i f lat body s = .next { op (launch f (usesOf i) lat false s).2 with free := n } :=
    ⟨_, (issue_acts h lat false body).trans (by rw [hb]; exact congrArg Host.Outcome.next (bumpFree_eq _ _ _ _ _ _))⟩
  exact ⟨_, n, launch_stepped f (usesOf i) lat s, he.trans hn⟩

/-- A straight instruction whose body tries again later has not issued: its team is parked, stalled. -/
theorem straight_stalls {i : Instr} {f : Fmt} {s : State} (h : Acts i f s) (lat : Lat) (body : Nat → State → State → Res)
    (he : exec i s = straight i f lat body s) (hb : ∀ fl t, body fl (s.seen i f) t = again t) :
    ∃ t, exec i s = .next t ∧ ParkedAt .stalled s t := by
  have hi := issue_acts h lat false body
  have ht := launch_team f (usesOf i) lat false s
  rw [hb, again] at hi
  generalize (launch f (usesOf i) lat false s).2 = u at hi ht
  obtain ⟨c, flights, hw⟩ := withdrawIssue_team s (u.modSplit fun x => { x with park := .stalled, buffer := false })
    (launch f (usesOf i) lat false s).1
  have hteam : (u.modSplit fun x => { x with park := .stalled, buffer := false }).team = u.team := rfl
  unfold Team.IssuedFrom at ht
  rw [hteam, ht] at hw
  refine ⟨_, he.trans hi, rfl, rfl, rfl, RegistersKept.of_eq _ ?_, ?_⟩
  · rw [hw]; exact ⟨rfl, rfl, rfl, rfl, rfl, rfl, rfl, rfl, rfl, rfl⟩
  · rw [hw]

/-! ### What an instruction sees of the colours -/

theorem FilesOnly.monitor_reads {s v : State} (h : FilesOnly s v) :
    v.team.ctx = s.team.ctx ∧ (∀ n, v.ctx n = s.ctx n) ∧ (∀ c, holdsColour v.team c = holdsColour s.team c) ∧
    (∀ c, v.colourFree c = s.colourFree c) := by
  unfold FilesOnly at h
  rw [h]
  exact ⟨rfl, fun _ => rfl, fun _ => rfl, fun _ => rfl⟩

/-- The issue of an instruction leaves the contexts. -/
theorem launch_ctx (f : Fmt) (u : Uses) (lat : Lat) (ends : Bool) (s : State) (n : Nat) : (launch f u lat ends s).2.ctx n = s.ctx n :=
  congrArg (fun m : SMap Ctx => m.get {} n) (launch_clocks f u lat ends s).1

/-- Results on their way and a change of a context do not meet. -/
theorem putLater_modCtx (fl n : Nat) (xs : List Landing) (g : Ctx → Ctx) (s : State) :
    putLater fl xs (s.modCtx n g) = (putLater fl xs s).modCtx n g := rfl

/-- A change of a context is known by what it does to that context. -/
theorem modCtx_congr {s : State} {n : Nat} {g g' : Ctx → Ctx} (h : g (s.ctx n) = g' (s.ctx n)) : s.modCtx n g = s.modCtx n g' := by
  unfold modCtx
  rw [h]

/-! ### `tint` and `untint` (R193, R194) -/

/-- What `tint` and `untint` have in common: their checks, the answer where something stands in their way, and else the change. -/
def rangeBody (f : Fmt) (strange : Bool) (change : State → State) (fl : Nat) (v s : State) : Res :=
  if v.diverged then .raise (wholeFlt .UDIV)
  else match rangeFault (v.readD f.a.toNat) (v.readS f.b.toNat).toNat with
    | some x => .raise x
    | none => if strange then .done (putLater fl [.bit f.d.toNat false] s) else .done (putLater fl [.bit f.d.toNat true] (change s))

theorem tintBody_eq (f : Fmt) (fl : Nat) (v s : State) :
    let base := (v.readD f.a.toNat).toNat
    let n := (v.readS f.b.toNat).toNat
    let c := (v.readS f.x.c.toNat).toNat % 65536
    let rs := (v.ctx v.team.ctx).ranges
    tintBody f fl v s = rangeBody f (n = 0 || c = 0 || (rs.any fun r => r.meets base n) || 1024 ≤ rs.length)
      (fun s => s.modCtx v.team.ctx fun x => { x with ranges := x.ranges ++ [{ base := base, len := n, colour := c }] }) fl v s := rfl

theorem untintBody_eq (f : Fmt) (fl : Nat) (v s : State) :
    let base := (v.readD f.a.toNat).toNat
    let n := (v.readS f.b.toNat).toNat
    let rs := (v.ctx v.team.ctx).ranges
    untintBody f fl v s = rangeBody f (rs.any fun r => r.meets base n && !r.within base n)
      (fun s => s.modCtx v.team.ctx fun x => { x with ranges := x.ranges.filter fun r => !r.within base n }) fl v s := rfl

/-- What an instruction with such a body does, where `P` says that something stands in its way and `op` is its change. -/
theorem rangeBody_law {i : Instr} {f : Fmt} {s : State} (h : Acts i f s) (body : Nat → State → State → Res) {strange : Bool}
    {change op : State → State} {P : Prop} (he : exec i s = straight i f .later body s)
    (hb : ∀ fl t, body fl (s.seen i f) t = rangeBody f strange change fl (s.seen i f) t) (hP : strange = true ↔ P)
    (hop : ∀ fl xs t, (∀ n, t.ctx n = s.ctx n) → putLater fl xs (change t) = op (putLater fl xs t)) :
    let v := s.seen i f
    let base := v.readD f.a.toNat
    let n := (v.readS f.b.toNat).toNat
    (v.diverged = true → exec i s = .next (s.takeFault (wholeFlt .UDIV))) ∧
    (∀ x, v.diverged = false → rangeFault base n = some x → exec i s = .next (s.takeFault x)) ∧
    (v.diverged = false → rangeFault base n = none → P → ∃ t, exec i s = .next t ∧ Awaits f [.bit f.d.toNat false] s t) ∧
    (v.diverged = false → rangeFault base n = none → ¬ P → PerformsAwaiting i f s [.bit f.d.toNat true] op) := by
  refine ⟨fun hd => ?_, fun x hd hx => ?_, fun hd hx hp => ?_, fun hd hx hp => ?_⟩
  · exact he.trans (straight_raise h .later _ body fun fl t => (hb fl t).trans (if_pos hd))
  · refine he.trans (straight_raise h .later _ body fun fl t => (hb fl t).trans ?_)
    simp [rangeBody, hd, hx]
  · refine straight_awaits h body he fun fl t => (hb fl t).trans ?_
    simp [rangeBody, hd, hx, hP.2 hp]
  · have hs : strange = false := eq_false_of_ne_true (mt hP.1 hp)
    refine straight_performsAwaiting h body he ((hb _ _).trans ?_)
    simp [rangeBody, hd, hx, hs, hop _ _ _ (launch_ctx f (usesOf i) .later false s)]

theorem tint_law {f : Fmt} {s : State} (h : Acts (.tint f) f s) :
    let v := s.seen (.tint f) f
    let base := v.readD f.a.toNat
    let n := (v.readS f.b.toNat).toNat
    let c := (v.readS f.x.c.toNat).toNat % 65536
    let rs := (s.ctx s.team.ctx).ranges
    let strange := n = 0 ∨ c = 0 ∨ (∃ r ∈ rs, r.meets base.toNat n = true) ∨ 1024 ≤ rs.length
    (v.diverged = true → exec (.tint f) s = .next (s.takeFault (wholeFlt .UDIV))) ∧
    (∀ x, v.diverged = false → rangeFault base n = some x → exec (.tint f) s = .next (s.takeFault x)) ∧
    (v.diverged = false → rangeFault base n = none → strange →
      ∃ t, exec (.tint f) s = .next t ∧ Awaits f [.bit f.d.toNat false] s t) ∧
    (v.diverged = false → rangeFault base n = none → ¬ strange → PerformsAwaiting (.tint f) f s [.bit f.d.toNat true] fun u =>
      u.modCtx s.team.ctx fun x => { x with ranges := rs ++ [{ base := base.toNat, len := n, colour := c }] }) := by
  obtain ⟨hcx, hctx, -⟩ := (seen_files s (.tint f) f).monitor_reads
  refine rangeBody_law h (tintBody f) rfl (fun fl t => tintBody_eq f fl _ t) ?_ fun fl xs t ht => ?_
  · rw [hctx, hcx]
    simp [or_assoc]
  · rw [hcx, putLater_modCtx]
    refine modCtx_congr ?_
    rw [show (putLater fl xs t).ctx s.team.ctx = s.ctx s.team.ctx from ht _]

theorem untint_law {f : Fmt} {s : State} (h : Acts (.untint f) f s) :
    let v := s.seen (.untint f) f
    let base := v.readD f.a.toNat
    let n := (v.readS f.b.toNat).toNat
    let rs := (s.ctx s.team.ctx).ranges
    let strange := ∃ r ∈ rs, r.meets base.toNat n = true ∧ r.within base.toNat n = false
    (v.diverged = true → exec (.untint f) s = .next (s.takeFault (wholeFlt .UDIV))) ∧
    (∀ x, v.diverged = false → rangeFault base n = some x → exec (.untint f) s = .next (s.takeFault x)) ∧
    (v.diverged = false → rangeFault base n = none → strange →
      ∃ t, exec (.untint f) s = .next t ∧ Awaits f [.bit f.d.toNat false] s t) ∧
    (v.diverged = false → rangeFault base n = none → ¬ strange → PerformsAwaiting (.untint f) f s [.bit f.d.toNat true] fun u =>
      u.modCtx s.team.ctx fun x => { x with ranges := rs.filter fun r => !r.within base.toNat n }) := by
  obtain ⟨hcx, hctx, -⟩ := (seen_files s (.untint f) f).monitor_reads
  refine rangeBody_law h (untintBody f) rfl (fun fl t => untintBody_eq f fl _ t) ?_ fun fl xs t ht => ?_
  · rw [hctx, hcx]
    simp
  · rw [hcx, putLater_modCtx]
    refine modCtx_congr ?_
    rw [show (putLater fl xs t).ctx s.team.ctx = s.ctx s.team.ctx from ht _]

/-! ### `tintq` and `tintq.clr` (R195) -/

theorem tintqBody_eq (f : Fmt) (fl : Nat) (v s : State) :
    tintqBody f fl v s =
      if v.diverged then .raise (wholeFlt .UDIV)
      else if !canonical (v.readD f.a.toNat) then .raise (laneFlt .XLATE (v.readD f.a.toNat) 0)
      else .done (putLater fl [.word f.d.toNat (colourState v (v.readD f.a.toNat)).1,
        .word (f.d.toNat + 1) (colourState v (v.readD f.a.toNat)).2] s) := rfl

theorem tintqClrBody_eq (f : Fmt) (fl : Nat) (v s : State) :
    let va := v.readD f.a.toNat
    let c := v.colourOf v.team.ctx va
    tintqClrBody f fl v s =
      if v.diverged then .raise (wholeFlt .UDIV)
      else if !canonical va then .raise (laneFlt .XLATE va 0)
      else if c = 0 || !holdsColour v.team c then .raise (laneFlt .CNOTHELD 0 0)
      else .done (putLater fl [.word f.d.toNat ((colourState v va).1 &&& ~~~65536), .word (f.d.toNat + 1) (colourState v va).2]
        (s.modCtx v.team.ctx fun x => { x with monitors := x.monitors.set {} c { x.monitors.get {} c with abandoned := false } })) := rfl

section
variable {f : Fmt} {s : State}

theorem tintq_diverged {i : Instr} (h : Acts i f s) (hi : i = .tintq f ∨ i = .tintqClr f) (hd : (s.seen i f).diverged = true) :
    exec i s = .next (s.takeFault (wholeFlt .UDIV)) := by
  rcases hi with rfl | rfl
  · exact straight_raise h .later _ (tintqBody f) fun fl t => if_pos hd
  · exact straight_raise h .later _ (tintqClrBody f) fun fl t => if_pos hd

theorem tintq_leaves {i : Instr} (h : Acts i f s) (hi : i = .tintq f ∨ i = .tintqClr f) (hd : (s.seen i f).diverged = false)
    (hc : canonical ((s.seen i f).readD f.a.toNat) = false) :
    exec i s = .next (s.takeFault (laneFlt .XLATE ((s.seen i f).readD f.a.toNat) 0)) := by
  rcases hi with rfl | rfl
  · exact straight_raise h .later _ (tintqBody f) fun fl t => by simp [tintqBody_eq, hd, hc]
  · exact straight_raise h .later _ (tintqClrBody f) fun fl t => by simp [tintqClrBody_eq, hd, hc]

theorem tintq_answers (h : Acts (.tintq f) f s) (hd : (s.seen (.tintq f) f).diverged = false)
    (hc : canonical ((s.seen (.tintq f) f).readD f.a.toNat) = true) :
    let w := colourState (s.seen (.tintq f) f) ((s.seen (.tintq f) f).readD f.a.toNat)
    ∃ t, exec (.tintq f) s = .next t ∧ Awaits f [.word f.d.toNat w.1, .word (f.d.toNat + 1) w.2] s t :=
  straight_awaits h (tintqBody f) rfl fun fl t => by simp [tintqBody_eq, hd, hc]

theorem tintqClr_law (h : Acts (.tintqClr f) f s) (hd : (s.seen (.tintqClr f) f).diverged = false)
    (hc : canonical ((s.seen (.tintqClr f) f).readD f.a.toNat) = true) :
    let v := s.seen (.tintqClr f) f
    let va := v.readD f.a.toNat
    let c := v.colourOf s.team.ctx va
    let w := colourState v va
    ((c = 0 ∨ holdsColour s.team c = false) → exec (.tintqClr f) s = .next (s.takeFault (laneFlt .CNOTHELD 0 0))) ∧
    (c ≠ 0 → holdsColour s.team c = true →
      PerformsAwaiting (.tintqClr f) f s [.word f.d.toNat (w.1 &&& ~~~65536), .word (f.d.toNat + 1) w.2] fun u =>
        u.modCtx s.team.ctx fun x => { x with monitors := x.monitors.set {} c { x.monitors.get {} c with abandoned := false } }) := by
  obtain ⟨hcx, -, hholds, -⟩ := (seen_files s (.tintqClr f) f).monitor_reads
  refine ⟨fun hn => ?_, fun h0 hh => ?_⟩
  · refine straight_raise h .later _ (tintqClrBody f) fun fl t => ?_
    simp only [tintqClrBody_eq, hd, hc, hcx, hholds]
    rcases hn with hn | hn <;> simp [hn]
  · refine straight_performsAwaiting h (tintqClrBody f) rfl ?_
    simp only [tintqClrBody_eq, hd, hc, hcx, hholds, h0, hh]
    rfl

end

/-! ### `mtry` (R196) -/

/-- Teams and kinds of entries are part of what they ask for. -/
theorem kinds_of_asks {l l' : List Entry} {es : List Asks} (h : l.map Entry.asks = l'.map Entry.asks ++ es) :
    (l.map fun e => (e.team, e.kind)) = (l'.map fun e => (e.team, e.kind)) ++ es.map fun a => (a.team, a.kind) := by
  have hk := congrArg (List.map fun a : Asks => (a.team, a.kind)) h
  rwa [List.map_append, List.map_map, List.map_map] at hk

theorem putLater_pending (fl : Nat) (xs : List Landing) (s : State) :
    ∃ p, (putLater fl xs s).team.pending = s.team.pending ++ [p] ∧ p.value = some xs := ⟨_, rfl, rfl⟩

/-- After an issue, the team has taken colour `c` at its depth; known results are on their way. -/
theorem mtry_takes {f : Fmt} {s : State} (h : Acts (.mtry f) f s) {c : Nat} {xs : List Landing}
    (hb : ∀ fl t, mtryBody f fl (s.seen (.mtry f) f) t = .done (putLater fl xs (t.takeColour c s.team.fdepth))) :
    ∃ t, exec (.mtry f) s = .next t ∧ t.team.held = s.team.held ++ [(c, s.team.fdepth)] ∧
      ((t.ctx s.team.ctx).monitors.get {} c).holder = some s.team.id ∧ RegistersKept [] s t ∧ (∀ k, t.byte k = s.byte k) ∧
      (t.entries.map fun e => (e.team, e.kind)) = (s.entries.map fun e => (e.team, e.kind)) ++ [(s.team.id, .acquire c)] ∧
      ∃ p, t.team.pending = s.team.pending ++ [p] ∧ p.value = some xs := by
  obtain ⟨n, he⟩ := issue_done h .later false (mtryBody f) _ hb
  have hu : Begun f s (launch f (usesOf (.mtry f)) .later false s).2 := launch_begun f _ s s []
  generalize (launch f (usesOf (.mtry f)) .later false s).2 = u at he hu
  have hdepth : u.team.fdepth = s.team.fdepth := by rw [hu.team]
  have hw := hu.acquired (takeColour_taken u c)
  rw [hdepth] at hw
  generalize u.takeColour c s.team.fdepth = w at he hw
  have hteam := hw.team
  obtain ⟨p, hp, hval⟩ := putLater_pending (launch f (usesOf (.mtry f)) .later false s).1 xs w
  refine ⟨_, he, ?_, ?_, ?_, fun k => ?_, kinds_of_asks hw.entries, p, hp.trans ?_, hval⟩
  · show w.team.held = _
    rw [hteam]; rfl
  · have hh := hw.holder c (List.mem_singleton.2 rfl)
    rwa [monitor, hteam] at hh
  · exact hw.regs.trans (ws' := []) ((putLater_touched _ xs w).trans (free_touched _ n)).regs
  · exact congrArg (fun m : SMap Byte => m.get unlistedByte k) hw.mem
  · rw [hteam]

/-- What `mtry` answers or raises where it takes no colour. -/
theorem mtry_law {f : Fmt} {s : State} (h : Acts (.mtry f) f s) :
    let v := s.seen (.mtry f) f
    let c := (v.readS f.a.toNat).toNat % 65536
    (v.diverged = true → exec (.mtry f) s = .next (s.takeFault (wholeFlt .UDIV))) ∧
    (v.diverged = false → (c = 0 ∨ holdsColour s.team c = true) → ∃ t, exec (.mtry f) s = .next t ∧ Awaits f [.bit f.d.toNat true] s t) ∧
    (v.diverged = false → c ≠ 0 → holdsColour s.team c = false → s.team.held.length = 16 →
      exec (.mtry f) s = .next (s.takeFault (laneFlt .CHELD 0 0))) ∧
    (v.diverged = false → c ≠ 0 → holdsColour s.team c = false → s.team.held.length ≠ 16 → s.colourFree c = false →
      ∃ t, exec (.mtry f) s = .next t ∧ Awaits f [.bit f.d.toNat false] s t) := by
  have hv := seen_files s (.mtry f) f
  obtain ⟨-, -, hholds, hfree⟩ := hv.monitor_reads
  obtain ⟨-, hheld, -, -⟩ := hv.colour_reads
  refine ⟨fun hd => ?_, fun hd hc => ?_, fun hd h0 hh h16 => ?_, fun hd h0 hh h16 hf => ?_⟩
  · exact straight_raise h .later _ (mtryBody f) fun fl t => if_pos hd
  · refine straight_awaits h (mtryBody f) rfl fun fl t => ?_
    rcases hc with hc | hc <;> simp [mtryBody, hd, hholds, hc]
  · exact straight_raise h .later _ (mtryBody f) fun fl t => by simp [mtryBody, hd, hholds, hheld, h0, hh, h16]
  · exact straight_awaits h (mtryBody f) rfl fun fl t => by simp [mtryBody, hd, hholds, hheld, hfree, h0, hh, h16, hf]

/-- `mtry` of a free colour, by a team that can hold one more. -/
theorem mtryBody_takes {f : Fmt} {s : State} {c : Nat} (hc : ((s.seen (.mtry f) f).readS f.a.toNat).toNat % 65536 = c)
    (hd : (s.seen (.mtry f) f).diverged = false) (h0 : c ≠ 0) (hh : holdsColour s.team c = false) (h16 : s.team.held.length ≠ 16)
    (hf : s.colourFree c = true) (fl : Nat) (t : State) :
    mtryBody f fl (s.seen (.mtry f) f) t = .done (putLater fl [.bit f.d.toNat true] (t.takeColour c s.team.fdepth)) := by
  have hv := seen_files s (.mtry f) f
  obtain ⟨-, -, hholds, hfree⟩ := hv.monitor_reads
  obtain ⟨-, hheld, -, -⟩ := hv.colour_reads
  obtain ⟨-, -, -, -, -, hdepth, -⟩ := hv.fields
  simp [mtryBody, hc, hd, hholds, hheld, hfree, hdepth, h0, hh, h16, hf]

/-! ### `mwait` (R197) -/

/-- The team `tid` joins the wait list of colour `c`. -/
def joinWait (cx c tid : Nat) (s : State) : State :=
  s.modCtx cx fun x => { x with monitors := x.monitors.set {} c { x.monitors.get {} c with wait := (x.monitors.get {} c).wait ++ [tid] } }

theorem joinWait_fields (cx c tid : Nat) (s : State) :
    let t := joinWait cx c tid s
    t.team = s.team ∧ t.split = s.split ∧ t.mem = s.mem ∧ t.entries = s.entries ∧
    ((t.ctx cx).monitors.get {} c).wait = ((s.ctx cx).monitors.get {} c).wait ++ [tid] := by
  refine ⟨rfl, rfl, rfl, rfl, ?_⟩
  simp [joinWait, modCtx, ctx]

/-- What `mwait` does for a colour that the team holds. -/
theorem mwaitBody_held {f : Fmt} {v : State} {c c' d : Nat} (hc : (v.readS f.a.toNat).toNat % 65536 = c)
    (hh : (v.team.held.find? fun h => h.1 == c) = some (c', d)) (fl : Nat) (s : State) : mwaitBody f fl v s =
      if v.diverged then .raise (wholeFlt .UDIV)
      else if lendingOpen v.team then .raise (wholeFlt .PERM)
      else if v.markedCommands v.team.id then again s
      else .done ((joinWait v.team.ctx c v.team.id (s.releaseAll [c])).modSplit fun x => { x with park := .mwait c d fl, buffer := false }) := by
  unfold mwaitBody
  simp only [hc, hh]
  rfl

/-- The team has released colour `c` and waits on it, parked. -/
theorem mwait_waits {f : Fmt} {s : State} (h : Acts (.mwait f) f s) {c d : Nat}
    (hb : ∀ fl t, mwaitBody f fl (s.seen (.mwait f) f) t =
      .done ((joinWait s.team.ctx c s.team.id (t.releaseAll [c])).modSplit fun x => { x with park := .mwait c d fl, buffer := false })) :
    ∃ t, exec (.mwait f) s = .next t ∧ t.split.park = .mwait c d s.nextId ∧ t.team.held = s.team.held.filter (fun h => h.1 != c) ∧
      ((t.ctx s.team.ctx).monitors.get {} c).wait = ((s.ctx s.team.ctx).monitors.get {} c).wait ++ [s.team.id] ∧
      RegistersKept [] s t ∧ (∀ k, t.byte k = s.byte k) ∧
      (t.entries.map fun e => (e.team, e.kind)) = (s.entries.map fun e => (e.team, e.kind)) ++ [(s.team.id, .release c)] := by
  obtain ⟨n, he⟩ := issue_done h .later false (mwaitBody f) _ hb
  rw [launch_later_flight] at he
  have hu : Begun f s (launch f (usesOf (.mwait f)) .later false s).2 := launch_begun f _ s s []
  generalize (launch f (usesOf (.mwait f)) .later false s).2 = u at he hu
  have hw := releaseAll_released [c] u
  generalize u.releaseAll [c] = w at he hw
  have hut := hu.team
  have hteam := hw.team
  unfold Team.IssuedFrom at hut
  rw [hut] at hteam
  have hsplit : w.split = { u.split with older := w.split.older } := hw.split
  have hctx : w.ctx s.team.ctx = s.ctx s.team.ctx := by rw [ctx, ctx, hw.rest]; exact congrArg (SMap.get · {} _) hu.ctxs
  have hmem : w.mem = s.mem := by rw [hw.rest]; exact hu.mem
  have hentries := hw.entries
  rw [hu.entries, hut] at hentries
  obtain ⟨hjt, hjs, hjm, hje, hjw⟩ := joinWait_fields s.team.ctx c s.team.id w
  generalize joinWait s.team.ctx c s.team.id w = x at he hjt hjs hjm hje hjw
  rw [hctx] at hjw
  rw [hteam] at hjt
  rw [hsplit] at hjs
  refine ⟨_, he, rfl, ?_, hjw, ?_, fun k => ?_, ?_⟩
  · refine (congrArg Team.held hjt).trans (List.filter_congr fun h _ => ?_)
    rw [List.contains_cons, List.contains_nil, Bool.or_false, bne]
  · refine hu.regs.trans (ws' := []) (.of_eq _ ?_)
    show x.team.s = _ ∧ x.team.q = _ ∧ x.team.a = _ ∧ x.team.v = _ ∧ x.team.tags = _ ∧ x.team.p = _ ∧ x.split.run.temps = _ ∧
      x.split.run.tags = _ ∧ x.split.wave = _ ∧ x.split.run.files = _
    rw [hjt, hjs, hut]
    exact ⟨rfl, rfl, rfl, rfl, rfl, rfl, rfl, rfl, rfl, rfl⟩
  · exact congrArg (SMap.get · unlistedByte k) (hjm.trans hmem)
  · show (x.entries.map fun e => (e.team, e.kind)) = _
    rw [hje]
    exact hentries

theorem mwait_law {f : Fmt} {s : State} (h : Acts (.mwait f) f s) :
    let v := s.seen (.mwait f) f
    let c := (v.readS f.a.toNat).toNat % 65536
    let held := s.team.held.find? fun h => h.1 == c
    (held = none → exec (.mwait f) s = .next (s.takeFault (laneFlt .CNOTHELD 0 0))) ∧
    (∀ h, held = some h →
      (v.diverged = true → exec (.mwait f) s = .next (s.takeFault (wholeFlt .UDIV))) ∧
      (v.diverged = false → lendingOpen s.team = true → exec (.mwait f) s = .next (s.takeFault (wholeFlt .PERM))) ∧
      (v.diverged = false → lendingOpen s.team = false → s.markedCommands s.team.id = true →
        ∃ t, exec (.mwait f) s = .next t ∧ ParkedAt .stalled s t) ∧
      (v.diverged = false → lendingOpen s.team = false → s.markedCommands s.team.id = false →
        ∃ t, exec (.mwait f) s = .next t ∧ t.split.park = .mwait c h.2 s.nextId ∧ t.team.held = s.team.held.filter (fun h => h.1 != c) ∧
          ((t.ctx s.team.ctx).monitors.get {} c).wait = ((s.ctx s.team.ctx).monitors.get {} c).wait ++ [s.team.id] ∧
          RegistersKept [] s t ∧ (∀ k, t.byte k = s.byte k) ∧
          (t.entries.map fun e => (e.team, e.kind)) = (s.entries.map fun e => (e.team, e.kind)) ++ [(s.team.id, .release c)])) := by
  have hv := seen_files s (.mwait f) f
  obtain ⟨hcx, -⟩ := hv.monitor_reads
  obtain ⟨hid, hheld, hlend, -, -, -, hmark⟩ := hv.ret_reads
  refine ⟨fun hn => straight_raise h .later _ (mwaitBody f) fun fl t => ?_, fun x hx => ?_⟩
  · unfold mwaitBody
    simp only [hheld, hn]
  · have hb := mwaitBody_held (f := f) (v := s.seen (.mwait f) f) rfl (hheld ▸ hx)
    rw [hlend, hid, hmark, hcx] at hb
    refine ⟨fun hd => ?_, fun hd hl => ?_, fun hd hl hm => ?_, fun hd hl hm => ?_⟩
    · exact straight_raise h .later _ (mwaitBody f) fun fl t => (hb fl t).trans (if_pos hd)
    · exact straight_raise h .later _ (mwaitBody f) fun fl t => by simp [hb, hd, hl]
    · exact straight_stalls h .later (mwaitBody f) rfl fun fl t => by simp [hb, hd, hl, hm]
    · exact mwait_waits h fun fl t => by simp [hb, hd, hl, hm]

/-! ### `mnote` and `mnall` (R197) -/

section
variable {i : Instr} {f : Fmt} {s : State} (h : Acts i f s) (all : Bool)
  (he : exec i s = straight i f (.fixed 0) (fun _ v t => mnoteBody all f v t) s)
include h he

/-- A notifier that does not hold the colour. -/
theorem note_unheld (hn : holdsColour s.team (((s.seen i f).readS f.a.toNat).toNat % 65536) = false) :
    exec i s = .next (s.takeFault (laneFlt .CNOTHELD 0 0)) := by
  obtain ⟨-, -, hholds, -⟩ := (seen_files s i f).monitor_reads
  refine he.trans (straight_raise h (.fixed 0) _ (fun _ v t => mnoteBody all f v t) fun fl t => ?_)
  simp [mnoteBody, hholds, hn]

/-- A notifier that holds it: waiters go to the entry queue, each reclaiming its lanes. -/
theorem note_moves (hn : holdsColour s.team (((s.seen i f).readS f.a.toNat).toNat % 65536) = true) :
    let c := ((s.seen i f).readS f.a.toNat).toNat % 65536
    let m := (s.ctx s.team.ctx).monitors.get {} c
    let k := if all then m.wait.length else 1
    Performs i f s fun u => (m.wait.take k).foldl reclaimLanes (u.modCtx s.team.ctx fun x =>
      { x with monitors := x.monitors.set {} c { m with entry := m.entry ++ m.wait.take k, wait := m.wait.drop k } }) := by
  obtain ⟨hcx, hctx, hholds, -⟩ := (seen_files s i f).monitor_reads
  refine straight_performs_issued h (.fixed 0) _ _ he ?_
  simp only [mnoteBody, hholds, hn, hctx, hcx, notify, launch_ctx]
  rfl

end

/-! ### Accesses that meet no colours: their gate and their entries (R161, R199, R200) -/

/-- `t` differs from `s` in the homes and TLBs of an access that has passed its gate, and in the mark of `.vn` accesses of blocks. -/
def Gated (s t : State) : Prop := t = { s with homes := t.homes, tlb := t.tlb, blocks := t.blocks }

theorem Gated.trans {s t u : State} (h : Gated s t) (h' : Gated t u) : Gated s u := by
  unfold Gated at *
  rw [h] at h'
  exact h'

theorem Gated.team {s t : State} (h : Gated s t) : t.team = s.team := by
  unfold Gated at h
  rw [h]

theorem keepEntry_gated (s : State) (x : Cached) : Gated s (s.keepEntry x) := by
  unfold keepEntry
  split <;> rfl

theorem noteTlb_gated (s : State) (cx launch core : Nat) (va : Addr) : Gated s (s.noteTlb cx launch core va) := by
  unfold noteTlb
  refine List.foldlRecOn (motive := Gated s) _ _ rfl fun t ht e _ => ht.trans ?_
  dsimp only
  split
  · exact (keepEntry_gated t _).trans (keepEntry_gated _ _)
  · exact keepEntry_gated t _

theorem noteSpans_gated (s v : State) (ls : List Loc) : Gated s (s.noteSpans v ls) :=
  List.foldlRecOn (motive := Gated s) _ _ rfl fun t ht _ _ => ht.trans (noteTlb_gated t _ _ _ _)

theorem noteVn_gated (s : State) (used : Bool) : Gated s (s.noteVn used) := by
  unfold noteVn
  split <;> rfl

/-- An access that meets no colours passes the gate where its locations are in device memory. -/
theorem gate_plain {v : State} {spc : Space} {acc : Access} {n : Nat} {aligned quiet : Bool} {lanes : List (Nat × Addr)} {ls : List Loc}
    (hg : v.split.gated = none) (hc : v.checkLanes spc acc n aligned quiet lanes = .ok ls) (hfree : ∀ y ∈ ls, y.hosts = []) (s : State) :
    v.gate s spc acc n aligned quiet false lanes = .go ((s.noteSpans v ls).noteVn (spc = .vn)) ls := by
  have hhosts : (ls.find? fun x => !x.hosts.isEmpty) = none := List.find?_eq_none.2 fun y hy => by simp [hfree y hy]
  unfold gate
  simp only [hg, hc, hhosts, Bool.and_false, Bool.false_eq_true, if_false]

/-- A location that a check finds is no dropped one and no word of another. -/
theorem checkLane_whole {v : State} {spc : Space} {acc : Access} {n l : Nat} {aligned : Bool} {va : Addr} {x : Loc}
    (h : v.checkLane spc acc n aligned l va = .ok x) : x.drop = none ∧ x.word = none := by
  unfold checkLane at h
  dsimp only at h
  split at h
  · cases h
  split at h
  · cases h
  split at h
  case h_1 =>
    split at h
    · cases h
    · cases h; exact ⟨rfl, rfl⟩
  case h_2 | h_3 =>
    split at h
    · cases h
    · cases h
    · cases h; exact ⟨rfl, rfl⟩
  case h_4 =>
    split at h
    · cases h
    split at h
    · cases h
    · cases h; exact ⟨rfl, rfl⟩
  case h_5 =>
    split at h
    · cases h
    split at h
    · cases h
    · cases h; exact ⟨rfl, rfl⟩

/-- The one location that a load of one lane finds. -/
theorem checkLanes_load {v : State} {spc : Space} {n l : Nat} {aligned : Bool} {va : Addr} {ls : List Loc}
    (h : v.checkLanes spc .load n aligned false [(l, va)] = .ok ls) : ∀ x ∈ ls, x.drop = none ∧ x.word = none := by
  unfold checkLanes at h
  split at h
  · cases h
  · cases h
  · rename_i x hx
    cases h
    simpa using checkLane_whole hx

/-- `t` differs from `s` by entries that have joined the queues: in what these leave in flights and flags, in the order of the executing
split, in homes and in the serial numbers. -/
def Joined (s t : State) : Prop :=
  t = { s with team := { s.team with c := t.team.c, flights := t.team.flights },
               split := { s.split with older := t.split.older, barred := t.split.barred },
               nextId := t.nextId, entries := t.entries, homes := t.homes }

theorem Joined.refl (s : State) : Joined s s := rfl

theorem Joined.trans {s t u : State} (h : Joined s t) (h' : Joined t u) : Joined s u := by
  unfold Joined at *
  rw [h] at h'
  exact h'

theorem touch_joined (s : State) (k d : Nat) (pin : Option (Nat × Nat)) : Joined s (s.touch k d pin) := by
  unfold touch
  split <;> rfl

theorem enterLane_joined {g : Group} {older : List Nat} {x : Loc} (hx : x.drop = none) (s : State) : Joined s (enterLane g older s x) := by
  unfold enterLane fresh
  simp only [hx]
  exact (Joined.trans (s := s) (t := { s with nextId := s.nextId + 1 }) rfl (touch_joined _ _ _ _)).trans rfl

/-- What the order machine knows of the executing split. -/
theorem modSplit_order_joined (s : State) (older : List Nat) (barred : Split → List Nat) :
    Joined s (s.modSplit fun x => { x with older := older, barred := barred x }) := rfl

/-- A change of the team's flights and flags. -/
theorem modTeam_flights_joined (s : State) {g : Team → Team} (hg : ∀ t, g t = { t with flights := (g t).flights, c := (g t).c }) :
    Joined s (s.modTeam g) := by
  unfold Joined modTeam
  rw [hg]

theorem siblingYounger_joined (first : Nat) (s : State) : Joined s (siblingYounger first s) := by
  unfold siblingYounger
  split <;> rfl

theorem enterAll_joined {g : Group} {ls : List Loc} (hls : ∀ x ∈ ls, x.drop = none) (s : State) : Joined s (enterAll g ls s) := by
  unfold enterAll
  dsimp only
  generalize unionIds _ _ = older
  have hlanes (t : State) : Joined t (ls.foldl (enterLane g older) t) :=
    List.foldlRecOn (motive := Joined t) _ _ (.refl t) fun u hu x hx => hu.trans (enterLane_joined (hls x hx) u)
  refine (((modSplit_order_joined s older _).trans (hlanes _)).trans (siblingYounger_joined s.nextId _)).trans
    (modTeam_flights_joined _ fun t => ?_)
  split
  · exact endFlight_flights t g.flight
  · rfl

/-- Entries that have joined the queues after an issue and a gate. -/
theorem Stepped.entered {f : Fmt} {es : List Asks} {s u w t : State} (hu : Stepped f [] s u) (ht : s.team.IssuedFrom u.team)
    (hw : Gated u w) (hj : Joined w t) (hes : t.entries.map Entry.asks = w.entries.map Entry.asks ++ es) :
    Entered f es s t ∧ t.team.pending = s.team.pending := by
  have hr := hu.rest
  have hs := hu.split
  unfold Joined at hj
  unfold Gated at hw
  unfold Team.IssuedFrom at ht
  have hmem : t.mem = s.mem := by rw [hj, hw, hr]
  have hteam : t.team = { s.team with c := t.team.c, flights := t.team.flights, tctl := t.team.tctl, retired := t.team.retired } := by
    rw [hj, hw, ht]
  have hsplit : t.split = { u.split with older := t.split.older, barred := t.split.barred } := by rw [hj, hw]
  refine ⟨⟨?rest, fun k => congrArg (SMap.get · unlistedByte k) hmem, hu.regs.trans (ws' := []) (.of_eq _ ?regs), ?team, ?pc, ?count,
    ?entries⟩, ?pending⟩
  case rest => rw [hj, hw, hr]
  case regs =>
    rw [hteam, hsplit, ht]
    exact ⟨rfl, rfl, rfl, rfl, rfl, rfl, rfl, rfl, rfl, rfl⟩
  case team => rw [hteam]
  case pc => rw [hsplit, hs]
  case count => rw [hsplit, hu.run]
  case entries =>
    have hentries : w.entries = s.entries := by rw [hw, hr]
    rw [hes, hentries]
  case pending => rw [hteam]

/-- After its entries have joined the queues, registers of the instruction await values that are not known yet, and its split parks. -/
def awaitParked (fl : Nat) (rs : List Reg) (p : Park) (s : State) : State :=
  (putUnknown fl rs s).modSplit fun y => { y with park := p, buffer := false }

theorem Entered.awaitParked {f : Fmt} {es : List Asks} {s t : State} (h : Entered f es s t) (fl n : Nat) (rs : List Reg) (p : Park) :
    Entered f es s { awaitParked fl rs p t with free := n } where
  rest := by rw [h.rest]; rfl
  bytes := h.bytes
  regs := h.regs.trans (ws' := []) (.of_eq _ ⟨rfl, rfl, rfl, rfl, rfl, rfl, rfl, rfl, rfl, rfl⟩)
  team := by
    have e : (putUnknown fl rs t).team = { t.team with pending := (putUnknown fl rs t).team.pending } := rfl
    rw [h.team] at e
    exact e
  pc := h.pc
  count := h.count
  entries := h.entries

theorem awaitParked_pending (fl : Nat) (rs : List Reg) (k : Park) (s : State) :
    ∃ p, (awaitParked fl rs k s).team.pending = s.team.pending ++ [p] ∧ p.value = none ∧ p.regs = rs := ⟨_, rfl, rfl, rfl⟩

/-! ### `watch` (R197) -/

/-- What the entries of `watch` have in common: an acquire load that waits until the word is not `x`. -/
def watchGroup (f : Fmt) (x : Word) (fl : Nat) : Group :=
  { kind := fun _ => .watch x, acq := true, sp := spaceOf f = .sp, flight := fl, dest := fun _ => some { reg := f.d.toNat } }

theorem watchGroup_asks (f : Fmt) (x : Word) (fl tid : Nat) {y : Loc} (hy : y.word = none) :
    (watchGroup f x fl).asks tid y = { team := tid, kind := .watch x, locs := y.keys, va := y.va, lane := y.lane,
                                       dest := some { reg := f.d.toNat }, acq := true, sp := spaceOf f = .sp } := by
  simp [Group.asks, watchGroup, Loc.bytesOf, Loc.destOf, hy]

theorem watchBody_enters {f : Fmt} {v : State} {ls : List Loc} (hd : v.diverged = false) (hg : v.split.gated = none)
    (hc : v.checkLanes (spaceOf f) .load 4 true false [(0, baseAddr f v)] = .ok ls) (hfree : ∀ y ∈ ls, y.hosts = []) (fl : Nat) (s : State) :
    watchBody f fl v s =
      .done (awaitParked fl [.s f.d.toNat] (.watch (spaceOf f) (baseAddr f v) (v.readS f.x.c.toNat))
        (enterAll (watchGroup f (v.readS f.x.c.toNat) fl) ls ((s.noteSpans v ls).noteVn (spaceOf f = .vn)))) := by
  unfold watchBody
  simp only [gate_plain hg hc hfree, hd]
  rfl

theorem watch_enters {f : Fmt} {s : State} {ls : List Loc} (h : Acts (.watch f) f s) :
    let v := s.seen (.watch f) f
    let va := baseAddr f v
    let x := v.readS f.x.c.toNat
    v.diverged = false → s.split.gated = none → v.checkLanes (spaceOf f) .load 4 true false [(0, va)] = .ok ls → (∀ y ∈ ls, y.hosts = []) →
    ∃ t, exec (.watch f) s = .next t ∧ t.split.park = .watch (spaceOf f) va x ∧
      Entered f (ls.map fun y => { team := s.team.id, kind := .watch x, locs := y.keys, va := y.va, lane := y.lane,
                                   dest := some { reg := f.d.toNat }, acq := true, sp := spaceOf f = .sp }) s t ∧
      ∃ p, t.team.pending = s.team.pending ++ [p] ∧ p.value = none ∧ p.regs = [.s f.d.toNat] := by
  intro v va x hd hg hc hfree
  obtain ⟨-, -, -, hgated⟩ := (seen_files s (.watch f) f).colour_reads
  obtain ⟨n, he⟩ := issue_done h .later false (watchBody f) _ (watchBody_enters hd (hgated.trans hg) hc hfree)
  have hu := launch_stepped f (usesOf (.watch f)) .later s
  have ht := launch_team f (usesOf (.watch f)) .later false s
  generalize launch f (usesOf (.watch f)) .later false s = l at he hu ht
  obtain ⟨fl, u⟩ := l
  have hw := (noteSpans_gated u v ls).trans (noteVn_gated _ (spaceOf f = .vn))
  have hls := checkLanes_load hc
  have hdrop : ∀ y ∈ ls, y.drop = none := fun y hy => (hls y hy).1
  have hfiled := enterAll_filed (g := watchGroup f x fl) (s := (u.noteSpans v ls).noteVn (spaceOf f = .vn)) hdrop
  obtain ⟨hent, hpend⟩ := hu.entered ht hw (enterAll_joined hdrop _) hfiled.entries
  have hid : u.team.id = s.team.id := by rw [ht]
  rw [hw.team, hid, List.map_congr_left fun y hy => watchGroup_asks f x fl s.team.id (hls y hy).2] at hent
  obtain ⟨p, hp, hval, hregs⟩ := awaitParked_pending fl [.s f.d.toNat] (.watch (spaceOf f) va x)
    (enterAll (watchGroup f x fl) ls ((u.noteSpans v ls).noteVn (spaceOf f = .vn)))
  exact ⟨_, he, rfl, hent.awaitParked fl n _ _, p, hp.trans (by rw [hpend]), hval, hregs⟩

/-- Settles O49: `tint` and `untint` have one body (`rangeBody`) with different conditions and changes; `mtry` takes its colour as an access does
(`takeColour_taken`), `mwait` releases it as a return does (`releaseAll_released`); `watch` enters one entry past a gate without colours. -/
theorem colours : Obligations.Colours := by
  refine ⟨fun i f s h hi => ?_, fun i f s h hi => ?_, fun f s h => ?_, fun f s h => mwait_law h, fun i f s h hi => ?_,
    fun f s ls h => watch_enters h⟩
  · rcases hi with rfl | rfl
    · simpa only [if_true] using tint_law h
    · simpa only [reduceCtorEq, if_false] using untint_law h
  · refine ⟨tintq_diverged h hi, tintq_leaves h hi, ?_, ?_, ?_⟩
    · rintro rfl
      exact tintq_answers h
    · rintro rfl hd hc
      exact (tintqClr_law h hd hc).1
    · rintro rfl hd hc
      exact (tintqClr_law h hd hc).2
  · obtain ⟨hdiv, hown, hfull, hbusy⟩ := mtry_law h
    exact ⟨hdiv, hown, hfull, hbusy, fun hd h0 hh h16 hfree => mtry_takes h (mtryBody_takes rfl hd h0 hh h16 hfree)⟩
  · rcases hi with rfl | rfl
    · simpa only [reduceCtorEq, if_false] using And.intro (note_unheld h false rfl) (note_moves h false rfl)
    · simpa only [if_true] using And.intro (note_unheld h true rfl) (note_moves h true rfl)

end Sys2Proof.Machine
end

section
/-! Instructions that stay in place, and instructions that enter entries and await a result: the shared laws. -/
namespace Sys2Proof.Machine
open State

/-! ### Instructions that stay in place -/

/-- `t` has the executing split parked by `p`; of its team no more than where it fetches has changed. -/
structure Parked (p : Park) (s t : State) : Prop where
  park : t.split.park = p
  team : t.team = { s.team with fetchOff := t.team.fetchOff }

theorem modSplit_parked {p : Park} {g : Split → Split} (hg : ∀ x, (g x).park = p) (s : State) : Parked p s (s.modSplit g) := ⟨hg _, rfl⟩

theorem parkHere_parked (p : Park) (s : State) : Parked p s (s.parkHere p) := by
  rw [parkHere_eq]
  exact ⟨rfl, rfl⟩

theorem askPage_parked (n : Nat) (s : State) : Parked (.page n none) s ((s.askPage n).parkHere (.page n none)) := by
  obtain ⟨hpark, hteam⟩ := parkHere_parked (.page n none) (s.askPage n)
  exact ⟨hpark, hteam⟩

/-- A straight instruction whose body stays has not issued: its split stands at it, parked as the body has left it. -/
theorem straight_stays {i : Instr} {f : Fmt} {s : State} (h : Acts i f s) (lat : Lat) (body : Nat → State → State → Res) {p : Park}
    {g : State → State} (he : exec i s = straight i f lat body s) (hb : ∀ fl t, body fl (s.seen i f) t = .stay (g t))
    (hg : ∀ t, Parked p t (g t)) :
    ∃ u fl, exec i s = .next (withdrawIssue s (g u) fl) ∧ ParkedAt p s (withdrawIssue s (g u) fl) := by
  have hi := issue_acts h lat false body
  have ht := launch_team f (usesOf i) lat false s
  rw [hb] at hi
  generalize launch f (usesOf i) lat false s = l at hi ht
  obtain ⟨fl, u⟩ := l
  obtain ⟨hpark, hteam⟩ := hg u
  obtain ⟨c, flights, hw⟩ := withdrawIssue_team s (g u) fl
  unfold Team.IssuedFrom at ht
  rw [hteam, ht] at hw
  refine ⟨u, fl, he.trans hi, hpark, rfl, rfl, RegistersKept.of_eq _ ?_, ?_⟩
  · rw [hw]; exact ⟨rfl, rfl, rfl, rfl, rfl, rfl, rfl, rfl, rfl, rfl⟩
  · rw [hw]

/-! ### Entries with a result that is not known yet -/

theorem Entered.expecting {f : Fmt} {es : List Asks} {s t : State} (h : Entered f es s t) (fl n : Nat) (rs : List Reg) :
    Entered f es s { putUnknown fl rs t with free := n } where
  rest := by rw [h.rest]; rfl
  bytes := h.bytes
  regs := h.regs.trans (ws' := []) (.of_eq _ ⟨rfl, rfl, rfl, rfl, rfl, rfl, rfl, rfl, rfl, rfl⟩)
  team := by
    have e : (putUnknown fl rs t).team = { t.team with pending := (putUnknown fl rs t).team.pending } := rfl
    rw [h.team] at e
    exact e
  pc := h.pc
  count := h.count
  entries := h.entries

/-- A straight instruction whose body notes its access, enters the entries of its locations and has registers `rs` await them. -/
theorem straight_enters {i : Instr} {f : Fmt} {s : State} (h : Acts i f s) (body : Nat → State → State → Res) {rs : List Reg}
    {g : Nat → Group} {ls : List Loc} {note : State → State} (he : exec i s = straight i f .later body s)
    (hb : ∀ fl t, body fl (s.seen i f) t = .done (putUnknown fl rs (enterAll (g fl) ls (note t)))) (hnote : ∀ t, Gated t (note t))
    (hls : ∀ x ∈ ls, x.drop = none) :
    ∃ t, exec i s = .next t ∧ Entered f (ls.map ((g s.nextId).asks s.team.id)) s t ∧
      ∃ p, t.team.pending = s.team.pending ++ [p] ∧ p.value = none ∧ p.regs = rs := by
  obtain ⟨n, hi⟩ := issue_done h .later false body _ hb
  rw [launch_later_flight] at hi
  have hu := launch_stepped f (usesOf i) .later s
  have ht := launch_team f (usesOf i) .later false s
  generalize (launch f (usesOf i) .later false s).2 = u at hi hu ht
  have hw := hnote u
  have hid : (note u).team.id = s.team.id := by rw [hw.team, ht]
  have hfiled := enterAll_filed (g := g s.nextId) (s := note u) hls
  rw [hid] at hfiled
  obtain ⟨hent, hpend⟩ := hu.entered ht hw (enterAll_joined hls _) hfiled.entries
  exact ⟨_, he.trans hi, hent.expecting s.nextId n rs, _, congrArg (· ++ _) hpend, rfl, rfl⟩

end Sys2Proof.Machine
end

section
/-! The page controls `pgrel` and `pgown` (R227, R228). -/
namespace Sys2Proof.Machine
open State

/-! ### The page that an address lies in -/

/-- A byte that is translated lies under the leaf that its walk meets, which says whether a host page holds it. -/
theorem translate_leaf {v : State} {cx launch part core : Nat} {acc : Access} {va : Addr} {p : Phys}
    (h : v.translate cx launch part core acc va = .ok p) : ∃ e sh, v.lookup cx launch core va = .leaf e sh ∧
      p.host = if e.getLsbD 8 then some (hostPageOf (frameOf e + va.toNat % 2 ^ sh) sh) else none := by
  unfold State.translate State.translated at h
  split at h
  · cases h
  split at h
  · cases h
  · cases h
  · rename_i e sh hl
    refine ⟨e, sh, hl, ?_⟩
    dsimp only at h
    split at h
    · cases h
    split at h
    · cases h
    split at h
    · split at h <;> cases h
    · cases h
      rfl

/-- The page controls look at the host page that the translation has found. -/
theorem hostPageAt_eq {v : State} {acc : Access} {va : Addr} {p : Phys}
    (h : v.translate v.team.ctx v.team.launch v.team.part v.team.core acc va = .ok p) :
    hostPageAt v va = p.host.map fun n => (n, v.owns n) := by
  obtain ⟨e, sh, hl, hp⟩ := translate_leaf h
  unfold hostPageAt
  rw [hl, hp]
  by_cases hb : e.getLsbD 8 = true <;> simp [hb]

theorem FilesOnly.page_reads {s v : State} (h : FilesOnly s v) : (∀ n, v.owns n = s.owns n) ∧ v.split.answer = s.split.answer := by
  unfold FilesOnly at h
  rw [h]
  exact ⟨fun _ => rfl, rfl⟩

/-! ### The checks (R233) -/

section
variable {f : Fmt} {v : State}

theorem pageGate_diverged (hd : v.diverged = true) (s : State) : pageGate f v s = some (.raise (wholeFlt .UDIV)) := by
  simp [pageGate, hd]

theorem pageGate_leaves (hd : v.diverged = false) (hc : canonical (baseAddr f v) = false) (s : State) :
    pageGate f v s = some (.raise (laneFlt .XLATE (baseAddr f v) 0)) := by
  simp [pageGate, hd, hc]

theorem pageGate_open {p : Phys} (hd : v.diverged = false) (hc : canonical (baseAddr f v) = true)
    (hp : v.translate v.team.ctx v.team.launch v.team.part v.team.core .other (baseAddr f v) = .ok p) (s : State) : pageGate f v s = none := by
  simp [pageGate, hd, hc, hp]

end

/-- A page control whose check raises a fault takes it. -/
theorem page_raises {i : Instr} {f : Fmt} {s : State} (h : Acts i f s) (hi : i = .pgrel f ∨ i = .pgown f) {x : Flt}
    (hg : ∀ t, pageGate f (s.seen i f) t = some (.raise x)) : exec i s = .next (s.takeFault x) := by
  rcases hi with rfl | rfl
  · exact straight_raise h .later x (pageRelease f) fun fl t => by rw [pageRelease, hg]
  · exact straight_raise h .later x (pageOwn f) fun fl t => by rw [pageOwn, hg]

/-! ### A page that the checks have passed -/

section
variable {f : Fmt} {s : State}

/-- The entry of a `pgrel` of page `n`, which writes uniform predicate `q` when it commits (R227). -/
def givebackGroup (n q fl : Nat) : Group := { kind := fun _ => .giveback n q, rel := true, flight := fl }

/-- The page goes back to the host when the entry commits. -/
theorem pgrel_gives_back (h : Acts (.pgrel f) f s) {n : Nat} (hg : ∀ t, pageGate f (s.seen (.pgrel f) f) t = none)
    (hh : hostPageAt (s.seen (.pgrel f) f) (baseAddr f (s.seen (.pgrel f) f)) = some (n, true)) :
    ∃ t, exec (.pgrel f) s = .next t ∧ Entered f
      [{ team := s.team.id, kind := .giveback n f.d.toNat, locs := [], va := baseAddr f (s.seen (.pgrel f) f), lane := 0, rel := true }] s t := by
  obtain ⟨t, he, ht, -⟩ := straight_enters (g := givebackGroup n f.d.toNat) (note := id) (rs := Fmt.qReg f.d.toNat)
    (ls := [{ lane := 0, va := baseAddr f (s.seen (.pgrel f) f), keys := [] }]) h (pageRelease f) rfl
    (fun fl t => by simp only [pageRelease, hg, hh]; rfl) (fun _ => rfl) (by simp)
  exact ⟨t, he, ht⟩

theorem pgrel_answers (h : Acts (.pgrel f) f s) (hg : ∀ t, pageGate f (s.seen (.pgrel f) f) t = none) :
    (hostPageAt (s.seen (.pgrel f) f) (baseAddr f (s.seen (.pgrel f) f)) = none →
      ∃ t, exec (.pgrel f) s = .next t ∧ Awaits f [.bit f.d.toNat false] s t) ∧
    (∀ n, hostPageAt (s.seen (.pgrel f) f) (baseAddr f (s.seen (.pgrel f) f)) = some (n, false) →
      ∃ t, exec (.pgrel f) s = .next t ∧ Awaits f [.bit f.d.toNat true] s t) :=
  ⟨fun hh => straight_awaits h (pageRelease f) rfl fun fl t => by simp only [pageRelease, hg, hh],
   fun _ hh => straight_awaits h (pageRelease f) rfl fun fl t => by simp only [pageRelease, hg, hh]⟩

/-- Clearing an answer that the host has not given changes nothing. -/
theorem modSplit_answer_none {t : State} (h : t.split.answer = none) : (t.modSplit fun x => { x with answer := none }) = t := by
  rw [← h]
  rfl

theorem pgown_device (h : Acts (.pgown f) f s) (hg : ∀ t, pageGate f (s.seen (.pgown f) f) t = none)
    (hh : hostPageAt (s.seen (.pgown f) f) (baseAddr f (s.seen (.pgown f) f)) = none) :
    ∃ t, exec (.pgown f) s = .next t ∧ Awaits f [.bit f.d.toNat true] s t :=
  straight_awaits h (pageOwn f) rfl fun fl t => by simp only [pageOwn, hg, hh]

/-- A page that the device owns already, with no answer of the host to take. -/
theorem pgown_owned (h : Acts (.pgown f) f s) {n : Nat} (hg : ∀ t, pageGate f (s.seen (.pgown f) f) t = none)
    (hh : hostPageAt (s.seen (.pgown f) f) (baseAddr f (s.seen (.pgown f) f)) = some (n, true)) (ha : s.split.answer = none) :
    ∃ t, exec (.pgown f) s = .next t ∧ Awaits f [.bit f.d.toNat true] s t := by
  obtain ⟨-, hans⟩ := (seen_files s (.pgown f) f).page_reads
  have hla : (launch f (usesOf (.pgown f)) .later false s).2.split.answer = none := by
    rw [(launch_stepped f (usesOf (.pgown f)) .later s).split, ha]
  obtain ⟨u, n, hu, he⟩ := straight_performsAwaiting (xs := [.bit f.d.toNat true]) (op := id) h (pageOwn f) rfl (by
    simp only [pageOwn, hg, hh, hans, ha, modSplit_answer_none hla, reduceCtorEq, if_false, id])
  exact ⟨_, he, hu.bump n⟩

/-- A page that the host owns: the team asks for it and parks. -/
theorem pgown_asks (h : Acts (.pgown f) f s) {n : Nat} (hg : ∀ t, pageGate f (s.seen (.pgown f) f) t = none)
    (hh : hostPageAt (s.seen (.pgown f) f) (baseAddr f (s.seen (.pgown f) f)) = some (n, false)) (ha : s.split.answer ≠ some false) :
    ∃ t, exec (.pgown f) s = .next t ∧ ParkedAt (.page n none) s t ∧ (t.pages.get {} n).asked = true := by
  obtain ⟨-, hans⟩ := (seen_files s (.pgown f) f).page_reads
  rw [← hans] at ha
  obtain ⟨u, fl, he, hp⟩ := straight_stays (g := fun t => (t.askPage n).parkHere (.page n none)) h .later (pageOwn f) rfl
    (fun fl t => by simp only [pageOwn, hg, hh, ha, if_false]) (askPage_parked n)
  have hpages : (withdrawIssue s ((u.askPage n).parkHere (.page n none)) fl).pages = (u.askPage n).pages := by
    rw [parkHere_eq]
    rfl
  exact ⟨_, he, hp, by rw [hpages, askPage, SMap.get_set_same]⟩

end

/-- Settles O40: past their checks the page controls go by the host page of the translation (`hostPageAt_eq`). -/
theorem pageControls : Obligations.PageControls := by
  intro i f s p h hi
  obtain ⟨howns, -⟩ := (seen_files s i f).page_reads
  refine ⟨fun hd => page_raises h hi (pageGate_diverged hd), fun hd hc => page_raises h hi (pageGate_leaves hd hc), fun hd hc hp => ?_⟩
  have hg := pageGate_open hd hc hp
  have hh := hostPageAt_eq hp
  refine ⟨fun hn ha => ?_, fun n hn ho hi => ?_, fun n hn ho hi ha => ?_, fun n hn ho hi => ?_, fun n hn ho hi ha => ?_⟩
  · rw [hn] at hh
    rcases hi with rfl | rfl
    · simpa only [reduceCtorEq, decide_false] using (pgrel_answers h hg).1 hh
    · simpa only [decide_true] using pgown_device h hg hh
  all_goals
    subst hi
    rw [hn, Option.map_some, howns, ho] at hh
  · exact pgrel_gives_back h hg hh
  · exact pgown_owned h hg hh ha
  · exact (pgrel_answers h hg).2 n hh
  · exact pgown_asks h hg hh ha

end Sys2Proof.Machine
end

section
/-! The engine instructions `ldline`, `tshape`, `tcopy`, `waitcnt` and `cntrd` (R223, R237 to R242, R319). -/
namespace Sys2Proof.Machine
open State

/-! ### What an instruction sees of the engines -/

/-- What a view of the registers leaves of the state: the counters, and the team whose counter a command raises. -/
theorem FilesOnly.counter_reads {s v : State} (h : FilesOnly s v) :
    (∀ t k, v.counter t k = s.counter t k) ∧ v.owner.id = s.owner.id ∧ v.owner.held = s.owner.held := by
  unfold FilesOnly at h
  rw [h]
  refine ⟨fun _ _ => rfl, ?_⟩
  unfold owner findTeam
  dsimp only
  split
  · exact ⟨rfl, rfl⟩
  all_goals
    split
    · exact ⟨rfl, rfl⟩
    · generalize List.find? _ _ = o
      cases o <;> exact ⟨rfl, rfl⟩

theorem FilesOnly.engine_reads {s v : State} (h : FilesOnly s v) :
    v.team.engst = s.team.engst ∧ v.team.engaddr = s.team.engaddr ∧ v.team.watchHits = s.team.watchHits ∧
    v.team.core = s.team.core ∧ v.split.begun = s.split.begun ∧
    (∀ a n, inPool v.team a n = inPool s.team a n) ∧
    (∀ spc va, v.inAperture v.team.ctx v.team.launch spc va = v.inAperture s.team.ctx s.team.launch spc va) := by
  unfold FilesOnly at h
  rw [h]
  exact ⟨rfl, rfl, rfl, rfl, rfl, fun _ _ => rfl, fun _ _ => rfl⟩

/-! ### Issuing a command (R237) -/

/-- A new command stands at the end of the device's commands; its flight completes by events. -/
theorem newCommand_queues (v s : State) (fl cls : Nat) (kind : CmdKind) (total : Nat) : ∃ c : Command,
    (newCommand v s fl cls kind total).2 = { s with nextId := s.nextId + 1, team := holdFlight s.team fl 1, commands := s.commands ++ [c],
                                                    blocks := (s.noteVn kind.usesVn).blocks } ∧
    (c.cls = cls ∧ c.kind = kind ∧ c.total = total) ∧ c.counts = [v.owner.id] ∧ c.flights = [(v.team.id, fl)] ∧
    c.team = v.owner.id ∧ c.core = v.team.core ∧ c.block = v.team.block ∧ c.complete = false ∧ c.elems = [] ∧ c.olds = [] ∧
    c.held = v.owner.held.map Prod.fst := by
  unfold newCommand fresh noteVn
  dsimp only
  cases kind.usesVn <;> exact ⟨_, rfl, ⟨rfl, rfl, rfl⟩, rfl, rfl, rfl, rfl, rfl, rfl, rfl, rfl, rfl⟩

/-- Of registers and of results on their way a new command changes none. -/
theorem newCommand_kept (v s : State) (fl cls : Nat) (kind : CmdKind) (total n : Nat) :
    RegistersKept [] s { (newCommand v s fl cls kind total).2 with free := n } ∧
    (newCommand v s fl cls kind total).2.team.pending = s.team.pending := by
  obtain ⟨c, hc, -⟩ := newCommand_queues v s fl cls kind total
  rw [hc]
  exact ⟨.of_eq _ ⟨rfl, rfl, rfl, rfl, rfl, rfl, rfl, rfl, rfl, rfl⟩, rfl⟩

/-- A command that an instruction issues, by what the instruction sees, after it has stepped to `w`. -/
theorem Stepped.queued {f : Fmt} {ws : List Reg} {s v w : State} (hw : Stepped f ws s w) (hv : FilesOnly s v) (cls : Nat) (kind : CmdKind)
    (total n : Nat) : ∃ c, Queued f ws c s { (newCommand v w s.nextId cls kind total).2 with free := n } ∧
      c.cls = cls ∧ c.kind = kind ∧ c.total = total := by
  obtain ⟨c, hc, hwhat, hcounts, hflights, hissued⟩ := newCommand_queues v w s.nextId cls kind total
  obtain ⟨hkept, -⟩ := newCommand_kept v w s.nextId cls kind total n
  obtain ⟨-, hown, hheld⟩ := hv.counter_reads
  obtain ⟨hid, hblock, -⟩ := hv.block_reads
  obtain ⟨-, -, -, hcore, -⟩ := hv.engine_reads
  rw [hown, hheld, hcore, hblock] at hissued
  rw [hown] at hcounts
  rw [hid] at hflights
  have hr := hw.rest
  refine ⟨c, ⟨?rest, ?bytes, (hw.regs.trans hkept).mono (by simp), ?pc, ?count, ?commands, hcounts, hflights, hissued⟩, hwhat⟩ <;> rw [hc]
  case rest => rw [hr]
  case bytes => exact hw.bytes
  case pc => exact congrArg Split.pc hw.split
  case count => exact congrArg Run.count hw.run
  case commands => rw [hr]

/-- A straight instruction whose body issues a command has its command queued; past what `prep` does to registers and results on their way,
the command changes none of them. -/
theorem straight_queues {i : Instr} {f : Fmt} {s : State} (h : Acts i f s) (body : Nat → State → State → Res) {ws : List Reg}
    {prep : Nat → State → State} {cls total : Nat} {kind : CmdKind} (he : exec i s = straight i f .later body s)
    (hb : ∀ fl t, body fl (s.seen i f) t = .done (newCommand (s.seen i f) (prep fl t) fl cls kind total).2)
    (hprep : ∀ fl t, Touched ws t (prep fl t)) :
    ∃ t c u, exec i s = .next t ∧ Queued f ws c s t ∧ (c.cls = cls ∧ c.kind = kind ∧ c.total = total) ∧ Stepped f [] s u ∧
      s.team.IssuedFrom u.team ∧ RegistersKept [] (prep s.nextId u) t ∧ t.team.pending = (prep s.nextId u).team.pending := by
  obtain ⟨n, hi⟩ := issue_done h .later false body _ hb
  rw [launch_later_flight] at hi
  have hu := launch_stepped f (usesOf i) .later s
  obtain ⟨c, hq, hwhat⟩ := (hu.touch (hprep s.nextId _)).queued (seen_files s i f) cls kind total n
  exact ⟨_, c, _, he.trans hi, hq, hwhat, hu, launch_team f (usesOf i) .later false s, newCommand_kept ..⟩

theorem counted_full {v : State} {cls : Nat} (h : 63 ≤ v.counter v.owner.id cls) (s : State) (r : Res) : counted v s cls r = notYet s := if_pos h

theorem counted_room {v : State} {cls : Nat} (h : v.counter v.owner.id cls < 63) (s : State) (r : Res) : counted v s cls r = r :=
  if_neg (Nat.not_le.2 h)

/-- An instruction whose counter is full waits. -/
theorem straight_waits {i : Instr} {f : Fmt} {s : State} (h : Acts i f s) (body : Nat → State → State → Res) {cls : Nat}
    (he : exec i s = straight i f .later body s) (hb : ∀ fl t, ∃ r, body fl (s.seen i f) t = counted (s.seen i f) t cls r)
    (hn : 63 ≤ s.counter s.owner.id cls) : ∃ t, exec i s = .next t ∧ ParkedAt .paused s t := by
  obtain ⟨hcount, hown, -⟩ := (seen_files s i f).counter_reads
  have hfull : 63 ≤ (s.seen i f).counter (s.seen i f).owner.id cls := by rw [hcount, hown]; exact hn
  obtain ⟨u, fl, hx, hp⟩ := straight_stays (p := .paused) h .later body he
    (fun fl t => by
      obtain ⟨r, hr⟩ := hb fl t
      exact hr.trans (counted_full hfull t r))
    (modSplit_parked fun _ => rfl)
  exact ⟨_, hx, hp⟩

/-! ### `ldline` (R223, R224) -/

/-- The ranks of an `ldline` with an active lane: each with its lowest one, the line that it names, and its active lanes. -/
def lineRanks (f : Fmt) (v : State) : List (Nat × Addr × List Nat) :=
  (List.range 32).filterMap fun j =>
    match (activeLanes f v).filter fun l => l / 32 == j with
    | [] => none
    | l :: r => some (l, memAddr f v l &&& ~~~127, l :: r)

/-- What an `ldline` leaves before its command: the tag of its register, whose value the register then awaits. -/
def lineAwaited (f : Fmt) (fl : Nat) (s : State) : State := putUnknown fl [.v f.d.toNat] (s.setTag f.d.toNat (memTag f.x.ty))

/-- The command of an `ldline`. -/
def lineKind (f : Fmt) (v : State) : CmdKind :=
  .line (spaceOf f) v.team.id v.split.id v.split.begun f.d.toNat (memTag f.x.ty) ((lineRanks f v).map Prod.snd)

theorem ldlineBody_eq (f : Fmt) (fl : Nat) (v s : State) : ldlineBody f fl v s =
    if !addrTags f v then .raise (wholeFlt .TAGMIS)
    else counted v s 2 (match lineStop v s (spaceOf f) (lineRanks f v) with
      | some r => r
      | none => .done (newCommand v (lineAwaited f fl s) fl 2 (lineKind f v) (lineRanks f v).length).2) := rfl

/-- Lines that are checked, or that wait for the driver, stop nothing at issue. -/
theorem lineStop_none {v : State} {spc : Space} {ranks : List (Nat × Addr × List Nat)}
    (h : ∀ x ∈ ranks, v.checkLane spc .load 128 false x.1 x.2.1 = .error .driver ∨ ∃ y, v.checkLane spc .load 128 false x.1 x.2.1 = .ok y)
    (s : State) : lineStop v s spc ranks = none := by
  refine List.findSome?_eq_none_iff.2 fun x hx => ?_
  rcases h x hx with hl | ⟨y, hl⟩ <;> rw [hl]

theorem lineAwaited_touched (f : Fmt) (fl : Nat) (s : State) : Touched [.v f.d.toNat] s (lineAwaited f fl s) :=
  ((setTag_touched s _ _).trans (putUnknown_touched fl _ _)).mono (by simp)

theorem lineAwaited_registers (f : Fmt) (fl : Nat) (s : State) :
    (lineAwaited f fl s).regTag f.d.toNat = memTag f.x.ty ∧ (∀ n l, (lineAwaited f fl s).regV n l = s.regV n l) ∧
    ∃ p, (lineAwaited f fl s).team.pending = s.team.pending ++ [p] ∧ p.value = none ∧ p.regs = [.v f.d.toNat] := by
  have hpend : (s.setTag f.d.toNat (memTag f.x.ty)).team.pending = s.team.pending := by
    have ht := setTag_files f.d.toNat (memTag f.x.ty) s
    unfold FilesOnly at ht
    rw [ht]
  exact ⟨(regTag_setTag ..).trans (if_pos rfl), fun n l => regV_setTag .., _, congrArg (· ++ _) hpend, rfl, rfl⟩

section
variable {f : Fmt} {s : State} (h : Acts (.ldline f) f s)
include h

theorem ldline_mistagged (ht : addrTags f (s.seen (.ldline f) f) = false) :
    exec (.ldline f) s = .next (s.takeFault (wholeFlt .TAGMIS)) :=
  straight_raise h .later _ (ldlineBody f) fun fl t => by rw [ldlineBody_eq, ht]; rfl

theorem ldline_waits (ht : addrTags f (s.seen (.ldline f) f) = true) (hn : 63 ≤ s.counter s.owner.id 2) :
    ∃ t, exec (.ldline f) s = .next t ∧ ParkedAt .paused s t :=
  straight_waits h (ldlineBody f) rfl (fun fl t => ⟨_, by rw [ldlineBody_eq, ht]; rfl⟩) hn

theorem ldline_queues (ht : addrTags f (s.seen (.ldline f) f) = true) (hn : s.counter s.owner.id 2 < 63)
    (hl : ∀ x ∈ lineRanks f (s.seen (.ldline f) f), (s.seen (.ldline f) f).checkLane (spaceOf f) .load 128 false x.1 x.2.1 = .error .driver ∨
      ∃ y, (s.seen (.ldline f) f).checkLane (spaceOf f) .load 128 false x.1 x.2.1 = .ok y) :
    ∃ t c, exec (.ldline f) s = .next t ∧ Queued f [.v f.d.toNat] c s t ∧ c.cls = 2 ∧ c.total = (lineRanks f (s.seen (.ldline f) f)).length ∧
      c.kind = .line (spaceOf f) s.team.id s.split.id s.split.begun f.d.toNat (memTag f.x.ty)
        ((lineRanks f (s.seen (.ldline f) f)).map Prod.snd) ∧
      t.regTag f.d.toNat = memTag f.x.ty ∧ (∀ l, l < 1024 → t.regV f.d.toNat l = s.regV f.d.toNat l) ∧
      ∃ p, t.team.pending = s.team.pending ++ [p] ∧ p.value = none ∧ p.regs = [.v f.d.toNat] := by
  have hv := seen_files s (.ldline f) f
  obtain ⟨hcount, hown, -⟩ := hv.counter_reads
  obtain ⟨hid, -, hsid, -⟩ := hv.block_reads
  obtain ⟨-, -, -, -, hbegun, -⟩ := hv.engine_reads
  rw [← hcount, ← hown] at hn
  obtain ⟨t, c, u, he, hq, ⟨hcls, hkind, htotal⟩, hu, hissued, hkept, hpend⟩ := straight_queues h (ldlineBody f) rfl
    (fun fl t => by rw [ldlineBody_eq, ht, counted_room hn, lineStop_none hl]; rfl) (lineAwaited_touched f)
  obtain ⟨htag, hlane, p, hp, hval, hregs⟩ := lineAwaited_registers f s.nextId u
  refine ⟨t, c, he, hq, hcls, htotal, ?_, ?_, fun l hl => ?_, p, ?_, hval, hregs⟩
  · rw [hkind, lineKind, hid, hsid, hbegun]
  · rw [hkept.tag _ List.not_mem_nil, htag]
  · rw [hkept.lane _ l hl List.not_mem_nil, hlane, hu.regs.lane _ l hl List.not_mem_nil]
  · rw [hpend, hp, hissued.pending]

end

/-! ### `tshape` (R242) -/

/-- Parts of a record that nothing stops: none is dropped or a word of another. -/
theorem partsReady_whole {v : State} {l : List (Addr × Nat)} {i : Nat} {ls : List Loc} (h : PartsReady v i l ls) :
    ∀ x ∈ ls, x.drop = none ∧ x.word = none := by
  induction l generalizing i ls with
  | nil =>
    obtain rfl := h
    simp
  | cons a r ih =>
    obtain ⟨xs, more, hc, -, hr, rfl⟩ := h
    intro x hx
    rcases List.mem_append.1 hx with hx | hx
    · obtain ⟨y, hy, rfl⟩ := List.mem_map.1 hx
      exact checkLanes_load hc y hy
    · exact ih hr x hx

/-- They pass their gates, one after the other. -/
theorem recordParts_ready {v : State} (hg : v.split.gated = none) {l : List (Addr × Nat)} {i : Nat} {ls : List Loc} (h : PartsReady v i l ls) :
    ∃ note : State → State, (∀ t, Gated t (note t)) ∧ ∀ s, recordParts v i l s = .ok (note s, ls) := by
  induction l generalizing i ls with
  | nil =>
    obtain rfl := h
    exact ⟨id, fun _ => rfl, fun _ => rfl⟩
  | cons a r ih =>
    obtain ⟨xs, more, hc, hfree, hr, rfl⟩ := h
    obtain ⟨note, hnote, hparts⟩ := ih hr
    refine ⟨fun s => note ((s.noteSpans v xs).noteVn (Space.g = .vn)), fun t => ?_, fun s => ?_⟩
    · exact ((noteSpans_gated t v xs).trans (noteVn_gated _ _)).trans (hnote _)
    · unfold recordParts
      simp only [gate_plain hg hc hfree, hparts]

/-- A record that nothing stops passes its gate. -/
theorem recordGate_ready {v : State} {va : Addr} {n : Nat} {ls : List Loc} (h : RecordReady v va n ls) :
    ∃ note : State → State, (∀ t, Gated t (note t)) ∧ ∀ s, recordGate v s va n = .go (note s) ls := by
  obtain ⟨note, hnote, hparts⟩ := recordParts_ready h.fresh h.parts
  refine ⟨note, hnote, fun s => ?_⟩
  have hheld : (List.range n).find? (fun i => v.colourOf v.team.ctx (va + BitVec.ofNat 64 i) != 0 &&
      !(v.team.held.map Prod.fst).contains (v.colourOf v.team.ctx (va + BitVec.ofNat 64 i))) = none := by
    refine List.find?_eq_none.2 fun i hi => ?_
    rcases h.colours i (List.mem_range.1 hi) with h0 | hm
    · simp [h0]
    · rw [List.contains_iff_mem.2 hm, Bool.not_true, Bool.and_false]
      exact Bool.false_ne_true
  unfold recordGate
  simp only [h.canon, h.aligned, hparts, hheld, Bool.not_true, bne_self_eq_false, Bool.false_eq_true, if_false]

/-- Where a `tshape` finds its record: in a pool, or at its base address. -/
def shapeAddr (f : Fmt) (v : State) : Addr := if f.len = .l128 then pcRel v.split.pc f.imm else baseAddr f v

/-- The entries of a `tshape`. -/
def shapeGroup (f : Fmt) (fl : Nat) : Group := { kind := fun _ => .shape f.x.qual.toNat f.d.toNat, flight := fl }

theorem shapeGroup_asks (f : Fmt) (fl tid : Nat) {y : Loc} (hy : y.word = none) : (shapeGroup f fl).asks tid y =
    { team := tid, kind := .shape f.x.qual.toNat f.d.toNat, locs := y.keys, va := y.va, lane := y.lane } := by
  simp [Group.asks, shapeGroup, Loc.bytesOf, hy]

theorem tshapeBody_eq (f : Fmt) (fl : Nat) (v s : State) : tshapeBody f fl v s =
    if v.diverged then .raise (wholeFlt .UDIV)
    else if f.len = .l128 && (shapeAddr f v).toNat % 64 = 0 && !inPool v.team (shapeAddr f v) 256 then
      .raise (laneFlt .PERM (shapeAddr f v) 0)
    else match recordGate v s (shapeAddr f v) 256 with
      | .res r => r
      | .go s ls => .done (putUnknown fl (Fmt.qReg f.d.toNat) (enterAll (shapeGroup f fl) ls s)) := rfl

theorem tshape_diverged {f : Fmt} {s : State} (h : Acts (.tshape f) f s) (hd : (s.seen (.tshape f) f).diverged = true) :
    exec (.tshape f) s = .next (s.takeFault (wholeFlt .UDIV)) :=
  straight_raise h .later _ (tshapeBody f) fun fl t => by rw [tshapeBody_eq, if_pos hd]

/-- An aligned record that no pool holds. -/
theorem tshape_outside {f : Fmt} {s : State} (h : Acts (.tshape f) f s) (hd : (s.seen (.tshape f) f).diverged = false) (hf : f.len = .l128)
    (ha : (shapeAddr f (s.seen (.tshape f) f)).toNat % 64 = 0)
    (hp : inPool (s.seen (.tshape f) f).team (shapeAddr f (s.seen (.tshape f) f)) 256 = false) :
    exec (.tshape f) s = .next (s.takeFault (laneFlt .PERM (shapeAddr f (s.seen (.tshape f) f)) 0)) :=
  straight_raise h .later _ (tshapeBody f) fun fl t => by
    rw [tshapeBody_eq, if_neg (ne_true_of_eq_false hd), if_pos (by simp [hf, ha, hp])]

theorem tshape_enters {f : Fmt} {s : State} {ls : List Loc} (h : Acts (.tshape f) f s) (hd : (s.seen (.tshape f) f).diverged = false)
    (hp : f.len = .l128 → inPool (s.seen (.tshape f) f).team (shapeAddr f (s.seen (.tshape f) f)) 256 = true)
    (hr : RecordReady (s.seen (.tshape f) f) (shapeAddr f (s.seen (.tshape f) f)) 256 ls) :
    ∃ t, exec (.tshape f) s = .next t ∧ Entered f (ls.map fun y =>
        { team := s.team.id, kind := .shape f.x.qual.toNat f.d.toNat, locs := y.keys, va := y.va, lane := y.lane }) s t ∧
      ∃ p, t.team.pending = s.team.pending ++ [p] ∧ p.value = none ∧ p.regs = Fmt.qReg f.d.toNat := by
  obtain ⟨note, hnote, hg⟩ := recordGate_ready hr
  have hls := partsReady_whole hr.parts
  have hpool : ¬ (f.len = .l128 && (shapeAddr f (s.seen (.tshape f) f)).toNat % 64 = 0 &&
      !inPool (s.seen (.tshape f) f).team (shapeAddr f (s.seen (.tshape f) f)) 256) = true := by
    by_cases hf : f.len = .l128 <;> simp [hf, hp]
  have he := straight_enters h (tshapeBody f) rfl (fun fl t => by rw [tshapeBody_eq, if_neg (ne_true_of_eq_false hd), if_neg hpool, hg])
    hnote fun x hx => (hls x hx).1
  rwa [List.map_congr_left fun y hy => shapeGroup_asks f s.nextId s.team.id (hls y hy).2] at he

/-! ### `tcopy` (R242) -/

/-- Whether a `tcopy`'s source and destination lie in a peer aperture. -/
def copyPeers (f : Fmt) (v : State) : Bool × Bool :=
  (v.inAperture v.team.ctx v.team.launch (spaceCode (f.x.qual.toNat / 4)) (v.readD f.a.toNat),
   v.inAperture v.team.ctx v.team.launch (spaceCode f.x.qual.toNat) (v.readD f.d.toNat))

/-- The class of a `tcopy`: 3 across a peer aperture. -/
def copyClass (f : Fmt) (v : State) : Nat := if (copyPeers f v).1 || (copyPeers f v).2 then 3 else 0

/-- The command of a `tcopy` with shape record `r`. -/
def copyKind (f : Fmt) (v : State) (r : List Byte) : CmdKind :=
  .copy r (spaceCode (f.x.qual.toNat / 4)) (v.readD f.a.toNat) (spaceCode f.x.qual.toNat) (v.readD f.d.toNat) (copyPeers f v).1 (copyPeers f v).2

theorem tcopyBody_eq (f : Fmt) (fl : Nat) (v s : State) :
    let r := v.block.shapes.get [] f.b.toNat
    tcopyBody f fl v s =
      if r.isEmpty then .raise (wholeFlt .PERM)
      else counted v s (copyClass f v) (.done (newCommand v s fl (copyClass f v) (copyKind f v r) (shapeTotal r)).2) := rfl

section
variable {f : Fmt} {s : State} (h : Acts (.tcopy f) f s)
include h

theorem tcopy_unshaped (hr : s.block.shapes.get [] f.b.toNat = []) : exec (.tcopy f) s = .next (s.takeFault (wholeFlt .PERM)) := by
  obtain ⟨-, -, -, -, hblock, -⟩ := (seen_files s (.tcopy f) f).block_reads
  exact straight_raise h .later _ (tcopyBody f) fun fl t => by rw [tcopyBody_eq, hblock, hr]; rfl

theorem tcopy_waits (hr : s.block.shapes.get [] f.b.toNat ≠ []) (hn : 63 ≤ s.counter s.owner.id (copyClass f (s.seen (.tcopy f) f))) :
    ∃ t, exec (.tcopy f) s = .next t ∧ ParkedAt .paused s t := by
  obtain ⟨-, -, -, -, hblock, -⟩ := (seen_files s (.tcopy f) f).block_reads
  have hempty : ¬ ((s.seen (.tcopy f) f).block.shapes.get [] f.b.toNat).isEmpty = true := by simpa [hblock] using hr
  exact straight_waits h (tcopyBody f) rfl (fun fl t => ⟨_, (tcopyBody_eq f fl _ t).trans (if_neg hempty)⟩) hn

theorem tcopy_queues (hr : s.block.shapes.get [] f.b.toNat ≠ []) (hn : s.counter s.owner.id (copyClass f (s.seen (.tcopy f) f)) < 63) :
    ∃ t c, exec (.tcopy f) s = .next t ∧ Queued f [] c s t ∧ c.cls = copyClass f (s.seen (.tcopy f) f) ∧
      c.kind = copyKind f (s.seen (.tcopy f) f) (s.block.shapes.get [] f.b.toNat) ∧ c.total = shapeTotal (s.block.shapes.get [] f.b.toNat) := by
  have hv := seen_files s (.tcopy f) f
  obtain ⟨-, -, -, -, hblock, -⟩ := hv.block_reads
  obtain ⟨hcount, hown, -⟩ := hv.counter_reads
  rw [← hcount, ← hown] at hn
  have hempty : ¬ (s.block.shapes.get [] f.b.toNat).isEmpty = true := by simpa using hr
  obtain ⟨t, c, -, he, hq, hwhat, -⟩ := straight_queues (prep := fun _ t => t) h (tcopyBody f) rfl
    (fun fl t => by rw [tcopyBody_eq, hblock, if_neg hempty, counted_room hn]) fun _ t => Touched.refl [] t
  exact ⟨t, c, he, hq, hwhat⟩

end

/-! ### `waitcnt` and `cntrd` (R238, R240, R319) -/

/-- A straight instruction whose body fails with an effect of its own takes its fault after that effect. -/
theorem straight_fails {i : Instr} {f : Fmt} {s : State} (h : Acts i f s) (lat : Lat) (g : State → State) (x : Flt)
    (body : Nat → State → State → Res) (he : exec i s = straight i f lat body s) (hb : ∀ fl t, body fl (s.seen i f) t = .failing g x) :
    exec i s = .next ((g s).takeFault x) :=
  he.trans ((issue_acts h lat false body).trans (by rw [hb]))

theorem waitcnt_law {f : Fmt} {s : State} (h : Acts (.waitcnt f) f s) :
    let k := f.a.toNat
    let n := f.b.toNat
    (n < s.counter s.team.id k → ∃ t, exec (.waitcnt f) s = .next t ∧ ParkedAt (.counter k n) s t) ∧
    (s.counter s.team.id k ≤ n → s.team.engst.getLsbD k = true → exec (.waitcnt f) s =
      .next ((s.modTeam fun t => { t with engst := t.engst &&& ~~~15 }).takeFault (wholeFlt .CENGINE s.team.engaddr))) ∧
    (∀ h, s.counter s.team.id k ≤ n → s.team.engst.getLsbD k = false → (s.team.watchHits.find? fun h => h.1 == k) = some h →
      exec (.waitcnt f) s =
        .next ((s.modTeam fun t => { t with watchHits := t.watchHits.erase h }).takeFault (wholeFlt .WATCHPT h.2))) ∧
    (s.counter s.team.id k ≤ n → s.team.engst.getLsbD k = false → (∀ h ∈ s.team.watchHits, h.1 ≠ k) →
      ∃ t, exec (.waitcnt f) s = .next t ∧ Stepped f [] s t) := by
  have hv := seen_files s (.waitcnt f) f
  obtain ⟨hid, -⟩ := hv.block_reads
  obtain ⟨hcount, -⟩ := hv.counter_reads
  obtain ⟨hst, haddr, hhits, -⟩ := hv.engine_reads
  refine ⟨fun hn => ?high, fun hn he => ?fault, fun x hn he hx => ?watch, fun hn he hx => ?low⟩
  case high =>
    obtain ⟨u, fl, he, hp⟩ := straight_stays h (.fixed 0) (fun _ v t => waitcntBody f v t) (p := .counter f.a.toNat f.b.toNat) rfl
      (fun fl t => by simp only [waitcntBody, hcount, hid, hn, if_true]; rfl) (modSplit_parked fun _ => rfl)
    exact ⟨_, he, hp⟩
  case fault =>
    exact straight_fails h (.fixed 0) (modTeam · fun t => { t with engst := t.engst &&& ~~~15 }) (wholeFlt .CENGINE s.team.engaddr)
      (fun _ v t => waitcntBody f v t) rfl fun fl t => by
        simp only [waitcntBody, hcount, hid, hst, haddr, he, Nat.not_lt.2 hn, if_true, if_false]
  case watch =>
    exact straight_fails h (.fixed 0) (modTeam · fun t => { t with watchHits := t.watchHits.erase x }) (wholeFlt .WATCHPT x.2)
      (fun _ v t => waitcntBody f v t) rfl fun fl t => by
        simp only [waitcntBody, hcount, hid, hst, hhits, he, hx, Nat.not_lt.2 hn, Bool.false_eq_true, if_false]
  case low =>
    have hnone : (s.team.watchHits.find? fun h => h.1 == f.a.toNat) = none := List.find?_eq_none.2 fun y hy => by simpa using hx y hy
    obtain ⟨u, n, hu, he⟩ := straight_performs (op := id) h (.fixed 0) (fun _ v t => waitcntBody f v t) rfl fun fl t => by
        simp only [waitcntBody, hcount, hid, hst, hhits, he, hnone, Nat.not_lt.2 hn, Bool.false_eq_true, if_false, id]
    exact ⟨_, he, hu.bump n⟩

theorem cntrd_law {f : Fmt} {s : State} (h : Acts (.cntrd f) f s) :
    let v := s.seen (.cntrd f) f
    let k := f.a.toNat
    (v.diverged = true → exec (.cntrd f) s = .next (s.takeFault (wholeFlt .UDIV))) ∧
    (v.diverged = false → ∃ t, exec (.cntrd f) s = .next t ∧ Awaits f [.word f.d.toNat
      (BitVec.ofNat 32 (s.counter s.team.id k + if s.team.engst.getLsbD k then 256 else 0))] s t) := by
  have hv := seen_files s (.cntrd f) f
  obtain ⟨hid, -⟩ := hv.block_reads
  obtain ⟨hcount, -⟩ := hv.counter_reads
  obtain ⟨hst, -⟩ := hv.engine_reads
  refine ⟨fun hd => straight_raise h .later _ (cntrdBody f) fun fl t => if_pos hd, fun hd => ?_⟩
  exact straight_awaits h (cntrdBody f) rfl fun fl t => by
    simp only [cntrdBody, hd, hcount, hid, hst, Bool.false_eq_true, if_false]

/-- Settles O50: each body past its checks; a command is queued by `newCommand` while its counter has room, and a record that nothing stops
passes its gate (`recordGate_ready`). -/
theorem engineInstructions : Obligations.EngineInstructions := by
  refine ⟨fun f s h => ⟨ldline_mistagged h, ldline_waits h, ldline_queues h⟩, fun f s ls h => ?_, fun f s h => ?_,
    fun f s h => waitcnt_law h, fun f s h => cntrd_law h⟩
  · obtain ⟨hpc, -⟩ := (seen_files s (.tshape f) f).fields
    obtain ⟨-, -, -, -, -, hpool, -⟩ := (seen_files s (.tshape f) f).engine_reads
    have hva : shapeAddr f (s.seen (.tshape f) f) =
        if f.len = .l128 then pcRel s.split.pc f.imm else baseAddr f (s.seen (.tshape f) f) := by rw [shapeAddr, hpc]
    dsimp only
    rw [← hva, ← hpool]
    exact ⟨tshape_diverged h, tshape_outside h, tshape_enters h⟩
  · obtain ⟨-, -, -, -, -, -, hap⟩ := (seen_files s (.tcopy f) f).engine_reads
    dsimp only
    rw [← hap, ← hap]
    exact ⟨tcopy_unshaped h, tcopy_waits h, tcopy_queues h⟩

end Sys2Proof.Machine
end

section
/-! A debugger's write into a stopped team (R316): the state that refutes O55. -/
namespace Sys2Proof.Machine

/-! ### A device on which a debugger's write of a wait does not last the write's own step

`RegisterHolds` has a stopped team hold, after a debugger's write, the field that was written into the team as it stood. A move of the
device ends with `State.unstall`, which runs after the write: what it finds waiting at an `hwait` without a group tries again at once. So a
written wait of kind 10 (R310), of a team that has recruited nobody, is gone when the write's step is over, and the split runs. -/
namespace StoppedTeam

/-- A team whose one split stands stopped for the debugger; it has no recruitment. -/
def team : Team := { id := 3, n := 4, live := 0xF, blocks := 1, splits := [{ id := 4, mask := 0xF, park := .stop }] }

/-- A ready device with that team; none executes. -/
def device : State := { phase := 5, nextId := 16, others := [team] }

/-- The debugger's write: split 4 waits at an `hwait`. -/
def waitWrite : TeamField := .wait 4 10 []

/-- How the splits of team 3 are parked, where an outcome is a next state. -/
def parks : Host.Outcome State Fault Refusal → Option (List Park)
  | .next t => (t.findTeam team.id).map fun u => u.every.map Split.park
  | _ => none

/-- Without the write the team stands stopped, as it stood. -/
theorem stays_stopped : device.unfocus.unstall.findTeam team.id = some team ∧ debugStopped team = true := by decide +kernel

/-- What the write puts into the team is a split that waits for helpers. -/
theorem parks_putField : (putField waitWrite team).every.map Split.park = [.helpers] := by decide +kernel

/-- The step of the write leaves the split in no park. -/
theorem write_unparks : parks (exec (.registerWrite .hypervisor (.teamState team.id waitWrite)) device) = some [.none] := by
  decide +kernel

end StoppedTeam

open StoppedTeam in
/-- Refutes O55: in `StoppedTeam.device` the hypervisor's write of a wait of kind 10 into the stopped team is undone within its own step,
while `RegisterHolds` has the team hold it. -/
theorem not_registerSpace : ¬ Obligations.RegisterSpace := by
  unfold Obligations.RegisterSpace
  rintro ⟨⟨-, -, hwrite, -⟩, -⟩
  obtain ⟨-, -, hallowed⟩ := hwrite .hypervisor (.teamState team.id waitWrite) device rfl
  obtain ⟨t, he, hholds, -⟩ := hallowed (fun _ => rfl) rfl
  obtain ⟨hfound, hstopped⟩ := stays_stopped
  have hteam : t.findTeam team.id = some (putField waitWrite team) := hholds team hfound hstopped
  have hparks := write_unparks
  rw [he, parks, hteam, Option.map_some, parks_putField] at hparks
  exact absurd hparks (by decide)

end Sys2Proof.Machine
end

section
/-! Posting work and passing data between teams: `card`, `spawn`, `eput`, `eget` and `qstat` (R249, R251 to R253). -/
namespace Sys2Proof.Machine
open State

/-! ### What an instruction sees of the queues -/

/-- What a view of the registers leaves of the state: its partition, its card and the edges of the contexts. -/
theorem FilesOnly.queue_reads {s v : State} (h : FilesOnly s v) :
    v.team.part = s.team.part ∧ (∀ p, v.part p = s.part p) ∧ v.card = s.card ∧ v.team.ctx = s.team.ctx ∧ (∀ cx e, v.edge cx e = s.edge cx e) ∧
    v.split.gated = s.split.gated := by
  unfold FilesOnly at h
  rw [h]
  exact ⟨rfl, fun _ => rfl, rfl, rfl, fun _ _ => rfl, rfl⟩

/-! ### Changes beside the entries that join the queues -/

/-- A change of cores, dies and contexts that each read themselves alone; entries that join the queues read and change none of these. -/
def Beside (op : State → State) : Prop :=
  ∃ (cores : SMap Core → SMap Core) (dies : SMap Die → SMap Die) (ctxs : SMap Ctx → SMap Ctx),
    ∀ s, op s = { s with cores := cores s.cores, dies := dies s.dies, ctxs := ctxs s.ctxs }

theorem id_beside : Beside id := ⟨id, id, id, fun _ => rfl⟩

theorem modEdge_beside (cx e : Nat) (g : Edge → Edge) : Beside (modEdge · cx e g) :=
  ⟨id, id, fun m => m.set {} cx { m.get {} cx with edges := (m.get {} cx).edges.set {} e (g ((m.get {} cx).edges.get {} e)) }, fun _ => rfl⟩

theorem modPosters_beside (target : Word) (die : Nat) (g : List Waiter → List Waiter) : Beside (modPosters · target die g) := by
  unfold modPosters
  split
  · exact ⟨id, fun m => m.set {} die { m.get {} die with posters := g (m.get {} die).posters }, id, fun _ => rfl⟩
  · exact ⟨fun m => m.set {} target.toNat { m.get {} target.toNat with posters := g (m.get {} target.toNat).posters }, id, id, fun _ => rfl⟩

/-- Registers await what the entries of the instruction bring, where it has such registers. -/
def awaiting (has : Bool) (fl : Nat) (rs : List Reg) (s : State) : State := if has then putUnknown fl rs s else s

theorem awaiting_eq (has : Bool) (fl : Nat) (rs : List Reg) (s : State) :
    ∃ n ps, awaiting has fl rs s = { s with nextId := n, team := { s.team with pending := ps } } := by
  unfold awaiting
  split
  · exact ⟨_, _, rfl⟩
  · exact ⟨_, _, rfl⟩

/-- Entries that have joined after a change beside them, and after registers have come to await them: they have joined before it too. -/
theorem Beside.joined {op : State → State} (h : Beside op) {has : Bool} {fl : Nat} {rs : List Reg} {w t : State}
    (hj : Joined (awaiting has fl rs (op w)) t) :
    ∃ u ps, Joined w u ∧ u.entries = t.entries ∧ ∀ n, { t with free := n } = op { u with team := { u.team with pending := ps }, free := n } := by
  obtain ⟨cores, dies, ctxs, hop⟩ := h
  obtain ⟨m, ps, ha⟩ := awaiting_eq has fl rs (op w)
  rw [ha, hop] at hj
  refine ⟨{ t with team := { t.team with pending := w.team.pending }, cores := w.cores, dies := w.dies, ctxs := w.ctxs }, t.team.pending, ?_, rfl,
    fun n => ?_⟩
  · unfold Joined at hj ⊢
    rw [hj]
  · unfold Joined at hj
    rw [hop, hj]

theorem Entered.pending {f : Fmt} {es : List Asks} {s t : State} (h : Entered f es s t) (ps : List Pending) (n : Nat) :
    Entered f es s { t with team := { t.team with pending := ps }, free := n } where
  rest := by rw [h.rest]
  bytes := h.bytes
  regs := h.regs.trans (ws' := []) (.of_eq _ ⟨rfl, rfl, rfl, rfl, rfl, rfl, rfl, rfl, rfl, rfl⟩)
  team := by rw [h.team]
  pc := h.pc
  count := h.count
  entries := h.entries

/-- A straight instruction whose body notes its access, makes a change beside the queues and enters the entries of its locations. -/
theorem straight_posts {i : Instr} {f : Fmt} {s : State} (h : Acts i f s) (body : Nat → State → State → Res) {has : Bool} {rs : List Reg}
    {g : Nat → Group} {ls : List Loc} {note op : State → State} (he : exec i s = straight i f .later body s)
    (hb : ∀ fl t, body fl (s.seen i f) t = .done (enterAll (g fl) ls (awaiting has fl rs (op (note t)))))
    (hnote : ∀ t, Gated t (note t)) (hop : Beside op) (hls : ∀ x ∈ ls, x.drop = none) :
    ∃ u, Entered f (ls.map ((g s.nextId).asks s.team.id)) s u ∧ exec i s = .next (op u) := by
  obtain ⟨n, hi⟩ := issue_done h .later false body _ hb
  rw [launch_later_flight] at hi
  have hu := launch_stepped f (usesOf i) .later s
  have ht := launch_team f (usesOf i) .later false s
  generalize (launch f (usesOf i) .later false s).2 = u at hi hu ht
  have hw := hnote u
  obtain ⟨m, qs, ha⟩ := awaiting_eq has s.nextId rs (op (note u))
  obtain ⟨cores, dies, ctxs, heq⟩ := id hop
  have hteam : (awaiting has s.nextId rs (op (note u))).team.id = s.team.id := by rw [ha, heq, hw.team, ht]
  have hentries : (awaiting has s.nextId rs (op (note u))).entries = (note u).entries := by rw [ha, heq]
  have hfiled := enterAll_filed (g := g s.nextId) (s := awaiting has s.nextId rs (op (note u))) hls
  have hes := hfiled.entries
  rw [hteam, hentries] at hes
  obtain ⟨t, ps, hj, hte, hfree⟩ := hop.joined (enterAll_joined hls _)
  rw [← hte] at hes
  obtain ⟨hent, -⟩ := hu.entered ht hw hj hes
  exact ⟨_, hent.pending ps n, he.trans (hi.trans (congrArg Host.Outcome.next (hfree n)))⟩

/-- A straight instruction is known by what its body answers to what its issue leaves. -/
theorem straight_congr {i : Instr} {f : Fmt} {s : State} (h : Acts i f s) {lat : Lat} {body body' : Nat → State → State → Res}
    (hb : ∀ fl t, Stepped f [] s t → body fl (s.seen i f) t = body' fl (s.seen i f) t) : straight i f lat body s = straight i f lat body' s := by
  unfold straight
  rw [issue_acts h, issue_acts h, hb _ _ (launch_stepped f (usesOf i) lat s)]

/-- A split that joins the waiters of a queue is parked there. -/
theorem Beside.parked {op : State → State} (hop : Beside op) {s t : State} (h : t.team = s.team) : Parked .queue s (waitInQueue (op t)) := by
  obtain ⟨cores, dies, ctxs, heq⟩ := hop
  have hteam : (waitInQueue (op t)).team = s.team := (congrArg State.team (heq t)).trans h
  exact ⟨rfl, hteam.trans (hteam ▸ rfl)⟩

/-! ### Accesses of records and slots (R161, R249, R251) -/

/-- A location that a check finds for an access whose error is never dropped is no dropped one and no word of another. -/
theorem checkLanes_loud {v : State} {spc : Space} {acc : Access} {n l : Nat} {aligned : Bool} {va : Addr} {ls : List Loc}
    (h : v.checkLanes spc acc n aligned false [(l, va)] = .ok ls) : ∀ x ∈ ls, x.drop = none ∧ x.word = none := by
  unfold checkLanes at h
  split at h
  · cases h
  · cases h
  · rename_i x hx
    cases h
    simpa using checkLane_whole hx

/-- What an access of a slot leaves once it has passed its gate. -/
def slotNoted (v : State) (ls : List Loc) (s : State) : State := (s.noteSpans v ls).noteVn (Space.g = .vn)

theorem slotNoted_gated (v : State) (ls : List Loc) (s : State) : Gated s (slotNoted v ls s) := (noteSpans_gated s v ls).trans (noteVn_gated _ _)

/-- A slot in device memory that meets no watchpoint passes its gate. -/
theorem slotGate_go {v : State} {acc : Access} {x : Edge} {i : Nat} {ls : List Loc} {watch : List Loc → Option Res} (hg : v.split.gated = none)
    (hc : v.checkLanes .g acc 16 false false [(0, slotAddr x i)] = .ok ls) (hfree : ∀ y ∈ ls, y.hosts = []) (hw : watch ls = none) (s : State) :
    slotGate v s acc x i watch = .go (slotNoted v ls s) ls := by
  have hhosts : (ls.find? fun x => !x.hosts.isEmpty) = none := List.find?_eq_none.2 fun y hy => by simp [hfree y hy]
  unfold slotGate gate
  simp only [hg, hc, hhosts, hw, Bool.and_false, Bool.false_eq_true, if_false]
  rfl

/-- Translations that an access has used, and nothing else. -/
def NotedTlb (s t : State) : Prop := t = { s with tlb := t.tlb }

theorem NotedTlb.trans {s t u : State} (h : NotedTlb s t) (h' : NotedTlb t u) : NotedTlb s u := by
  unfold NotedTlb at *
  rw [h] at h'
  exact h'

theorem keepEntry_notedTlb (s : State) (x : Cached) : NotedTlb s (s.keepEntry x) := by
  unfold keepEntry
  split <;> rfl

theorem noteSpans_notedTlb (s v : State) (ls : List Loc) : NotedTlb s (s.noteSpans v ls) := by
  refine List.foldlRecOn (motive := NotedTlb s) _ _ rfl fun t ht _ _ => ht.trans ?_
  unfold noteTlb
  refine List.foldlRecOn (motive := NotedTlb t) _ _ rfl fun u hu e _ => hu.trans ?_
  dsimp only
  split
  · exact (keepEntry_notedTlb u _).trans (keepEntry_notedTlb _ _)
  · exact keepEntry_notedTlb u _

/-- The parts of a record that nothing stops leave their translations. -/
theorem recordParts_notedTlb {v : State} (hg : v.split.gated = none) {l : List (Addr × Nat)} {i : Nat} {ls : List Loc} (h : PartsReady v i l ls)
    {s t : State} {ls' : List Loc} (hp : recordParts v i l s = .ok (t, ls')) : NotedTlb s t := by
  induction l generalizing i ls ls' s with
  | nil => cases hp; rfl
  | cons a r ih =>
    obtain ⟨xs, more, hc, hfree, hr, -⟩ := h
    unfold recordParts at hp
    rw [gate_plain hg hc hfree] at hp
    dsimp only at hp
    split at hp
    · rename_i u more' hu
      cases hp
      exact (noteSpans_notedTlb s v xs).trans (ih hr hu)
    · cases hp

/-- A record that nothing stops leaves its translations. -/
theorem recordGate_notedTlb {v : State} {va : Addr} {n : Nat} {ls ls' : List Loc} (h : RecordReady v va n ls) {s t : State}
    (hg : recordGate v s va n = .go t ls') : NotedTlb s t := by
  unfold recordGate at hg
  split at hg
  · cases hg
  split at hg
  · cases hg
  split at hg
  · cases hg
  · rename_i hp
    dsimp only at hg
    split at hg
    · cases hg
    · cases hg
      exact recordParts_notedTlb h.fresh h.parts hp

/-! ### `card` and `card.try` (R249) -/

/-- The queue that a `card` names. -/
def cardTarget (f : Fmt) (v : State) : Word := v.readS f.x.c.toNat

/-- Whether the partition has that queue. -/
def cardKnown (f : Fmt) (v : State) : Bool :=
  cardTarget f v == partitionTarget || (decide ((cardTarget f v).toNat < 256) && (v.part v.team.part).entry.cores.getLsbD (cardTarget f v).toNat)

/-- Whether the queue takes the card now. -/
def cardRoom (f : Fmt) (die : Nat) (v : State) : Bool :=
  v.queueRoom (cardTarget f v) die v.team.part && v.myTurn (v.postersOf (cardTarget f v) die v.team.part)

theorem cardKnown_iff (s : State) (i : Instr) (f : Fmt) : cardKnown f (s.seen i f) = true ↔
    (s.seen i f).readS f.x.c.toNat = partitionTarget ∨ (((s.seen i f).readS f.x.c.toNat).toNat < 256 ∧
      (s.part s.team.part).entry.cores.getLsbD ((s.seen i f).readS f.x.c.toNat).toNat = true) := by
  obtain ⟨hid, hpart, -⟩ := (seen_files s i f).queue_reads
  rw [cardKnown, cardTarget, hid, hpart, Bool.or_eq_true, beq_iff_eq, Bool.and_eq_true]
  exact or_congr Iff.rfl (and_congr decide_eq_true_iff Iff.rfl)

theorem cardRoom_iff (die : Nat) (s : State) (i : Instr) (f : Fmt) : cardRoom f die (s.seen i f) = true ↔
    (s.seen i f).queueRoom ((s.seen i f).readS f.x.c.toNat) die s.team.part = true ∧
      (s.seen i f).myTurn ((s.seen i f).postersOf ((s.seen i f).readS f.x.c.toNat) die s.team.part) = true := by
  obtain ⟨hid, -⟩ := (seen_files s i f).queue_reads
  simp [cardRoom, cardTarget, hid]

/-- The entries of a card, which answer in predicate d where the instruction has one. -/
def cardGroup (answers : Bool) (f : Fmt) (v : State) (fl : Nat) : Group :=
  { kind := fun _ => .card (cardTarget f v) (if answers then some f.d.toNat else none), rel := true, flight := fl }

theorem cardGroup_asks (answers : Bool) (f : Fmt) (v : State) (fl tid : Nat) {y : Loc} (hy : y.word = none) : (cardGroup answers f v fl).asks tid y =
    { team := tid, kind := .card (cardTarget f v) (if answers then some f.d.toNat else none), locs := y.keys, va := y.va, lane := y.lane,
      rel := true } := by
  simp [Group.asks, cardGroup, Loc.bytesOf, hy]

/-- What they do once the record has passed its gate, with the partition queue of a die. -/
def cardPast (die : Nat) (answers : Bool) (f : Fmt) (fl : Nat) (v : State) (ls : List Loc) (s : State) : Res :=
  if !cardKnown f v then .raise (laneFlt .PERM ((cardTarget f v).zeroExtend 64) 0)
  else if cardRoom f die v then
    .done (enterAll (cardGroup answers f v fl) ls
      (awaiting answers fl (Fmt.qReg f.d.toNat) (s.modPosters (cardTarget f v) die fun ws => dropWaiter ws v.team.id v.split.id)))
  else if answers then .done (putLater fl [.bit f.d.toNat false] s)
  else .stay (waitInQueue (s.modPosters (cardTarget f v) die fun ws => addWaiter ws { team := v.team.id, split := v.split.id }))

/-- What they do with the partition queue of a die. -/
def cardOn (die : Nat) (answers : Bool) (f : Fmt) (fl : Nat) (v s : State) : Res :=
  if answers && v.diverged then .raise (wholeFlt .UDIV)
  else match recordGate v s (baseAddr f v) 128 with
    | .res r => r
    | .go s ls => cardPast die answers f fl v ls s

theorem cardBody_eq (answers : Bool) (f : Fmt) (fl : Nat) (v s : State) :
    cardBody answers f fl v s = cardOn (s.dieOf v.team.core) answers f fl v s := rfl

/-- A record that nothing stops passes its gate, and leaves its translations alone. -/
theorem recordGate_translates {v : State} {va : Addr} {n : Nat} {ls : List Loc} (h : RecordReady v va n ls) :
    ∃ note : State → State, (∀ t, Gated t (note t)) ∧ (∀ t, NotedTlb t (note t)) ∧ ∀ s, recordGate v s va n = .go (note s) ls := by
  obtain ⟨note, hnote, hgo⟩ := recordGate_ready h
  exact ⟨note, hnote, fun t => recordGate_notedTlb h (hgo t), hgo⟩

/-- What the body of a card comes to past its checks. -/
theorem cardOn_ready {answers : Bool} {f : Fmt} {v : State} {ls : List Loc} (hd : answers = true → v.diverged = false)
    (hr : RecordReady v (baseAddr f v) 128 ls) : ∃ note : State → State, (∀ t, Gated t (note t)) ∧ (∀ t, NotedTlb t (note t)) ∧
      ∀ die fl t, cardOn die answers f fl v t = cardPast die answers f fl v ls (note t) := by
  obtain ⟨note, hnote, htlb, hgo⟩ := recordGate_translates hr
  refine ⟨note, hnote, htlb, fun die fl t => ?_⟩
  have hdiv : ¬ (answers && v.diverged) = true := by simpa using hd
  rw [cardOn, if_neg hdiv, hgo]

section
variable {i : Instr} {f : Fmt} {s : State} {answers : Bool} {ls : List Loc} (h : Acts i f s)
  (he : exec i s = straight i f .later (cardBody answers f) s)
include h he

/-- The die of a card's partition queue is its team's. -/
theorem card_on : exec i s = straight i f .later (cardOn (s.dieOf s.team.core) answers f) s := by
  obtain ⟨-, -, -, hcore, -⟩ := (seen_files s i f).engine_reads
  refine he.trans (straight_congr h fun fl t ht => ?_)
  have hdie : t.dieOf s.team.core = s.dieOf s.team.core := by rw [ht.rest]; rfl
  rw [cardBody_eq, hcore, hdie]

theorem card_diverged (ht : answers = true) (hd : (s.seen i f).diverged = true) : exec i s = .next (s.takeFault (wholeFlt .UDIV)) :=
  he.trans (straight_raise h .later _ _ fun fl t => by rw [cardBody_eq, cardOn, ht, hd]; rfl)

variable (hd : answers = true → (s.seen i f).diverged = false) (hr : RecordReady (s.seen i f) (baseAddr f (s.seen i f)) 128 ls)
include hd hr

theorem card_unknown (hk : cardKnown f (s.seen i f) = false) :
    exec i s = .next (s.takeFault (laneFlt .PERM ((cardTarget f (s.seen i f)).zeroExtend 64) 0)) := by
  obtain ⟨note, -, -, hbody⟩ := cardOn_ready hd hr
  exact (card_on h he).trans (straight_raise h .later _ _ fun fl t => by rw [hbody, cardPast, hk]; rfl)

variable (hk : cardKnown f (s.seen i f) = true)
include hk

theorem card_posts (hroom : cardRoom f (s.dieOf s.team.core) (s.seen i f) = true) :
    ∃ u, Entered f (ls.map fun y => { team := s.team.id, kind := .card (cardTarget f (s.seen i f)) (if answers then some f.d.toNat else none),
                                      locs := y.keys, va := y.va, lane := y.lane, rel := true }) s u ∧
      exec i s = .next (u.modPosters (cardTarget f (s.seen i f)) (s.dieOf s.team.core) fun ws => dropWaiter ws s.team.id s.split.id) := by
  obtain ⟨hid, -, hsid, -⟩ := (seen_files s i f).block_reads
  obtain ⟨note, hnote, -, hbody⟩ := cardOn_ready hd hr
  have hls := partsReady_whole hr.parts
  obtain ⟨u, hu, hx⟩ := straight_posts h _ (card_on h he)
    (fun fl t => by rw [hbody, cardPast, hk, hroom]; rfl) hnote (modPosters_beside _ _ _) fun x hx => (hls x hx).1
  rw [List.map_congr_left fun y hy => cardGroup_asks answers f _ s.nextId s.team.id (hls y hy).2] at hu
  rw [hid, hsid] at hx
  exact ⟨u, hu, hx⟩

variable (hroom : cardRoom f (s.dieOf s.team.core) (s.seen i f) = false)
include hroom

theorem card_answers (ht : answers = true) : ∃ u tlb, Awaits f [.bit f.d.toNat false] s u ∧ exec i s = .next { u with tlb := tlb } := by
  obtain ⟨note, -, htlb, hbody⟩ := cardOn_ready hd hr
  obtain ⟨u, n, hu, hx⟩ := straight_performsAwaiting (xs := [.bit f.d.toNat false]) h _
    (op := fun u => { u with tlb := (note (launch f (usesOf i) .later false s).2).tlb }) (card_on h he) (by
      rw [hbody, cardPast, hk, hroom, ht, htlb]
      rfl)
  exact ⟨_, _, hu.bump n, hx⟩

theorem card_waits (ht : answers = false) : ∃ t, exec i s = .next t ∧ ParkedAt .queue s t := by
  obtain ⟨note, hnote, -, hbody⟩ := cardOn_ready hd hr
  obtain ⟨u, fl, hx, hp⟩ := straight_stays (p := .queue) h .later _ (card_on h he)
    (fun fl t => by rw [hbody, cardPast, hk, hroom, ht]; rfl) fun t => (modPosters_beside _ _ _).parked (hnote t).team
  exact ⟨_, hx, hp⟩

end

/-! ### `spawn` (R253) -/

/-- The items that lanes spawn of a child: each carries the lane's bytes. -/
def spawnGroup (f : Fmt) (v : State) (fl : Nat) : Group :=
  { kind := fun _ => .item (pcRel v.split.pc f.imm), rel := true, flight := fl, data := fun l => quadBytes v f.a.toNat l }

/-- The location of an item: of the lane, with no byte of memory. -/
def itemLoc (l : Nat) : Loc := { lane := l, va := 0, keys := [] }

theorem spawnBody_eq (f : Fmt) (fl : Nat) (v s : State) : spawnBody f fl v s =
    if v.card.csize = 0 || !canonical (pcRel v.split.pc f.imm) then .raise (wholeFlt .PERM)
    else .done (enterAll (spawnGroup f v fl) ((activeLanes f v).map itemLoc) s) := rfl

theorem spawn_law {f : Fmt} {s : State} (h : Acts (.spawn f) f s) :
    let v := s.seen (.spawn f) f
    let child := pcRel s.split.pc f.imm
    ((s.card.csize = 0 ∨ canonical child = false) → exec (.spawn f) s = .next (s.takeFault (wholeFlt .PERM))) ∧
    (s.card.csize ≠ 0 → canonical child = true → ∃ t, exec (.spawn f) s = .next t ∧ Entered f ((activeLanes f v).map fun l =>
      { team := s.team.id, kind := .item child, locs := [], va := 0, lane := l, rel := true, data := quadBytes v f.a.toNat l }) s t) := by
  have hv := seen_files s (.spawn f) f
  obtain ⟨hpc, -⟩ := hv.fields
  obtain ⟨-, -, hcard, -⟩ := hv.queue_reads
  refine ⟨fun hbad => ?fault, fun hc hcan => ?enters⟩
  case fault =>
    exact straight_raise h .later _ (spawnBody f) fun fl t => by rw [spawnBody_eq, hpc, hcard, if_pos (by simpa using hbad)]
  case enters =>
    obtain ⟨u, hu, hx⟩ := straight_posts (has := false) (rs := []) (note := id) h (spawnBody f) rfl
      (fun fl t => by rw [spawnBody_eq, hpc, hcard, if_neg (by simp [hc, hcan])]; rfl) (fun _ => rfl) id_beside fun x hx => by
        obtain ⟨l, -, rfl⟩ := List.mem_map.1 hx
        rfl
    have hasks : (spawnGroup f (s.seen (.spawn f) f) s.nextId).asks s.team.id ∘ itemLoc = fun l =>
        { team := s.team.id, kind := .item (pcRel s.split.pc f.imm), locs := [], va := 0, lane := l, rel := true,
          data := quadBytes (s.seen (.spawn f) f) f.a.toNat l } := by rw [← hpc]; rfl
    rw [List.map_map, hasks] at hu
    exact ⟨u, hx, hu⟩

/-! ### `eput` and `eput.try` (R251, R252) -/

/-- The edge that an instruction names in register field B. -/
def edgeB (f : Fmt) (v : State) : Edge := v.edge v.team.ctx f.b.toNat

/-- Whether the edge takes an element now. -/
def putRoom (f : Fmt) (v : State) : Bool := edgeRoom (edgeB f v) && v.myTurn (edgeB f v).producers

/-- The entry of an element for the next free slot, which answers in predicate d where the instruction has one. -/
def putGroup (answers : Bool) (f : Fmt) (v : State) (fl : Nat) : Group :=
  { kind := fun _ => .put f.b.toNat (edgeB f v).tail (if answers then some f.d.toNat else none), rel := true, flight := fl,
    data := fun _ => uniBytes v f.a.toNat }

theorem putGroup_asks (answers : Bool) (f : Fmt) (v : State) (fl tid : Nat) {y : Loc} (hy : y.word = none) : (putGroup answers f v fl).asks tid y =
    { team := tid, kind := .put f.b.toNat (edgeB f v).tail (if answers then some f.d.toNat else none), locs := y.keys, va := y.va, lane := y.lane,
      rel := true, data := uniBytes v f.a.toNat } := by
  simp [Group.asks, putGroup, Loc.bytesOf, hy]

/-- The next free slot is granted to a split, which waits no longer. -/
def grantTail (tid sid : Nat) (x : Edge) : Edge := { x with tail := x.tail + 1, producers := dropWaiter x.producers tid sid }

theorem eputBody_eq (answers : Bool) (f : Fmt) (fl : Nat) (v s : State) : eputBody answers f fl v s =
    if answers && v.diverged then .raise (wholeFlt .UDIV)
    else if !(edgeB f v).entry.valid then .raise (wholeFlt .PERM)
    else if putRoom f v then
      match slotGate v s .store (edgeB f v) (edgeB f v).tail (watchStore v .g 16) with
      | .res r => r
      | .go s ls => .done (enterAll (putGroup answers f v fl) ls
          (awaiting answers fl (Fmt.qReg f.d.toNat) (s.modEdge v.team.ctx f.b.toNat (grantTail v.team.id v.split.id))))
    else if answers then .done (putLater fl [.bit f.d.toNat false] s)
    else .stay (waitInQueue (s.modEdge v.team.ctx f.b.toNat fun y =>
      { y with producers := addWaiter y.producers { team := v.team.id, split := v.split.id } })) := rfl

/-- The edge that an instruction sees is the machine's. -/
theorem edgeB_seen (s : State) (i : Instr) (f : Fmt) : edgeB f (s.seen i f) = s.edge s.team.ctx f.b.toNat := by
  obtain ⟨-, -, -, hctx, hedge, -⟩ := (seen_files s i f).queue_reads
  rw [edgeB, hctx, hedge]

section
variable {i : Instr} {f : Fmt} {s : State} {answers : Bool} (h : Acts i f s) (he : exec i s = straight i f .later (eputBody answers f) s)
include h he

theorem eput_diverged (ht : answers = true) (hd : (s.seen i f).diverged = true) : exec i s = .next (s.takeFault (wholeFlt .UDIV)) :=
  he.trans (straight_raise h .later _ _ fun fl t => by rw [eputBody_eq, ht, hd]; rfl)

variable (hd : ¬ (answers && (s.seen i f).diverged) = true)
include hd

theorem eput_invalid (hx : (edgeB f (s.seen i f)).entry.valid = false) : exec i s = .next (s.takeFault (wholeFlt .PERM)) :=
  he.trans (straight_raise h .later _ _ fun fl t => by rw [eputBody_eq, if_neg hd, hx]; rfl)

variable (hx : (edgeB f (s.seen i f)).entry.valid = true)
include hx

theorem eput_puts {ls : List Loc} (hroom : putRoom f (s.seen i f) = true) (hg : s.split.gated = none)
    (hc : (s.seen i f).checkLanes .g .store 16 false false [(0, slotAddr (edgeB f (s.seen i f)) (edgeB f (s.seen i f)).tail)] = .ok ls)
    (hfree : ∀ y ∈ ls, y.hosts = []) (hw : watchStore (s.seen i f) .g 16 ls = none) :
    ∃ u, Entered f (ls.map fun y => { team := s.team.id,
                                      kind := .put f.b.toNat (edgeB f (s.seen i f)).tail (if answers then some f.d.toNat else none), locs := y.keys,
                                      va := y.va, lane := y.lane, rel := true, data := uniBytes (s.seen i f) f.a.toNat }) s u ∧
      exec i s = .next (u.modEdge s.team.ctx f.b.toNat (grantTail s.team.id s.split.id)) := by
  have hv := seen_files s i f
  obtain ⟨hid, -, hsid, -⟩ := hv.block_reads
  obtain ⟨-, -, -, hctx, -, hgated⟩ := hv.queue_reads
  have hls := checkLanes_loud hc
  obtain ⟨u, hu, hx⟩ := straight_posts h _ he
    (fun fl t => by rw [eputBody_eq, if_neg hd, hx, hroom, slotGate_go (hgated.trans hg) hc hfree hw]; rfl)
    (slotNoted_gated _ ls) (modEdge_beside _ _ _) fun x hx => (hls x hx).1
  rw [List.map_congr_left fun y hy => putGroup_asks answers f _ s.nextId s.team.id (hls y hy).2] at hu
  rw [hid, hsid, hctx] at hx
  exact ⟨u, hu, hx⟩

variable (hroom : putRoom f (s.seen i f) = false)
include hroom

theorem eput_answers (ht : answers = true) : ∃ t, exec i s = .next t ∧ Awaits f [.bit f.d.toNat false] s t :=
  straight_awaits h _ he fun fl t => by rw [eputBody_eq, if_neg hd, hx, hroom, ht]; rfl

theorem eput_waits (ht : answers = false) : ∃ t, exec i s = .next t ∧ ParkedAt .queue s t := by
  obtain ⟨u, fl, hx, hp⟩ := straight_stays (p := .queue) h .later _ he
    (fun fl t => by rw [eputBody_eq, if_neg hd, hx, hroom, ht]; rfl) fun t => (modEdge_beside _ _ _).parked rfl
  exact ⟨_, hx, hp⟩

end

/-! ### `eget` (R251, R252) -/

/-- Whether the edge gives an element now. -/
def takeReady (f : Fmt) (v : State) : Bool := edgeReady (edgeB f v) && v.myTurn (edgeB f v).consumers

/-- The entry that takes the element of the next filled slot. -/
def takeGroup (f : Fmt) (v : State) (fl : Nat) : Group :=
  { kind := fun _ => .take f.b.toNat (edgeB f v).head, acq := true, flight := fl, dest := fun _ => some { reg := f.d.toNat } }

theorem takeGroup_asks (f : Fmt) (v : State) (fl tid : Nat) {y : Loc} (hy : y.word = none) : (takeGroup f v fl).asks tid y =
    { team := tid, kind := .take f.b.toNat (edgeB f v).head, locs := y.keys, va := y.va, lane := y.lane, acq := true,
      dest := some { reg := f.d.toNat } } := by
  simp [Group.asks, takeGroup, Loc.bytesOf, Loc.destOf, hy]

/-- The next filled slot is granted to a split, which waits no longer. -/
def grantHead (tid sid : Nat) (x : Edge) : Edge :=
  { x with head := x.head + 1, filled := x.filled.filter (· != x.head), consumers := dropWaiter x.consumers tid sid }

theorem egetBody_eq (f : Fmt) (fl : Nat) (v s : State) : egetBody f fl v s =
    if v.diverged then .raise (wholeFlt .UDIV)
    else if !(edgeB f v).entry.valid then .raise (wholeFlt .PERM)
    else if takeReady f v then
      match slotGate v s .load (edgeB f v) (edgeB f v).head with
      | .res r => r
      | .go s ls => .done (enterAll (takeGroup f v fl) ls
          (awaiting true fl (Fmt.uniQuad f.d.toNat) (s.modEdge v.team.ctx f.b.toNat (grantHead v.team.id v.split.id))))
    else .stay (waitInQueue (s.modEdge v.team.ctx f.b.toNat fun y =>
      { y with consumers := addWaiter y.consumers { team := v.team.id, split := v.split.id } })) := rfl

section
variable {f : Fmt} {s : State} (h : Acts (.eget f) f s)
include h

theorem eget_diverged (hd : (s.seen (.eget f) f).diverged = true) : exec (.eget f) s = .next (s.takeFault (wholeFlt .UDIV)) :=
  straight_raise h .later _ (egetBody f) fun fl t => by rw [egetBody_eq, hd]; rfl

variable (hd : (s.seen (.eget f) f).diverged = false)
include hd

theorem eget_invalid (hx : (edgeB f (s.seen (.eget f) f)).entry.valid = false) : exec (.eget f) s = .next (s.takeFault (wholeFlt .PERM)) :=
  straight_raise h .later _ (egetBody f) fun fl t => by rw [egetBody_eq, hd, hx]; rfl

variable (hx : (edgeB f (s.seen (.eget f) f)).entry.valid = true)
include hx

theorem eget_takes {ls : List Loc} (hready : takeReady f (s.seen (.eget f) f) = true) (hg : s.split.gated = none)
    (hc : (s.seen (.eget f) f).checkLanes .g .load 16 false false
      [(0, slotAddr (edgeB f (s.seen (.eget f) f)) (edgeB f (s.seen (.eget f) f)).head)] = .ok ls)
    (hfree : ∀ y ∈ ls, y.hosts = []) :
    ∃ u, Entered f (ls.map fun y => { team := s.team.id, kind := .take f.b.toNat (edgeB f (s.seen (.eget f) f)).head, locs := y.keys, va := y.va,
                                      lane := y.lane, acq := true, dest := some { reg := f.d.toNat } }) s u ∧
      exec (.eget f) s = .next (u.modEdge s.team.ctx f.b.toNat (grantHead s.team.id s.split.id)) := by
  have hv := seen_files s (.eget f) f
  obtain ⟨hid, -, hsid, -⟩ := hv.block_reads
  obtain ⟨-, -, -, hctx, -, hgated⟩ := hv.queue_reads
  have hls := checkLanes_loud hc
  obtain ⟨u, hu, hx⟩ := straight_posts h (egetBody f) rfl
    (fun fl t => by rw [egetBody_eq, hd, hx, hready, slotGate_go (hgated.trans hg) hc hfree rfl]; rfl)
    (slotNoted_gated _ ls) (modEdge_beside _ _ _) fun x hx => (hls x hx).1
  rw [List.map_congr_left fun y hy => takeGroup_asks f _ s.nextId s.team.id (hls y hy).2] at hu
  rw [hid, hsid, hctx] at hx
  exact ⟨u, hu, hx⟩

theorem eget_waits (hready : takeReady f (s.seen (.eget f) f) = false) : ∃ t, exec (.eget f) s = .next t ∧ ParkedAt .queue s t := by
  obtain ⟨u, fl, hx, hp⟩ := straight_stays (p := .queue) h .later (egetBody f) rfl
    (fun fl t => by rw [egetBody_eq, hd, hx, hready]; rfl) fun t => (modEdge_beside _ _ _).parked rfl
  exact ⟨_, hx, hp⟩

end

/-! ### `qstat` (R252) -/

theorem qstatBody_eq (f : Fmt) (fl : Nat) (v s : State) : qstatBody f fl v s =
    if v.diverged then .raise (wholeFlt .UDIV)
    else if !(edgeB f v).entry.valid then .raise (wholeFlt .PERM)
    else .done (putLater fl [.word f.d.toNat (edgeCounts (edgeB f v))] s) := rfl

theorem qstat_law {f : Fmt} {s : State} (h : Acts (.qstat f) f s) :
    let v := s.seen (.qstat f) f
    let x := s.edge s.team.ctx f.b.toNat
    (v.diverged = true → exec (.qstat f) s = .next (s.takeFault (wholeFlt .UDIV))) ∧
    (v.diverged = false → x.entry.valid = false → exec (.qstat f) s = .next (s.takeFault (wholeFlt .PERM))) ∧
    (v.diverged = false → x.entry.valid = true → ∃ t, exec (.qstat f) s = .next t ∧ Awaits f [.word f.d.toNat (edgeCounts x)] s t) := by
  have hedge := edgeB_seen s (.qstat f) f
  refine ⟨fun hd => ?udiv, fun hd hx => ?perm, fun hd hx => ?counts⟩
  case udiv => exact straight_raise h .later _ (qstatBody f) fun fl t => by rw [qstatBody_eq, hd]; rfl
  case perm => exact straight_raise h .later _ (qstatBody f) fun fl t => by rw [qstatBody_eq, hedge, hd, hx]; rfl
  case counts => exact straight_awaits h (qstatBody f) rfl fun fl t => by rw [qstatBody_eq, hedge, hd, hx]; rfl

/-! ### The five instructions -/

/-- `card.try` is the card that answers in a predicate. -/
theorem exec_card {i : Instr} {f : Fmt} (s : State) (hi : i = .card f ∨ i = .cardTry f) :
    ∃ answers, exec i s = straight i f .later (cardBody answers f) s ∧ (i = .cardTry f ↔ answers = true) ∧ (i = .card f ↔ answers = false) := by
  rcases hi with rfl | rfl
  · exact ⟨false, rfl, by simp, by simp⟩
  · exact ⟨true, rfl, by simp, by simp⟩

/-- `eput.try` is the `eput` that answers in a predicate. -/
theorem exec_eput {i : Instr} {f : Fmt} (s : State) (hi : i = .eput f ∨ i = .eputTry f) :
    ∃ answers, exec i s = straight i f .later (eputBody answers f) s ∧ (i = .eputTry f ↔ answers = true) ∧ (i = .eput f ↔ answers = false) := by
  rcases hi with rfl | rfl
  · exact ⟨false, rfl, by simp, by simp⟩
  · exact ⟨true, rfl, by simp, by simp⟩

/-- Settles O51: each body past its checks; a posting's entries join behind a change of its queue's waiters or its edge, which they do not
meet (`Beside`), and a split that finds no room joins the waiters. -/
theorem posting : Obligations.Posting := by
  refine ⟨fun i f s ls h hi => ?card, fun f s h => spawn_law h, fun i f s h hi => ?eput, fun f s h => ?eget, fun f s h => qstat_law h⟩
  case card =>
    obtain ⟨answers, he, htry, hplain⟩ := exec_card s hi
    have hq : (if i = .cardTry f then some f.d.toNat else none) = if answers then some f.d.toNat else none :=
      ite_congr (propext htry) (fun _ => rfl) fun _ => rfl
    dsimp only
    rw [hq, ← cardKnown_iff, ← cardRoom_iff]
    simp only [htry, hplain, Bool.not_eq_true]
    exact ⟨card_diverged h he, fun hd hr => ⟨card_unknown h he hd hr, card_posts h he hd hr, card_answers h he hd hr, card_waits h he hd hr⟩⟩
  case eput =>
    obtain ⟨answers, he, htry, hplain⟩ := exec_eput s hi
    have hq : (if i = .eputTry f then some f.d.toNat else none) = if answers then some f.d.toNat else none :=
      ite_congr (propext htry) (fun _ => rfl) fun _ => rfl
    have hroom : putRoom f (s.seen i f) = true ↔
        edgeRoom (edgeB f (s.seen i f)) = true ∧ (s.seen i f).myTurn (edgeB f (s.seen i f)).producers = true :=
      Bool.and_eq_true_iff
    dsimp only
    rw [hq, ← edgeB_seen s i f, ← hroom]
    simp only [htry, hplain, Bool.not_eq_true]
    refine ⟨eput_diverged h he, fun hd => ?_⟩
    have hdiv : ¬ (answers && (s.seen i f).diverged) = true := by simpa using hd
    exact ⟨eput_invalid h he hdiv, fun ls hx => eput_puts h he hdiv hx, eput_answers h he hdiv, eput_waits h he hdiv⟩
  case eget =>
    have hready : takeReady f (s.seen (.eget f) f) = true ↔
        edgeReady (edgeB f (s.seen (.eget f) f)) = true ∧ (s.seen (.eget f) f).myTurn (edgeB f (s.seen (.eget f) f)).consumers = true :=
      Bool.and_eq_true_iff
    dsimp only
    rw [← edgeB_seen s (.eget f) f, ← hready]
    simp only [Bool.not_eq_true]
    exact ⟨eget_diverged h, eget_invalid h, fun ls hd hx => eget_takes h hd hx, eget_waits h⟩

end Sys2Proof.Machine
end
